-- ==== Sys2Proof/Word.lean ====
section
/-! DEFINITION. The word types of the ND864 and sequence arithmetic (00_scope.md 0.7). -/

namespace Sys2Proof

/-- One byte of DRAM or of a record. -/
abbrev Byte := BitVec 8

/-- A 16-bit word of a record check, and the 16-bit running numbers. -/
abbrev Half := BitVec 16

/-- A sequence number, serve number, on-air number or tick difference: 32 bits that wrap (0.7.3). -/
abbrev Seq := BitVec 32

/-- A host address as carried on the link: 40 bits (0.7.1). -/
abbrev Addr := BitVec 40

/-- A line: 64 bytes, byte 0 in the lowest eight bits (0.7.2, 09 section 9.9: little-endian). -/
abbrev Line := BitVec 512

/-- Sequence arithmetic (0.7.3): `a` is after `b` when their difference lies in 1 to 2^31 - 1. -/
def Seq.after (a b : Seq) : Bool :=
  decide (1 ≤ (a - b).toNat) && decide ((a - b).toNat < 2147483648)

end Sys2Proof
end

