-- ==== Sys2Proof/Syntax.lean ====
section
/-! DEFINITION. The commands of the ND864: one constructor per row of spec/opcode_table.json. -/

namespace Sys2Proof

/-- The levels of the five strap pins (R159), as the level numbers of 10 section 10.1. -/
structure Straps where
  /-- CFG_RATE -/
  rate : Fin 4
  /-- CFG_MEM -/
  mem : Fin 4
  /-- CFG_DELAY -/
  delay : Fin 4
  /-- CFG_POL: 0 active low, 1 active high -/
  pol : Fin 2
  /-- CFG_CHECK: 0 OFF, 1 ON -/
  check : Fin 2
  deriving DecidableEq, Repr

/-- The argument fields of CONFIGURE as carried (R157). -/
structure ConfigureArgs where
  ingest : Addr
  egress : Addr
  control : Addr
  readout : Addr
  /-- block size in tiles -/
  tiles : Byte
  /-- `pool_blocks` -/
  blocks : Half
  rateCode : Byte
  linkCheck : Byte
  deriving DecidableEq, Repr

/-- The argument fields of SET_CONTROL as carried (R157); `change` is the change set. -/
structure ControlArgs where
  change : Half
  band : Byte
  eligibility : Byte
  buildRate : Half
  catchRate : Half
  silence : Byte
  dumpMode : Byte
  dumpLength : Half
  dumpFloor : Byte
  dumpInflight : Byte
  stallLimit : Half
  stallPolicy : Byte
  freezeLimit : Half
  deriving DecidableEq, Repr

/-- The two edges of the RESET pin (R159, R163): the straps are sampled at its release. -/
inductive PinEdge where
  | asserted
  | released (pins : Straps)
  deriving DecidableEq, Repr

/-- The three operator console input lines (R130). -/
inductive ConsoleLine where
  | dump
  | hold
  | release
  deriving DecidableEq, Repr

/-- The moment of a row that may make a tick: its oscillator count (R74), and how many commits fell in that very
instant and were taken before the row (R93; log 30). -/
structure Moment where
  count : Nat
  joined : Nat
  deriving DecidableEq, Repr

/-- The commands. The rows CONFIGURE to RESET_PART carry the command number and the argument fields of
the record as the control monitor reads it (R140, R157); CALIBRATION_ATTEMPT carries the oscillator count, and
the rows that may make a tick carry their moment. -/
inductive Instr where
  | read (addr : Addr) (lines : Nat) (tag : BitVec 6)
  | write (addr : Addr) (data : List Line) (check : Option Half)
  | readCompletion
  | configure (num : Byte) (args : ConfigureArgs)
  | start (num : Byte) (target : Half) (mode : Byte)
  | stop (num : Byte)
  | setTarget (num : Byte) (target : Half)
  | setControl (num : Byte) (args : ControlArgs)
  | dump (num : Byte)
  | holdOpen (num : Byte)
  | holdClose (num : Byte)
  | release (num : Byte) (hold : Byte)
  | dumpHold (num : Byte) (hold : Byte)
  | clearFaults (num : Byte) (kinds : Half)
  | resetEngine (num : Byte)
  | resetPart (num : Byte) (resample : Byte)
  | resetProper (pins : Straps)
  | powerOn (pins : Straps)
  | resetPin (edge : PinEdge)
  | calibrationAttempt (passed : Bool) (count : Nat)
  | refEdge (moment : Moment)
  | refLost (moment : Moment)
  | generatedTick (moment : Moment)
  | slotTimeout
  | stallExpired
  | freezeLimit
  | blinkPhase
  | dumpPress
  | holdPress
  | releasePress
  | consoleSample (line : ConsoleLine) (high : Bool)
  deriving DecidableEq, Repr

end Sys2Proof
end

