-- ==== Sys2Proof/Config.lean ====
section
/-! DEFINITION. Sizes fixed by the spec's text, and the two values the spec leaves open that the model
names: what a never-written DRAM byte reads as, and the strap levels of the machine `State.reset`. -/

namespace Sys2Proof.Config

/-- A line is 64 bytes (0.7.2). -/
def lineBytes : Nat := 64

/-- A tile is 1,024 lines (0.7.2). -/
def tileLines : Nat := 1024

/-- A tile is 64 KiB (0.7.2). -/
def tileBytes : Nat := 65536

/-- 1 MiB. -/
def mib : Nat := 1048576

/-- 1 GiB. -/
def gib : Nat := 1073741824

/-- The largest value of a saturating 32-bit count. -/
def max32 : Nat := 4294967295

/-- DESIGN CHOICE (log 2): the spec gives no DRAM content before the first write. -/
def unwritten : Byte := 0

/-- DESIGN CHOICE (log 1): the spec gives no strap levels for a part outside a board. -/
def resetStraps : Straps := { rate := 0, mem := 0, delay := 0, pol := 0, check := 0 }

end Sys2Proof.Config
end

