-- ==== Sys2Proof/Machine/Types.lean ====
section
/-! DEFINITION. The state of each block of the ND864 as plain data, block by block (00_scope.md 0.3). -/

namespace Sys2Proof.Machine

/-! ### Rates, store and pool -/

/-- The rate codes (0.7.4). -/
inductive RateCode where
  | rate25
  | rate2997
  | rate50
  | rate5994
  deriving DecidableEq, Repr

/-- The calibration state of the store controller (R161). -/
inductive CalState where
  | calibrating
  | ready
  | failed
  deriving DecidableEq, Repr

/-- The store rate (R161). -/
inductive StoreRate where
  | full
  | half
  deriving DecidableEq, Repr

/-- The store controller's own state (R161). -/
structure Store where
  cal : CalState
  rate : StoreRate
  attempts : Nat
  deriving DecidableEq, Repr

/-- The states of a block (R3, R4). -/
inductive BlockState where
  | free
  | ingest
  | queued
  | air
  | retiring
  deriving DecidableEq, Repr

/-- A block record (R3); its index is its place in `Pool.records`. -/
structure BlockRecord where
  state : BlockState
  /-- in-flight read count, in AIR and RETIRING only -/
  inFlight : Option Nat
  /-- missing-tile set, ascending, only for a frame committed PARTIAL -/
  missing : Option (List Nat)
  deriving DecidableEq, Repr

/-- The block pool manager (R2 to R6, R14). -/
structure Pool where
  /-- block size in tiles -/
  tiles : Nat
  /-- `pool_blocks` -/
  blocks : Nat
  records : List BlockRecord
  /-- the free list, head first -/
  free : List Nat
  /-- the retire list, in the order retired -/
  retire : List Nat
  deriving DecidableEq, Repr

/-! ### Link port and window decoder -/

/-- One line result of a completion (R21). -/
inductive LineResult where
  | ok (data : Line)
  | fill (data : Line)
  | unclaimed
  deriving DecidableEq, Repr

/-- One place of the in-flight read list (R22). -/
inductive InFlight where
  | accepted (tag : BitVec 6) (results : List LineResult) (blocks : List Nat)
  | refused (tag : BitVec 6)
  deriving DecidableEq, Repr

/-- A completion as sent (R21): outcome LINES with its results, or TAG_IN_USE. -/
inductive Completion where
  | lines (tag : BitVec 6) (results : List LineResult)
  | tagInUse (tag : BitVec 6)
  deriving DecidableEq, Repr

/-- A request on the link (R17). -/
inductive Request where
  | read (addr : Addr) (lines : Nat) (tag : BitVec 6)
  | write (addr : Addr) (data : List Line) (check : Option Half)
  deriving DecidableEq, Repr

/-- The link port (R18, R22, R33, R36). -/
structure Link where
  /-- the LINK_READY pin (R36) -/
  ready : Bool
  /-- link check mode, ON or OFF (R33) -/
  checkMode : Bool
  /-- the in-flight read list, oldest first (R22) -/
  inFlight : List InFlight
  /-- requests presented and not yet taken, in arrival order (R18; log 4) -/
  waiting : List Request
  /-- MODEL's own: the completions sent so far, oldest first (log 5) -/
  sent : List Completion
  deriving DecidableEq, Repr

/-- The window bases (R25). -/
structure Windows where
  ingest : Addr
  egress : Addr
  control : Addr
  readout : Addr
  deriving DecidableEq, Repr

/-! ### Ingest tracker and program queue -/

/-- An ingest slot record (R38); the written-line set is ascending without duplicates. -/
inductive IngestSlot where
  | empty
  | filling (block : Nat) (written : List Nat) (first : Seq)
  | discard (block : Nat) (first : Seq)
  | overrun
  deriving DecidableEq, Repr

/-- The ingest tracker (R38, R39). -/
structure Ingest where
  slots : Vector IngestSlot 4
  /-- the sequence register, absent or the last accepted number -/
  lastSeq : Option Seq
  deriving DecidableEq, Repr

/-- A frame entry of the program queue (R60). -/
structure Entry where
  seq : Seq
  stamp : Seq
  block : Nat
  level : Byte
  segment : Bool
  isPartial : Bool
  gapBefore : Byte
  spliceIn : Bool
  hold : Option Byte
  deriving DecidableEq, Repr

/-- The program queue (R60), oldest entry first. -/
structure Queue where
  entries : List Entry
  splicePending : Bool
  deriving DecidableEq, Repr

/-! ### Air scheduler and delay trim -/

/-- The modes of the tick generator (R74). -/
inductive GenMode where
  | await
  | locked
  | lost
  deriving DecidableEq, Repr

/-- The tick generator (R74). -/
structure TickGen where
  mode : GenMode
  /-- the reference moment m -/
  reference : Nat
  /-- the generated tick count -/
  generated : Nat
  /-- the latest known count of the 27 MHz oscillator (log 8) -/
  osc : Nat
  /-- MODEL's own: the rate code has changed since m was set (log 9) -/
  restated : Bool
  deriving DecidableEq, Repr

/-- The two egress slots (R79). -/
inductive EgressSlot where
  | a
  | b
  deriving DecidableEq, Repr

/-- A binding record (R79). -/
structure Binding where
  block : Nat
  seq : Seq
  level : Byte
  isPartial : Bool
  gapBefore : Byte
  spliceIn : Bool
  onAir : Seq
  releaseServe : Seq
  airDelay : Seq
  skipBefore : Byte
  /-- repeat count, 0 to 65,535 -/
  repeats : Nat
  deriving DecidableEq, Repr

/-- The air conditions (R82). -/
inductive AirCond where
  | off
  | priming
  | flowing
  | stalled
  | frozen
  | filled
  deriving DecidableEq, Repr

/-- The values of the last action (R83). -/
inductive LastAction where
  | none
  | primeFill
  | stall
  | freeze
  | fill
  | repeated
  | release
  | skip
  deriving DecidableEq, Repr

/-- The air scheduler but for its tick generator (R78 to R88). -/
structure Air where
  serve : Seq
  onAir : Seq
  slotA : Option Binding
  slotB : Option Binding
  condition : AirCond
  stallCount : Nat
  stalledHold : Option Byte
  freezeCount : Nat
  lastAction : LastAction
  lastAirDelay : Option Seq
  repeatTotal : Nat
  skipTotal : Nat
  fillSince : Option Seq
  deriving DecidableEq, Repr

/-- The trim states (R95). -/
inductive TrimState where
  | onDelay
  | building
  | catching
  deriving DecidableEq, Repr

/-- The delay trim (R95). -/
structure Trim where
  state : TrimState
  credit : Nat
  deriving DecidableEq, Repr

/-- The trim's answer to an ask (R105). -/
inductive TrimAnswer where
  | none
  | repeated
  | skip
  deriving DecidableEq, Repr

/-! ### Dump and hold unit -/

/-- The states of a hold record (R118). -/
inductive HoldState where
  | opened
  | pending
  deriving DecidableEq, Repr

/-- A hold record (R118). -/
structure HoldRecord where
  id : Byte
  state : HoldState
  firstSeq : Option Seq
  lastSeq : Option Seq
  unaired : Nat
  openedAt : Seq
  deriving DecidableEq, Repr

/-- The dump and hold unit (R112), oldest hold first. -/
structure Holds where
  table : List HoldRecord
  nextId : Byte
  dumpTotal : Nat
  deriving DecidableEq, Repr

/-! ### Console interface -/

/-- The sampler state of one console line (R130): `s0` is the oldest of the last three samples. -/
structure LineSampler where
  s0 : Bool
  s1 : Bool
  s2 : Bool
  armed : Bool
  inactiveRun : Nat
  deriving DecidableEq, Repr

/-- The console interface (R130, R136). -/
structure Console where
  dump : LineSampler
  hold : LineSampler
  release : LineSampler
  blinkLit : Bool
  blinkCount : Nat
  deriving DecidableEq, Repr

/-- What a lamp shows (R137, R138). -/
inductive Lamp where
  | dark
  | lit
  | blinking
  deriving DecidableEq, Repr

/-! ### Control monitor -/

/-- The run states (R143); FAILED is `CalState.failed`. -/
inductive RunState where
  | stopped
  | running
  | stopping
  deriving DecidableEq, Repr

/-- Which frames are eligible for a trim action (R104). -/
inductive Eligibility where
  | quietOnly
  | any
  deriving DecidableEq, Repr

/-- How a dump counts its frames (R114, R115). -/
inductive DumpMode where
  | chunk
  | segment
  deriving DecidableEq, Repr

/-- What is done with a hold at the stall limit (R126). -/
inductive StallPolicy where
  | release
  | dump
  deriving DecidableEq, Repr

/-- The thirteen staged settings (09 section 9.4). -/
structure Settings where
  target : Nat
  band : Nat
  buildRate : Nat
  catchRate : Nat
  silence : Nat
  eligibility : Eligibility
  dumpMode : DumpMode
  dumpLength : Nat
  dumpFloor : Nat
  dumpInflight : Bool
  stallLimit : Nat
  stallPolicy : StallPolicy
  freezeLimit : Nat
  deriving DecidableEq, Repr

/-- The results of a command (R141, R158). -/
inductive CmdResult where
  | accepted
  | clamped
  | refusedState
  | refusedRange
  | refusedBusy
  | badCheck
  | unknown
  deriving DecidableEq, Repr

/-- An entry of the command result list (R142). -/
structure ResultEntry where
  num : Byte
  code : Byte
  result : CmdResult
  deriving DecidableEq, Repr

/-- The control monitor (R140 to R148). -/
structure Monitor where
  run : RunState
  staged : Settings
  inForce : Settings
  rateCode : RateCode
  /-- the last eight results, newest first -/
  results : List ResultEntry
  commandCount : Half
  /-- an accepted RESET_PART before its reset proper, with its resample argument (R164) -/
  resetPart : Option Bool
  deriving DecidableEq, Repr

/-! ### Readout generator -/

/-- The ten fault kinds, in the order of 09 section 9.6. -/
inductive FaultKind where
  | linkCheck
  | unclaimed
  | headerBad
  | seqGap
  | seqBack
  | ingestDrop
  | stallExpired
  | fillOnAir
  | refLost
  | cmdBad
  deriving DecidableEq, Repr

/-- The first-fault record (R153). -/
structure FaultRecord where
  kind : FaultKind
  serve : Seq
  seq : Option Seq
  addr : Option Addr
  deriving DecidableEq, Repr

/-- The kinds of edit-log records (R154). -/
inductive LogKind where
  | dump
  | holdReleased
  | holdDumped
  | holdEmpty
  | stallExpired
  | freezeStart
  | fillStart
  | fillEnd
  | ingestDrop
  | gap
  | refLost
  | refReturn
  deriving DecidableEq, Repr

/-- The causes of edit-log records (R154). -/
inductive Cause where
  | console
  | command
  | policy
  | device
  | discard
  | overrun
  | timeout
  deriving DecidableEq, Repr

/-- What a block hands to the edit log: a record without its running number and serve number. -/
structure LogEntry where
  kind : LogKind
  first : Option Seq
  last : Option Seq
  count : Option Seq
  hold : Option Byte
  cause : Cause
  deriving DecidableEq, Repr

/-- A record of the edit log (R154). -/
structure LogRecord where
  number : Half
  serve : Seq
  entry : LogEntry
  deriving DecidableEq, Repr

/-- The readout generator (R153, R154); the flags stand as on line 6, bit 0 for LINK_CHECK. -/
structure Readout where
  flags : BitVec 10
  first : Option FaultRecord
  log : List LogRecord
  nextNumber : Half
  deriving DecidableEq, Repr

end Sys2Proof.Machine
end

