-- ==== Sys2Proof/Machine/Tables.lean ====
section
/-! DEFINITION. The spec's tables: DRAM sizes, default pools, frame periods, default targets, default
settings, and the reset value of each block. -/

namespace Sys2Proof.Machine

open Sys2Proof

/-! ### DRAM and pool (R2) -/

/-- The DRAM size in bytes of a CFG_MEM level (R2). -/
def dramBytes (mem : Fin 4) : Nat :=
  match mem with
  | 0 => 4 * Config.gib
  | 1 => 8 * Config.gib
  | 2 => 16 * Config.gib
  | 3 => 32 * Config.gib

/-- The default `pool_blocks` of a CFG_MEM level (R2). -/
def defaultBlocks (mem : Fin 4) : Nat :=
  match mem with
  | 0 => 768
  | 1 => 1792
  | 2 => 2048
  | 3 => 2048

/-- The default block size, 4 MiB (R2). -/
def defaultTiles : Nat := 64

/-- The block size in bytes. -/
def Pool.blockBytes (p : Pool) : Nat := p.tiles * Config.tileBytes

/-- A new block record (R5). -/
def BlockRecord.fresh : BlockRecord := { state := .free, inFlight := none, missing := none }

/-- A pool of new records with its free list rebuilt (R5, R6). -/
def Pool.fresh (tiles blocks : Nat) : Pool :=
  { tiles := tiles, blocks := blocks, records := List.replicate blocks BlockRecord.fresh,
    free := List.range blocks, retire := [] }

/-- The default pool of a CFG_MEM level (R2). -/
def Pool.default (mem : Fin 4) : Pool := Pool.fresh defaultTiles (defaultBlocks mem)

/-- The largest target of a pool, `pool_blocks` - 8 (R96). -/
def Pool.maxTarget (p : Pool) : Nat := p.blocks - 8

/-! ### Frame rates (0.7.4, R74, R110) -/

/-- The rate code of a CFG_RATE level (10 section 10.1). -/
def RateCode.ofLevel (l : Fin 4) : RateCode :=
  match l with
  | 0 => .rate25
  | 1 => .rate2997
  | 2 => .rate50
  | 3 => .rate5994

/-- The frame period P in counts of 27 MHz (R74). -/
def RateCode.period : RateCode → Nat
  | .rate25 => 1080000
  | .rate2997 => 900900
  | .rate50 => 540000
  | .rate5994 => 450450

/-- Pn of the frame period Pn/Pd seconds (0.7.4). -/
def RateCode.pn : RateCode → Nat
  | .rate25 => 1
  | .rate2997 => 1001
  | .rate50 => 1
  | .rate5994 => 1001

/-- Pd of the frame period Pn/Pd seconds (0.7.4). -/
def RateCode.pd : RateCode → Nat
  | .rate25 => 25
  | .rate2997 => 30000
  | .rate50 => 50
  | .rate5994 => 60000

/-- A count of frames or ticks in milliseconds (R110). -/
def RateCode.toMs (r : RateCode) (f : Nat) : Nat :=
  min Config.max32 ((2 * f * (1000 * r.pn) + r.pd) / (2 * r.pd))

/-! ### Default target and settings (R96, R160, 09 section 9.4) -/

/-- The seconds of a CFG_DELAY level (10 section 10.1). -/
def delaySeconds (l : Fin 4) : Nat :=
  match l with
  | 0 => 0
  | 1 => 7
  | 2 => 10
  | 3 => 20

/-- A delay in seconds as the nearest whole number of frames, an exact half rounded up (R160). -/
def RateCode.framesOfSeconds (r : RateCode) (sec : Nat) : Nat :=
  (2 * sec * r.pd + r.pn) / (2 * r.pn)

/-- The default target before its clamp: CFG_DELAY at the latched CFG_RATE (R160). -/
def strapTarget (straps : Straps) : Nat :=
  (RateCode.ofLevel straps.rate).framesOfSeconds (delaySeconds straps.delay)

/-- The default settings, with the target clamped to the pool in force (R96, R148). -/
def Settings.default (straps : Straps) (pool : Pool) : Settings :=
  { target := min (strapTarget straps) pool.maxTarget
    band := 2
    buildRate := 40
    catchRate := 40
    silence := 96
    eligibility := .quietOnly
    dumpMode := .chunk
    dumpLength := 150
    dumpFloor := 0
    dumpInflight := true
    stallLimit := 500
    stallPolicy := .dump
    freezeLimit := 100 }

/-! ### Reset values, block by block (R165's table) -/

/-- The window bases after a reset that re-makes the pool (R30). -/
def Windows.default : Windows :=
  { ingest := 0, egress := 0, control := 0x1000, readout := 0x2000 }

/-- The start of calibration (R161). -/
def Store.start : Store := { cal := .calibrating, rate := .full, attempts := 0 }

/-- The ingest tracker after a reset (R59). -/
def Ingest.start : Ingest := { slots := Vector.replicate 4 .empty, lastSeq := none }

/-- The program queue after a reset (R71). -/
def Queue.start : Queue := { entries := [], splicePending := false }

/-- The air scheduler after a reset (R92). -/
def Air.start : Air :=
  { serve := 0, onAir := 0, slotA := none, slotB := none, condition := .off, stallCount := 0,
    stalledHold := none, freezeCount := 0, lastAction := .none, lastAirDelay := none,
    repeatTotal := 0, skipTotal := 0, fillSince := none }

/-- The delay trim after a reset (R102). -/
def Trim.start : Trim := { state := .onDelay, credit := 0 }

/-- The dump and hold unit after a reset (R129). -/
def Holds.start : Holds := { table := [], nextId := 1, dumpTotal := 0 }

/-- A console line as sampling starts (R139). -/
def LineSampler.start : LineSampler :=
  { s0 := false, s1 := false, s2 := false, armed := false, inactiveRun := 0 }

/-- The console interface as sampling starts (R139, R136). -/
def Console.start : Console :=
  { dump := LineSampler.start, hold := LineSampler.start, release := LineSampler.start,
    blinkLit := true, blinkCount := 0 }

/-- The control monitor after a reset (R142, R143, R148). -/
def Monitor.start (straps : Straps) (pool : Pool) : Monitor :=
  { run := .stopped, staged := Settings.default straps pool, inForce := Settings.default straps pool,
    rateCode := RateCode.ofLevel straps.rate, results := [], commandCount := 0, resetPart := none }

/-- The readout generator after a reset (R153, R154). -/
def Readout.start : Readout := { flags := 0, first := none, log := [], nextNumber := 0 }

/-- The tick generator while it is halted by a reset; `osc` runs on (R74; log 13). -/
def TickGen.halted (osc : Nat) : TickGen :=
  { mode := .await, reference := osc, generated := 0, osc := osc, restated := false }

end Sys2Proof.Machine
end

