-- ==== Sys2Proof/Machine/State.lean ====
section
/-! DEFINITION. The state of the ND864 as plain data, the reasons a step can stop, one update per
block, and the state after reset. -/

namespace Sys2Proof.Machine

open Sys2Proof

/-- The whole part. -/
structure State where
  /-- the link port (R18, R22, R33, R36) -/
  link : Link
  /-- the window bases (R25) -/
  windows : Windows
  /-- the store controller's calibration state (R161) -/
  store : Store
  /-- the latched straps (R159) -/
  straps : Straps
  /-- the RESET pin is asserted (R159; log 11) -/
  resetHeld : Bool
  /-- the DRAM bytes that differ from `Config.unwritten`, addresses strictly rising (R1, R20; log 2) -/
  dram : List Host.Cell
  /-- the block pool (R2 to R6) -/
  pool : Pool
  /-- the ingest tracker (R38, R39) -/
  ingest : Ingest
  /-- the program queue (R60) -/
  queue : Queue
  /-- the tick generator (R74) -/
  gen : TickGen
  /-- the air scheduler (R78 to R88) -/
  air : Air
  /-- the delay trim (R95) -/
  trim : Trim
  /-- the dump and hold unit (R112) -/
  holds : Holds
  /-- the console interface (R130, R136) -/
  console : Console
  /-- the control monitor (R140 to R148) -/
  monitor : Monitor
  /-- the readout generator (R153, R154) -/
  readout : Readout
  /-- MODEL's own: the commands waiting, first in first out -/
  pending : List Instr
  deriving DecidableEq, Repr

/-- No command of the spec stops the part: a fault of the spec is a flag in `Readout` (R153), so no step
raises a `Fault`, which is safe (log 26). -/
inductive Fault where
  deriving DecidableEq, Repr

/-- Why the model has no meaning for a command. -/
inductive Refusal where
  /-- Raised by an arm of `exec` whose command has no meaning yet; no arm raises it now. Safe. -/
  | notModelled (mnemonic : String)
  deriving DecidableEq, Repr

/-- Replace `link`. -/
def State.setLink (s : State) (v : Link) : State := { s with link := v }

/-- Replace `windows`. -/
def State.setWindows (s : State) (v : Windows) : State := { s with windows := v }

/-- Replace `store`. -/
def State.setStore (s : State) (v : Store) : State := { s with store := v }

/-- Replace `straps`. -/
def State.setStraps (s : State) (v : Straps) : State := { s with straps := v }

/-- Replace `resetHeld`. -/
def State.setResetHeld (s : State) (v : Bool) : State := { s with resetHeld := v }

/-- Replace `dram`. -/
def State.setDram (s : State) (v : List Host.Cell) : State := { s with dram := v }

/-- Replace `pool`. -/
def State.setPool (s : State) (v : Pool) : State := { s with pool := v }

/-- Replace `ingest`. -/
def State.setIngest (s : State) (v : Ingest) : State := { s with ingest := v }

/-- Replace `queue`. -/
def State.setQueue (s : State) (v : Queue) : State := { s with queue := v }

/-- Replace `gen`. -/
def State.setGen (s : State) (v : TickGen) : State := { s with gen := v }

/-- Replace `air`. -/
def State.setAir (s : State) (v : Air) : State := { s with air := v }

/-- Replace `trim`. -/
def State.setTrim (s : State) (v : Trim) : State := { s with trim := v }

/-- Replace `holds`. -/
def State.setHolds (s : State) (v : Holds) : State := { s with holds := v }

/-- Replace `console`. -/
def State.setConsole (s : State) (v : Console) : State := { s with console := v }

/-- Replace `monitor`. -/
def State.setMonitor (s : State) (v : Monitor) : State := { s with monitor := v }

/-- Replace `readout`. -/
def State.setReadout (s : State) (v : Readout) : State := { s with readout := v }

/-- Replace `pending`. -/
def State.setPending (s : State) (v : List Instr) : State := { s with pending := v }

/-- The machine right after power-on (R163): every block at its reset value, calibration about to run,
LINK_READY low. The strap levels are `Config.resetStraps` and DRAM is unwritten (log 1, log 2). -/
def State.reset : State :=
  { link := { ready := false, checkMode := false, inFlight := [], waiting := [], sent := [] }
    windows := Windows.default
    store := Store.start
    straps := Config.resetStraps
    resetHeld := false
    dram := []
    pool := Pool.default Config.resetStraps.mem
    ingest := Ingest.start
    queue := Queue.start
    gen := TickGen.halted 0
    air := Air.start
    trim := Trim.start
    holds := Holds.start
    console := Console.start
    monitor := Monitor.start Config.resetStraps (Pool.default Config.resetStraps.mem)
    readout := Readout.start
    pending := [] }

end Sys2Proof.Machine
end

