-- ==== Sys2Proof/Machine/Ops.lean ====
section
/-! DEFINITION. The shared operations: record fields and checks, DRAM, the block pool, and addresses. -/

namespace Sys2Proof.Machine

open Sys2Proof

/-! ### Fields and checks of 64-byte records (0.7.6, 09 section 9.9) -/

/-- The field of `w` bits whose lowest byte is byte `off`, little-endian (09 section 9.9). -/
def fieldAt (l : Line) (off w : Nat) : BitVec w := l.extractLsb' (8 * off) w

/-- Replace the field that starts at byte `off` by `v`, little-endian. -/
def putField {w : Nat} (l : Line) (off : Nat) (v : BitVec w) : Line :=
  (l &&& ~~~((BitVec.allOnes w).setWidth 512 <<< (8 * off))) ||| (v.setWidth 512 <<< (8 * off))

/-- Replace the `n` bytes from byte `off` by zeros. -/
def clearBytes (l : Line) (off n : Nat) : Line := putField l off (0 : BitVec (8 * n))

/-- The sum modulo 65,536 of a line's 32 little-endian words (0.7.6). -/
def wordSum (l : Line) : Half :=
  (List.range 32).foldl (fun acc i => acc + l.extractLsb' (16 * i) 16) 0

/-- The record check (0.7.6, R45). -/
def recordGood (l : Line) : Bool := wordSum l == 0

/-- Put the check word in bytes 62 and 63 so that the record passes the record check (R155, R156). -/
def sealRecord (l : Line) : Line :=
  putField l 62 (-(wordSum (putField l 62 (0 : Half))))

/-- The fill line: 64 bytes of zero (R21). -/
def fillLine : Line := 0

/-! ### DRAM (R20) -/

/-- The byte at an address; an unlisted address reads as `Config.unwritten` (log 2). -/
def readByte (m : List Host.Cell) (a : Nat) : Byte :=
  match m with
  | [] => Config.unwritten
  | (k, b) :: rest => if k = a then b else readByte rest a

/-- Write one byte, keeping addresses rising and no entry equal to an unlisted byte. -/
def writeByte (m : List Host.Cell) (a : Nat) (b : Byte) : List Host.Cell :=
  match m with
  | [] => if b = Config.unwritten then [] else [(a, b)]
  | (k, v) :: rest =>
    if a < k then (if b = Config.unwritten then (k, v) :: rest else (a, b) :: (k, v) :: rest)
    else if a = k then (if b = Config.unwritten then rest else (a, b) :: rest)
    else (k, v) :: writeByte rest a b

/-- The canonical form of DRAM: addresses strictly rising, no entry equal to an unlisted byte. -/
abbrev Memory.wf (m : List Host.Cell) : Prop :=
  m.Pairwise (fun c d => c.1 < d.1) ∧ ∀ c ∈ m, c.2 ≠ Config.unwritten

/-- Write consecutive bytes from an address. -/
def writeBytes (m : List Host.Cell) (a : Nat) (bs : List Byte) : List Host.Cell :=
  match bs with
  | [] => m
  | b :: rest => writeBytes (writeByte m a b) (a + 1) rest

/-- The 64 bytes of a line, byte 0 first. -/
def lineToBytes (l : Line) : List Byte := (List.range Config.lineBytes).map (fun i => fieldAt l i 8)

/-- The line whose bytes are given, byte 0 first. -/
def lineOfBytes (bs : List Byte) : Line :=
  match bs with
  | [] => 0
  | b :: rest => (lineOfBytes rest <<< 8) ||| b.setWidth 512

/-- Write a line at a DRAM address (R20). -/
def writeLine (m : List Host.Cell) (a : Nat) (l : Line) : List Host.Cell := writeBytes m a (lineToBytes l)

/-- Read the line at a DRAM address (R20). -/
def readLine (m : List Host.Cell) (a : Nat) : Line :=
  lineOfBytes ((List.range Config.lineBytes).map (fun i => readByte m (a + i)))

/-! ### The store region (R1) -/

/-- The host-visible top: the DRAM size less the store region (R1). -/
def hostTopOf (mem : Fin 4) (tiles blocks : Nat) : Nat :=
  dramBytes mem - blocks * (tiles * Config.tileBytes)

/-- The host-visible top in force (R1). -/
def State.hostTop (s : State) : Nat := hostTopOf s.straps.mem s.pool.tiles s.pool.blocks

/-- The lines of a block. -/
def Pool.blockLines (p : Pool) : Nat := p.tiles * Config.tileLines

/-- The DRAM address of line `j` of block `i` (R1). -/
def State.blockLineAddr (s : State) (i j : Nat) : Nat :=
  s.hostTop + i * s.pool.blockBytes + j * Config.lineBytes

/-- Write line `j` of block `i` (R1). -/
def State.writeBlockLine (s : State) (i j : Nat) (l : Line) : State :=
  s.setDram (writeLine s.dram (s.blockLineAddr i j) l)

/-- Read line `j` of block `i` (R1). -/
def State.readBlockLine (s : State) (i j : Nat) : Line := readLine s.dram (s.blockLineAddr i j)

/-! ### The block pool (R3 to R16) -/

/-- The record of block `i`. -/
def Pool.record (p : Pool) (i : Nat) : BlockRecord := p.records.getD i BlockRecord.fresh

/-- Replace the record of block `i`. -/
def Pool.setRecord (p : Pool) (i : Nat) (r : BlockRecord) : Pool :=
  { p with records := p.records.set i r }

/-- Block `i` becomes FREE and joins the free list tail; its count and missing-tile set are discarded
(R3, R8, R9). -/
def Pool.freeBlock (p : Pool) (i : Nat) : Pool :=
  { p.setRecord i BlockRecord.fresh with free := p.free ++ [i] }

/-- Several blocks join the free list tail in the order given (R9, R15). -/
def Pool.freeBlocks (p : Pool) (is : List Nat) : Pool := is.foldl Pool.freeBlock p

/-- Allocation: the block at the head of the free list becomes INGEST, or none is given (R7). -/
def Pool.allocate (p : Pool) : Option (Nat × Pool) :=
  match p.free with
  | [] => none
  | i :: rest =>
    some (i, { p.setRecord i { p.record i with state := .ingest } with free := rest })

/-- Commit: block `i` becomes QUEUED, with its missing-tile set when there is one (R8, R3). -/
def Pool.commitBlock (p : Pool) (i : Nat) (missing : List Nat) : Pool :=
  p.setRecord i { state := .queued, inFlight := none, missing := if missing = [] then none else some missing }

/-- Release: block `i` becomes AIR with in-flight read count 0 (R10). -/
def Pool.airBlock (p : Pool) (i : Nat) : Pool :=
  p.setRecord i { p.record i with state := .air, inFlight := some 0 }

/-- The in-flight read count of block `i`, 0 where it has none. -/
def Pool.readCount (p : Pool) (i : Nat) : Nat := (p.record i).inFlight.getD 0

/-- Block `i` leaves its egress binding: FREE when no read is in flight on it, RETIRING otherwise (R13). -/
def Pool.leaveBlock (p : Pool) (i : Nat) : Pool :=
  if p.readCount i = 0 then p.freeBlock i
  else { p.setRecord i { p.record i with state := .retiring } with retire := p.retire ++ [i] }

/-- A read is taken on block `i` (R11). -/
def Pool.takeRead (p : Pool) (i : Nat) : Pool :=
  p.setRecord i { p.record i with inFlight := some (p.readCount i + 1) }

/-- The completion of a read taken on block `i` (R12): a RETIRING block whose count becomes 0 is freed. -/
def Pool.completeRead (p : Pool) (i : Nat) : Pool :=
  match (p.record i).state with
  | .air => p.setRecord i { p.record i with inFlight := some (p.readCount i - 1) }
  | .retiring =>
    if p.readCount i ≤ 1 then { p.freeBlock i with retire := p.retire.erase i }
    else p.setRecord i { p.record i with inFlight := some (p.readCount i - 1) }
  | .free => p
  | .ingest => p
  | .queued => p

/-- The rebuild of the free list: every block FREE, index order, the retire list empty (R6). -/
def Pool.rebuild (p : Pool) : Pool := Pool.fresh p.tiles p.blocks

/-- The missing-tile set of block `i`, empty where it has none (R3). -/
def Pool.missingTiles (p : Pool) (i : Nat) : List Nat := (p.record i).missing.getD []

/-- End a STOP drain if the retire list is empty: the free list is rebuilt and the run state becomes
STOPPED (R15, R143). -/
def State.endDrain (s : State) : State :=
  if s.pool.retire = [] then
    (s.setPool s.pool.rebuild).setMonitor { s.monitor with run := .stopped }
  else s

/-! ### Saturating counts (0.7.7) -/

/-- Add to a 32-bit count that saturates. -/
def addSat32 (a n : Nat) : Nat := min Config.max32 (a + n)

/-- A number as a byte that saturates at 255. -/
def byteSat (n : Nat) : Byte := BitVec.ofNat 8 (min 255 n)

end Sys2Proof.Machine
end

