-- ==== Sys2Proof/Machine/Flags.lean ====
section
/-! DEFINITION. The status outputs: fault flags, first-fault record, edit log, ALERT and the lamps. -/

namespace Sys2Proof.Machine

open Sys2Proof

/-- The place of a fault kind in the table of 09 section 9.6, its bit on line 6 (R157). -/
def FaultKind.index : FaultKind → Nat
  | .linkCheck => 0
  | .unclaimed => 1
  | .headerBad => 2
  | .seqGap => 3
  | .seqBack => 4
  | .ingestDrop => 5
  | .stallExpired => 6
  | .fillOnAir => 7
  | .refLost => 8
  | .cmdBad => 9

/-- The flag of a fault kind. -/
def FaultKind.flag (k : FaultKind) : BitVec 10 := BitVec.twoPow 10 k.index

/-- A fault report: it sets the kind's flag and fills the first-fault record when that is empty (R153). -/
def State.report (s : State) (kind : FaultKind) (seq : Option Seq) (addr : Option Addr) : State :=
  s.setReadout { s.readout with
    flags := s.readout.flags ||| kind.flag
    first := s.readout.first.or (some { kind := kind, serve := s.air.serve, seq := seq, addr := addr }) }

/-- The record an edit-log entry makes now (R154). -/
def State.logRecord (s : State) (e : LogEntry) : LogRecord :=
  { number := s.readout.nextNumber, serve := s.air.serve, entry := e }

/-- Append a record to the edit log with the next running number; the oldest of 32 leaves (R154). -/
def State.logEdit (s : State) (e : LogEntry) : State :=
  s.setReadout { s.readout with
    log := (s.readout.log ++ [s.logRecord e]).drop (s.readout.log.length - 31)
    nextNumber := s.readout.nextNumber + 1 }

/-- Append several records in their order (R154). -/
def State.logEdits (s : State) (es : List LogEntry) : State := es.foldl State.logEdit s

/-- The ALERT pin: asserted while a flag is set, and in FAILED (R151). -/
def State.alert (s : State) : Bool :=
  s.readout.flags != 0 || s.store.cal == .failed

/-- The DELAY lamp (R137); every lamp is dark while the console interface is halted (R139). -/
def State.delayLamp (s : State) : Lamp :=
  if s.link.ready && s.monitor.run == .running then
    (if s.trim.state = .onDelay then .lit else .blinking)
  else .dark

/-- The READY lamp: lit while the depth less `dump_floor` is at or above `dump_length` (R137). -/
def State.readyLamp (s : State) : Lamp :=
  if s.link.ready && s.monitor.run == .running &&
      decide (s.monitor.inForce.dumpLength + s.monitor.inForce.dumpFloor ≤ s.queue.entries.length) then .lit
  else .dark

/-- The HOLD lamp (R138). -/
def State.holdLamp (s : State) : Lamp :=
  if !s.link.ready || s.holds.table == [] then .dark
  else if s.air.condition = .stalled then .blinking
  else .lit

/-- The level a lamp line is driven to: a blinking lamp follows the shared blink phase (08 section 8.4). -/
def State.lampDrive (s : State) (l : Lamp) : Bool :=
  match l with
  | .dark => false
  | .lit => true
  | .blinking => s.console.blinkLit

end Sys2Proof.Machine
end

