-- ==== Sys2Proof/Machine/Trim.lean ====
section
/-! DEFINITION. The delay trim: evaluation of the trim state, credit and the answer at a tick. -/

namespace Sys2Proof.Machine

open Sys2Proof

/-- The depth: the number of entries (R61). -/
def State.depth (s : State) : Nat := s.queue.entries.length

/-- The new trim state for a depth under a target and band (R97, R98). -/
def TrimState.next (st : TrimState) (d target band : Nat) : TrimState :=
  match st with
  | .onDelay =>
    if d < target - band then .building else if target + band < d then .catching else .onDelay
  | .building =>
    if target + band < d then .catching else if target ≤ d then .onDelay else .building
  | .catching =>
    if d < target - band then .building else if d ≤ target then .onDelay else .catching

/-- An evaluation: the new state, with the credit set to 0 on a change of state (R98). -/
def Trim.evaluate (t : Trim) (d target band : Nat) : Trim :=
  if t.state.next d target band = t.state then t
  else { state := t.state.next d target band, credit := 0 }

/-- Evaluate the trim with the depth as it stands and the settings in force. -/
def State.evaluateTrim (s : State) : State :=
  s.setTrim (s.trim.evaluate s.depth s.monitor.inForce.target s.monitor.inForce.band)

/-- A depth report: evaluated while the run state is RUNNING (R72, R99). -/
def State.depthReport (s : State) : State :=
  if s.monitor.run = .running then s.evaluateTrim else s

/-- The slot a frame of on-air number `n` is bound to (R79). -/
def EgressSlot.ofOnAir (n : Seq) : EgressSlot := if n.getLsbD 0 then .b else .a

/-- The binding of a slot (R79). -/
def Air.binding (a : Air) (slot : EgressSlot) : Option Binding :=
  match slot with
  | .a => a.slotA
  | .b => a.slotB

/-- Replace the binding of a slot. -/
def Air.setBinding (a : Air) (slot : EgressSlot) (b : Option Binding) : Air :=
  match slot with
  | .a => { a with slotA := b }
  | .b => { a with slotB := b }

/-- The current air frame: the binding of slot (on-air number mod 2) while it is bound (R79). -/
def Air.current (a : Air) : Option Binding := a.binding (EgressSlot.ofOnAir a.onAir)

/-- Eligibility for a trim action (R104). -/
def Settings.eligible (c : Settings) (level : Byte) (isPartial : Bool) : Bool :=
  !isPartial && (c.eligibility == .any || decide (c.silence ≤ level.toNat))

/-- The credit after the advance of an ask (R103). -/
def State.advancedCredit (s : State) : Nat :=
  match s.trim.state with
  | .onDelay => s.trim.credit
  | .building => min 2000 (s.trim.credit + s.monitor.inForce.buildRate)
  | .catching => min 2000 (s.trim.credit + s.monitor.inForce.catchRate)

/-- Whether a REPEAT is allowed by all but the credit (R105). -/
def State.repeatAllowed (s : State) : Bool :=
  s.trim.state == .building &&
    match s.air.current with
    | none => false
    | some b => s.monitor.inForce.eligible b.level b.isPartial

/-- Whether a SKIP is allowed by all but the credit (R105). -/
def State.skipAllowed (s : State) : Bool :=
  s.trim.state == .catching &&
    match s.queue.entries with
    | o :: n :: _ =>
      s.monitor.inForce.eligible o.level o.isPartial && !o.spliceIn && n.hold == none
    | _ => false

/-- The trim's answer after the advance (R105). -/
def State.trimAnswer (s : State) : TrimAnswer :=
  if s.advancedCredit < 1000 then .none
  else if s.repeatAllowed then .repeated
  else if s.skipAllowed then .skip
  else .none

/-- The ask: the credit advances and, for a REPEAT or SKIP, is lowered by 1,000 (R103, R105). -/
def State.afterAsk (s : State) : State :=
  s.setTrim { s.trim with
    credit := if s.trimAnswer = .none then s.advancedCredit else s.advancedCredit - 1000 }

end Sys2Proof.Machine
end

