-- ==== Sys2Proof/Machine/Queue.lean ====
section
/-! DEFINITION. The program queue: order guard, append, and the run removals with their splice marks. -/

namespace Sys2Proof.Machine

open Sys2Proof

/-- Whether an entry carries the hold id `h`. -/
def Entry.tagged (h : Byte) (e : Entry) : Bool := e.hold == some h

/-- Set splice in on the oldest entry of a list (R63). -/
def markFirst (es : List Entry) : List Entry :=
  match es with
  | [] => []
  | e :: rest => { e with spliceIn := true } :: rest

/-! ### Order guard (R65) -/

/-- Whether a frame of seq `q` fits behind the list (R65). -/
def guardFits (q : Seq) (es : List Entry) : Bool :=
  match es with
  | [] => true
  | o :: rest =>
    let n := rest.getLastD o
    Seq.after q o.seq && decide ((n.seq - o.seq).toNat < (q - o.seq).toNat)

/-- The entries that stay when the guard has removed oldest entries until the frame fits (R65). -/
def guardKept (q : Seq) (es : List Entry) : List Entry :=
  match es with
  | [] => []
  | o :: rest => if guardFits q (o :: rest) then o :: rest else guardKept q rest

/-- The entries the guard removes, oldest first (R65). -/
def guardRemoved (q : Seq) (es : List Entry) : List Entry :=
  match es with
  | [] => []
  | o :: rest => if guardFits q (o :: rest) then [] else o :: guardRemoved q rest

/-! ### The hold table's account of removed entries (R117) -/

/-- What an edit-log record of kind DUMP says of a removed run (R65, R116). -/
def dumpEntry (removed : List Entry) (cause : Cause) : LogEntry :=
  { kind := .dump, first := removed.head?.map (·.seq), last := removed.getLast?.map (·.seq),
    count := some (BitVec.ofNat 32 removed.length), hold := none, cause := cause }

/-- How many of the removed entries bore a hold's id. -/
def HoldRecord.lost (h : HoldRecord) (removed : List Entry) : Nat :=
  (removed.filter (Entry.tagged h.id)).length

/-- Whether a removal empties a PENDING hold (R117). -/
def HoldRecord.emptiedBy (h : HoldRecord) (removed : List Entry) : Bool :=
  h.lost removed != 0 && h.unaired - h.lost removed == 0 && h.state == .pending

/-- A hold record after a removal that leaves the entries `kept` (R117). -/
def HoldRecord.account (h : HoldRecord) (removed kept : List Entry) : HoldRecord :=
  if h.lost removed = 0 then h
  else
    { h with
      unaired := h.unaired - h.lost removed
      firstSeq := (kept.find? (Entry.tagged h.id)).map (·.seq)
      lastSeq := if h.lastSeq.isSome then ((kept.filter (Entry.tagged h.id)).getLast?).map (·.seq) else none }

/-- The HOLD_DUMPED record of a PENDING hold that a removal empties (R117). -/
def HoldRecord.dumpedEntry (h : HoldRecord) (removed : List Entry) (cause : Cause) : LogEntry :=
  { kind := .holdDumped, first := h.firstSeq, last := h.lastSeq,
    count := some (BitVec.ofNat 32 (h.lost removed)), hold := some h.id, cause := cause }

/-- Account for a removal of the newest or the oldest run (R112, R116, R117): the hold table and the dump
total, then the DUMP record and any HOLD_DUMPED records in table order. -/
def State.accountRemoval (s : State) (removed kept : List Entry) (cause : Cause) : State :=
  ((s.setHolds { s.holds with
      table := (s.holds.table.filter (fun h => !h.emptiedBy removed)).map (fun h => h.account removed kept)
      dumpTotal := addSat32 s.holds.dumpTotal removed.length }).logEdit (dumpEntry removed cause)).logEdits
    ((s.holds.table.filter (fun h => h.emptiedBy removed)).map (fun h => h.dumpedEntry removed cause))

/-! ### Append (R64) -/

/-- The OPEN record of the hold table, when there is one (R118). -/
def State.openHold (s : State) : Option HoldRecord := s.holds.table.find? (fun h => h.state == .opened)

/-- The order guard's part of an append (R65). -/
def State.applyGuard (s : State) (q : Seq) : State :=
  let removed := guardRemoved q s.queue.entries
  let kept := guardKept q s.queue.entries
  if removed = [] then s
  else
    (((s.setQueue { entries := markFirst kept, splicePending := s.queue.splicePending || kept.isEmpty }).setPool
      (s.pool.freeBlocks (removed.map (·.block)))).accountRemoval removed kept .device)

/-- Tagging at commit: the OPEN hold counts the frame and takes its seq as first when it has none (R120). -/
def HoldRecord.tag (h : HoldRecord) (q : Seq) : HoldRecord :=
  if h.state = .opened then { h with unaired := h.unaired + 1, firstSeq := h.firstSeq.or (some q) } else h

/-- Steps 2 to 4 of an append: the entry joins the tail with its splice mark and hold tag (R64). -/
def State.joinTail (s : State) (e : Entry) : State :=
  (s.setQueue
    { entries := s.queue.entries ++
        [{ e with spliceIn := s.queue.splicePending, hold := s.openHold.map (·.id) }]
      splicePending := false }).setHolds
    { s.holds with table := s.holds.table.map (fun h => h.tag e.seq) }

/-- Append (R64): order guard, the new entry, its splice mark and hold tag, the depth report. -/
def State.append (s : State) (e : Entry) : State := ((s.applyGuard e.seq).joinTail e).depthReport

/-! ### Run removals (R68, R69) -/

/-- The newest `k` entries, oldest first. -/
def State.newestRun (s : State) (k : Nat) : List Entry := s.queue.entries.drop (s.depth - k)

/-- Removal of the newest `k` entries (R68); splice pending is set when an entry is removed (R63). -/
def State.removeNewest (s : State) (k : Nat) : State :=
  if s.newestRun k = [] then s
  else
    ((s.setQueue { entries := s.queue.entries.take (s.depth - k), splicePending := true }).setPool
      (s.pool.freeBlocks ((s.newestRun k).map (·.block)))).depthReport

/-- The entries of a hold, oldest first (R69). -/
def State.holdRun (s : State) (h : Byte) : List Entry := s.queue.entries.filter (Entry.tagged h)

/-- The entries older than a hold's run. -/
def beforeRun (h : Byte) (es : List Entry) : List Entry := es.takeWhile (fun e => !Entry.tagged h e)

/-- The entries newer than the oldest entry of a hold that do not carry its id. -/
def afterRun (h : Byte) (es : List Entry) : List Entry :=
  (es.dropWhile (fun e => !Entry.tagged h e)).filter (fun e => !Entry.tagged h e)

/-- Removal of one hold's entries with its splice mark (R69, R63). -/
def State.removeHoldRun (s : State) (h : Byte) : State :=
  if s.holdRun h = [] then s
  else
    ((s.setQueue
      { entries := beforeRun h s.queue.entries ++ markFirst (afterRun h s.queue.entries)
        splicePending := s.queue.splicePending || (afterRun h s.queue.entries).isEmpty }).setPool
      (s.pool.freeBlocks ((s.holdRun h).map (·.block)))).depthReport

/-- Clearing of the list: blocks freed oldest first, splice pending cleared (R71). -/
def State.clearQueue (s : State) : State :=
  (s.setPool (s.pool.freeBlocks (s.queue.entries.map (·.block)))).setQueue Queue.start

end Sys2Proof.Machine
end

