-- ==== Sys2Proof/Machine/Holds.lean ====
section
/-! DEFINITION. The dump and hold unit: dumps, hold operations and the stall policy. -/

namespace Sys2Proof.Machine

open Sys2Proof

/-! ### The discard notice (R58) -/

/-- A FILLING slot becomes DISCARD and keeps its block and first-write tick (R57, R58). -/
def IngestSlot.discarded (sl : IngestSlot) : IngestSlot :=
  match sl with
  | .empty => .empty
  | .filling b _ first => .discard b first
  | .discard b first => .discard b first
  | .overrun => .overrun

/-- The discard notice: every FILLING slot becomes DISCARD (R58). -/
def State.discardNotice (s : State) : State :=
  s.setIngest { s.ingest with slots := s.ingest.slots.map IngestSlot.discarded }

/-! ### Dumps of the newest frames (R113 to R116) -/

/-- The number of removable frames (R113). -/
def State.removable (s : State) : Nat := s.depth - s.monitor.inForce.dumpFloor

/-- The window of a dump: the lesser of `dump_length` and the removable count (R114, R115). -/
def State.dumpWindow (s : State) : Nat := min s.monitor.inForce.dumpLength s.removable

/-- How many entries of a list, newest first, reach to the first marked one inclusive; all of them when
none is marked (R115). -/
def segmentCount (newestFirst : List Entry) : Nat :=
  match newestFirst with
  | [] => 0
  | e :: rest => if e.segment then 1 else 1 + segmentCount rest

/-- The count k of newest entries a dump removes (R114, R115). -/
def State.dumpCount (s : State) : Nat :=
  match s.monitor.inForce.dumpMode with
  | .chunk => s.dumpWindow
  | .segment => segmentCount (s.queue.entries.reverse.take s.dumpWindow)

/-- Send the discard notice when `dump_inflight` in force is on and the condition holds. -/
def State.discardIf (s : State) (c : Bool) : State :=
  if c && s.monitor.inForce.dumpInflight then s.discardNotice else s

/-- A dump of the newest frames (R116). -/
def State.dumpNewest (s : State) (cause : Cause) : State :=
  ((s.removeNewest s.dumpCount).discardIf true).accountRemoval
    (s.newestRun s.dumpCount) (s.queue.entries.take (s.depth - s.dumpCount)) cause

/-! ### Hold operations (R119 to R124) -/

/-- The id after `id` in the cycle 1 to 255 (R119). -/
def nextHoldId (id : Byte) : Byte := if id = 255 then 1 else id + 1

/-- The first id from `id` on that no record carries, within `fuel` further ids (R119). -/
def freeHoldId (table : List HoldRecord) (fuel : Nat) (id : Byte) : Byte :=
  match fuel with
  | 0 => id
  | n + 1 =>
    if table.any (fun h => h.id == id) then freeHoldId table n (nextHoldId id) else id

/-- The id a hold opened now takes (R119). -/
def Holds.openingId (u : Holds) : Byte := freeHoldId u.table u.table.length u.nextId

/-- Open a hold (R121). -/
def State.openNewHold (s : State) : State :=
  s.setHolds { s.holds with
    table := s.holds.table ++
      [{ id := s.holds.openingId, state := .opened, firstSeq := none, lastSeq := none, unaired := 0,
         openedAt := s.air.serve }]
    nextId := nextHoldId s.holds.openingId }

/-- The record a hold id names, id 0 being carried by none (R118). -/
def State.findHold (s : State) (h : Byte) : Option HoldRecord := s.holds.table.find? (fun r => r.id == h)

/-- Remove a hold's record. -/
def State.dropHold (s : State) (h : Byte) : State :=
  s.setHolds { s.holds with table := s.holds.table.filter (fun r => r.id != h) }

/-- The closing of a record: OPEN to PENDING with its last seq (R122). -/
def HoldRecord.closed (r : HoldRecord) (last : Option Seq) : HoldRecord :=
  { r with state := .pending, lastSeq := last }

/-- Close the OPEN hold `r` (R122). -/
def State.closeHold (s : State) (r : HoldRecord) (cause : Cause) : State :=
  if r.unaired = 0 then
    (s.dropHold r.id).logEdit
      { kind := .holdEmpty, first := none, last := none, count := none, hold := some r.id, cause := cause }
  else
    s.setHolds { s.holds with
      table := s.holds.table.map (fun h =>
        if h.id = r.id then h.closed ((s.holdRun r.id).getLast?.map (·.seq)) else h) }

/-- Clear a hold's tag from an entry (R70). -/
def Entry.untag (h : Byte) (e : Entry) : Entry := if e.tagged h then { e with hold := none } else e

/-- Decide a hold for air (R123). -/
def State.releaseHold (s : State) (r : HoldRecord) (cause : Cause) : State :=
  ((s.setQueue { s.queue with entries := s.queue.entries.map (Entry.untag r.id) }).dropHold r.id).logEdit
    { kind := .holdReleased, first := (s.holdRun r.id).head?.map (·.seq),
      last := (s.holdRun r.id).getLast?.map (·.seq), count := some (BitVec.ofNat 32 r.unaired),
      hold := some r.id, cause := cause }

/-- Raise the dump total (R112). -/
def State.addDumpTotal (s : State) (n : Nat) : State :=
  s.setHolds { s.holds with dumpTotal := addSat32 s.holds.dumpTotal n }

/-- Decide a hold against air (R124). -/
def State.dumpHold (s : State) (r : HoldRecord) (cause : Cause) : State :=
  (((((s.removeHoldRun r.id).dropHold r.id).discardIf (r.state == .opened))).logEdit
    { kind := .holdDumped, first := (s.holdRun r.id).head?.map (·.seq),
      last := (s.holdRun r.id).getLast?.map (·.seq),
      count := some (BitVec.ofNat 32 (s.holdRun r.id).length), hold := some r.id, cause := cause }).addDumpTotal
    (s.holdRun r.id).length

/-! ### The stall policy (R126) -/

/-- The EDIT record of an expiry (R126). -/
def stallEntry (r : HoldRecord) (count : Nat) : LogEntry :=
  { kind := .stallExpired, first := r.firstSeq, last := r.lastSeq, count := some (BitVec.ofNat 32 count),
    hold := some r.id, cause := .policy }

/-- Apply `stall_policy` in force to the hold `r` (R126). -/
def State.expireStall (s : State) (r : HoldRecord) : State :=
  let s1 := (s.report .stallExpired ((s.holdRun r.id).head?.map (·.seq)) none).logEdit
    (stallEntry r s.air.stallCount)
  match s.monitor.inForce.stallPolicy with
  | .release => s1.releaseHold r .policy
  | .dump => s1.dumpHold r .policy

/-- The hold the stall limit has been reached on: it tags the head entry, it is the stalled hold and in
the table, and the stall count is at or above `stall_limit` in force (R85, R126). -/
def State.expiredHold (s : State) : Option HoldRecord :=
  match s.queue.entries, s.air.stalledHold with
  | e :: _, some h =>
    if e.hold = some h ∧ s.monitor.inForce.stallLimit ≤ s.air.stallCount then s.findHold h else none
  | _, _ => none

/-- Apply the stall policy where the stall limit has been reached (R85, R126). -/
def State.stallPolicyStep (s : State) : State :=
  match s.expiredHold with
  | none => s
  | some r => s.expireStall r

end Sys2Proof.Machine
end

