-- ==== Sys2Proof/Machine/Ingest.lean ====
section
/-! DEFINITION. The ingest tracker: payload lines, picture records, commit, lost frames, slot timeout. -/

namespace Sys2Proof.Machine

open Sys2Proof

/-- The record of slot `k` (R38). -/
def State.slot (s : State) (k : Fin 4) : IngestSlot := s.ingest.slots[k]

/-- Replace the record of slot `k`. -/
def State.setSlot (s : State) (k : Fin 4) (sl : IngestSlot) : State :=
  s.setIngest { s.ingest with slots := s.ingest.slots.set k sl }

/-- The host address of line `j` of ingest slot `k` (R25). -/
def State.slotLineAddr (s : State) (k : Fin 4) (j : Nat) : Nat :=
  s.windows.ingest.toNat + k.val * s.pool.blockBytes + j * Config.lineBytes

/-- The same address as a fault report carries it: 40 bits. -/
def State.slotFaultAddr (s : State) (k : Fin 4) : Addr := BitVec.ofNat 40 (s.slotLineAddr k 0)

/-- Free a block (R8). -/
def State.freeBlock (s : State) (i : Nat) : State := s.setPool (s.pool.freeBlock i)

/-! ### Payload lines (R40 to R42) -/

/-- Add a line number to a written-line set, ascending without duplicates (R41). -/
def addLine (j : Nat) (set : List Nat) : List Nat :=
  match set with
  | [] => [j]
  | i :: rest => if j < i then j :: i :: rest else if j = i then i :: rest else i :: addLine j rest

/-- A payload line reaches a slot (R40 to R42). -/
def State.payloadLine (s : State) (k : Fin 4) (j : Nat) (data : Line) : State :=
  match s.slot k with
  | .empty =>
    match s.pool.allocate with
    | none => s.setSlot k .overrun
    | some (i, p) => ((s.setPool p).setSlot k (.filling i [j] s.air.serve)).writeBlockLine i j data
  | .filling i written first =>
    (s.setSlot k (.filling i (addLine j written) first)).writeBlockLine i j data
  | .discard _ _ => s
  | .overrun => s

/-! ### The tests at a picture record (R45 to R47) -/

/-- The outcome of the sequence test (R46). -/
inductive SeqTest where
  | inOrder
  | gap (expected : Seq) (d : Seq)
  | behind
  deriving DecidableEq, Repr

/-- The sequence test (R46). -/
def sequenceTest (last : Option Seq) (q : Seq) : SeqTest :=
  match last with
  | none => .inOrder
  | some l =>
    if q - (l + 1) = 0 then .inOrder
    else if (q - (l + 1)).toNat < 2147483648 then .gap (l + 1) (q - (l + 1))
    else .behind

/-- Whether tile `t` is complete: every line but line 0 of the frame is in the set (R47). -/
def tileComplete (written : List Nat) (t : Nat) : Bool :=
  (List.range Config.tileLines).all (fun i =>
    t * Config.tileLines + i == 0 || written.contains (t * Config.tileLines + i))

/-- The missing-tile set of a frame (R47). -/
def missingTiles (tiles : Nat) (written : List Nat) : List Nat :=
  (List.range tiles).filter (fun t => !tileComplete written t)

/-- The sequence number of a picture record (R156). -/
def recordSeq (l : Line) : Seq := fieldAt l 4 32

/-- The level code of a picture record (R156). -/
def recordLevel (l : Line) : Byte := fieldAt l 2 8

/-- The segment mark of a picture record: bit 0 of byte 1 (R156). -/
def recordSegment (l : Line) : Bool := l.getLsbD 8

/-! ### Commit (R48) -/

/-- The entry the ingest tracker hands to the queue (R48). Its stamp is the serve number of the latest tick, and
does not change while the entry is in the queue (R60). -/
def commitEntry (serve : Seq) (block : Nat) (data : Line) (missing : List Nat) (gap : Byte) : Entry :=
  { seq := recordSeq data, stamp := serve, block := block, level := recordLevel data,
    segment := recordSegment data, isPartial := missing != [], gapBefore := gap, spliceIn := false,
    hold := none }

/-- Commit the frame of slot `k` in `block` (R48). -/
def State.commitFrame (s : State) (k : Fin 4) (block : Nat) (written : List Nat) (data : Line)
    (gap : Byte) : State :=
  let missing := missingTiles s.pool.tiles written
  ((s.setPool (s.pool.commitBlock block missing)).setIngest
      { slots := s.ingest.slots.set k .empty, lastSeq := some (recordSeq data) }).append
    (commitEntry s.air.serve block data missing gap)

/-- A frame refused at its tests: its block is freed and the slot is EMPTY (R44). -/
def State.refuseFrame (s : State) (k : Fin 4) (block : Nat) : State := (s.setSlot k .empty).freeBlock block

/-- The GAP record of a gap of `d` frames from `e` before seq `q` (R46). -/
def gapEntry (e d q : Seq) : LogEntry :=
  { kind := .gap, first := some e, last := some (q - 1), count := some d, hold := none, cause := .device }

/-- A picture record ends the frame of a slot whose block is bound: the record is stored, tested, and the
frame committed or refused (R44 to R48). -/
def State.finishFrame (s : State) (k : Fin 4) (block : Nat) (written : List Nat) (data : Line) : State :=
  let s1 := s.writeBlockLine block 0 data
  let q := recordSeq data
  if recordGood data then
    match sequenceTest s.ingest.lastSeq q with
    | .inOrder => s1.commitFrame k block written data 0
    | .gap e d =>
      ((s1.report .seqGap (some q) (some (s.slotFaultAddr k))).logEdit (gapEntry e d q)).commitFrame
        k block written data (byteSat d.toNat)
    | .behind => (s1.refuseFrame k block).report .seqBack (some q) (some (s.slotFaultAddr k))
  else (s1.refuseFrame k block).report .headerBad none (some (s.slotFaultAddr k))

/-! ### Lost frames (R49 to R51) -/

/-- The INGEST_DROP record (R49). -/
def dropEntry (q : Option Seq) (cause : Cause) : LogEntry :=
  { kind := .ingestDrop, first := q, last := q, count := some 1, hold := none, cause := cause }

/-- Report a frame lost at its end (R49). -/
def State.reportDrop (s : State) (k : Fin 4) (q : Option Seq) (cause : Cause) : State :=
  (s.report .ingestDrop q (some (s.slotFaultAddr k))).logEdit (dropEntry q cause)

/-- The sequence number a drop may log: the record's, when its record check passes (R49). -/
def loggedSeq (data : Line) : Option Seq := if recordGood data then some (recordSeq data) else none

/-- A picture record reaches a slot (R43, R44, R50 to R52). -/
def State.pictureRecord (s : State) (k : Fin 4) (data : Line) : State :=
  match s.slot k with
  | .filling block written _ => s.finishFrame k block written data
  | .discard block _ => ((s.setSlot k .empty).freeBlock block).reportDrop k (loggedSeq data) .discard
  | .overrun => (s.setSlot k .empty).reportDrop k (loggedSeq data) .overrun
  | .empty =>
    match s.pool.allocate with
    | none => s.reportDrop k (loggedSeq data) .overrun
    | some (i, p) => (s.setPool p).finishFrame k i [] data

/-- An INGEST write line taken in RUNNING (R27, R43). -/
def State.ingestLine (s : State) (k : Fin 4) (j : Nat) (data : Line) : State :=
  if j = 0 then s.pictureRecord k data else s.payloadLine k j data

/-! ### Slot timeout (R54) -/

/-- The bound block of a slot whose first-write tick is 8 ticks old (R54). -/
def IngestSlot.timedOut (sl : IngestSlot) (serve : Seq) : Option Nat :=
  match sl with
  | .empty => none
  | .overrun => none
  | .filling b _ first => if serve - first = 8 then some b else none
  | .discard b first => if serve - first = 8 then some b else none

/-- Abandon slot `k` when it has timed out (R54). -/
def State.timeoutSlot (s : State) (k : Fin 4) : State :=
  match (s.slot k).timedOut s.air.serve with
  | none => s
  | some b => ((s.setSlot k .empty).freeBlock b).reportDrop k none .timeout

/-- Examine the four slots in order (R54). -/
def State.slotTimeouts (s : State) : State :=
  (((s.timeoutSlot 0).timeoutSlot 1).timeoutSlot 2).timeoutSlot 3

/-! ### The end of the slots at STOP (R59, R15) -/

/-- The block a slot holds (R38). -/
def IngestSlot.block (sl : IngestSlot) : Option Nat :=
  match sl with
  | .empty => none
  | .overrun => none
  | .filling b _ _ => some b
  | .discard b _ => some b

/-- Every slot ends: blocks freed in slot order, every slot EMPTY, no report (R59). -/
def State.endSlots (s : State) : State :=
  (s.setPool (s.pool.freeBlocks (s.ingest.slots.toList.filterMap IngestSlot.block))).setIngest
    { s.ingest with slots := Vector.replicate 4 .empty }

end Sys2Proof.Machine
end

