-- ==== Sys2Proof/Machine/Air.lean ====
section
/-! DEFINITION. The air scheduler: bindings, releases, the selection at a tick, and the tick's event. -/

namespace Sys2Proof.Machine

open Sys2Proof

/-! ### Bindings (R79 to R81) -/

/-- The binding of a slot leaves it, when there is one (R81, R13). -/
def State.leaveSlot (s : State) (slot : EgressSlot) : State :=
  match s.air.binding slot with
  | none => s
  | some b => (s.setAir (s.air.setBinding slot none)).setPool (s.pool.leaveBlock b.block)

/-- Both bindings leave, slot A first (R81). -/
def State.leaveBoth (s : State) : State := (s.leaveSlot .a).leaveSlot .b

/-- The binding a released entry makes (R79). Its air delay is R79's difference; `State.selectTick` gives the
0 ticks of R93 where they apply. -/
def Entry.binding (e : Entry) (onAir serve : Seq) (skipBefore : Byte) : Binding :=
  { block := e.block, seq := e.seq, level := e.level, isPartial := e.isPartial, gapBefore := e.gapBefore,
    spliceIn := e.spliceIn, onAir := onAir, releaseServe := serve, airDelay := serve - e.stamp,
    skipBefore := skipBefore, repeats := 0 }

/-- The end of a fill period at a release: its FILL_END record, and the fill-since number absent (R88). -/
def State.endFill (s : State) (q : Seq) : State :=
  match s.air.fillSince with
  | none => s
  | some since =>
    (s.setAir { s.air with fillSince := none }).logEdit
      { kind := .fillEnd, first := some q, last := none, count := some (s.air.serve - since), hold := none,
        cause := .device }

/-- Bind a released entry: the on-air number rises, the slot it names is rebound, and the counts and
condition take the values of a release (R78, R80, R88, R10). -/
def State.bindEntry (s : State) (e : Entry) (skipBefore : Byte) : State :=
  let n := s.air.onAir + 1
  let slot := EgressSlot.ofOnAir n
  let s1 := s.leaveSlot slot
  let air := { s1.air with onAir := n, condition := .flowing, stallCount := 0, stalledHold := none,
                           freezeCount := 0, lastAirDelay := some (s.air.serve - e.stamp) }
  (((s1.setAir (air.setBinding slot (some (e.binding n s.air.serve skipBefore)))).setPool
    (s1.pool.airBlock e.block)).endFill e.seq)

/-- Release of the oldest entry (R66, R80, R88). -/
def State.release (s : State) (skipBefore : Byte) : State :=
  match s.queue.entries with
  | [] => s
  | e :: rest => ((s.setQueue { s.queue with entries := rest }).bindEntry e skipBefore).depthReport

/-- Skip: the oldest entry leaves without airing, its block is freed, and the next is released with one
depth report at the end (R67, R87). -/
def State.skip (s : State) : State :=
  match s.queue.entries with
  | [] => s
  | e :: rest =>
    ((s.setQueue { s.queue with entries := rest }).freeBlock e.block).release
      (byteSat (1 + e.gapBefore.toNat))

/-! ### Ticks on which the current air frame stays (R85 to R87) -/

/-- Raise a binding's repeat count, saturating at 65,535 (R79). -/
def Binding.again (b : Binding) : Binding := { b with repeats := min 65535 (b.repeats + 1) }

/-- The current air frame stays on air for the tick, if there is one (R79). -/
def Air.repeatCurrent (a : Air) : Air :=
  match a.current with
  | none => a
  | some b => a.setBinding (EgressSlot.ofOnAir a.onAir) (some b.again)

/-- A stalled tick on hold `h` (R85), with the stall policy at the limit (R126). -/
def State.stalledTick (s : State) (h : Byte) : State :=
  (s.setAir { s.air.repeatCurrent with
    condition := .stalled
    lastAction := .stall
    stallCount := if s.air.stalledHold = some h then s.air.stallCount + 1 else 1
    stalledHold := some h }).stallPolicyStep

/-- A frozen tick (R86); a FREEZE_START record when the condition was not FROZEN before it. -/
def State.frozenTick (s : State) (cur : Binding) : State :=
  let s1 := s.setAir { s.air.repeatCurrent with
    condition := .frozen, lastAction := .freeze, freezeCount := s.air.freezeCount + 1 }
  if s.air.condition = .frozen then s1
  else s1.logEdit
    { kind := .freezeStart, first := some cur.seq, last := none, count := none, hold := none, cause := .device }

/-- The tick on which the frame frozen to the limit leaves air (R86). -/
def State.freezeEnd (s : State) (cur : Binding) : State :=
  let s1 := s.leaveBoth
  ((s1.setAir { s1.air with
      condition := .filled, lastAction := .fill, fillSince := some s.air.serve }).report
    .fillOnAir (some cur.seq) none).logEdit
    { kind := .fillStart, first := some cur.seq, last := none,
      count := some (BitVec.ofNat 32 s.air.freezeCount), hold := none, cause := .device }

/-- A tick with an empty queue (R86). -/
def State.emptyTick (s : State) : State :=
  match s.air.current with
  | some cur => if s.air.freezeCount < s.monitor.inForce.freezeLimit then s.frozenTick cur else s.freezeEnd cur
  | none => s.setAir { s.air with condition := .filled, lastAction := .fill }

/-- A tick decided by the delay trim's answer (R87). -/
def State.trimTick (s : State) : State :=
  match s.trimAnswer with
  | .none =>
    let s1 := s.afterAsk.release 0
    s1.setAir { s1.air with lastAction := .release }
  | .repeated =>
    let s1 := s.afterAsk
    s1.setAir { s1.air.repeatCurrent with
      condition := .flowing, lastAction := .repeated, repeatTotal := addSat32 s.air.repeatTotal 1 }
  | .skip =>
    let s1 := s.afterAsk.skip
    s1.setAir { s1.air with lastAction := .skip, skipTotal := addSat32 s.air.skipTotal 1 }

/-- The stall count and stalled hold at a tick that is not a stalled tick (R85). -/
def State.clearStall (s : State) : State :=
  s.setAir { s.air with stallCount := 0, stalledHold := none }

/-- The selection at a tick once the serve number has risen (R83). -/
def State.select (s : State) : State :=
  if s.air.condition = .priming ∧ s.depth < s.monitor.inForce.target then
    s.setAir { s.air with lastAction := .primeFill }
  else
    match s.queue.entries with
    | [] => s.clearStall.emptyTick
    | e :: _ =>
      match e.hold with
      | some h => s.stalledTick h
      | none => s.clearStall.trimTick

/-! ### The tick's event (R148, R136, R93, R78, R83, R54) -/

/-- The latch at a tick: every setting in force takes its staged value, and in RUNNING a change of target
or band is evaluated (R148, R99). -/
def State.latch (s : State) : State :=
  let s1 := s.setMonitor { s.monitor with inForce := s.monitor.staged }
  if s.monitor.run = .running ∧
      (s.monitor.staged.target ≠ s.monitor.inForce.target ∨ s.monitor.staged.band ≠ s.monitor.inForce.band) then
    s1.evaluateTrim
  else s1

/-- The blink tick count wraps from 15 to 0 and the blink phase changes (R136). -/
def Console.wrapBlink (c : Console) : Console :=
  { c with blinkLit := !c.blinkLit, blinkCount := 0 }

/-- The blink tick count at a tick (R136). -/
def State.blinkTick (s : State) : State :=
  s.setConsole
    (if 15 ≤ s.console.blinkCount then s.console.wrapBlink
     else { s.console with blinkCount := s.console.blinkCount + 1 })

/-- The serve number rises (R78). -/
def State.raiseServe (s : State) : State := s.setAir { s.air with serve := s.air.serve + 1 }

/-- Every entry of the queue was committed in the instant of the tick now taken, and before it: all of them are
among its `joined` commits and bear the serve number of the latest tick (R48, R93; log 30). Without them the
tick would find the queue empty. -/
def State.onlyThisInstant (s : State) (joined : Nat) : Bool :=
  decide (s.depth ≤ joined) && s.queue.entries.all (fun e => e.stamp == s.air.serve)

/-- The frame just released has an air delay of 0 ticks (R93). -/
def Air.zeroDelay (a : Air) : Air :=
  match a.current with
  | none => a
  | some b =>
    { a.setBinding (EgressSlot.ofOnAir a.onAir) (some { b with airDelay := 0 }) with lastAirDelay := some 0 }

/-- The serve number rises and the selection follows (R78, R83). Where the tick would have found the queue
empty but for the commits of its own instant, the frame it releases has an air delay of 0 ticks (R93). The
stamps of the entries stay as the commits gave them (R60). DESIGN CHOICE (log 30): the row that makes the tick
says how many commits were of its instant. -/
def State.selectTick (s : State) (joined : Nat) : State :=
  let t := s.raiseServe.select
  if s.onlyThisInstant joined = true ∧ t.air.onAir ≠ s.air.onAir then t.setAir t.air.zeroDelay else t

/-- A tick's event: latch, blink, and in RUNNING the serve number, the selection and the slot timeout. -/
def State.tick (s : State) (joined : Nat) : State :=
  let s1 := s.latch.blinkTick
  if s.monitor.run = .running then (s1.selectTick joined).slotTimeouts else s1

end Sys2Proof.Machine
end

