-- ==== Sys2Proof/Machine/Operands.lean ====
section
/-! DEFINITION. The operand forms: line addresses and their classes (R17, R25, R26), the command record
(R157), and the codes of the enumerated fields (R158). -/

namespace Sys2Proof.Machine

open Sys2Proof

/-! ### Line addresses and classes -/

/-- The address of line `i` of a request: the low six bits of the address are taken as zero, and the sum
may pass 2^40 (R17). -/
def requestLine (addr : Addr) (i : Nat) : Nat := addr.toNat / 64 * 64 + 64 * i

/-- The class of a line address with what is carried with it (R26). -/
inductive LineClass where
  | unclaimed
  | ingest (slot : Fin 4) (line : Nat)
  | egress (slot : EgressSlot) (line : Nat)
  | control (pageLine : Nat)
  | readout (pageLine : Nat)
  | pass
  deriving DecidableEq, Repr

/-- Whether an address lies in the `size` bytes from a base. -/
def inRange (base size a : Nat) : Bool := decide (base ≤ a) && decide (a < base + size)

/-- The bytes of a control or readout page (R25). -/
def pageBytes : Nat := 4096

/-- The bytes of the ingest window (R25). -/
def Pool.ingestBytes (p : Pool) : Nat := 4 * p.blockBytes

/-- The bytes of the egress window (R25). -/
def Pool.egressBytes (p : Pool) : Nat := 2 * p.blockBytes

/-- The class of a line address (R26); an ingest or egress base of 0 disables its window (R25). -/
def State.classify (s : State) (a : Nat) : LineClass :=
  let bs := s.pool.blockBytes
  let ib := s.windows.ingest.toNat
  let eb := s.windows.egress.toNat
  if s.hostTop ≤ a then .unclaimed
  else if s.monitor.run != .stopped && ib != 0 && inRange ib s.pool.ingestBytes a then
    .ingest (Fin.ofNat 4 ((a - ib) / bs)) ((a - ib) % bs / 64)
  else if s.monitor.run != .stopped && eb != 0 && inRange eb s.pool.egressBytes a then
    .egress (if (a - eb) / bs = 0 then .a else .b) ((a - eb) % bs / 64)
  else if inRange s.windows.control.toNat pageBytes a then
    .control ((a - s.windows.control.toNat) / 64)
  else if inRange s.windows.readout.toNat pageBytes a then
    .readout ((a - s.windows.readout.toNat) / 64)
  else .pass

/-! ### The link write check (0.7.6, R33) -/

/-- The sum of the three words of an address as carried, zero-extended to 48 bits (R33). -/
def addressSum (addr : Addr) : Half :=
  (addr.extractLsb' 0 16) + (addr.extractLsb' 16 16) + (addr.extractLsb' 32 16)

/-- The link write check: it passes when the sum is 0, and fails without a check word (R33). -/
def linkCheckPasses (addr : Addr) (data : List Line) (check : Option Half) : Bool :=
  match check with
  | none => false
  | some c => data.foldl (fun acc l => acc + wordSum l) 0 + addressSum addr + c == 0

/-! ### Command records (R140, R157) -/

/-- The thirteen commands with their arguments as carried (R157). -/
inductive Command where
  | configure (args : ConfigureArgs)
  | start (target : Half) (mode : Byte)
  | stop
  | setTarget (target : Half)
  | setControl (args : ControlArgs)
  | dump
  | holdOpen
  | holdClose
  | release (hold : Byte)
  | dumpHold (hold : Byte)
  | clearFaults (kinds : Half)
  | resetEngine
  | resetPart (resample : Byte)
  deriving DecidableEq, Repr

/-- The command code (R157). -/
def Command.code : Command → Byte
  | .configure _ => 0x01
  | .start _ _ => 0x02
  | .stop => 0x03
  | .setTarget _ => 0x04
  | .setControl _ => 0x05
  | .dump => 0x06
  | .holdOpen => 0x07
  | .holdClose => 0x08
  | .release _ => 0x09
  | .dumpHold _ => 0x0A
  | .clearFaults _ => 0x0B
  | .resetEngine => 0x0C
  | .resetPart _ => 0x0D

/-- The kind COMMAND in byte 0 (R157). -/
def commandKind : Byte := 0x10

/-- The command number of a record (R157). -/
def recordNum (l : Line) : Byte := fieldAt l 1 8

/-- The command code of a record (R157). -/
def recordCode (l : Line) : Byte := fieldAt l 2 8

/-- The arguments of a CONFIGURE record (R157). -/
def configureOf (l : Line) : ConfigureArgs :=
  { ingest := fieldAt l 4 40, egress := fieldAt l 9 40, control := fieldAt l 14 40,
    readout := fieldAt l 19 40, tiles := fieldAt l 24 8, blocks := fieldAt l 26 16,
    rateCode := fieldAt l 28 8, linkCheck := fieldAt l 29 8 }

/-- The arguments of a SET_CONTROL record (R157). -/
def controlOf (l : Line) : ControlArgs :=
  { change := fieldAt l 4 16, band := fieldAt l 6 8, eligibility := fieldAt l 7 8,
    buildRate := fieldAt l 8 16, catchRate := fieldAt l 10 16, silence := fieldAt l 12 8,
    dumpMode := fieldAt l 13 8, dumpLength := fieldAt l 14 16, dumpFloor := fieldAt l 16 8,
    dumpInflight := fieldAt l 17 8, stallLimit := fieldAt l 18 16, stallPolicy := fieldAt l 20 8,
    freezeLimit := fieldAt l 22 16 }

/-- The command of a record, by its code; none when the code is not one of the thirteen (R141, R157). -/
def commandOf (l : Line) : Option Command :=
  match (recordCode l).toNat with
  | 1 => some (.configure (configureOf l))
  | 2 => some (.start (fieldAt l 4 16) (fieldAt l 6 8))
  | 3 => some .stop
  | 4 => some (.setTarget (fieldAt l 4 16))
  | 5 => some (.setControl (controlOf l))
  | 6 => some .dump
  | 7 => some .holdOpen
  | 8 => some .holdClose
  | 9 => some (.release (fieldAt l 4 8))
  | 10 => some (.dumpHold (fieldAt l 4 8))
  | 11 => some (.clearFaults (fieldAt l 4 16))
  | 12 => some .resetEngine
  | 13 => some (.resetPart (fieldAt l 4 8))
  | _ => none

/-! ### Codes of enumerated fields (R158) -/

/-- Run state codes (R158). -/
def RunState.code : RunState → Byte
  | .stopped => 0
  | .running => 1
  | .stopping => 2

/-- REF mode codes (R158). -/
def GenMode.code : GenMode → Byte
  | .await => 0
  | .locked => 1
  | .lost => 2

/-- Air condition codes (R158). -/
def AirCond.code : AirCond → Byte
  | .off => 0
  | .priming => 1
  | .flowing => 2
  | .stalled => 3
  | .frozen => 4
  | .filled => 5

/-- Slot codes (R156, R158). -/
def EgressSlot.code : EgressSlot → Byte
  | .a => 0
  | .b => 1

/-- Last action codes (R158). -/
def LastAction.code : LastAction → Byte
  | .none => 0
  | .primeFill => 1
  | .stall => 2
  | .freeze => 3
  | .fill => 4
  | .repeated => 5
  | .release => 6
  | .skip => 7

/-- Trim state codes (R158). -/
def TrimState.code : TrimState → Byte
  | .onDelay => 0
  | .building => 1
  | .catching => 2

/-- Rate codes (R158). -/
def RateCode.code : RateCode → Byte
  | .rate25 => 0
  | .rate2997 => 1
  | .rate50 => 2
  | .rate5994 => 3

/-- The rate code of a CONFIGURE field, none when it is not one of the four codes (R144). -/
def RateCode.ofCode (b : Byte) : Option RateCode :=
  match b.toNat with
  | 0 => some .rate25
  | 1 => some .rate2997
  | 2 => some .rate50
  | 3 => some .rate5994
  | _ => none

/-- Eligibility codes (R158). -/
def Eligibility.code : Eligibility → Byte
  | .quietOnly => 0
  | .any => 1

/-- Dump mode codes (R158). -/
def DumpMode.code : DumpMode → Byte
  | .chunk => 0
  | .segment => 1

/-- Stall policy codes (R158). -/
def StallPolicy.code : StallPolicy → Byte
  | .release => 0
  | .dump => 1

/-- Result codes (R158). -/
def CmdResult.code : CmdResult → Byte
  | .accepted => 1
  | .clamped => 2
  | .refusedState => 3
  | .refusedRange => 4
  | .refusedBusy => 5
  | .badCheck => 6
  | .unknown => 7

/-- Ingest slot state codes (R158). -/
def IngestSlot.code : IngestSlot → Byte
  | .empty => 0
  | .filling _ _ _ => 1
  | .discard _ _ => 2
  | .overrun => 3

/-- Hold state codes (R158). -/
def HoldState.code : HoldState → Byte
  | .opened => 1
  | .pending => 2

/-- Store rate codes (R158). -/
def StoreRate.code : StoreRate → Byte
  | .full => 0
  | .half => 1

/-- Fault kind codes of the first-fault record: the bit number plus 1 (R157). -/
def FaultKind.code (k : FaultKind) : Byte := BitVec.ofNat 8 (k.index + 1)

/-- Edit-log kind codes (R158). -/
def LogKind.code : LogKind → Byte
  | .dump => 1
  | .holdReleased => 2
  | .holdDumped => 3
  | .holdEmpty => 4
  | .stallExpired => 5
  | .freezeStart => 6
  | .fillStart => 7
  | .fillEnd => 8
  | .ingestDrop => 9
  | .gap => 10
  | .refLost => 11
  | .refReturn => 12

/-- Cause codes (R158). -/
def Cause.code : Cause → Byte
  | .console => 1
  | .command => 2
  | .policy => 3
  | .device => 4
  | .discard => 5
  | .overrun => 6
  | .timeout => 7

/-- A presence or yes/no byte (09 section 9.9). -/
def flagByte (b : Bool) : Byte := if b then 1 else 0

end Sys2Proof.Machine
end

