-- ==== Sys2Proof/Machine/Readout.lean ====
section
/-! DEFINITION. What the part composes for a read: the aired and FILL picture records (R90, R91) and the
lines of the readout page (R155, R158). -/

namespace Sys2Proof.Machine

open Sys2Proof

/-! ### Picture records on egress (R156) -/

/-- The aired picture record: the stored record with its kind, air fields and check word replaced (R90). -/
def State.airedRecord (s : State) (slot : EgressSlot) (b : Binding) (stored : Line) : Line :=
  let l := putField stored 0 (0x02 : Byte)
  let l := putField l 16 b.onAir
  let l := putField l 20 b.releaseServe
  let l := putField l 24 s.air.serve
  let l := putField l 28 b.airDelay
  let l := putField l 32 (BitVec.ofNat 32 (s.monitor.rateCode.toMs b.airDelay.toNat))
  let l := putField l 36 (BitVec.ofNat 16 b.repeats)
  let l := putField l 38 (if EgressSlot.ofOnAir s.air.onAir = slot then (1 : Byte) else 2)
  let l := putField l 39 b.gapBefore
  let l := putField l 40 b.skipBefore
  let l := putField l 41 (flagByte b.spliceIn)
  let l := putField l 42 (flagByte b.isPartial)
  let l := putField l 43 (0 : BitVec 40)
  sealRecord l

/-- The FILL picture record of line 0 of an unbound slot (R91). -/
def State.fillRecord (s : State) (slot : EgressSlot) : Line :=
  let l := putField (0 : Line) 0 (0x03 : Byte)
  let l := putField l 16 s.air.onAir
  let l := putField l 24 s.air.serve
  let l := putField l 43 s.air.condition.code
  let l := putField l 44 slot.code
  sealRecord l

/-! ### Readout lines (R158) -/

/-- An optional field of the records the part composes: absent reads as zero (09 section 9.9). -/
def optField {w : Nat} (o : Option (BitVec w)) : BitVec w := o.getD 0

/-- Line 0: identity, run state, latched straps, REF mode. -/
def State.readout0 (s : State) : Line :=
  let l := putField (0 : Line) 2 (0x0864 : Half)
  let l := putField l 4 (1 : Byte)
  let l := putField l 5 s.monitor.run.code
  let l := putField l 6 (BitVec.ofNat 8 s.straps.rate.val)
  let l := putField l 7 (BitVec.ofNat 8 s.straps.mem.val)
  let l := putField l 8 (BitVec.ofNat 8 s.straps.delay.val)
  let l := putField l 9 (BitVec.ofNat 8 s.straps.pol.val)
  let l := putField l 10 (BitVec.ofNat 8 s.straps.check.val)
  let l := putField l 11 s.gen.mode.code
  putField l 12 (BitVec.ofNat 32 s.gen.generated)

/-- The current slot field of line 1: 2 when there is no current air frame (R94, R158). -/
def Air.currentSlotCode (a : Air) : Byte :=
  match a.current with
  | none => 2
  | some _ => (EgressSlot.ofOnAir a.onAir).code

/-- Line 1: air status (R94). -/
def State.readout1 (s : State) : Line :=
  let l := putField (0 : Line) 2 s.air.condition.code
  let l := putField l 3 s.air.currentSlotCode
  let l := putField l 4 s.air.serve
  let l := putField l 8 s.air.onAir
  let l := putField l 12 s.air.lastAction.code
  let l := putField l 13 (BitVec.ofNat 16 s.air.stallCount)
  let l := putField l 15 (BitVec.ofNat 16 s.air.freezeCount)
  putField l 17 (flagByte s.air.slotA.isSome ||| (flagByte s.air.slotB.isSome <<< 1))

/-- Line 2: delay, trim and totals (R94, R111). -/
def State.readout2 (s : State) : Line :=
  let ms := fun n => BitVec.ofNat 32 (s.monitor.rateCode.toMs n)
  let l := putField (0 : Line) 2 (BitVec.ofNat 16 s.depth)
  let l := putField l 4 (ms s.depth)
  let l := putField l 8 (BitVec.ofNat 16 s.monitor.inForce.target)
  let l := putField l 10 (ms s.monitor.inForce.target)
  let l := putField l 14 s.trim.state.code
  let l := putField l 15 (BitVec.ofNat 16 s.trim.credit)
  let l := putField l 17 (flagByte s.air.lastAirDelay.isSome)
  let l := putField l 18 (optField s.air.lastAirDelay)
  let l := putField l 22 (optField (s.air.lastAirDelay.map (fun d => ms d.toNat)))
  let l := putField l 26 (BitVec.ofNat 32 s.air.repeatTotal)
  let l := putField l 30 (BitVec.ofNat 32 s.air.skipTotal)
  putField l 34 (BitVec.ofNat 32 s.holds.dumpTotal)

/-- The target and the twelve settings of lines 3 and 4, from byte 32 (R158). -/
def putSettings (l : Line) (c : Settings) : Line :=
  let l := putField l 32 (BitVec.ofNat 16 c.target)
  let l := putField l 34 (BitVec.ofNat 8 c.band)
  let l := putField l 35 c.eligibility.code
  let l := putField l 36 (BitVec.ofNat 16 c.buildRate)
  let l := putField l 38 (BitVec.ofNat 16 c.catchRate)
  let l := putField l 40 (BitVec.ofNat 8 c.silence)
  let l := putField l 41 c.dumpMode.code
  let l := putField l 42 (BitVec.ofNat 16 c.dumpLength)
  let l := putField l 44 (BitVec.ofNat 8 c.dumpFloor)
  let l := putField l 45 (flagByte c.dumpInflight)
  let l := putField l 46 (BitVec.ofNat 16 c.stallLimit)
  let l := putField l 48 c.stallPolicy.code
  putField l 50 (BitVec.ofNat 16 c.freezeLimit)

/-- Line 3: settings in force, windows, pool, host-visible top, rate code, link check mode. -/
def State.readout3 (s : State) : Line :=
  let l := putField (0 : Line) 2 s.windows.ingest
  let l := putField l 7 s.windows.egress
  let l := putField l 12 s.windows.control
  let l := putField l 17 s.windows.readout
  let l := putField l 22 (BitVec.ofNat 8 s.pool.tiles)
  let l := putField l 23 (BitVec.ofNat 16 s.pool.blocks)
  let l := putField l 25 (BitVec.ofNat 40 s.hostTop)
  let l := putField l 30 s.monitor.rateCode.code
  let l := putField l 31 (flagByte s.link.checkMode)
  putSettings l s.monitor.inForce

/-- Line 4: staged settings. -/
def State.readout4 (s : State) : Line := putSettings 0 s.monitor.staged

/-- The results of line 5, three bytes each from byte `off`. -/
def putResults (l : Line) (off : Nat) (rs : List ResultEntry) : Line :=
  match rs with
  | [] => l
  | r :: rest =>
    putResults (putField (putField (putField l off r.num) (off + 1) r.code) (off + 2) r.result.code)
      (off + 3) rest

/-- Line 5: command count and result list, newest first (R142). -/
def State.readout5 (s : State) : Line :=
  putResults (putField (0 : Line) 2 s.monitor.commandCount) 4 (s.monitor.results.take 8)

/-- Line 6: fault flags and first-fault record (R153). -/
def State.readout6 (s : State) : Line :=
  let l := putField (0 : Line) 2 (s.readout.flags.setWidth 16)
  match s.readout.first with
  | none => l
  | some f =>
    let l := putField l 4 (1 : Byte)
    let l := putField l 5 f.kind.code
    let l := putField l 6 f.serve
    let l := putField l 10 (flagByte f.seq.isSome)
    let l := putField l 11 (optField f.seq)
    let l := putField l 15 (flagByte f.addr.isSome)
    putField l 16 (optField f.addr)

/-- Lines 7 to 10: a hold record (R118). -/
def readoutHold (h : HoldRecord) : Line :=
  let l := putField (0 : Line) 2 h.id
  let l := putField l 3 h.state.code
  let l := putField l 4 (flagByte h.firstSeq.isSome)
  let l := putField l 5 (optField h.firstSeq)
  let l := putField l 9 (flagByte h.lastSeq.isSome)
  let l := putField l 10 (optField h.lastSeq)
  let l := putField l 14 (BitVec.ofNat 16 h.unaired)
  putField l 16 h.openedAt

/-- Line 11: pool, ingest slots, store rate and calibration attempts (R5, R14, R38, R161). -/
def State.readout11 (s : State) : Line :=
  let l := putField (0 : Line) 2 (BitVec.ofNat 16 s.pool.free.length)
  let l := putField l 4 (BitVec.ofNat 16 s.pool.retire.length)
  let l := putField l 6 (s.slot 0).code
  let l := putField l 7 (s.slot 1).code
  let l := putField l 8 (s.slot 2).code
  let l := putField l 9 (s.slot 3).code
  let l := putField l 10 s.store.rate.code
  putField l 11 (BitVec.ofNat 8 s.store.attempts)

/-- Lines 32 to 63: an edit-log record (R154). -/
def readoutLog (r : LogRecord) : Line :=
  let e := r.entry
  let l := putField (0 : Line) 2 r.number
  let l := putField l 4 e.kind.code
  let l := putField l 5 e.cause.code
  let l := putField l 6 r.serve
  let l := putField l 10
    (flagByte e.first.isSome ||| (flagByte e.last.isSome <<< 1) ||| (flagByte e.count.isSome <<< 2) |||
      (flagByte e.hold.isSome <<< 3))
  let l := putField l 11 (optField e.first)
  let l := putField l 15 (optField e.last)
  let l := putField l 19 (optField e.count)
  putField l 23 (optField e.hold)

/-- The fields of a page line, none where there is nothing to show (R155). -/
def State.readoutFields (s : State) (p : Nat) : Option Line :=
  match p with
  | 0 => some s.readout0
  | 1 => some s.readout1
  | 2 => some s.readout2
  | 3 => some s.readout3
  | 4 => some s.readout4
  | 5 => some s.readout5
  | 6 => some s.readout6
  | 7 => (s.holds.table[0]?).map readoutHold
  | 8 => (s.holds.table[1]?).map readoutHold
  | 9 => (s.holds.table[2]?).map readoutHold
  | 10 => (s.holds.table[3]?).map readoutHold
  | 11 => some s.readout11
  | _ => if 32 ≤ p then (s.readout.log[p - 32]?).map readoutLog else none

/-- A readout line as composed at take: its page line number in byte 0 and its check word, or 64 zero
bytes where there is nothing to show (R155). -/
def State.readoutLine (s : State) (p : Nat) : Line :=
  match s.readoutFields p with
  | none => 0
  | some l => sealRecord (putField l 0 (BitVec.ofNat 8 p))

end Sys2Proof.Machine
end

