-- ==== Sys2Proof/Machine/Monitor.lean ====
section
/-! DEFINITION. The control monitor: the run-state table, the thirteen commands, results. -/

namespace Sys2Proof.Machine

open Sys2Proof

/-! ### The run-state table (R143) -/

/-- What the run state alone decides: a result without effect, or none when the command is taken (R143). -/
def Command.judge (c : Command) (run : RunState) : Option CmdResult :=
  match c, run with
  | .configure _, .stopped => none
  | .configure _, .running => some .refusedState
  | .configure _, .stopping => some .refusedBusy
  | .start _ _, .stopped => none
  | .start _ _, .running => some .refusedState
  | .start _ _, .stopping => some .refusedBusy
  | .stop, .running => none
  | .stop, _ => some .accepted
  | .setTarget _, .stopping => some .refusedBusy
  | .setTarget _, _ => none
  | .setControl _, .stopping => some .refusedBusy
  | .setControl _, _ => none
  | .clearFaults _, .stopping => some .refusedBusy
  | .clearFaults _, _ => none
  | .dump, .running => none
  | .dump, .stopped => some .refusedState
  | .dump, .stopping => some .refusedBusy
  | .holdOpen, .running => none
  | .holdOpen, .stopped => some .refusedState
  | .holdOpen, .stopping => some .refusedBusy
  | .holdClose, .running => none
  | .holdClose, .stopped => some .refusedState
  | .holdClose, .stopping => some .refusedBusy
  | .release _, .running => none
  | .release _, .stopped => some .refusedState
  | .release _, .stopping => some .refusedBusy
  | .dumpHold _, .running => none
  | .dumpHold _, .stopped => some .refusedState
  | .dumpHold _, .stopping => some .refusedBusy
  | .resetEngine, _ => none
  | .resetPart _, _ => none

/-! ### CONFIGURE (R144, R31) -/

/-- The enabled windows of a CONFIGURE record as base and size (R25, R31). -/
def configWindows (a : ConfigureArgs) : List (Nat × Nat) :=
  let bs := a.tiles.toNat * Config.tileBytes
  (if a.ingest = 0 then [] else [(a.ingest.toNat, 4 * bs)]) ++
  (if a.egress = 0 then [] else [(a.egress.toNat, 2 * bs)]) ++
  [(a.control.toNat, pageBytes), (a.readout.toNat, pageBytes)]

/-- Whether two windows share no address (R31). -/
def windowsApart (v w : Nat × Nat) : Bool := decide (v.1 + v.2 ≤ w.1) || decide (w.1 + w.2 ≤ v.1)

/-- Whether no two windows of a list share an address (R31). -/
def allApart (ws : List (Nat × Nat)) : Bool :=
  match ws with
  | [] => true
  | w :: rest => rest.all (windowsApart w) && allApart rest

/-- The window decoder's part of the CONFIGURE check, at the new host-visible top (R31). -/
def configWindowsOk (a : ConfigureArgs) (top : Nat) : Bool :=
  a.ingest.toNat % Config.mib == 0 && a.egress.toNat % Config.mib == 0 &&
  a.control.toNat % pageBytes == 0 && a.readout.toNat % pageBytes == 0 &&
  allApart (configWindows a) && (configWindows a).all (fun w => decide (w.1 + w.2 ≤ top))

/-- The block size limits (R2, R144). -/
def configTilesOk (a : ConfigureArgs) (rate : StoreRate) : Bool :=
  decide (4 ≤ a.tiles.toNat) && decide (a.tiles.toNat ≤ if rate = .half then 64 else 128)

/-- The limits of `pool_blocks` and of the host-visible top (R2, R144). -/
def configPoolOk (a : ConfigureArgs) (mem : Fin 4) : Bool :=
  decide (16 ≤ a.blocks.toNat) && decide (a.blocks.toNat ≤ 2048) &&
  decide (256 * Config.mib + a.blocks.toNat * (a.tiles.toNat * Config.tileBytes) ≤ dramBytes mem)

/-- Every check of CONFIGURE, with the rate code it carries (R144). -/
def State.configureRate (s : State) (a : ConfigureArgs) : Option RateCode :=
  if configTilesOk a s.store.rate && configPoolOk a s.straps.mem &&
      configWindowsOk a (hostTopOf s.straps.mem a.tiles.toNat a.blocks.toNat) &&
      decide (a.linkCheck.toNat ≤ 1) then
    RateCode.ofCode a.rateCode
  else none

/-- The pool an accepted CONFIGURE leaves: re-made when its dimensions change (R2). -/
def Pool.configured (p : Pool) (tiles blocks : Nat) : Pool :=
  if p.tiles = tiles ∧ p.blocks = blocks then p else Pool.fresh tiles blocks

/-- CONFIGURE taken in STOPPED (R144, R96). -/
def State.cmdConfigure (s : State) (a : ConfigureArgs) : State × CmdResult :=
  match s.configureRate a with
  | none => (s, .refusedRange)
  | some rate =>
    let pool := s.pool.configured a.tiles.toNat a.blocks.toNat
    let clamp := fun c : Settings => { c with target := min c.target pool.maxTarget }
    let s1 := s.setPool pool
    let s2 := s1.setWindows { ingest := a.ingest, egress := a.egress, control := a.control, readout := a.readout }
    let s3 := s2.setLink { s.link with checkMode := a.linkCheck == 1 }
    let s4 := s3.setGen { s.gen with restated := s.gen.restated || s.monitor.rateCode != rate }
    let s5 := s4.setMonitor { s.monitor with
      rateCode := rate, staged := clamp s.monitor.staged, inForce := clamp s.monitor.inForce }
    (s5, if s.monitor.staged.target ≤ pool.maxTarget ∧ s.monitor.inForce.target ≤ pool.maxTarget then .accepted
         else .clamped)

/-! ### START (R145) -/

/-- The start mode and the air condition it sets: 0 STRETCH gives FILLED, 1 WAIT gives PRIMING (R82). -/
def startCondition (mode : Byte) : Option AirCond :=
  match mode.toNat with
  | 0 => some .filled
  | 1 => some .priming
  | _ => none

/-- The run START makes, from an accepted target and air condition (R145). -/
def State.startRun (s : State) (target : Nat) (cond : AirCond) : State :=
  let staged := { s.monitor.staged with target := target }
  (((((((s.setPool s.pool.rebuild).setIngest Ingest.start).setQueue Queue.start).setAir
    { Air.start with condition := cond }).setTrim (Trim.start.evaluate 0 target staged.band)).setHolds
    { s.holds with table := [], dumpTotal := 0 }).setMonitor
    { s.monitor with run := .running, staged := staged, inForce := staged })

/-- START taken in STOPPED (R145). -/
def State.cmdStart (s : State) (target : Half) (mode : Byte) : State × CmdResult :=
  if s.windows.ingest = 0 ∨ s.windows.egress = 0 then (s, .refusedState)
  else
    match startCondition mode with
    | none => (s, .refusedRange)
    | some cond =>
      (s.startRun (min target.toNat s.pool.maxTarget) cond,
        if target.toNat ≤ s.pool.maxTarget then .accepted else .clamped)

/-! ### STOP (R146) -/

/-- What STOP does to the run, but for the end of the drain (R146, R15, R92, R102, R129). -/
def State.tearDown (s : State) : State :=
  let s1 := s.clearQueue.endSlots.leaveBoth
  ((((s1.setHolds { s1.holds with table := [] }).setAir
    { s1.air with condition := .off, stallCount := 0, stalledHold := none, freezeCount := 0,
                  fillSince := none }).setTrim Trim.start).setMonitor
    { s1.monitor with run := .stopping })

/-- STOP of a run: the tear-down, and STOPPED in the same event when the retire list is empty (R146). -/
def State.stopRun (s : State) : State := s.tearDown.endDrain

/-- STOP taken in RUNNING (R146). -/
def State.cmdStop (s : State) : State × CmdResult := (s.stopRun, .accepted)

/-! ### SET_TARGET and SET_CONTROL (R147) -/

/-- SET_TARGET (R147). -/
def State.cmdSetTarget (s : State) (target : Half) : State × CmdResult :=
  (s.setMonitor { s.monitor with
      staged := { s.monitor.staged with target := min target.toNat s.pool.maxTarget } },
    if target.toNat ≤ s.pool.maxTarget then .accepted else .clamped)

/-- Whether the change set names setting `i` (R157). -/
def namesSetting (a : ControlArgs) (i : Nat) : Bool := a.change.getLsbD i

/-- An enumerated field named in the change set holds one of its two codes (R147). -/
def controlCodesOk (a : ControlArgs) : Bool :=
  (!namesSetting a 1 || decide (a.eligibility.toNat ≤ 1)) && (!namesSetting a 5 || decide (a.dumpMode.toNat ≤ 1)) &&
  (!namesSetting a 8 || decide (a.dumpInflight.toNat ≤ 1)) && (!namesSetting a 10 || decide (a.stallPolicy.toNat ≤ 1))

/-- A value brought into a range (R147). -/
def clampTo (lo hi v : Nat) : Nat := max lo (min hi v)

/-- Whether a value lies in a range. -/
def inBounds (lo hi v : Nat) : Bool := decide (lo ≤ v) && decide (v ≤ hi)

/-- Whether every numeric value named lies in its range (R147). -/
def controlValuesOk (a : ControlArgs) : Bool :=
  (!namesSetting a 0 || inBounds 0 15 a.band.toNat) && (!namesSetting a 2 || inBounds 1 500 a.buildRate.toNat) &&
  (!namesSetting a 3 || inBounds 1 500 a.catchRate.toNat) && (!namesSetting a 6 || inBounds 1 1024 a.dumpLength.toNat) &&
  (!namesSetting a 7 || inBounds 0 64 a.dumpFloor.toNat) && (!namesSetting a 9 || inBounds 1 3000 a.stallLimit.toNat) &&
  (!namesSetting a 11 || inBounds 1 1000 a.freezeLimit.toNat)

/-- The staged settings after SET_CONTROL: each named setting takes its clamped value (R147). -/
def Settings.change (c : Settings) (a : ControlArgs) : Settings :=
  { target := c.target
    band := if namesSetting a 0 then clampTo 0 15 a.band.toNat else c.band
    eligibility := if namesSetting a 1 then (if a.eligibility = 0 then .quietOnly else .any) else c.eligibility
    buildRate := if namesSetting a 2 then clampTo 1 500 a.buildRate.toNat else c.buildRate
    catchRate := if namesSetting a 3 then clampTo 1 500 a.catchRate.toNat else c.catchRate
    silence := if namesSetting a 4 then a.silence.toNat else c.silence
    dumpMode := if namesSetting a 5 then (if a.dumpMode = 0 then .chunk else .segment) else c.dumpMode
    dumpLength := if namesSetting a 6 then clampTo 1 1024 a.dumpLength.toNat else c.dumpLength
    dumpFloor := if namesSetting a 7 then clampTo 0 64 a.dumpFloor.toNat else c.dumpFloor
    dumpInflight := if namesSetting a 8 then a.dumpInflight == 1 else c.dumpInflight
    stallLimit := if namesSetting a 9 then clampTo 1 3000 a.stallLimit.toNat else c.stallLimit
    stallPolicy := if namesSetting a 10 then (if a.stallPolicy = 0 then .release else .dump) else c.stallPolicy
    freezeLimit := if namesSetting a 11 then clampTo 1 1000 a.freezeLimit.toNat else c.freezeLimit }

/-- SET_CONTROL (R147). -/
def State.cmdSetControl (s : State) (a : ControlArgs) : State × CmdResult :=
  if controlCodesOk a then
    (s.setMonitor { s.monitor with staged := s.monitor.staged.change a },
      if controlValuesOk a then .accepted else .clamped)
  else (s, .refusedRange)

/-! ### Dump and hold commands (R113, R121 to R124) -/

/-- DUMP (R113). -/
def State.cmdDump (s : State) : State × CmdResult :=
  if s.removable = 0 then (s, .refusedState) else (s.dumpNewest .command, .accepted)

/-- HOLD_OPEN (R121). -/
def State.cmdHoldOpen (s : State) : State × CmdResult :=
  if s.openHold.isSome then (s, .refusedState)
  else if 4 ≤ s.holds.table.length then (s, .refusedBusy)
  else (s.openNewHold, .accepted)

/-- HOLD_CLOSE (R122). -/
def State.cmdHoldClose (s : State) : State × CmdResult :=
  match s.openHold with
  | none => (s, .refusedState)
  | some r => (s.closeHold r .command, .accepted)

/-- RELEASE: id 0 names the oldest record (R123). -/
def State.cmdRelease (s : State) (h : Byte) : State × CmdResult :=
  match (if h = 0 then s.holds.table.head? else s.findHold h) with
  | none => (s, .refusedState)
  | some r => (s.releaseHold r .command, .accepted)

/-- DUMP_HOLD: id 0 is carried by no record (R124). -/
def State.cmdDumpHold (s : State) (h : Byte) : State × CmdResult :=
  match (if h = 0 then none else s.findHold h) with
  | none => (s, .refusedState)
  | some r => (s.dumpHold r .command, .accepted)

/-! ### CLEAR_FAULTS, RESET_ENGINE, RESET_PART (R149, R150, R152) -/

/-- CLEAR_FAULTS (R149). -/
def State.cmdClearFaults (s : State) (kinds : Half) : State × CmdResult :=
  (s.setReadout { s.readout with
      flags := s.readout.flags &&& ~~~(kinds.setWidth 10)
      first := s.readout.first.filter (fun r => !kinds.getLsbD r.kind.index) }, .accepted)

/-- The blocks after RESET_ENGINE, beyond the end of a run (R150, R59, R71, R92, R102, R129). -/
def State.engineReset (s : State) : State :=
  ((((((s.setIngest Ingest.start).setQueue Queue.start).setAir
    { s.air with slotA := none, slotB := none, condition := .off, stallCount := 0, stalledHold := none,
                 freezeCount := 0, repeatTotal := 0, skipTotal := 0, fillSince := none }).setTrim
    Trim.start).setHolds Holds.start).setReadout Readout.start).setMonitor
    { s.monitor with staged := Settings.default s.straps s.pool, inForce := Settings.default s.straps s.pool }

/-- RESET_ENGINE (R150). -/
def State.cmdResetEngine (s : State) : State × CmdResult :=
  ((if s.monitor.run = .running then s.stopRun else s).engineReset, .accepted)

/-- RESET_PART: with resample 0 or 1 it starts the completion phase and enters no result (R152, R164). -/
def State.cmdResetPart (s : State) (resample : Byte) : State × Option CmdResult :=
  if resample.toNat ≤ 1 then (s.setMonitor { s.monitor with resetPart := some (resample == 1) }, none)
  else (s, some .refusedRange)

/-! ### Carrying out a command (R141, R142) -/

/-- A taken command, by its own rule. -/
def State.carryOut (s : State) (c : Command) : State × Option CmdResult :=
  let entered := fun r : State × CmdResult => (r.1, some r.2)
  match c with
  | .configure a => entered (s.cmdConfigure a)
  | .start t m => entered (s.cmdStart t m)
  | .stop => entered s.cmdStop
  | .setTarget t => entered (s.cmdSetTarget t)
  | .setControl a => entered (s.cmdSetControl a)
  | .dump => entered s.cmdDump
  | .holdOpen => entered s.cmdHoldOpen
  | .holdClose => entered s.cmdHoldClose
  | .release h => entered (s.cmdRelease h)
  | .dumpHold h => entered (s.cmdDumpHold h)
  | .clearFaults k => entered (s.cmdClearFaults k)
  | .resetEngine => entered s.cmdResetEngine
  | .resetPart r => s.cmdResetPart r

/-- Enter a result: the command count rises and the entry joins the newest of eight (R142). -/
def State.enterResult (s : State) (num code : Byte) (r : CmdResult) : State :=
  s.setMonitor { s.monitor with
    results := ({ num := num, code := code, result := r } :: s.monitor.results).take 8
    commandCount := s.monitor.commandCount + 1 }

/-- A command judged by the run state, carried out when taken, and its result entered after its effect;
an accepted RESET_PART enters none (R141 to R143). -/
def State.runCommand (s : State) (num : Byte) (c : Command) : State :=
  match c.judge s.monitor.run with
  | some r => s.enterResult num c.code r
  | none =>
    match s.carryOut c with
    | (t, some r) => t.enterResult num c.code r
    | (t, none) => t

/-- Whether the control monitor reads command records: LINK_READY is high and no RESET_PART has been
accepted (R140, R164). -/
def State.listening (s : State) : Bool := s.link.ready && s.monitor.resetPart.isNone

/-- A command as the control monitor reads it from a record that passes its check (log 3). -/
def State.readCommand (s : State) (num : Byte) (c : Command) : State :=
  if s.listening then s.runCommand num c else s

/-- The copy of a CONTROL write line handed to the control monitor (R140, R141). -/
def State.monitorLine (s : State) (addr : Nat) (l : Line) : State :=
  if fieldAt l 0 8 = commandKind ∧ s.monitor.resetPart.isNone then
    if recordGood l then
      match commandOf l with
      | none => s.enterResult (recordNum l) (recordCode l) .unknown
      | some c => s.runCommand (recordNum l) c
    else
      (s.report .cmdBad none (some (BitVec.ofNat 40 addr))).enterResult (recordNum l) (recordCode l) .badCheck
  else s

/-! ### The command rows of the table -/

/-- CONFIGURE (R144). -/
def execConfigure (num : Byte) (args : ConfigureArgs) (s : State) : Host.Outcome State Fault Refusal :=
  .next (s.readCommand num (.configure args))

/-- START (R145). -/
def execStart (num : Byte) (target : Half) (mode : Byte) (s : State) : Host.Outcome State Fault Refusal :=
  .next (s.readCommand num (.start target mode))

/-- STOP (R146). -/
def execStop (num : Byte) (s : State) : Host.Outcome State Fault Refusal :=
  .next (s.readCommand num .stop)

/-- SET_TARGET (R147). -/
def execSetTarget (num : Byte) (target : Half) (s : State) : Host.Outcome State Fault Refusal :=
  .next (s.readCommand num (.setTarget target))

/-- SET_CONTROL (R147). -/
def execSetControl (num : Byte) (args : ControlArgs) (s : State) : Host.Outcome State Fault Refusal :=
  .next (s.readCommand num (.setControl args))

/-- DUMP (R113). -/
def execDump (num : Byte) (s : State) : Host.Outcome State Fault Refusal :=
  .next (s.readCommand num .dump)

/-- HOLD_OPEN (R121). -/
def execHoldOpen (num : Byte) (s : State) : Host.Outcome State Fault Refusal :=
  .next (s.readCommand num .holdOpen)

/-- HOLD_CLOSE (R122). -/
def execHoldClose (num : Byte) (s : State) : Host.Outcome State Fault Refusal :=
  .next (s.readCommand num .holdClose)

/-- RELEASE (R123). -/
def execRelease (num : Byte) (hold : Byte) (s : State) : Host.Outcome State Fault Refusal :=
  .next (s.readCommand num (.release hold))

/-- DUMP_HOLD (R124). -/
def execDumpHold (num : Byte) (hold : Byte) (s : State) : Host.Outcome State Fault Refusal :=
  .next (s.readCommand num (.dumpHold hold))

/-- CLEAR_FAULTS (R149). -/
def execClearFaults (num : Byte) (kinds : Half) (s : State) : Host.Outcome State Fault Refusal :=
  .next (s.readCommand num (.clearFaults kinds))

/-- RESET_ENGINE (R150). -/
def execResetEngine (num : Byte) (s : State) : Host.Outcome State Fault Refusal :=
  .next (s.readCommand num .resetEngine)

/-- RESET_PART (R152, R164): the completion phase starts. -/
def execResetPart (num : Byte) (resample : Byte) (s : State) : Host.Outcome State Fault Refusal :=
  .next (s.readCommand num (.resetPart resample))

end Sys2Proof.Machine
end

