-- ==== Sys2Proof/Machine/Link.lean ====
section
/-! DEFINITION. The link port: READ, WRITE and READ_COMPLETION. -/

namespace Sys2Proof.Machine

open Sys2Proof

/-! ### WRITE (R27, R28, R34, R35) -/

/-- Write a line to DRAM at a host address (R20). -/
def State.writeHostLine (s : State) (a : Nat) (l : Line) : State := s.setDram (writeLine s.dram a l)

/-- One line of a WRITE that is not UNCLAIMED, by its class (R27). -/
def State.writeClassified (s : State) (a : Nat) (l : Line) (c : LineClass) : State :=
  match c with
  | .unclaimed => s
  | .ingest k j => if s.monitor.run = .running then s.ingestLine k j l else s
  | .egress _ _ => s
  | .control _ => (s.writeHostLine a l).monitorLine a l
  | .readout _ => s.writeHostLine a l
  | .pass => s.writeHostLine a l

/-- The lines of a WRITE in ascending order from address `a`, each classified when it is reached (R19, R35).
The first UNCLAIMED line raises the request's one fault (R28); `told` says that it has been raised. -/
def State.writeLines (s : State) (a : Nat) (data : List Line) (told : Bool) : State :=
  match data with
  | [] => s
  | l :: rest =>
    match s.classify a with
    | .unclaimed =>
      (if told then s else s.report .unclaimed none (some (BitVec.ofNat 40 a))).writeLines (a + 64) rest true
    | c => (s.writeClassified a l c).writeLines (a + 64) rest told

/-- Whether a line address is classified INGEST with slot `k`. -/
def State.touchesSlot (s : State) (k : Fin 4) (a : Nat) : Bool :=
  match s.classify a with
  | .ingest k' _ => k' == k
  | _ => false

/-- The check-failure notice: every slot named goes from FILLING to DISCARD (R34, R57). -/
def State.checkFailureNotice (s : State) (addrs : List Nat) : State :=
  s.setIngest { s.ingest with
    slots := Vector.ofFn (fun k : Fin 4 =>
      if addrs.any (s.touchesSlot k) then (s.slot k).discarded else s.slot k) }

/-- A WRITE that fails the link write check is dropped whole (R34). -/
def State.failedWrite (s : State) (addr : Addr) (lines : Nat) : State :=
  let s1 := s.report .linkCheck none (some addr)
  if s.monitor.run = .running then s1.checkFailureNotice ((List.range lines).map (requestLine addr)) else s1

/-- A WRITE is taken: its link write check is decided in the mode in force, then its lines are handed on
(R18, R33 to R35). -/
def State.takeWrite (s : State) (addr : Addr) (data : List Line) (check : Option Half) : State :=
  if s.link.checkMode && !linkCheckPasses addr data check then s.failedWrite addr data.length
  else s.writeLines (requestLine addr 0) data false

/-! ### READ (R23, R24, R28, R29) -/

/-- The tag of an accepted entry (R22). -/
def InFlight.acceptedTag (e : InFlight) : Option (BitVec 6) :=
  match e with
  | .accepted t _ _ => some t
  | .refused _ => none

/-- Whether an accepted entry carries the tag (R23). -/
def State.tagInUse (s : State) (tag : BitVec 6) : Bool :=
  s.link.inFlight.any (fun e => e.acceptedTag == some tag)

/-- A READ line in the ingest window (R56). -/
def State.readIngest (s : State) (k : Fin 4) (j : Nat) : LineResult :=
  match s.slot k with
  | .filling b _ _ => if s.monitor.run = .running then .ok (s.readBlockLine b j) else .fill fillLine
  | .empty => .fill fillLine
  | .discard _ _ => .fill fillLine
  | .overrun => .fill fillLine

/-- A READ line in the egress window (R89, R91). -/
def State.readEgress (s : State) (slot : EgressSlot) (j : Nat) : LineResult :=
  match s.air.binding slot with
  | none => .fill (if j = 0 then s.fillRecord slot else fillLine)
  | some b =>
    if j = 0 then .ok (s.airedRecord slot b (s.readBlockLine b.block 0))
    else if (s.pool.missingTiles b.block).contains (j / Config.tileLines) then .fill fillLine
    else .ok (s.readBlockLine b.block j)

/-- The result of one line of an accepted READ, by its class (R29). -/
def State.readResult (s : State) (a : Nat) : LineResult :=
  match s.classify a with
  | .unclaimed => .unclaimed
  | .ingest k j => s.readIngest k j
  | .egress slot j => s.readEgress slot j
  | .control _ => .ok (readLine s.dram a)
  | .readout p => .ok (s.readoutLine p)
  | .pass => .ok (readLine s.dram a)

/-- The block a line of a READ is taken on (R11): that of a bound egress slot. -/
def State.readBlock (s : State) (a : Nat) : Option Nat :=
  match s.classify a with
  | .egress slot _ => (s.air.binding slot).map (·.block)
  | _ => none

/-- Add a block to a set of blocks. -/
def addBlock (set : List Nat) (i : Nat) : List Nat := if set.contains i then set else set ++ [i]

/-- The set of blocks a READ is taken on (R11, R22). -/
def State.readBlocks (s : State) (addrs : List Nat) : List Nat :=
  (addrs.filterMap s.readBlock).foldl addBlock []

/-- Raise the in-flight read count of each block (R11). -/
def Pool.takeReads (p : Pool) (is : List Nat) : Pool := is.foldl Pool.takeRead p

/-- Put an entry at the newest end of the in-flight read list (R22). -/
def State.pushInFlight (s : State) (e : InFlight) : State :=
  s.setLink { s.link with inFlight := s.link.inFlight ++ [e] }

/-- The UNCLAIMED fault of a READ, once, with its lowest UNCLAIMED line (R28). -/
def State.reportUnclaimed (s : State) (addrs : List Nat) : State :=
  match addrs.find? (fun a => s.classify a == .unclaimed) with
  | none => s
  | some a => s.report .unclaimed none (some (BitVec.ofNat 40 a))

/-- An accepted READ: every line's content fixed at take, and the read taken on the blocks that serve it
(R23, R24). -/
def State.acceptRead (s : State) (addrs : List Nat) (tag : BitVec 6) : State :=
  ((s.pushInFlight (.accepted tag (addrs.map s.readResult) (s.readBlocks addrs))).setPool
    (s.pool.takeReads (s.readBlocks addrs))).reportUnclaimed addrs

/-- A READ is taken (R18, R23). -/
def State.takeRead (s : State) (addr : Addr) (lines : Nat) (tag : BitVec 6) : State :=
  if s.tagInUse tag then s.pushInFlight (.refused tag)
  else s.acceptRead ((List.range lines).map (requestLine addr)) tag

/-! ### Requests on the link (R18) -/

/-- Whether the link port takes requests: LINK_READY is high and no RESET_PART has been accepted
(R18, R36, R37). -/
def State.takesRequests (s : State) : Bool := s.link.ready && s.monitor.resetPart.isNone

/-- Whether a request can be taken now; a READ needs a place on the in-flight read list (R18, R22). -/
def State.canTake (s : State) (r : Request) : Bool :=
  match r with
  | .read _ _ _ => s.takesRequests && decide (s.link.inFlight.length < 64)
  | .write _ _ _ => s.takesRequests

/-- Take one request (R18). -/
def State.takeRequest (s : State) (r : Request) : State :=
  match r with
  | .read addr lines tag => s.takeRead addr lines tag
  | .write addr data check => s.takeWrite addr data check

/-- Set the requests that wait on the link. -/
def State.setWaiting (s : State) (rs : List Request) : State := s.setLink { s.link with waiting := rs }

/-- Take requests in arrival order until one cannot be taken; that one and those behind it wait (R18). -/
def State.takeRequests (s : State) (rs : List Request) : State :=
  match rs with
  | [] => s.setWaiting []
  | r :: rest => if s.canTake r then (s.takeRequest r).takeRequests rest else s.setWaiting (r :: rest)

/-- Take what waits on the link, as far as it can be taken (R18; log 4). -/
def State.serveLink (s : State) : State := s.takeRequests s.link.waiting

/-- A request arrives behind those that wait (R18). -/
def State.arrive (s : State) (r : Request) : State := s.takeRequests (s.link.waiting ++ [r])

/-! ### READ_COMPLETION (R21, R22, R37) -/

/-- The results an accepted read completes with: those fixed at take, or, in the completion phase of a
RESET_PART, every line FILL with the fill line (R37, R164). -/
def State.completionResults (s : State) (results : List LineResult) : List LineResult :=
  if s.monitor.resetPart.isSome then results.map (fun _ => .fill fillLine) else results

/-- The completion of an in-flight entry (R21, R37). -/
def State.completionOf (s : State) (e : InFlight) : Completion :=
  match e with
  | .accepted tag results _ => .lines tag (s.completionResults results)
  | .refused tag => .tagInUse tag

/-- The blocks an entry was taken on (R22). -/
def InFlight.blocks (e : InFlight) : List Nat :=
  match e with
  | .accepted _ _ bs => bs
  | .refused _ => []

/-- Lower the in-flight read count of each block (R12). DESIGN CHOICE (log 31): the blocks are handled in the
order of the read's lines, slot A's before slot B's, so where one completion brings two RETIRING blocks to 0
they join the free list tail in that order; R9, R13 and R15 do not order them. -/
def Pool.completeReads (p : Pool) (is : List Nat) : Pool := is.foldl Pool.completeRead p

/-- The end of a drain, at the completion that empties the retire list in STOPPING (R15). -/
def State.drainStep (s : State) : State := if s.monitor.run = .stopping then s.endDrain else s

/-- The oldest in-flight read `e` is completed and reported to the pool manager (R12, R22). -/
def State.completeOldest (s : State) (e : InFlight) (rest : List InFlight) : State :=
  ((s.setLink { s.link with inFlight := rest, sent := s.link.sent ++ [s.completionOf e] }).setPool
    (s.pool.completeReads e.blocks)).drainStep

/-! ### The link rows of the table -/

/-- READ (R23): it is taken at once when it can be, and waits on the link otherwise (R18). -/
def execRead (addr : Addr) (lines : Nat) (tag : BitVec 6) (s : State) : Host.Outcome State Fault Refusal :=
  .next (s.arrive (.read addr lines tag))

/-- WRITE (R35): it is taken at once when it can be, and waits on the link otherwise (R18). -/
def execWrite (addr : Addr) (data : List Line) (check : Option Half) (s : State) :
    Host.Outcome State Fault Refusal :=
  .next (s.arrive (.write addr data check))

/-- READ_COMPLETION (R22): the oldest in-flight read completes; a request that waited for its place is
then taken (R18). With no read in flight, or LINK_READY low, no completion is sent (R36). -/
def execReadCompletion (s : State) : Host.Outcome State Fault Refusal :=
  match s.link.inFlight with
  | [] => .next s
  | e :: rest => if s.link.ready then .next (s.completeOldest e rest).serveLink else .next s

end Sys2Proof.Machine
end

