-- ==== Sys2Proof/Machine/Ticks.lean ====
section
/-! DEFINITION. The tick generator (R74 to R77) and the tick's sub-events that the table lists as rows. -/

namespace Sys2Proof.Machine

open Sys2Proof

/-! ### Spans (R74) -/

/-- The frame period P in force (R74). -/
def State.period (s : State) : Nat := s.monitor.rateCode.period

/-- Half a period (R74). -/
def State.halfPeriod (s : State) : Nat := s.period / 2

/-- 1.5 periods (R74). -/
def State.lossSpan (s : State) : Nat := 3 * s.period / 2

/-- The span from m after which the generator's own event falls due: 1.5 periods in AWAIT and LOCKED (the
loss), one period in LOST (a generated tick) (R74, R76). -/
def State.dueSpan (s : State) : Nat :=
  match s.gen.mode with
  | .await => s.lossSpan
  | .locked => s.lossSpan
  | .lost => s.period

/-- The count at which the generator's own event falls due; a span that has already elapsed falls due at
once (R74). -/
def State.dueMoment (s : State) : Nat := max s.gen.osc (s.gen.reference + s.dueSpan)

/-- The moment of the generator's own event when it is sent with an oscillator count: the due moment, and a
later count only after a change of the rate code, when the span may have elapsed already (R74; log 9). -/
def State.ownMoment (s : State) (count : Nat) : Nat :=
  if s.gen.restated then max s.dueMoment count else s.dueMoment

/-! ### The generator's events -/

/-- The reference moment and mode after a tick, a loss or a re-phasing at count `t`. -/
def State.setReference (s : State) (mode : GenMode) (t generated : Nat) : State :=
  s.setGen { mode := mode, reference := t, generated := generated, osc := t, restated := false }

/-- The loss of REF at count `t`: fault, record, and a generated tick (R76). -/
def State.loseRef (s : State) (t joined : Nat) : State :=
  ((((s.report .refLost none none).logEdit
    { kind := .refLost, first := none, last := none, count := none, hold := none,
      cause := .device }).setReference .lost t 1).tick joined)

/-- A generated tick in LOST at count `t` (R76). -/
def State.generateTick (s : State) (t joined : Nat) : State :=
  (s.setReference .lost t (addSat32 s.gen.generated 1)).tick joined

/-- The generator's own event at count `t`: the loss of REF in AWAIT and LOCKED, a generated tick in LOST. It
is the event due before an edge, so no commit of the edge's instant is of its own. -/
def State.ownEvent (s : State) (t : Nat) : State :=
  match s.gen.mode with
  | .await => s.loseRef t 0
  | .locked => s.loseRef t 0
  | .lost => s.generateTick t 0

/-- The generator's own events that fall due strictly before count `t` come before what happens at `t`
(R76; log 8); `fuel` bounds their number. -/
def State.catchUp (s : State) (t fuel : Nat) : State :=
  match fuel with
  | 0 => s
  | n + 1 => if s.dueMoment < t then (s.ownEvent s.dueMoment).catchUp t n else s

/-- Enough fuel for the own events before count `t`. -/
def State.catchUpFuel (s : State) (t : Nat) : Nat := (t - s.gen.reference) / s.period + 1

/-- The oscillator is known to have reached count `t`. -/
def State.reachCount (s : State) (t : Nat) : State := s.setGen { s.gen with osc := t }

/-- A REF rising edge at count `t` in LOCKED: a glitch less than half a period after m, a tick otherwise
(R75). -/
def State.edgeLocked (s : State) (t joined : Nat) : State :=
  if t - s.gen.reference < s.halfPeriod then s.reachCount t
  else (s.setReference .locked t s.gen.generated).tick joined

/-- The first REF rising edge in LOST, at count `t`: REF_RETURN, and a tick at or after half a period, an
absorbed edge before it (R77). -/
def State.edgeReturns (s : State) (t joined : Nat) : State :=
  let s1 := (s.logEdit
    { kind := .refReturn, first := none, last := none, count := some (BitVec.ofNat 32 s.gen.generated),
      hold := none, cause := .device }).setReference .locked t 0
  if t - s.gen.reference < s.halfPeriod then s1 else s1.tick joined

/-- A REF rising edge at count `t`, by the mode (R74, R75, R77). -/
def State.takeEdge (s : State) (t joined : Nat) : State :=
  match s.gen.mode with
  | .await => (s.setReference .locked t s.gen.generated).tick joined
  | .locked => s.edgeLocked t joined
  | .lost => s.edgeReturns t joined

/-- An edge at the given count, not before the latest known one. -/
def State.refEdgeAt (s : State) (count joined : Nat) : State :=
  let s1 := s.catchUp (max s.gen.osc count) (s.catchUpFuel (max s.gen.osc count))
  s1.takeEdge (max s1.gen.osc count) joined

/-! ### The rows of the tick generator -/

/-- REF_EDGE (R74, R75, R77); no edge is taken while the generator is halted. -/
def execRefEdge (moment : Moment) (s : State) : Host.Outcome State Fault Refusal :=
  if s.link.ready then .next (s.refEdgeAt moment.count moment.joined) else .next s

/-- REF_LOST (R76): the loss is declared in AWAIT and LOCKED only, and not while the generator is halted. -/
def execRefLost (moment : Moment) (s : State) : Host.Outcome State Fault Refusal :=
  if s.link.ready ∧ s.gen.mode ≠ .lost then .next (s.loseRef (s.ownMoment moment.count) moment.joined) else .next s

/-- GENERATED_TICK (R76): in LOST only, and not while the generator is halted. -/
def execGeneratedTick (moment : Moment) (s : State) : Host.Outcome State Fault Refusal :=
  if s.link.ready ∧ s.gen.mode = .lost then .next (s.generateTick (s.ownMoment moment.count) moment.joined) else .next s

/-! ### The tick's sub-events as rows (log 6)

Each is part of a tick's event above. Sent by itself it is that part, taken on the state as it stands when
its rule's condition holds, and nothing otherwise. -/

/-- Whether ticks are taken in a run: RUNNING with the generator not halted (R54, R74, R83). -/
def State.inRun (s : State) : Bool := s.link.ready && s.monitor.run == .running

/-- SLOT_TIMEOUT (R54). -/
def execSlotTimeout (s : State) : Host.Outcome State Fault Refusal :=
  if s.inRun then .next s.slotTimeouts else .next s

/-- STALL_EXPIRED (R85, R126). -/
def execStallExpired (s : State) : Host.Outcome State Fault Refusal :=
  if s.inRun then .next s.stallPolicyStep else .next s

/-- The freeze limit is reached: the queue is empty and the current air frame has been frozen to
`freeze_limit` in force (R86). -/
def State.frozenToLimit (s : State) : Option Binding :=
  match s.queue.entries, s.air.current with
  | [], some cur => if s.monitor.inForce.freezeLimit ≤ s.air.freezeCount then some cur else none
  | _, _ => none

/-- FREEZE_LIMIT (R86). -/
def execFreezeLimit (s : State) : Host.Outcome State Fault Refusal :=
  match s.frozenToLimit with
  | none => .next s
  | some cur => if s.inRun then .next (s.clearStall.freezeEnd cur) else .next s

/-- BLINK_PHASE (R136): the wrap of the blink tick count from 15 to 0. -/
def execBlinkPhase (s : State) : Host.Outcome State Fault Refusal :=
  if s.link.ready ∧ 15 ≤ s.console.blinkCount then .next (s.setConsole s.console.wrapBlink) else .next s

end Sys2Proof.Machine
end

