-- ==== Sys2Proof/Machine/Press.lean ====
section
/-! DEFINITION. The console interface: presses and line samples (R130 to R135). -/

namespace Sys2Proof.Machine

open Sys2Proof

/-! ### What a press does (R132 to R135) -/

/-- A DUMP press taken in RUNNING (R133). -/
def State.pressDump (s : State) : State :=
  match s.holds.table with
  | r :: _ => s.dumpHold r .console
  | [] => if s.removable = 0 then s else s.dumpNewest .console

/-- A HOLD press taken in RUNNING (R134). -/
def State.pressHold (s : State) : State :=
  match s.openHold with
  | some r => s.closeHold r .console
  | none => if 4 ≤ s.holds.table.length then s else s.openNewHold

/-- A RELEASE press taken in RUNNING (R135). -/
def State.pressRelease (s : State) : State :=
  match s.holds.table with
  | r :: _ => s.releaseHold r .console
  | [] => s

/-- A recognised press is handed on in RUNNING and ignored in every other run state (R132). -/
def State.handPress (s : State) (line : ConsoleLine) : State :=
  if s.monitor.run = .running then
    match line with
    | .dump => s.pressDump
    | .hold => s.pressHold
    | .release => s.pressRelease
  else s

/-! ### Samplers (R130, R131) -/

/-- The sampler of a line. -/
def Console.sampler (c : Console) (line : ConsoleLine) : LineSampler :=
  match line with
  | .dump => c.dump
  | .hold => c.hold
  | .release => c.release

/-- Replace the sampler of a line. -/
def Console.setSampler (c : Console) (line : ConsoleLine) (p : LineSampler) : Console :=
  match line with
  | .dump => { c with dump := p }
  | .hold => { c with hold := p }
  | .release => { c with release := p }

/-- A sample shifts into the history and sets or raises the inactive run (R130). -/
def LineSampler.shift (p : LineSampler) (active : Bool) : LineSampler :=
  { p with s0 := p.s1, s1 := p.s2, s2 := active
           inactiveRun := if active then 0 else min 20 (p.inactiveRun + 1) }

/-- Whether at least two of the three samples of a history are active (R131). -/
def LineSampler.twoActive (p : LineSampler) : Bool := (p.s0 && p.s1) || (p.s0 && p.s2) || (p.s1 && p.s2)

/-- The sampler after a sample: a press disarms it, and the sample that brings the inactive run to 20 arms
it again (R131). -/
def LineSampler.sampled (p : LineSampler) (active : Bool) : LineSampler :=
  { p.shift active with
    armed := if p.armed then !(p.shift active).twoActive else (p.shift active).inactiveRun == 20 }

/-- Whether the sample recognises a press: the line is armed and two of its last three samples are active
(R131). -/
def LineSampler.pressed (p : LineSampler) (active : Bool) : Bool := p.armed && (p.shift active).twoActive

/-- A sample is active by the latched polarity: low for CFG_POL level 0, high for level 1 (R130). -/
def State.sampleActive (s : State) (high : Bool) : Bool := high == (s.straps.pol == 1)

/-- A sample of one console line, with the press it may recognise (R130 to R132). -/
def State.sample (s : State) (line : ConsoleLine) (active : Bool) : State :=
  let p := s.console.sampler line
  let s1 := s.setConsole (s.console.setSampler line (p.sampled active))
  if p.pressed active then s1.handPress line else s1

/-- The line of a recognised press is disarmed, its sample being active (R131). -/
def LineSampler.disarmed (p : LineSampler) : LineSampler := { p with armed := false, inactiveRun := 0 }

/-- A press recognised on an armed line: the line is disarmed and the press handed on (R131, R132). A
disarmed line recognises no press, nor does a halted console interface (R139; log 7). -/
def State.press (s : State) (line : ConsoleLine) : State :=
  let p := s.console.sampler line
  if s.link.ready && p.armed then
    (s.setConsole (s.console.setSampler line p.disarmed)).handPress line
  else s

/-! ### The console rows of the table -/

/-- DUMP_PRESS (R133). -/
def execDumpPress (s : State) : Host.Outcome State Fault Refusal := .next (s.press .dump)

/-- HOLD_PRESS (R134). -/
def execHoldPress (s : State) : Host.Outcome State Fault Refusal := .next (s.press .hold)

/-- RELEASE_PRESS (R135). -/
def execReleasePress (s : State) : Host.Outcome State Fault Refusal := .next (s.press .release)

/-- CONSOLE_SAMPLE (R130): no sample is taken while the console interface is halted (R139). -/
def execConsoleSample (line : ConsoleLine) (high : Bool) (s : State) : Host.Outcome State Fault Refusal :=
  if s.link.ready then .next (s.sample line (s.sampleActive high)) else .next s

end Sys2Proof.Machine
end

