-- ==== Sys2Proof/Machine/Resets.lean ====
section
/-! DEFINITION. The reset kinds and store calibration (R159 to R165). -/

namespace Sys2Proof.Machine

open Sys2Proof

/-- Set every block to its reset value with the given latched straps, as power-on, the RESET pin and
RESET_PART do (R163, R164). DRAM, the requests on the link and the completions already sent are kept
(R16, R18), the oscillator runs on, and calibration starts. -/
def State.resetBlocks (s : State) (straps : Straps) : State :=
  { link := { ready := false, checkMode := straps.check == 1, inFlight := [],
              waiting := s.link.waiting, sent := s.link.sent }
    windows := Windows.default
    store := Store.start
    straps := straps
    resetHeld := false
    dram := s.dram
    pool := Pool.default straps.mem
    ingest := Ingest.start
    queue := Queue.start
    gen := TickGen.halted s.gen.osc
    air := Air.start
    trim := Trim.start
    holds := Holds.start
    console := Console.start
    monitor := Monitor.start straps (Pool.default straps.mem)
    readout := Readout.start
    pending := s.pending }

/-! ### Power-on and the RESET pin (R163) -/

/-- The start of the RESET pin's course: LINK_READY low, faults cleared, ALERT released, reads in flight
abandoned, FAILED left, an unfinished RESET_PART given up; the part then does nothing until the pin is
released (R159, R162, R163; log 11). -/
def State.assertReset (s : State) : State :=
  (((({ s with resetHeld := true }.setLink { s.link with ready := false, inFlight := [] }).setReadout
    { s.readout with flags := 0, first := none }).setStore { s.store with cal := .calibrating }).setMonitor
    { s.monitor with resetPart := none })

/-- POWER_ON (R163): the course from its start to the beginning of calibration, with the strap levels
sampled at its end. -/
def execPowerOn (pins : Straps) (s : State) : Host.Outcome State Fault Refusal :=
  .next (s.resetBlocks pins)

/-- RESET_PIN (R163): the pin's assertion and its release. -/
def execResetPin (edge : PinEdge) (s : State) : Host.Outcome State Fault Refusal :=
  match edge with
  | .asserted => .next s.assertReset
  | .released pins => .next (s.resetBlocks pins)

/-! ### RESET_PART's reset proper (R164) -/

/-- The straps after the reset proper: sampled anew when RESET_PART asked for it, latched otherwise (R159). -/
def State.properStraps (s : State) (resample : Bool) (pins : Straps) : Straps :=
  if resample then pins else s.straps

/-- RESET_PROPER (R164): once the in-flight read list of an accepted RESET_PART is empty. -/
def execResetProper (pins : Straps) (s : State) : Host.Outcome State Fault Refusal :=
  match s.monitor.resetPart with
  | none => .next s
  | some resample =>
    if s.link.ready ∧ s.link.inFlight = [] then .next (s.resetBlocks (s.properStraps resample pins))
    else .next s

/-! ### Store calibration (R161) -/

/-- The store controller after an attempt that ends in a pass or a fail (R161). -/
def Store.afterAttempt (c : Store) (passed : Bool) : Store :=
  let n := c.attempts + 1
  if passed then { c with cal := .ready, attempts := n }
  else
    match c.rate with
    | .full => { c with rate := if n < 3 then .full else .half, attempts := n }
    | .half => { c with cal := if n < 6 then .calibrating else .failed, attempts := n }

/-- LINK_READY rises at count `t`: the console interface and the tick generator start (R36, R74, R136,
R139), and the requests that wait are taken (R18). -/
def State.openLink (s : State) (t : Nat) : State :=
  (((s.setLink { s.link with ready := true }).setConsole Console.start).setGen
    { mode := .await, reference := t, generated := 0, osc := t, restated := false }).serveLink

/-- The end of a calibration attempt (R161). -/
def State.attempt (s : State) (passed : Bool) (t : Nat) : State :=
  let s1 := (s.setStore (s.store.afterAttempt passed)).reachCount t
  if passed then s1.openLink t else s1

/-- CALIBRATION_ATTEMPT (R161): an attempt ends while the state is CALIBRATING and the RESET pin is not
held. -/
def execCalibrationAttempt (passed : Bool) (count : Nat) (s : State) : Host.Outcome State Fault Refusal :=
  if s.store.cal = .calibrating ∧ !s.resetHeld then .next (s.attempt passed (max s.gen.osc count))
  else .next s

end Sys2Proof.Machine
end

