-- ==== Sys2Proof/Machine/Dispatch.lean ====
section
/-! DEFINITION. One arm per command: the command's meaning. -/

namespace Sys2Proof.Machine

open Sys2Proof

def exec (i : Instr) (s : State) : Host.Outcome State Fault Refusal :=
  match i with
  | .read addr lines tag => Sys2Proof.Machine.execRead addr lines tag s
  | .write addr data check => Sys2Proof.Machine.execWrite addr data check s
  | .readCompletion => Sys2Proof.Machine.execReadCompletion s
  | .configure num args => Sys2Proof.Machine.execConfigure num args s
  | .start num target mode => Sys2Proof.Machine.execStart num target mode s
  | .stop num => Sys2Proof.Machine.execStop num s
  | .setTarget num target => Sys2Proof.Machine.execSetTarget num target s
  | .setControl num args => Sys2Proof.Machine.execSetControl num args s
  | .dump num => Sys2Proof.Machine.execDump num s
  | .holdOpen num => Sys2Proof.Machine.execHoldOpen num s
  | .holdClose num => Sys2Proof.Machine.execHoldClose num s
  | .release num hold => Sys2Proof.Machine.execRelease num hold s
  | .dumpHold num hold => Sys2Proof.Machine.execDumpHold num hold s
  | .clearFaults num kinds => Sys2Proof.Machine.execClearFaults num kinds s
  | .resetEngine num => Sys2Proof.Machine.execResetEngine num s
  | .resetPart num resample => Sys2Proof.Machine.execResetPart num resample s
  | .resetProper pins => Sys2Proof.Machine.execResetProper pins s
  | .powerOn pins => Sys2Proof.Machine.execPowerOn pins s
  | .resetPin edge => Sys2Proof.Machine.execResetPin edge s
  | .calibrationAttempt passed count => Sys2Proof.Machine.execCalibrationAttempt passed count s
  | .refEdge moment => Sys2Proof.Machine.execRefEdge moment s
  | .refLost moment => Sys2Proof.Machine.execRefLost moment s
  | .generatedTick moment => Sys2Proof.Machine.execGeneratedTick moment s
  | .slotTimeout => Sys2Proof.Machine.execSlotTimeout s
  | .stallExpired => Sys2Proof.Machine.execStallExpired s
  | .freezeLimit => Sys2Proof.Machine.execFreezeLimit s
  | .blinkPhase => Sys2Proof.Machine.execBlinkPhase s
  | .dumpPress => Sys2Proof.Machine.execDumpPress s
  | .holdPress => Sys2Proof.Machine.execHoldPress s
  | .releasePress => Sys2Proof.Machine.execReleasePress s
  | .consoleSample line high => Sys2Proof.Machine.execConsoleSample line high s

end Sys2Proof.Machine
end

