-- ==== Sys2Proof/Safety.lean ====
section
/-! DEFINITION. The device invariants of 00_scope.md 0.4, in the terms claims use. -/

namespace Sys2Proof.Safety

open Sys2Proof Sys2Proof.Machine

/-! ### Where the blocks are (R4) -/

/-- The blocks bound to ingest slots, in slot order. -/
def slotBlocks (s : State) : List Nat := s.ingest.slots.toList.filterMap IngestSlot.block

/-- The blocks of the queue entries, oldest first. -/
def queueBlocks (s : State) : List Nat := s.queue.entries.map (·.block)

/-- The blocks bound to egress slots, slot A first. -/
def egressBlocks (s : State) : List Nat :=
  (s.air.slotA.map (·.block)).toList ++ (s.air.slotB.map (·.block)).toList

/-- Every place that holds a block index (R4). -/
def places (s : State) : List Nat :=
  s.pool.free ++ slotBlocks s ++ queueBlocks s ++ egressBlocks s ++ s.pool.retire

/-- Every block is in exactly one place (R4). -/
abbrev EachBlockOnce (s : State) : Prop := (places s).Perm (List.range s.pool.blocks)

/-- Every block of a list of places has the state that corresponds to the place (R4). -/
abbrev HaveState (s : State) (is : List Nat) (st : BlockState) : Prop :=
  ∀ i ∈ is, (s.pool.record i).state = st

/-- The state of each block corresponds to the place that holds it (R4). -/
abbrev StatesMatchPlaces (s : State) : Prop :=
  s.pool.records.length = s.pool.blocks ∧
  HaveState s s.pool.free .free ∧ HaveState s (slotBlocks s) .ingest ∧
  HaveState s (queueBlocks s) .queued ∧ HaveState s (egressBlocks s) .air ∧
  HaveState s s.pool.retire .retiring

/-- Outside RUNNING no slot, entry or binding holds a block, and in STOPPED the retire list is empty
(R6, R15, R71). -/
abbrev IdleOutsideRun (s : State) : Prop :=
  (s.monitor.run ≠ .running → slotBlocks s = [] ∧ s.queue.entries = [] ∧ egressBlocks s = []) ∧
  (s.monitor.run = .stopped → s.pool.retire = [])

/-- The whereabouts of every block (R4, with what R6 says of the run states). -/
abbrev BlocksPlaced (s : State) : Prop :=
  EachBlockOnce s ∧ StatesMatchPlaces s ∧ IdleOutsideRun s

/-! ### Reads in flight (R11 to R14, R22) -/

/-- How many reads on the in-flight list were taken on block `i`. -/
def readsOn (s : State) (i : Nat) : Nat := (s.link.inFlight.filter (fun e => e.blocks.contains i)).length

/-- A count is present in AIR and RETIRING only and at least 1 on the retire list, and a missing-tile set is
present exactly where the entry or binding that names the block is partial (R3, R14). -/
abbrev RecordsSound (s : State) : Prop :=
  (∀ i < s.pool.blocks, (s.pool.record i).inFlight.isSome = true ↔
    ((s.pool.record i).state = .air ∨ (s.pool.record i).state = .retiring)) ∧
  (∀ i ∈ s.pool.retire, 1 ≤ s.pool.readCount i) ∧
  (∀ i ∈ s.pool.free ++ slotBlocks s, (s.pool.record i).missing = none) ∧
  (∀ e ∈ s.queue.entries, (s.pool.record e.block).missing.isSome = e.isPartial) ∧
  (∀ b ∈ s.air.slotA.toList ++ s.air.slotB.toList, (s.pool.record b.block).missing.isSome = b.isPartial)

/-- While the RESET pin is not held, a block's in-flight read count is the number of reads in flight taken
on it, and no read names a block twice (R11, R12, R22). -/
abbrev ReadsCounted (s : State) : Prop :=
  s.resetHeld = false →
    (∀ i, i < s.pool.blocks → s.pool.readCount i = readsOn s i) ∧
    (∀ e ∈ s.link.inFlight, e.blocks.Nodup ∧ ∀ i ∈ e.blocks, i < s.pool.blocks)

/-- The in-flight read list: at most 64 reads, no two accepted ones with one tag (R22). -/
abbrev InFlightSound (s : State) : Prop :=
  s.link.inFlight.length ≤ 64 ∧ (s.link.inFlight.filterMap InFlight.acceptedTag).Nodup

/-! ### The queue (R61) -/

/-- The distance of a sequence number from the oldest entry. -/
def offsetFrom (o q : Seq) : Nat := (q - o).toNat

/-- The list stands in strictly ascending sequence order measured from its oldest entry (R61). -/
def Ascending (es : List Entry) : Prop :=
  match es with
  | [] => True
  | o :: rest =>
    (∀ e ∈ rest, 1 ≤ offsetFrom o.seq e.seq ∧ offsetFrom o.seq e.seq < 2147483648) ∧
    rest.Pairwise (fun e f => offsetFrom o.seq e.seq < offsetFrom o.seq f.seq)

/-! ### Limits -/

/-- The in-force and staged targets never exceed `pool_blocks` - 8 (R96). -/
abbrev TargetsLimited (s : State) : Prop :=
  s.monitor.staged.target ≤ s.pool.maxTarget ∧ s.monitor.inForce.target ≤ s.pool.maxTarget

/-- The credit lies between 0 and 2,000 (R103). -/
abbrev CreditLimited (s : State) : Prop := s.trim.credit ≤ 2000

/-- The ranges of the settings other than the target (09 section 9.4). -/
abbrev SettingsInRange (c : Settings) : Prop :=
  c.band ≤ 15 ∧ (1 ≤ c.buildRate ∧ c.buildRate ≤ 500) ∧ (1 ≤ c.catchRate ∧ c.catchRate ≤ 500) ∧
  c.silence ≤ 255 ∧ (1 ≤ c.dumpLength ∧ c.dumpLength ≤ 1024) ∧ c.dumpFloor ≤ 64 ∧
  (1 ≤ c.stallLimit ∧ c.stallLimit ≤ 3000) ∧ (1 ≤ c.freezeLimit ∧ c.freezeLimit ≤ 1000)

/-- The counts and settings stay in their ranges (R86, R96, R103, R136, R142, 09 section 9.4). -/
abbrev LimitsHeld (s : State) : Prop :=
  TargetsLimited s ∧ SettingsInRange s.monitor.staged ∧ SettingsInRange s.monitor.inForce ∧
  CreditLimited s ∧ s.air.freezeCount ≤ 1000 ∧ s.console.blinkCount ≤ 15 ∧ s.monitor.results.length ≤ 8

/-- The air condition is OFF exactly outside RUNNING (R82). -/
abbrev OffOutsideRun (s : State) : Prop := s.air.condition = .off ↔ s.monitor.run ≠ .running

/-! ### Holds (R118) -/

/-- The queue entries that carry a hold id, oldest first (R69, R118). -/
def entriesOf (s : State) (h : Byte) : List Entry := s.queue.entries.filter fun e => e.hold = some h

/-- A hold record says of its entries what R118 gives. -/
abbrev HoldTrue (s : State) (r : HoldRecord) : Prop :=
  r.id ≠ 0 ∧ r.unaired = (entriesOf s r.id).length ∧ r.firstSeq = (entriesOf s r.id).head?.map (·.seq) ∧
  (r.state = .opened → r.lastSeq = none) ∧
  (r.state = .pending → 0 < r.unaired ∧ r.lastSeq = (entriesOf s r.id).getLast?.map (·.seq))

/-- At most 4 records of distinct ids, at most one of them OPEN, each true of the queue, and every tag in
the queue is that of a record (R85, R118, R119). -/
abbrev HoldsSound (s : State) : Prop :=
  s.holds.table.length ≤ 4 ∧ (s.holds.table.filter (fun h => h.state == .opened)).length ≤ 1 ∧
  (s.holds.table.map (·.id)).Nodup ∧ s.holds.nextId ≠ 0 ∧ (∀ r ∈ s.holds.table, HoldTrue s r) ∧
  (∀ e ∈ s.queue.entries, ∀ h, e.hold = some h → h ∈ s.holds.table.map (·.id))

/-! ### Windows (R31) -/

/-- The enabled windows in force, as base and size (R25). -/
def windowsInForce (s : State) : List (Nat × Nat) :=
  (if s.windows.ingest = 0 then [] else [(s.windows.ingest.toNat, 4 * (s.pool.tiles * 65536))]) ++
  (if s.windows.egress = 0 then [] else [(s.windows.egress.toNat, 2 * (s.pool.tiles * 65536))]) ++
  [(s.windows.control.toNat, 4096), (s.windows.readout.toNat, 4096)]

/-- The windows in force are aligned, do not overlap and lie below the host-visible top (R25, R31). -/
abbrev WindowsSound (s : State) : Prop :=
  s.windows.ingest.toNat % 1048576 = 0 ∧ s.windows.egress.toNat % 1048576 = 0 ∧
  s.windows.control.toNat % 4096 = 0 ∧ s.windows.readout.toNat % 4096 = 0 ∧
  (windowsInForce s).Pairwise (fun v w => v.1 + v.2 ≤ w.1 ∨ w.1 + w.2 ≤ v.1) ∧
  ∀ w ∈ windowsInForce s, w.1 + w.2 ≤ s.hostTop

/-- The running number `k` places before the next one. -/
def numberBefore (s : State) (k : Nat) : Half := s.readout.nextNumber - BitVec.ofNat 16 k

/-- At most 32 edit-log records, their running numbers consecutive up to the next one (R154). -/
abbrev LogSound (s : State) : Prop :=
  s.readout.log.length ≤ 32 ∧
  ∀ i, (h : i < s.readout.log.length) →
    (s.readout.log[i]).number = numberBefore s (s.readout.log.length - i)

/-! ### Terms of the statements -/

/-- What a command answers: a next state that satisfies `P`. -/
def Gives (c : Instr) (s : State) (P : State → Prop) : Prop := ∃ t, exec c s = .next t ∧ P t

/-- The tick a command makes: a selection that leaves a state with `P`, then what SLOT_TIMEOUT does to that
state (R54). -/
def TickGives (c : Instr) (s : State) (P : State → Prop) : Prop :=
  ∃ u t, P u ∧ exec .slotTimeout u = .next t ∧ exec c s = .next t

/-- A predicate that every step keeps. -/
def KeptByEveryStep (P : State → Prop) : Prop := ∀ s t, P s → step s = .next t → P t

/-- LINK_READY is high and no RESET_PART has been accepted (R18, R140, R164). -/
abbrev LinkUp (s : State) : Prop := s.link.ready = true ∧ s.monitor.resetPart = none

/-- The link is up and no request waits on it. -/
abbrev LinkClear (s : State) : Prop := LinkUp s ∧ s.link.waiting = []

/-- The link is up in RUNNING. -/
abbrev Running (s : State) : Prop := LinkUp s ∧ s.monitor.run = .running

/-- A command's result entered: it is the newest of at most eight, and the count rises by one (R142). -/
def entered (m : Monitor) (num code : Byte) (r : CmdResult) : Monitor :=
  { m with results := ({ num := num, code := code, result := r } :: m.results).take 8
           commandCount := m.commandCount + 1 }

/-- The request a command row presents to the link. -/
def requestsOf (c : Instr) : List Request :=
  match c with
  | .read a n t => [.read a n t]
  | .write a d k => [.write a d k]
  | _ => []

/-- The row of the table that a command record with a number stands for (R157). -/
def rowOf (num : Byte) (c : Command) : Instr :=
  match c with
  | .configure a => .configure num a
  | .start t m => .start num t m
  | .stop => .stop num
  | .setTarget t => .setTarget num t
  | .setControl a => .setControl num a
  | .dump => .dump num
  | .holdOpen => .holdOpen num
  | .holdClose => .holdClose num
  | .release h => .release num h
  | .dumpHold h => .dumpHold num h
  | .clearFaults k => .clearFaults num k
  | .resetEngine => .resetEngine num
  | .resetPart r => .resetPart num r

/-- Byte `i` of a record as a number. -/
def byteOf (l : Line) (i : Nat) : Nat := (fieldAt l i 8).toNat

/-- The little-endian number in two bytes of a record (09 section 9.9). -/
def twoBytes (l : Line) (i : Nat) : Nat := byteOf l i + 256 * byteOf l (i + 1)

/-- The little-endian number in five bytes of a record, an address (09 section 9.9). -/
def fiveBytes (l : Line) (i : Nat) : Nat :=
  twoBytes l i + 65536 * twoBytes l (i + 2) + 4294967296 * byteOf l (i + 4)

/-- A record with the code of a command carries that command's arguments at the bytes of R157. -/
def ReadsAs (l : Line) (c : Command) : Prop :=
  match c with
  | .configure a => byteOf l 2 = 1 ∧ a.ingest.toNat = fiveBytes l 4 ∧ a.egress.toNat = fiveBytes l 9 ∧
      a.control.toNat = fiveBytes l 14 ∧ a.readout.toNat = fiveBytes l 19 ∧ a.tiles.toNat = byteOf l 24 ∧
      a.blocks.toNat = twoBytes l 26 ∧ a.rateCode.toNat = byteOf l 28 ∧ a.linkCheck.toNat = byteOf l 29
  | .start target mode => byteOf l 2 = 2 ∧ target.toNat = twoBytes l 4 ∧ mode.toNat = byteOf l 6
  | .stop => byteOf l 2 = 3
  | .setTarget target => byteOf l 2 = 4 ∧ target.toNat = twoBytes l 4
  | .setControl a => byteOf l 2 = 5 ∧ a.change.toNat = twoBytes l 4 ∧ a.band.toNat = byteOf l 6 ∧
      a.eligibility.toNat = byteOf l 7 ∧ a.buildRate.toNat = twoBytes l 8 ∧ a.catchRate.toNat = twoBytes l 10 ∧
      a.silence.toNat = byteOf l 12 ∧ a.dumpMode.toNat = byteOf l 13 ∧ a.dumpLength.toNat = twoBytes l 14 ∧
      a.dumpFloor.toNat = byteOf l 16 ∧ a.dumpInflight.toNat = byteOf l 17 ∧
      a.stallLimit.toNat = twoBytes l 18 ∧ a.stallPolicy.toNat = byteOf l 20 ∧
      a.freezeLimit.toNat = twoBytes l 22
  | .dump => byteOf l 2 = 6
  | .holdOpen => byteOf l 2 = 7
  | .holdClose => byteOf l 2 = 8
  | .release hold => byteOf l 2 = 9 ∧ hold.toNat = byteOf l 4
  | .dumpHold hold => byteOf l 2 = 10 ∧ hold.toNat = byteOf l 4
  | .clearFaults kinds => byteOf l 2 = 11 ∧ kinds.toNat = twoBytes l 4
  | .resetEngine => byteOf l 2 = 12
  | .resetPart resample => byteOf l 2 = 13 ∧ resample.toNat = byteOf l 4

/-- The target and the twelve settings of readout lines 3 and 4, from byte 32 (R158). -/
def SettingsAt (l : Line) (c : Settings) : Prop :=
  fieldAt l 32 16 = BitVec.ofNat 16 c.target ∧ fieldAt l 34 8 = BitVec.ofNat 8 c.band ∧
  fieldAt l 35 8 = c.eligibility.code ∧ fieldAt l 36 16 = BitVec.ofNat 16 c.buildRate ∧
  fieldAt l 38 16 = BitVec.ofNat 16 c.catchRate ∧ fieldAt l 40 8 = BitVec.ofNat 8 c.silence ∧
  fieldAt l 41 8 = c.dumpMode.code ∧ fieldAt l 42 16 = BitVec.ofNat 16 c.dumpLength ∧
  fieldAt l 44 8 = BitVec.ofNat 8 c.dumpFloor ∧ fieldAt l 45 8 = (if c.dumpInflight then 1 else 0) ∧
  fieldAt l 46 16 = BitVec.ofNat 16 c.stallLimit ∧ fieldAt l 48 8 = c.stallPolicy.code ∧
  fieldAt l 49 8 = 0 ∧ fieldAt l 50 16 = BitVec.ofNat 16 c.freezeLimit

/-- The bytes of a composed line that its layout does not list read as zero: byte 1 and those from `n` to the
check word (09 section 9.9). -/
def ZeroFrom (l : Line) (n : Nat) : Prop := ∀ i, i = 1 ∨ (n ≤ i ∧ i < 62) → fieldAt l i 8 = 0

/-- The bytes of a line stand in a DRAM from address `a` on. -/
abbrev LineAt (m : List Host.Cell) (a : Nat) (l : Line) : Prop :=
  ∀ i < 64, readByte m (a + i) = fieldAt l i 8

/-- Two DRAMs agree on every byte outside the `n` bytes from address `a`. -/
abbrev SameOutside (m m' : List Host.Cell) (a n : Nat) : Prop :=
  ∀ x, x < a ∨ a + n ≤ x → readByte m' x = readByte m x

/-- The default target of the straps before its clamp: the table of R160, rows CFG_RATE, columns CFG_DELAY. -/
def strapFrames (rate delay : Fin 4) : Nat :=
  (([[0, 175, 250, 500], [0, 210, 300, 599], [0, 350, 500, 1000], [0, 420, 599, 1199]].getD rate.val []).getD
    delay.val 0)

/-- The DRAM sizes of the default pool table, by CFG_MEM level (R2). -/
def tableDram (mem : Fin 4) : Nat := [4294967296, 8589934592, 17179869184, 34359738368].getD mem.val 0

/-- The default pool table (R2). -/
def tableBlocks (mem : Fin 4) : Nat := [768, 1792, 2048, 2048].getD mem.val 0

/-- The settings after a reset with a given target (09 section 9.4). -/
def tableSettings (target : Nat) : Settings :=
  { target := target, band := 2, buildRate := 40, catchRate := 40, silence := 96, eligibility := .quietOnly,
    dumpMode := .chunk, dumpLength := 150, dumpFloor := 0, dumpInflight := true, stallLimit := 500,
    stallPolicy := .dump, freezeLimit := 100 }

/-- The state the reset kinds leave for latched straps, block by block (R165's table). -/
abbrev AtReset (t : State) (pins : Straps) : Prop :=
  t.link.ready = false ∧ t.link.checkMode = (pins.check == 1) ∧ t.link.inFlight = [] ∧
  t.windows = { ingest := 0, egress := 0, control := 0x1000, readout := 0x2000 } ∧
  t.store = { cal := .calibrating, rate := .full, attempts := 0 } ∧ t.straps = pins ∧
  t.pool.tiles = 64 ∧ t.pool.blocks = tableBlocks pins.mem ∧
  t.pool.records = List.replicate (tableBlocks pins.mem) { state := .free, inFlight := none, missing := none } ∧
  t.pool.free = List.range (tableBlocks pins.mem) ∧ t.pool.retire = [] ∧
  t.ingest = { slots := #v[.empty, .empty, .empty, .empty], lastSeq := none } ∧
  t.queue = { entries := [], splicePending := false } ∧
  t.air = { serve := 0, onAir := 0, slotA := none, slotB := none, condition := .off, stallCount := 0,
            stalledHold := none, freezeCount := 0, lastAction := .none, lastAirDelay := none,
            repeatTotal := 0, skipTotal := 0, fillSince := none } ∧
  t.trim = { state := .onDelay, credit := 0 } ∧ t.holds = { table := [], nextId := 1, dumpTotal := 0 } ∧
  t.monitor.run = .stopped ∧ t.monitor.results = [] ∧ t.monitor.commandCount = 0 ∧
  t.monitor.resetPart = none ∧ t.monitor.rateCode.code = BitVec.ofNat 8 pins.rate.val ∧
  t.monitor.staged = tableSettings (min (strapFrames pins.rate pins.delay) (tableBlocks pins.mem - 8)) ∧
  t.monitor.inForce = t.monitor.staged ∧
  t.readout = { flags := 0, first := none, log := [], nextNumber := 0 }

/-- A REF edge at count `n` is one tick in the generator's mode: in AWAIT, or at or after half a period in
LOCKED and LOST, and not after the generator's own event has fallen due (R74, R75, R77). -/
abbrev EdgeOnTime (s : State) (n : Nat) : Prop :=
  s.gen.osc ≤ n ∧
  ((s.gen.mode = .await ∧ n ≤ s.gen.reference + 3 * s.period / 2) ∨
   (s.gen.mode = .locked ∧ s.gen.reference + s.period / 2 ≤ n ∧ n ≤ s.gen.reference + 3 * s.period / 2) ∨
   (s.gen.mode = .lost ∧ s.gen.reference + s.period / 2 ≤ n ∧ n ≤ s.gen.reference + s.period))

/-- A command that makes exactly one tick in this state: a generated tick in LOST, the loss of REF, or a REF
edge on time (R74 to R77). -/
abbrev TicksOnce (s : State) (c : Instr) : Prop :=
  s.link.ready = true ∧
  ((∃ m, c = .generatedTick m ∧ s.gen.mode = .lost) ∨ (∃ m, c = .refLost m ∧ s.gen.mode ≠ .lost) ∨
   (∃ m, c = .refEdge m ∧ EdgeOnTime s m.count))

/-- How many commits the row says were taken before its tick in the tick's own instant (R93; log 30). -/
def joinedOf (c : Instr) : Nat :=
  match c with
  | .refEdge m => m.joined
  | .refLost m => m.joined
  | .generatedTick m => m.joined
  | _ => 0

/-- Every entry of the queue was committed in the instant of the tick a command makes, and taken before it: all
are among the newest the row names and committed since the latest tick. Without those commits the tick would
find the queue empty (R93; log 30). -/
abbrev OnlyThisInstant (s : State) (c : Instr) : Prop :=
  s.queue.entries.length ≤ joinedOf c ∧ ∀ e ∈ s.queue.entries, e.stamp = s.air.serve

/-- The air delay of entry `e` when the tick a command makes releases it: 0 ticks where the tick would have
found the queue empty but for the commits of its own instant (R93), and else its serve number less the commit
stamp (R79). -/
def airDelayOf (s : State) (c : Instr) (e : Entry) : Seq :=
  if OnlyThisInstant s c then 0 else s.air.serve + 1 - e.stamp

/-- The trim once a tick's latch has acted in RUNNING: evaluated with the depth, the target and the band that come
into force when either changes, and as it was otherwise (R99, R148). -/
def trimAtTick (s : State) : Trim :=
  if s.monitor.staged.target ≠ s.monitor.inForce.target ∨ s.monitor.staged.band ≠ s.monitor.inForce.band then
    s.trim.evaluate s.queue.entries.length s.monitor.staged.target s.monitor.staged.band
  else s.trim

/-- The state a tick's latch leaves in RUNNING: every setting in force takes its staged value, with the trim
evaluated where the rule says (R148). -/
def latched (s : State) : State :=
  { s with monitor := { s.monitor with inForce := s.monitor.staged }, trim := trimAtTick s }

/-- The state the latch of a tick finds: what the generator reports is made, the fault and record of a loss, the
record of a return, and nothing at any other tick (R76, R77). -/
def atTickStart (s : State) (c : Instr) : State :=
  match c, s.gen.mode with
  | .refLost _, _ => (s.report .refLost none none).logEdit
      { kind := .refLost, first := none, last := none, count := none, hold := none, cause := .device }
  | .refEdge _, .lost => s.logEdit
      { kind := .refReturn, first := none, last := none, count := some (BitVec.ofNat 32 s.gen.generated),
        hold := none, cause := .device }
  | _, _ => s

/-- The tick's selection reaches its later tests: the condition is not PRIMING below the target that the
tick's latch brings into force (R84, R148). -/
abbrev PastPriming (s : State) : Prop :=
  ¬ (s.air.condition = .priming ∧ s.queue.entries.length < s.monitor.staged.target)

/-- The current air frame after one more tick on air: its repeat count rises, saturating (R79). -/
def stayed (a : Air) : Air :=
  match a.current with
  | none => a
  | some b => a.setBinding (EgressSlot.ofOnAir a.onAir) (some { b with repeats := min 65535 (b.repeats + 1) })

/-- What every tick does beside the selection: the latch, the blink count, and the serve number, which rises
in RUNNING only (R78, R136, R148). -/
abbrev Ticked (s t : State) : Prop :=
  t.monitor = { s.monitor with inForce := s.monitor.staged } ∧
  t.console = { s.console with
    blinkLit := if s.console.blinkCount < 15 then s.console.blinkLit else !s.console.blinkLit
    blinkCount := if s.console.blinkCount < 15 then s.console.blinkCount + 1 else 0 } ∧
  (s.monitor.run = .running → t.air.serve = s.air.serve + 1) ∧
  (s.monitor.run ≠ .running → t.air = s.air)

/-- The five dump and hold commands (R143). -/
def isHoldCommand (c : Command) : Prop :=
  c = .dump ∨ c = .holdOpen ∨ c = .holdClose ∨ (∃ h, c = .release h) ∨ (∃ h, c = .dumpHold h)

/-- CONFIGURE and START (R143). -/
def isStoppedCommand (c : Command) : Prop := (∃ a, c = .configure a) ∨ (∃ t m, c = .start t m)

/-- SET_TARGET, SET_CONTROL and CLEAR_FAULTS (R143). -/
def isSettingCommand (c : Command) : Prop :=
  (∃ t, c = .setTarget t) ∨ (∃ a, c = .setControl a) ∨ (∃ k, c = .clearFaults k)

/-- The row of a recognised press of a console line. -/
def pressRow (l : ConsoleLine) : Instr :=
  match l with
  | .dump => .dumpPress
  | .hold => .holdPress
  | .release => .releasePress

/-- A WRITE passes: link check mode is OFF, or the link write check passes (R33). -/
abbrev WritePasses (s : State) (a : Addr) (data : List Line) (check : Option Half) : Prop :=
  s.link.checkMode = false ∨ linkCheckPasses a data check = true

/-- A picture record in slot `k` would end a frame in block `b` with the written-line set `w`: the slot is
FILLING, or it is EMPTY and `b` heads the free list (R44, R52). -/
abbrev EndsFrameIn (s : State) (k : Fin 4) (b : Nat) (w : List Nat) : Prop :=
  (∃ first, s.slot k = .filling b w first) ∨
  (s.slot k = .empty ∧ w = [] ∧ ∃ rest, s.pool.free = b :: rest)

/-- The free list once the block of an EMPTY slot's picture record has left it (R7, R52). -/
def freeAfter (s : State) (k : Fin 4) : List Nat :=
  if s.slot k = .empty then s.pool.free.tail else s.pool.free

/-- Every slot of `t` but slot `k` is as in `s`. -/
abbrev OtherSlotsSame (s t : State) (k : Fin 4) : Prop := ∀ k', k' ≠ k → t.slot k' = s.slot k'

/-- Every block record of `t` but that of block `b` is as in `s`. -/
abbrev OtherRecordsSame (s t : State) (b : Nat) : Prop := ∀ i, i ≠ b → t.pool.record i = s.pool.record i

/-- The record of a FREE block (R5). -/
def freeRecord : BlockRecord := { state := .free, inFlight := none, missing := none }

/-- The pool once the block of a binding has left it, where there is a binding (R13, R81). -/
def leftBy (b : Option Binding) (p : Pool) : Pool :=
  match b with
  | none => p
  | some b => p.leaveBlock b.block

/-- A request can be taken now: the link is up, and a READ finds a place on the in-flight read list (R18, R22). -/
abbrev Takable (s : State) (r : Request) : Prop :=
  LinkUp s ∧ ((∃ a n tag, r = .read a n tag) → s.link.inFlight.length < 64)

/-- Every FILLING slot turned to DISCARD when the condition holds; the sequence register kept (R58). -/
abbrev DiscardedIf (c : Bool) (s t : State) : Prop :=
  t.ingest.lastSeq = s.ingest.lastSeq ∧
  ∀ k : Fin 4, t.slot k =
    match s.slot k with
    | .filling b w first => if c then .discard b first else .filling b w first
    | other => other

end Sys2Proof.Safety
end

