-- ==== Sys2Proof/Certificates/Slice0/Obligations.lean ====
section
/-! DEFINITION. The statements for the provers, from the numbered rules of spec/. -/

open Sys2Proof Sys2Proof.Machine Sys2Proof.Safety

/-! ### The machine's shape -/

/-- A step runs the command at the front of the queue on the state with the queue's rest; on an empty queue
it idles (the model's queue, log 16). -/
def Obligations.StepRunsFrontCommand : Prop :=
  (∀ (c : Instr) (rest : List Instr) (s : State),
    step (s.setPending (c :: rest)) = exec c (s.setPending rest)) ∧
  (∀ s : State, s.pending = [] → step s = .next s)

/-- Every command, on every state, answers a next state, and none touches the commands that wait. -/
def Obligations.CommandsAnswerAndKeepQueue : Prop :=
  ∀ (c : Instr) (s : State), Gives c s fun t => t.pending = s.pending

/-- While LINK_READY is low (a reset held, calibration, FAILED) a command other than a reset or the end of a
calibration attempt changes nothing but that a request waits on the link (R18, R36, R139, R162). -/
def Obligations.LinkDownCommandsOnlyWait : Prop :=
  ∀ (c : Instr) (s : State), s.link.ready = false → (∀ p, c ≠ .powerOn p) → (∀ e, c ≠ .resetPin e) →
    ((∀ p n, c ≠ .calibrationAttempt p n) ∨ s.store.cal ≠ .calibrating ∨ s.resetHeld = true) →
    exec c s = .next { s with link := { s.link with waiting := s.link.waiting ++ requestsOf c } }

/-! ### Resets, straps and calibration -/

/-- POWER_ON and the RESET pin's release set every block but the tick generator and the console, which are
halted (log 13, log 25), to its reset value for the straps sampled. The pin's assertion takes LINK_READY low,
clears the faults, releases ALERT and abandons the reads in flight. The model's choices: the pin as two edges,
and that a RESET_PART in progress and FAILED end at the assertion (log 11); that the whole of DRAM is kept,
below the store region too (log 12); that the list of waiting requests and the record of completions, both the
model's own, are kept (log 4, log 5). -/
def Obligations.PowerOnAndResetPin : Prop :=
  (∀ (pins : Straps) (s : State),
    (Gives (.powerOn pins) s fun t => AtReset t pins ∧ t.dram = s.dram ∧
      t.link.waiting = s.link.waiting ∧ t.link.sent = s.link.sent ∧ t.resetHeld = false) ∧
    (Gives (.resetPin (.released pins)) s fun t => AtReset t pins ∧ t.dram = s.dram ∧
      t.link.waiting = s.link.waiting ∧ t.link.sent = s.link.sent ∧ t.resetHeld = false)) ∧
  (∀ s : State, Gives (.resetPin .asserted) s fun t =>
    t = { s with
      link := { s.link with ready := false, inFlight := [] }
      readout := { s.readout with flags := 0, first := none }
      store := { s.store with cal := .calibrating }
      monitor := { s.monitor with resetPart := none }
      resetHeld := true } ∧ t.alert = false)

/-- The default target: the delay in frames at the latched rate rounded to nearest, a half up, as the table
gives, clamped to the pool in force at power-on and at RESET_ENGINE. -/
def Obligations.StrapDefaultTarget : Prop :=
  (∀ p : Straps, strapTarget p = strapFrames p.rate p.delay) ∧
  (∀ rate delay : Fin 4,
    let r := RateCode.ofLevel rate
    let f := strapFrames rate delay
    2 * f * r.pn ≤ 2 * delaySeconds delay * r.pd + r.pn ∧
    2 * delaySeconds delay * r.pd < 2 * f * r.pn + r.pn) ∧
  (∀ (p : Straps) (s : State), Gives (.powerOn p) s fun t =>
    t.monitor.staged.target = min (strapFrames p.rate p.delay) (tableBlocks p.mem - 8) ∧
    t.monitor.inForce.target = t.monitor.staged.target) ∧
  (∀ (num : Byte) (s : State), LinkUp s → Gives (.resetEngine num) s fun t =>
    t.monitor.staged.target = min (strapFrames s.straps.rate s.straps.delay) (s.pool.blocks - 8) ∧
    t.monitor.inForce.target = t.monitor.staged.target)

/-- RESET_PROPER: with a RESET_PART accepted and no read in flight every block but the halted tick generator
and console (log 13, log 25) takes its reset value, under new straps when resample was asked. The model's
choices: sent at any other time it changes nothing (log 27); the whole of DRAM is kept (log 12); the list of
waiting requests and the record of completions, both the model's own, are kept (log 4, log 5). -/
def Obligations.ResetProperResets : Prop :=
  (∀ (pins : Straps) (resample : Bool) (s : State), s.link.ready = true →
    s.monitor.resetPart = some resample → s.link.inFlight = [] →
    Gives (.resetProper pins) s fun t => AtReset t (if resample then pins else s.straps) ∧
      t.dram = s.dram ∧ t.link.waiting = s.link.waiting ∧ t.link.sent = s.link.sent) ∧
  (∀ (pins : Straps) (s : State), s.monitor.resetPart = none ∨ s.link.inFlight ≠ [] →
    exec (.resetProper pins) s = .next s)

/-- The end of a calibration attempt: a pass makes the part READY, raises LINK_READY, starts the console and
the tick generator and takes what waits; a fail retries, falls to HALF after three and gives FAILED, with
ALERT, after six. -/
def Obligations.CalibrationAttemptOutcome : Prop :=
  ∀ (n : Nat) (s : State), s.store.cal = .calibrating → s.resetHeld = false →
    (let quiet : LineSampler := { s0 := false, s1 := false, s2 := false, armed := false, inactiveRun := 0 }
     let opened : State := { s with
      store := { s.store with cal := .ready, attempts := s.store.attempts + 1 }
      link := { s.link with ready := true }
      console := { dump := quiet, hold := quiet, release := quiet, blinkLit := true, blinkCount := 0 }
      gen := { mode := .await, reference := max s.gen.osc n, generated := 0, osc := max s.gen.osc n,
               restated := false } }
     exec (.calibrationAttempt true n) s = .next (opened.takeRequests s.link.waiting) ∧
     (s.link.waiting = [] → exec (.calibrationAttempt true n) s = .next opened)) ∧
    (Gives (.calibrationAttempt false n) s fun t =>
      t = { s with store := t.store, gen := { s.gen with osc := max s.gen.osc n } } ∧
      t.store.attempts = s.store.attempts + 1 ∧
      (s.store.rate = .full → t.store.cal = .calibrating ∧
        t.store.rate = if s.store.attempts + 1 < 3 then .full else .half) ∧
      (s.store.rate = .half → t.store.rate = .half ∧
        t.store.cal = if s.store.attempts + 1 < 6 then .calibrating else .failed) ∧
      (t.store.cal = .failed → t.alert = true))

/-! ### Reads -/

/-- A READ is accepted when no accepted read in flight carries its tag: it joins the list with its line
results fixed and the blocks it is taken on, each of whose counts rises by one; UNCLAIMED is raised once. A line
is taken on a block exactly when it lies in an egress slot bound to that block, a line of a missing tile too. -/
def Obligations.ReadAccepted : Prop :=
  (∀ (s : State) (x b : Nat), s.readBlock x = some b ↔
    ∃ slot j bd, s.classify x = .egress slot j ∧ s.air.binding slot = some bd ∧ bd.block = b) ∧
  ∀ (a : Addr) (n : Nat) (tag : BitVec 6) (s : State), LinkClear s → s.link.inFlight.length < 64 →
    (∀ e ∈ s.link.inFlight, e.acceptedTag ≠ some tag) →
    let addrs := (List.range n).map (requestLine a)
    let blocks := s.readBlocks addrs
    Gives (.read a n tag) s fun t =>
      t = { s with
        link := { s.link with
          inFlight := s.link.inFlight ++ [.accepted tag (addrs.map s.readResult) blocks] }
        pool := { s.pool with records := t.pool.records }
        readout := t.readout } ∧
      blocks.Nodup ∧ (∀ b, b ∈ blocks ↔ ∃ x ∈ addrs, s.readBlock x = some b) ∧
      (∀ i, (t.pool.record i).state = (s.pool.record i).state ∧
        (t.pool.record i).missing = (s.pool.record i).missing) ∧
      (∀ i < s.pool.records.length,
        t.pool.readCount i = s.pool.readCount i + if i ∈ blocks then 1 else 0) ∧
      ((∀ x ∈ addrs, x < s.hostTop) → t.readout = s.readout) ∧
      (∀ k < n, s.hostTop ≤ requestLine a k → (∀ j < k, requestLine a j < s.hostTop) →
        t.readout = (s.report .unclaimed none (some (BitVec.ofNat 40 (requestLine a k)))).readout)

/-- A READ whose tag is in use is refused and joins the list; one that finds the 64 places taken waits, and
requests behind it wait in arrival order. -/
def Obligations.ReadRefusedOrWaiting : Prop :=
  (∀ (a : Addr) (n : Nat) (tag : BitVec 6) (s : State) (e : InFlight), LinkClear s →
    s.link.inFlight.length < 64 → e ∈ s.link.inFlight → e.acceptedTag = some tag →
    exec (.read a n tag) s =
      .next { s with link := { s.link with inFlight := s.link.inFlight ++ [.refused tag] } }) ∧
  (∀ (a : Addr) (n : Nat) (tag : BitVec 6) (s : State), LinkClear s → 64 ≤ s.link.inFlight.length →
    exec (.read a n tag) s = .next { s with link := { s.link with waiting := [.read a n tag] } }) ∧
  (∀ (c : Instr) (s : State) (a : Addr) (n : Nat) (tag : BitVec 6) (rest : List Request),
    requestsOf c ≠ [] → 64 ≤ s.link.inFlight.length → s.link.waiting = .read a n tag :: rest →
    exec c s = .next { s with link := { s.link with waiting := s.link.waiting ++ requestsOf c } })

/-- The result of a READ line by its class: UNCLAIMED, DRAM content, the line of a FILLING slot's block in
RUNNING, the line of a bound egress slot's block but for its missing tiles, or the fill line. And the addresses:
the host-visible top is the DRAM size less the pool, line j of block i stands above it, line j of a slot stands
in the ingest window, a picture record's fault address is its own line's, and the low six bits of a request's
address count as zero. -/
def Obligations.ReadLineResults : Prop :=
  (∀ (s : State) (i j : Nat),
    s.hostTop = tableDram s.straps.mem - s.pool.blocks * (s.pool.tiles * 65536) ∧
    s.blockLineAddr i j = s.hostTop + i * (s.pool.tiles * 65536) + j * 64 ∧
    LineAt s.dram (s.blockLineAddr i j) (s.readBlockLine i j) ∧
    s.pool.missingTiles i = (s.pool.record i).missing.getD []) ∧
  (∀ (s : State) (k : Fin 4) (j : Nat),
    s.slotLineAddr k j = s.windows.ingest.toNat + k.val * (s.pool.tiles * 65536) + j * 64) ∧
  (∀ (s : State) (a : Addr) (k : Fin 4), WindowsSound s → s.classify (requestLine a 0) = .ingest k 0 →
    s.slotLineAddr k 0 = requestLine a 0) ∧
  (∀ (a : Addr) (i : Nat), requestLine a i = a.toNat - a.toNat % 64 + 64 * i) ∧
  ∀ (s : State) (x : Nat),
    (s.hostTop ≤ x → s.readResult x = .unclaimed) ∧
    (s.classify x = .pass ∨ (∃ p, s.classify x = .control p) →
      ∃ l, s.readResult x = .ok l ∧ LineAt s.dram x l) ∧
    (∀ k j, s.classify x = .ingest k j →
      (∀ b w first, s.slot k = .filling b w first → s.monitor.run = .running →
        ∃ l, s.readResult x = .ok l ∧ LineAt s.dram (s.blockLineAddr b j) l) ∧
      (s.monitor.run ≠ .running ∨ (∀ b w first, s.slot k ≠ .filling b w first) →
        s.readResult x = .fill 0)) ∧
    (∀ slot j, s.classify x = .egress slot j → j ≠ 0 →
      (s.air.binding slot = none → s.readResult x = .fill 0) ∧
      (∀ b, s.air.binding slot = some b → j / 1024 ∈ s.pool.missingTiles b.block →
        s.readResult x = .fill 0) ∧
      (∀ b, s.air.binding slot = some b → j / 1024 ∉ s.pool.missingTiles b.block →
        ∃ l, s.readResult x = .ok l ∧ LineAt s.dram (s.blockLineAddr b.block j) l))

/-- Line 0 of an egress slot: of a bound slot, the stored record with kind AIR, the air fields and a good
check word, every host byte as written; of an unbound slot, a FILL record. The current slot is A for an even
on-air number and B for an odd one, and the current air frame is what is bound there. -/
def Obligations.PictureRecordsOnEgress : Prop :=
  (∀ n : Seq, EgressSlot.ofOnAir n = if n.toNat % 2 = 0 then .a else .b) ∧
  (∀ a : Air, a.binding .a = a.slotA ∧ a.binding .b = a.slotB ∧
    a.current = if a.onAir.toNat % 2 = 0 then a.slotA else a.slotB) ∧
  (∀ (s : State) (x : Nat) (slot : EgressSlot) (b : Binding), s.classify x = .egress slot 0 →
    s.air.binding slot = some b →
    ∃ l, s.readResult x = .ok l ∧ recordGood l = true ∧ fieldAt l 0 8 = 0x02 ∧
      (∀ i, (1 ≤ i ∧ i < 16) ∨ (48 ≤ i ∧ i < 62) →
        fieldAt l i 8 = fieldAt (s.readBlockLine b.block 0) i 8) ∧
      fieldAt l 16 32 = b.onAir ∧ fieldAt l 20 32 = b.releaseServe ∧ fieldAt l 24 32 = s.air.serve ∧
      fieldAt l 28 32 = b.airDelay ∧
      fieldAt l 32 32 = BitVec.ofNat 32 (s.monitor.rateCode.toMs b.airDelay.toNat) ∧
      fieldAt l 36 16 = BitVec.ofNat 16 b.repeats ∧
      fieldAt l 38 8 = (if EgressSlot.ofOnAir s.air.onAir = slot then 1 else 2) ∧
      fieldAt l 39 8 = b.gapBefore ∧ fieldAt l 40 8 = b.skipBefore ∧
      fieldAt l 41 8 = (if b.spliceIn then 1 else 0) ∧ fieldAt l 42 8 = (if b.isPartial then 1 else 0) ∧
      fieldAt l 43 40 = 0) ∧
  (∀ (s : State) (x : Nat) (slot : EgressSlot), s.classify x = .egress slot 0 →
    s.air.binding slot = none →
    ∃ l, s.readResult x = .fill l ∧ recordGood l = true ∧ fieldAt l 0 8 = 0x03 ∧
      fieldAt l 16 32 = s.air.onAir ∧ fieldAt l 24 32 = s.air.serve ∧
      fieldAt l 43 8 = s.air.condition.code ∧ fieldAt l 44 8 = slot.code ∧
      ∀ i, (1 ≤ i ∧ i < 16) ∨ (20 ≤ i ∧ i < 24) ∨ (28 ≤ i ∧ i < 43) ∨ (45 ≤ i ∧ i < 62) →
        fieldAt l i 8 = 0)

/-- Every line of the readout page passes the record check; a line with content carries its number; lines 12
to 31, lines with nothing to show and every byte that no layout lists are zero; and every field stands where
the layout puts it, in its code. -/
def Obligations.ReadoutLinesComposed : Prop :=
  (∀ (s : State) (x p : Nat), s.classify x = .readout p → s.readResult x = .ok (s.readoutLine p)) ∧
  (∀ (s : State) (p : Nat), recordGood (s.readoutLine p) = true) ∧
  (∀ (s : State) (p : Nat), p < 7 ∨ p = 11 → fieldAt (s.readoutLine p) 0 8 = BitVec.ofNat 8 p) ∧
  (∀ (s : State) (p : Nat), 12 ≤ p → p < 32 → s.readoutLine p = 0) ∧
  (∀ s : State, let l := s.readoutLine 0
    fieldAt l 2 16 = 0x0864 ∧ fieldAt l 4 8 = 1 ∧ fieldAt l 5 8 = s.monitor.run.code ∧
    fieldAt l 6 8 = BitVec.ofNat 8 s.straps.rate ∧ fieldAt l 7 8 = BitVec.ofNat 8 s.straps.mem ∧
    fieldAt l 8 8 = BitVec.ofNat 8 s.straps.delay ∧ fieldAt l 9 8 = BitVec.ofNat 8 s.straps.pol ∧
    fieldAt l 10 8 = BitVec.ofNat 8 s.straps.check ∧ fieldAt l 11 8 = s.gen.mode.code ∧
    fieldAt l 12 32 = BitVec.ofNat 32 s.gen.generated ∧ ZeroFrom l 16) ∧
  (∀ s : State, let l := s.readoutLine 1
    fieldAt l 2 8 = s.air.condition.code ∧
    fieldAt l 3 8 = (if s.air.current = none then 2 else (EgressSlot.ofOnAir s.air.onAir).code) ∧
    fieldAt l 4 32 = s.air.serve ∧ fieldAt l 8 32 = s.air.onAir ∧
    fieldAt l 12 8 = s.air.lastAction.code ∧ fieldAt l 13 16 = BitVec.ofNat 16 s.air.stallCount ∧
    fieldAt l 15 16 = BitVec.ofNat 16 s.air.freezeCount ∧
    fieldAt l 17 8 = (if s.air.slotA.isSome then 1 else 0) + (if s.air.slotB.isSome then 2 else 0) ∧
    ZeroFrom l 18) ∧
  (∀ s : State, let l := s.readoutLine 2
    let ms := fun n => BitVec.ofNat 32 (s.monitor.rateCode.toMs n)
    fieldAt l 2 16 = BitVec.ofNat 16 s.queue.entries.length ∧ fieldAt l 4 32 = ms s.queue.entries.length ∧
    fieldAt l 8 16 = BitVec.ofNat 16 s.monitor.inForce.target ∧ fieldAt l 10 32 = ms s.monitor.inForce.target ∧
    fieldAt l 14 8 = s.trim.state.code ∧ fieldAt l 15 16 = BitVec.ofNat 16 s.trim.credit ∧
    (s.air.lastAirDelay = none → fieldAt l 17 8 = 0 ∧ fieldAt l 18 32 = 0 ∧ fieldAt l 22 32 = 0) ∧
    (∀ d, s.air.lastAirDelay = some d →
      fieldAt l 17 8 = 1 ∧ fieldAt l 18 32 = d ∧ fieldAt l 22 32 = ms d.toNat) ∧
    fieldAt l 26 32 = BitVec.ofNat 32 s.air.repeatTotal ∧ fieldAt l 30 32 = BitVec.ofNat 32 s.air.skipTotal ∧
    fieldAt l 34 32 = BitVec.ofNat 32 s.holds.dumpTotal ∧ ZeroFrom l 38) ∧
  (∀ s : State, let l := s.readoutLine 3
    fieldAt l 2 40 = s.windows.ingest ∧ fieldAt l 7 40 = s.windows.egress ∧
    fieldAt l 12 40 = s.windows.control ∧ fieldAt l 17 40 = s.windows.readout ∧
    fieldAt l 22 8 = BitVec.ofNat 8 s.pool.tiles ∧ fieldAt l 23 16 = BitVec.ofNat 16 s.pool.blocks ∧
    fieldAt l 25 40 = BitVec.ofNat 40 s.hostTop ∧ fieldAt l 30 8 = s.monitor.rateCode.code ∧
    fieldAt l 31 8 = (if s.link.checkMode then 1 else 0) ∧ SettingsAt l s.monitor.inForce ∧ ZeroFrom l 52) ∧
  (∀ s : State, let l := s.readoutLine 4
    SettingsAt l s.monitor.staged ∧ ZeroFrom l 52 ∧ ∀ i, 1 ≤ i → i < 32 → fieldAt l i 8 = 0) ∧
  (∀ s : State, let l := s.readoutLine 5
    fieldAt l 2 16 = s.monitor.commandCount ∧
    (∀ i < 8, s.monitor.results[i]? = none → fieldAt l (4 + 3 * i) 24 = 0) ∧
    (∀ i r, i < 8 → s.monitor.results[i]? = some r → fieldAt l (4 + 3 * i) 8 = r.num ∧
      fieldAt l (5 + 3 * i) 8 = r.code ∧ fieldAt l (6 + 3 * i) 8 = r.result.code) ∧ ZeroFrom l 28) ∧
  (∀ s : State, let l := s.readoutLine 6
    fieldAt l 2 16 = s.readout.flags.setWidth 16 ∧
    (s.readout.first = none → fieldAt l 4 136 = 0) ∧
    (∀ f, s.readout.first = some f → fieldAt l 4 8 = 1 ∧ fieldAt l 5 8 = f.kind.code ∧
      fieldAt l 6 32 = f.serve ∧ fieldAt l 10 8 = (if f.seq.isSome then 1 else 0) ∧
      fieldAt l 11 32 = f.seq.getD 0 ∧ fieldAt l 15 8 = (if f.addr.isSome then 1 else 0) ∧
      fieldAt l 16 40 = f.addr.getD 0) ∧ ZeroFrom l 21) ∧
  (∀ (s : State) (i : Nat), i < 4 → s.holds.table[i]? = none → s.readoutLine (7 + i) = 0) ∧
  (∀ (s : State) (i : Nat) (h : HoldRecord), i < 4 → s.holds.table[i]? = some h →
    let l := s.readoutLine (7 + i)
    fieldAt l 0 8 = BitVec.ofNat 8 (7 + i) ∧ fieldAt l 2 8 = h.id ∧ fieldAt l 3 8 = h.state.code ∧
    fieldAt l 4 8 = (if h.firstSeq.isSome then 1 else 0) ∧ fieldAt l 5 32 = h.firstSeq.getD 0 ∧
    fieldAt l 9 8 = (if h.lastSeq.isSome then 1 else 0) ∧ fieldAt l 10 32 = h.lastSeq.getD 0 ∧
    fieldAt l 14 16 = BitVec.ofNat 16 h.unaired ∧ fieldAt l 16 32 = h.openedAt ∧ ZeroFrom l 20) ∧
  (∀ s : State, let l := s.readoutLine 11
    fieldAt l 2 16 = BitVec.ofNat 16 s.pool.free.length ∧
    fieldAt l 4 16 = BitVec.ofNat 16 s.pool.retire.length ∧
    (∀ k : Fin 4, fieldAt l (6 + k.val) 8 = (s.slot k).code) ∧ fieldAt l 10 8 = s.store.rate.code ∧
    fieldAt l 11 8 = BitVec.ofNat 8 s.store.attempts ∧ ZeroFrom l 12) ∧
  (∀ (s : State) (i : Nat), s.readout.log[i]? = none → s.readoutLine (32 + i) = 0) ∧
  (∀ (s : State) (i : Nat) (r : LogRecord), s.readout.log[i]? = some r →
    let l := s.readoutLine (32 + i)
    let e := r.entry
    fieldAt l 0 8 = BitVec.ofNat 8 (32 + i) ∧ fieldAt l 2 16 = r.number ∧ fieldAt l 4 8 = e.kind.code ∧
    fieldAt l 5 8 = e.cause.code ∧ fieldAt l 6 32 = r.serve ∧
    fieldAt l 10 8 = (if e.first.isSome then 1 else 0) + (if e.last.isSome then 2 else 0) +
      (if e.count.isSome then 4 else 0) + (if e.hold.isSome then 8 else 0) ∧
    fieldAt l 11 32 = e.first.getD 0 ∧ fieldAt l 15 32 = e.last.getD 0 ∧ fieldAt l 19 32 = e.count.getD 0 ∧
    fieldAt l 23 8 = e.hold.getD 0 ∧ ZeroFrom l 24) ∧
  ([RunState.stopped, .running, .stopping].map RunState.code = [0, 1, 2] ∧
    [GenMode.await, .locked, .lost].map GenMode.code = [0, 1, 2] ∧
    [AirCond.off, .priming, .flowing, .stalled, .frozen, .filled].map AirCond.code = [0, 1, 2, 3, 4, 5] ∧
    [EgressSlot.a, .b].map EgressSlot.code = [0, 1] ∧
    [LastAction.none, .primeFill, .stall, .freeze, .fill, .repeated, .release, .skip].map LastAction.code =
      [0, 1, 2, 3, 4, 5, 6, 7] ∧
    [TrimState.onDelay, .building, .catching].map TrimState.code = [0, 1, 2] ∧
    [RateCode.rate25, .rate2997, .rate50, .rate5994].map RateCode.code = [0, 1, 2, 3] ∧
    [Eligibility.quietOnly, .any].map Eligibility.code = [0, 1] ∧
    [DumpMode.chunk, .segment].map DumpMode.code = [0, 1] ∧
    [StallPolicy.release, .dump].map StallPolicy.code = [0, 1] ∧
    [CmdResult.accepted, .clamped, .refusedState, .refusedRange, .refusedBusy, .badCheck, .unknown].map
      CmdResult.code = [1, 2, 3, 4, 5, 6, 7] ∧
    (∀ b w n, [IngestSlot.empty, .filling b w n, .discard b n, .overrun].map IngestSlot.code = [0, 1, 2, 3]) ∧
    [HoldState.opened, .pending].map HoldState.code = [1, 2] ∧
    [StoreRate.full, .half].map StoreRate.code = [0, 1] ∧
    [LogKind.dump, .holdReleased, .holdDumped, .holdEmpty, .stallExpired, .freezeStart, .fillStart, .fillEnd,
      .ingestDrop, .gap, .refLost, .refReturn].map LogKind.code = [1, 2, 3, 4, 5, 6, 7, 8, 9, 10, 11, 12] ∧
    [Cause.console, .command, .policy, .device, .discard, .overrun, .timeout].map Cause.code =
      [1, 2, 3, 4, 5, 6, 7] ∧
    [FaultKind.linkCheck, .unclaimed, .headerBad, .seqGap, .seqBack, .ingestDrop, .stallExpired, .fillOnAir,
      .refLost, .cmdBad].map FaultKind.code = [1, 2, 3, 4, 5, 6, 7, 8, 9, 10])

/-- The class of a line address, for windows as R31 leaves them. -/
def Obligations.WindowClasses : Prop :=
  ∀ (s : State) (x : Nat), WindowsSound s →
    let bs := s.pool.tiles * 65536
    let ib := s.windows.ingest.toNat
    let eb := s.windows.egress.toNat
    let cb := s.windows.control.toNat
    let rb := s.windows.readout.toNat
    let inIngest := ib ≠ 0 ∧ ib ≤ x ∧ x < ib + 4 * bs
    let inEgress := eb ≠ 0 ∧ eb ≤ x ∧ x < eb + 2 * bs
    (s.hostTop ≤ x → s.classify x = .unclaimed) ∧
    (s.monitor.run ≠ .stopped → inIngest →
      ∃ k : Fin 4, k.val = (x - ib) / bs ∧ s.classify x = .ingest k ((x - ib) % bs / 64)) ∧
    (s.monitor.run ≠ .stopped → inEgress →
      s.classify x = .egress (if x < eb + bs then .a else .b) ((x - eb) % bs / 64)) ∧
    (cb ≤ x → x < cb + 4096 → s.classify x = .control ((x - cb) / 64)) ∧
    (rb ≤ x → x < rb + 4096 → s.classify x = .readout ((x - rb) / 64)) ∧
    (x < s.hostTop → (s.monitor.run = .stopped ∨ (¬ inIngest ∧ ¬ inEgress)) →
      ¬ (cb ≤ x ∧ x < cb + 4096) → ¬ (rb ≤ x ∧ x < rb + 4096) → s.classify x = .pass)

/-! ### Writes -/

/-- A WRITE of PASS and READOUT lines, and of CONTROL lines of another kind than COMMAND, stores its lines in
DRAM and changes nothing else, and no byte outside them. A WRITE of several lines, of whatever classes, is its
lowest line and then the rest, on the state that line leaves; behind a line that carries an accepted RESET_PART
the rest does as without it, but that its COMMAND lines are only stored. -/
def Obligations.WriteStoresLines : Prop :=
  (∀ (a : Addr) (data : List Line) (check : Option Half) (s : State), LinkClear s → Memory.wf s.dram →
    WritePasses s a data check →
    (∀ i, (h : i < data.length) → s.classify (requestLine a i) = .pass ∨
      (∃ p, s.classify (requestLine a i) = .readout p) ∨
      (∃ p, s.classify (requestLine a i) = .control p ∧ fieldAt data[i] 0 8 ≠ 0x10)) →
    Gives (.write a data check) s fun t =>
      t = { s with dram := t.dram } ∧ Memory.wf t.dram ∧
      (∀ i, (h : i < data.length) → LineAt t.dram (requestLine a i) data[i]) ∧
      SameOutside s.dram t.dram (requestLine a 0) (64 * data.length)) ∧
  (∀ (a : Addr) (l : Line) (rest : List Line) (check check₁ check₂ : Option Half) (s t : State), LinkClear s →
    a.toNat + 64 < 1099511627776 → WritePasses s a (l :: rest) check → WritePasses s a [l] check₁ →
    exec (.write a [l] check₁) s = .next t → WritePasses t (a + 64) rest check₂ →
    (t.monitor.resetPart = none →
      exec (.write a (l :: rest) check) s = exec (.write (a + 64) rest check₂) t) ∧
    (t.monitor.resetPart ≠ none →
      ((∀ i, (h : i < rest.length) → ∀ p, t.classify (requestLine (a + 64) i) = .control p →
          fieldAt rest[i] 0 8 ≠ 0x10) →
        Gives (.write (a + 64) rest check₂) { t with monitor := { t.monitor with resetPart := none } } fun u =>
          exec (.write a (l :: rest) check) s =
            .next { u with monitor := { u.monitor with resetPart := t.monitor.resetPart } }) ∧
      (Memory.wf s.dram →
        (∀ i < rest.length, t.classify (requestLine (a + 64) i) = .pass ∨
          (∃ p, t.classify (requestLine (a + 64) i) = .readout p) ∨
          ∃ p, t.classify (requestLine (a + 64) i) = .control p) →
        Gives (.write a (l :: rest) check) s fun u => u = { t with dram := u.dram } ∧
          (∀ i, (h : i < rest.length) → LineAt u.dram (requestLine (a + 64) i) rest[i]) ∧
          SameOutside t.dram u.dram (requestLine (a + 64) 0) (64 * rest.length))))

/-- The link write check is the sum of data, address and check word modulo 65,536; a WRITE that fails it in
mode ON is dropped whole, raises LINK_CHECK, and in RUNNING turns each FILLING slot it touches to DISCARD. -/
def Obligations.WriteFailsLinkCheck : Prop :=
  (∀ (a : Addr) (data : List Line) (c : Half), linkCheckPasses a data (some c) = true ↔
    ((data.map fun l => ((List.range 32).map fun i => (fieldAt l (2 * i) 16).toNat).sum).sum +
      (a.toNat % 65536 + a.toNat / 65536 % 65536 + a.toNat / 4294967296) + c.toNat) % 65536 = 0) ∧
  (∀ (a : Addr) (data : List Line), linkCheckPasses a data none = false) ∧
  (∀ (a : Addr) (data : List Line) (check : Option Half) (s : State), LinkClear s →
    s.link.checkMode = true → linkCheckPasses a data check = false →
    Gives (.write a data check) s fun t =>
      t = { s with ingest := t.ingest, readout := (s.report .linkCheck none (some a)).readout } ∧
      t.ingest.lastSeq = s.ingest.lastSeq ∧
      (s.monitor.run ≠ .running → t.ingest = s.ingest) ∧
      (∀ k : Fin 4, (∀ i < data.length, ∀ j, s.classify (requestLine a i) ≠ .ingest k j) →
        t.slot k = s.slot k) ∧
      (∀ (k : Fin 4) (i j : Nat), s.monitor.run = .running → i < data.length →
        s.classify (requestLine a i) = .ingest k j →
        (∀ b w first, s.slot k = .filling b w first → t.slot k = .discard b first) ∧
        ((∀ b w first, s.slot k ≠ .filling b w first) → t.slot k = s.slot k)))

/-- Lines written to the egress window, and to the ingest window in STOPPING, are dropped without fault;
UNCLAIMED lines are dropped with one fault that carries the lowest, also where the lines before them lie below
the host-visible top and are stored. -/
def Obligations.WriteDropsLines : Prop :=
  (∀ (a : Addr) (data : List Line) (check : Option Half) (s : State), LinkClear s →
    WritePasses s a data check →
    (∀ i < data.length, (∃ slot j, s.classify (requestLine a i) = .egress slot j) ∨
      (s.monitor.run = .stopping ∧ ∃ k j, s.classify (requestLine a i) = .ingest k j)) →
    exec (.write a data check) s = .next s) ∧
  (∀ (a : Addr) (data : List Line) (check : Option Half) (s : State), LinkClear s →
    WritePasses s a data check → data ≠ [] → (∀ i < data.length, s.hostTop ≤ requestLine a i) →
    exec (.write a data check) s =
      .next { s with
        readout := (s.report .unclaimed none (some (BitVec.ofNat 40 (requestLine a 0)))).readout }) ∧
  (∀ (a : Addr) (data : List Line) (check : Option Half) (s : State) (k : Nat), LinkClear s →
    Memory.wf s.dram → WritePasses s a data check → k < data.length → s.hostTop ≤ requestLine a k →
    (∀ i < k, s.classify (requestLine a i) = .pass ∨ ∃ p, s.classify (requestLine a i) = .readout p) →
    Gives (.write a data check) s fun t =>
      t = { s with
        dram := t.dram
        readout := (s.report .unclaimed none (some (BitVec.ofNat 40 (requestLine a k)))).readout } ∧
      (∀ i, (h : i < data.length) → i < k → LineAt t.dram (requestLine a i) data[i]) ∧
      SameOutside s.dram t.dram (requestLine a 0) (64 * k))

/-- A payload line in RUNNING: an EMPTY slot binds the block at the head of the free list, or becomes OVERRUN
when there is none; a FILLING slot adds the line; DISCARD and OVERRUN drop it. -/
def Obligations.PayloadLineBySlotState : Prop :=
  ∀ (a : Addr) (l : Line) (check : Option Half) (s : State) (k : Fin 4) (j : Nat), LinkClear s →
    WritePasses s a [l] check → s.monitor.run = .running → Memory.wf s.dram →
    s.classify (requestLine a 0) = .ingest k j → j ≠ 0 →
    (∀ b rest, s.slot k = .empty → s.pool.free = b :: rest → Gives (.write a [l] check) s fun t =>
      t = { s with
        dram := t.dram
        ingest := { s.ingest with slots := t.ingest.slots }
        pool := { s.pool with free := rest, records := t.pool.records } } ∧
      t.slot k = .filling b [j] s.air.serve ∧ OtherSlotsSame s t k ∧
      (b < s.pool.records.length → (t.pool.record b).state = .ingest) ∧ OtherRecordsSame s t b ∧
      LineAt t.dram (s.blockLineAddr b j) l ∧ SameOutside s.dram t.dram (s.blockLineAddr b j) 64) ∧
    (s.slot k = .empty → s.pool.free = [] → Gives (.write a [l] check) s fun t =>
      t = { s with ingest := { s.ingest with slots := t.ingest.slots } } ∧
      t.slot k = .overrun ∧ OtherSlotsSame s t k) ∧
    (∀ b w first, s.slot k = .filling b w first → Gives (.write a [l] check) s fun t =>
      t = { s with dram := t.dram, ingest := { s.ingest with slots := t.ingest.slots } } ∧
      (∃ w', t.slot k = .filling b w' first ∧ ∀ x, x ∈ w' ↔ x = j ∨ x ∈ w) ∧ OtherSlotsSame s t k ∧
      LineAt t.dram (s.blockLineAddr b j) l ∧ SameOutside s.dram t.dram (s.blockLineAddr b j) 64) ∧
    ((∃ b first, s.slot k = .discard b first) ∨ s.slot k = .overrun →
      exec (.write a [l] check) s = .next s)

/-- A picture record with a good check whose number is in order, or after a gap, commits its frame: one new
entry at the tail, splice mark and hold tag set, the block QUEUED, the sequence register set; a gap raises
SEQ_GAP and writes a GAP record. The order guard's own removals are stated apart. -/
def Obligations.PictureRecordCommits : Prop :=
  ∀ (a : Addr) (l : Line) (check : Option Half) (s : State) (k : Fin 4) (b : Nat) (w : List Nat) (gap : Byte),
    LinkClear s → WritePasses s a [l] check → s.monitor.run = .running → Memory.wf s.dram →
    s.classify (requestLine a 0) = .ingest k 0 → EndsFrameIn s k b w → recordGood l = true →
    let q : Seq := fieldAt l 4 32
    let missing := missingTiles s.pool.tiles w
    let noGap := gap = 0 ∧ (s.ingest.lastSeq = none ∨ s.ingest.lastSeq = some (q - 1))
    let afterGap := fun p : Seq => s.ingest.lastSeq = some p ∧ q - (p + 1) ≠ 0 ∧
      (q - (p + 1)).toNat < 2147483648 ∧ gap = BitVec.ofNat 8 (min 255 (q - (p + 1)).toNat)
    guardFits q s.queue.entries = true →
    (noGap ∨ ∃ p, afterGap p) →
    Gives (.write a [l] check) s fun t =>
      t = { s with
        dram := t.dram
        pool := { s.pool with free := freeAfter s k, records := t.pool.records }
        ingest := { slots := t.ingest.slots, lastSeq := some q }
        queue := {
          entries := s.queue.entries ++
            [{ seq := q, stamp := s.air.serve, block := b, level := fieldAt l 2 8, segment := l.getLsbD 8,
               isPartial := decide (missing ≠ []), gapBefore := gap, spliceIn := s.queue.splicePending,
               hold := s.openHold.map (·.id) }]
          splicePending := false }
        holds := { s.holds with table := s.holds.table.map fun h =>
          if h.state = .opened then { h with unaired := h.unaired + 1, firstSeq := h.firstSeq.or (some q) }
          else h }
        trim := s.trim.evaluate (s.queue.entries.length + 1) s.monitor.inForce.target s.monitor.inForce.band
        readout := t.readout } ∧
      t.slot k = .empty ∧ OtherSlotsSame s t k ∧
      (b < s.pool.records.length → t.pool.record b =
        { state := .queued, inFlight := none, missing := if missing = [] then none else some missing }) ∧
      OtherRecordsSame s t b ∧
      LineAt t.dram (s.blockLineAddr b 0) l ∧ SameOutside s.dram t.dram (s.blockLineAddr b 0) 64 ∧
      (noGap → t.readout = s.readout) ∧
      (∀ p, afterGap p → t.readout =
        ((s.report .seqGap (some q) (some (BitVec.ofNat 40 (s.slotLineAddr k 0)))).logEdit
          { kind := .gap, first := some (p + 1), last := some (q - 1), count := some (q - (p + 1)),
            hold := none, cause := .device }).readout)

/-- A picture record that fails its check, or whose number is behind, frees its block and raises its fault; at
a DISCARD or OVERRUN slot, or with no block to give, the frame is dropped with INGEST_DROP. -/
def Obligations.PictureRecordRefusedOrDropped : Prop :=
  ∀ (a : Addr) (l : Line) (check : Option Half) (s : State) (k : Fin 4), LinkClear s →
    WritePasses s a [l] check → s.monitor.run = .running → Memory.wf s.dram →
    s.classify (requestLine a 0) = .ingest k 0 →
    let q : Seq := fieldAt l 4 32
    let addr : Addr := BitVec.ofNat 40 (s.slotLineAddr k 0)
    let behind := ∃ p, s.ingest.lastSeq = some p ∧ 2147483648 ≤ (q - (p + 1)).toNat
    let logged := if recordGood l then some q else none
    (∀ b w, EndsFrameIn s k b w → recordGood l = false ∨ behind → Gives (.write a [l] check) s fun t =>
      t = { s with
        dram := t.dram
        pool := { s.pool with free := freeAfter s k ++ [b], records := t.pool.records }
        ingest := { s.ingest with slots := t.ingest.slots }
        readout := t.readout } ∧
      t.slot k = .empty ∧ OtherSlotsSame s t k ∧ t.pool.record b = freeRecord ∧ OtherRecordsSame s t b ∧
      LineAt t.dram (s.blockLineAddr b 0) l ∧ SameOutside s.dram t.dram (s.blockLineAddr b 0) 64 ∧
      (recordGood l = false → t.readout = (s.report .headerBad none (some addr)).readout) ∧
      (recordGood l = true → t.readout = (s.report .seqBack (some q) (some addr)).readout)) ∧
    (∀ b first, s.slot k = .discard b first → Gives (.write a [l] check) s fun t =>
      t = { s with
        pool := { s.pool with free := s.pool.free ++ [b], records := t.pool.records }
        ingest := { s.ingest with slots := t.ingest.slots }
        readout := ((s.report .ingestDrop logged (some addr)).logEdit
          { kind := .ingestDrop, first := logged, last := logged, count := some 1, hold := none,
            cause := .discard }).readout } ∧
      t.slot k = .empty ∧ OtherSlotsSame s t k ∧ t.pool.record b = freeRecord ∧ OtherRecordsSame s t b) ∧
    (s.slot k = .overrun ∨ (s.slot k = .empty ∧ s.pool.free = []) → Gives (.write a [l] check) s fun t =>
      t = { s with
        ingest := { s.ingest with slots := t.ingest.slots }
        readout := ((s.report .ingestDrop logged (some addr)).logEdit
          { kind := .ingestDrop, first := logged, last := logged, count := some 1, hold := none,
            cause := .overrun }).readout } ∧
      t.slot k = .empty ∧ OtherSlotsSame s t k)

/-- The missing-tile set is the ascending list of the tiles that lack a written line, line 0 of the frame
being no written line of tile 0. -/
def Obligations.CompletenessTest : Prop :=
  ∀ (tiles : Nat) (written : List Nat),
    (missingTiles tiles written).Pairwise (· < ·) ∧
    ∀ t, t ∈ missingTiles tiles written ↔
      t < tiles ∧ ∃ i < 1024, 1024 * t + i ≠ 0 ∧ 1024 * t + i ∉ written

/-- A frame fits an empty queue, and one whose oldest entry it follows by 1 to 2^31 - 1 and by more than the
newest does. The order guard removes oldest entries, as few as make the new frame fit; the kept entries with the
new one ascend; and an append that removes some frees their blocks oldest first, marks the splice, raises the dump
total, writes a DUMP record of cause DEVICE, and takes the removed entries from the holds that tagged them: a
PENDING hold left with none goes with a HOLD_DUMPED record, and the OPEN one then tags the new frame. -/
def Obligations.OrderGuard : Prop :=
  (∀ (q : Seq) (es : List Entry), guardFits q es = true ↔ es = [] ∨
    ∃ o n, es.head? = some o ∧ es.getLast? = some n ∧
      1 ≤ (q - o.seq).toNat ∧ (q - o.seq).toNat < 2147483648 ∧ (n.seq - o.seq).toNat < (q - o.seq).toNat) ∧
  (∀ (q : Seq) (es : List Entry),
    guardRemoved q es ++ guardKept q es = es ∧ guardFits q (guardKept q es) = true ∧
    (∀ pre x suf, guardRemoved q es = pre ++ x :: suf →
      guardFits q (x :: suf ++ guardKept q es) = false) ∧
    (∀ e : Entry, e.seq = q → Ascending es → Ascending (guardKept q es ++ [e]))) ∧
  (∀ (s : State) (e : Entry), guardRemoved e.seq s.queue.entries ≠ [] →
    let gone := guardRemoved e.seq s.queue.entries
    let kept := guardKept e.seq s.queue.entries
    let mine := fun (h : HoldRecord) (x : Entry) => decide (x.hold = some h.id)
    let lost := fun h : HoldRecord => (gone.filter (mine h)).length
    let emptied := fun h : HoldRecord => decide (lost h ≠ 0 ∧ h.unaired ≤ lost h ∧ h.state = .pending)
    let cut := fun h : HoldRecord =>
      if lost h = 0 then h
      else { h with
        unaired := h.unaired - lost h
        firstSeq := (kept.filter (mine h)).head?.map (·.seq)
        lastSeq := if h.lastSeq = none then none else (kept.filter (mine h)).getLast?.map (·.seq) }
    let tagged := fun h : HoldRecord =>
      if h.state = .opened then { h with unaired := h.unaired + 1, firstSeq := h.firstSeq.or (some e.seq) }
      else h
    (s.append e).holds = { s.holds with
      table := ((s.holds.table.filter fun h => !emptied h).map cut).map tagged
      dumpTotal := min 4294967295 (s.holds.dumpTotal + gone.length) } ∧
    (s.append e).queue.splicePending = false ∧
    (∃ e', (s.append e).queue.entries = (match kept with
        | [] => []
        | o :: rest => { o with spliceIn := true } :: rest) ++ [e'] ∧ e'.seq = e.seq ∧
      e'.block = e.block ∧ e'.spliceIn = (s.queue.splicePending || kept.isEmpty)) ∧
    (s.append e).pool.free = s.pool.free ++ gone.map (·.block) ∧
    (s.append e).readout = ((s.logEdit
      { kind := .dump, first := gone.head?.map (·.seq), last := gone.getLast?.map (·.seq),
        count := some (BitVec.ofNat 32 gone.length), hold := none, cause := .device }).logEdits
      ((s.holds.table.filter emptied).map fun h =>
        { kind := .holdDumped, first := h.firstSeq, last := h.lastSeq,
          count := some (BitVec.ofNat 32 (lost h)), hold := some h.id, cause := .device })).readout)

/-- A COMMAND line written to the control page reaches DRAM and is then the command row its code names, with
the arguments that stand at its bytes; a bad check gives BAD_CHECK and CMD_BAD, an unknown code UNKNOWN. The
check is good when the record's 32 little-endian words sum to 0 modulo 65,536. -/
def Obligations.CommandRecordRunsItsRow : Prop :=
  (∀ l : Line, recordGood l = true ↔ ((List.range 32).map fun i => twoBytes l (2 * i)).sum % 65536 = 0) ∧
  (∀ l : Line, commandOf l = none ↔ recordCode l = 0 ∨ 13 < (recordCode l).toNat) ∧
  (∀ (l : Line) (c : Command), commandOf l = some c → c.code = recordCode l ∧ ReadsAs l c) ∧
  (∀ (a : Addr) (l : Line) (check : Option Half) (s : State) (p : Nat), LinkClear s →
    WritePasses s a [l] check → s.classify (requestLine a 0) = .control p → fieldAt l 0 8 = 0x10 →
    let stored : State := { s with dram := writeLine s.dram (requestLine a 0) l }
    (∀ c, recordGood l = true → commandOf l = some c →
      exec (.write a [l] check) s = exec (rowOf (fieldAt l 1 8) c) stored) ∧
    (recordGood l = true → commandOf l = none → exec (.write a [l] check) s =
      .next { stored with monitor := entered s.monitor (fieldAt l 1 8) (fieldAt l 2 8) .unknown }) ∧
    (recordGood l = false → exec (.write a [l] check) s =
      .next { stored with
        monitor := entered s.monitor (fieldAt l 1 8) (fieldAt l 2 8) .badCheck
        readout := (s.report .cmdBad none (some (BitVec.ofNat 40 (requestLine a 0)))).readout }))

/-! ### Read completions -/

/-- READ_COMPLETION sends the oldest read's completion: its results, FILL lines in the completion phase of a
RESET_PART, or TAG_IN_USE; requests that wait are then taken, each as it would be on arrival and in their
order, until one cannot be taken. With none in flight it changes nothing. -/
def Obligations.ReadCompletionSends : Prop :=
  (∀ (e : InFlight) (rest : List InFlight) (s : State), s.link.ready = true →
    s.link.inFlight = e :: rest → s.link.waiting = [] → Gives .readCompletion s fun t =>
      t = { s with
        link := { s.link with
          inFlight := rest
          sent := s.link.sent ++ [match e with
            | .accepted tag results _ =>
              .lines tag (if s.monitor.resetPart = none then results else results.map fun _ => .fill 0)
            | .refused tag => .tagInUse tag] }
        pool := t.pool
        monitor := { s.monitor with run := t.monitor.run } } ∧
      (s.monitor.run ≠ .stopping → t.monitor.run = s.monitor.run) ∧
      (s.monitor.run ≠ .stopping → e.blocks = [] → t.pool = s.pool)) ∧
  (∀ (e : InFlight) (rest : List InFlight) (s : State), s.link.ready = true →
    s.link.inFlight = e :: rest →
    exec .readCompletion s = .next ((s.completeOldest e rest).takeRequests s.link.waiting) ∧
    Gives .readCompletion { s with link := { s.link with waiting := [] } } fun t =>
      s.completeOldest e rest = { t with link := { t.link with waiting := s.link.waiting } }) ∧
  (∀ (s : State) (r : Request) (rest : List Request),
    s.takeRequests [] = { s with link := { s.link with waiting := [] } } ∧
    (¬ Takable s r → s.takeRequests (r :: rest) = { s with link := { s.link with waiting := r :: rest } }) ∧
    (Takable s r → s.takeRequests (r :: rest) = (s.takeRequest r).takeRequests rest)) ∧
  (∀ (c : Instr) (s : State) (r : Request), requestsOf c = [r] → s.link.waiting = [] → Takable s r →
    exec c s = .next ((s.takeRequest r).takeRequests [])) ∧
  (∀ s : State, s.link.inFlight = [] → exec .readCompletion s = .next s)

/-- What a completion does to the block it was taken on: an AIR block's count falls; a RETIRING block whose
count reaches 0 leaves the retire list for the free list tail; in STOPPING the one that empties the retire
list rebuilds the free list and makes the run state STOPPED, and one that leaves another block there does not.
A completion of a read taken on two blocks does to the pool what a completion on the first and one on the
second do; that the first of two freed blocks joins the tail first is the model's choice (log 31). -/
def Obligations.ReadCompletionFreesBlocks : Prop :=
  (∀ (tag : BitVec 6) (results : List LineResult) (b c : Nat) (rest : List InFlight) (s : State),
    s.link.ready = true → s.link.inFlight = .accepted tag results [b] :: rest → s.link.waiting = [] →
    b < s.pool.records.length → (s.pool.record b).inFlight = some c → 1 ≤ c →
    ((s.pool.record b).state = .air ∨ ((s.pool.record b).state = .retiring ∧ 2 ≤ c) →
      s.monitor.run ≠ .stopping ∨ s.pool.retire ≠ [] →
      Gives .readCompletion s fun t =>
        t.pool = { s.pool with records := t.pool.records } ∧ t.monitor = s.monitor ∧
        t.pool.record b = { s.pool.record b with inFlight := some (c - 1) } ∧ OtherRecordsSame s t b) ∧
    ((s.pool.record b).state = .retiring → c = 1 →
      s.monitor.run ≠ .stopping ∨ s.pool.retire.erase b ≠ [] →
      Gives .readCompletion s fun t =>
        t.pool = { s.pool with records := t.pool.records, free := s.pool.free ++ [b],
                               retire := s.pool.retire.erase b } ∧
        t.pool.record b = freeRecord ∧ OtherRecordsSame s t b ∧ t.monitor = s.monitor) ∧
    ((s.pool.record b).state = .retiring → c = 1 → s.monitor.run = .stopping → s.pool.retire = [b] →
      Gives .readCompletion s fun t =>
        t.monitor = { s.monitor with run := .stopped } ∧ t.pool.tiles = s.pool.tiles ∧
        t.pool.blocks = s.pool.blocks ∧ t.pool.free = List.range s.pool.blocks ∧ t.pool.retire = [] ∧
        t.pool.records = List.replicate s.pool.blocks freeRecord)) ∧
  (∀ (tag : BitVec 6) (results : List LineResult) (b b' : Nat) (rest : List InFlight) (s : State),
    s.link.ready = true → s.link.inFlight = .accepted tag results [b, b'] :: rest → s.link.waiting = [] →
    let apart : State := { s with
      link := { s.link with
        inFlight := .accepted tag results [b] :: .accepted tag results [b'] :: rest } }
    (Gives .readCompletion s fun t => Gives .readCompletion apart fun u => Gives .readCompletion u fun v =>
      t.pool = v.pool ∧ t.monitor = v.monitor) ∧
    (b ≠ b' → (s.pool.record b).state = .retiring → (s.pool.record b').state = .retiring →
      s.pool.readCount b = 1 → s.pool.readCount b' = 1 → s.monitor.run ≠ .stopping →
      Gives .readCompletion s fun t =>
        t.pool.free = s.pool.free ++ [b, b'] ∧ t.pool.retire = (s.pool.retire.erase b).erase b' ∧
        t.pool.record b = freeRecord ∧ t.pool.record b' = freeRecord ∧
        (∀ i, i ≠ b → i ≠ b' → t.pool.record i = s.pool.record i)))

/-! ### Commands -/

/-- The run-state table: which commands are refused, and STOP's result without effect, in each run state. -/
def Obligations.RunStateTable : Prop :=
  ∀ (num : Byte) (c : Command) (s : State), LinkUp s →
    (s.monitor.run = .stopped → isHoldCommand c →
      exec (rowOf num c) s = .next { s with monitor := entered s.monitor num c.code .refusedState }) ∧
    (s.monitor.run = .running → isStoppedCommand c →
      exec (rowOf num c) s = .next { s with monitor := entered s.monitor num c.code .refusedState }) ∧
    (s.monitor.run = .stopping → isHoldCommand c ∨ isStoppedCommand c ∨ isSettingCommand c →
      exec (rowOf num c) s = .next { s with monitor := entered s.monitor num c.code .refusedBusy }) ∧
    (s.monitor.run ≠ .running → c = .stop →
      exec (rowOf num c) s = .next { s with monitor := entered s.monitor num c.code .accepted })

/-- CONFIGURE in STOPPED: exactly the checks of its rule decide it; refused, it changes nothing but its
result; accepted, it puts every field in force, re-makes a changed pool and clamps the targets. -/
def Obligations.ConfigureTaken : Prop :=
  (∀ (a : ConfigureArgs) (s : State) (r : RateCode), s.configureRate a = some r ↔
    let bs := a.tiles.toNat * 65536
    let windows := (if a.ingest = 0 then [] else [(a.ingest.toNat, 4 * bs)]) ++
      (if a.egress = 0 then [] else [(a.egress.toNat, 2 * bs)]) ++
      [(a.control.toNat, 4096), (a.readout.toNat, 4096)]
    (4 ≤ a.tiles.toNat ∧ a.tiles.toNat ≤ 128 ∧ (s.store.rate = .half → a.tiles.toNat ≤ 64)) ∧
    (16 ≤ a.blocks.toNat ∧ a.blocks.toNat ≤ 2048) ∧
    268435456 + a.blocks.toNat * bs ≤ tableDram s.straps.mem ∧
    a.ingest.toNat % 1048576 = 0 ∧ a.egress.toNat % 1048576 = 0 ∧
    a.control.toNat % 4096 = 0 ∧ a.readout.toNat % 4096 = 0 ∧
    windows.Pairwise (fun v w => v.1 + v.2 ≤ w.1 ∨ w.1 + w.2 ≤ v.1) ∧
    (∀ w ∈ windows, w.1 + w.2 ≤ tableDram s.straps.mem - a.blocks.toNat * bs) ∧
    r.code = a.rateCode ∧ (a.linkCheck = 0 ∨ a.linkCheck = 1)) ∧
  (∀ (num : Byte) (a : ConfigureArgs) (s : State), LinkUp s → s.monitor.run = .stopped →
    s.configureRate a = none →
    exec (.configure num a) s = .next { s with monitor := entered s.monitor num 0x01 .refusedRange }) ∧
  (∀ (num : Byte) (a : ConfigureArgs) (s : State) (r : RateCode), LinkUp s → s.monitor.run = .stopped →
    s.configureRate a = some r →
    let most := a.blocks.toNat - 8
    Gives (.configure num a) s fun t =>
      t = { s with
        windows := { ingest := a.ingest, egress := a.egress, control := a.control, readout := a.readout }
        link := { s.link with checkMode := decide (a.linkCheck = 1) }
        gen := { s.gen with restated := t.gen.restated }
        pool := t.pool
        monitor := entered
          { s.monitor with
            rateCode := r
            staged := { s.monitor.staged with target := min s.monitor.staged.target most }
            inForce := { s.monitor.inForce with target := min s.monitor.inForce.target most } }
          num 0x01 (if s.monitor.staged.target ≤ most ∧ s.monitor.inForce.target ≤ most then .accepted
            else .clamped) } ∧
      (s.pool.tiles = a.tiles.toNat ∧ s.pool.blocks = a.blocks.toNat → t.pool = s.pool) ∧
      (¬ (s.pool.tiles = a.tiles.toNat ∧ s.pool.blocks = a.blocks.toNat) →
        t.pool = { tiles := a.tiles.toNat, blocks := a.blocks.toNat,
                   records := List.replicate a.blocks.toNat freeRecord,
                   free := List.range a.blocks.toNat, retire := [] }))

/-- START in STOPPED: refused without both windows or with an unknown mode; accepted, it makes the run: every
block's run state anew, the target clamped, RUNNING. -/
def Obligations.StartTaken : Prop :=
  ∀ (num : Byte) (target : Half) (mode : Byte) (s : State), LinkUp s → s.monitor.run = .stopped →
    (s.windows.ingest = 0 ∨ s.windows.egress = 0 → exec (.start num target mode) s =
      .next { s with monitor := entered s.monitor num 0x02 .refusedState }) ∧
    (s.windows.ingest ≠ 0 → s.windows.egress ≠ 0 → 1 < mode.toNat → exec (.start num target mode) s =
      .next { s with monitor := entered s.monitor num 0x02 .refusedRange }) ∧
    (s.windows.ingest ≠ 0 → s.windows.egress ≠ 0 → mode.toNat ≤ 1 →
      let most := s.pool.blocks - 8
      let t' := min target.toNat most
      let staged := { s.monitor.staged with target := t' }
      Gives (.start num target mode) s fun t =>
        t = { s with
          pool := { s.pool with records := List.replicate s.pool.blocks freeRecord,
                                free := List.range s.pool.blocks, retire := [] }
          ingest := { slots := #v[.empty, .empty, .empty, .empty], lastSeq := none }
          queue := { entries := [], splicePending := false }
          air := { serve := 0, onAir := 0, slotA := none, slotB := none,
                   condition := if mode = 1 then .priming else .filled, stallCount := 0,
                   stalledHold := none, freezeCount := 0, lastAction := .none, lastAirDelay := none,
                   repeatTotal := 0, skipTotal := 0, fillSince := none }
          trim := { state := if 0 < t' - staged.band then .building else .onDelay, credit := 0 }
          holds := { s.holds with table := [], dumpTotal := 0 }
          monitor := entered { s.monitor with run := .running, staged := staged, inForce := staged } num 0x02
            (if target.toNat ≤ most then .accepted else .clamped) })

/-- STOP in RUNNING clears the queue, slots, bindings, holds and trim in one event and keeps what its rules
keep; with blocks placed as R4 says, the blocks join the lists in the order of R15 and the run state becomes
STOPPING when one is retired, STOPPED with the free list rebuilt otherwise. -/
def Obligations.StopTaken : Prop :=
  ∀ (num : Byte) (s : State), Running s →
    Gives (.stop num) s fun t =>
      t = { s with
        pool := t.pool
        ingest := { slots := #v[.empty, .empty, .empty, .empty], lastSeq := s.ingest.lastSeq }
        queue := { entries := [], splicePending := false }
        air := { s.air with slotA := none, slotB := none, condition := .off, stallCount := 0,
                            stalledHold := none, freezeCount := 0, fillSince := none }
        trim := { state := .onDelay, credit := 0 }
        holds := { s.holds with table := [] }
        monitor := entered { s.monitor with run := t.monitor.run } num 0x03 .accepted } ∧
      (BlocksPlaced s →
        let idle := (egressBlocks s).filter fun b => s.pool.readCount b = 0
        let read := (egressBlocks s).filter fun b => s.pool.readCount b ≠ 0
        (s.pool.retire ++ read = [] → t.monitor.run = .stopped ∧
          t.pool = { s.pool with records := List.replicate s.pool.blocks freeRecord,
                                 free := List.range s.pool.blocks, retire := [] }) ∧
        (s.pool.retire ++ read ≠ [] → t.monitor.run = .stopping ∧
          t.pool.free = s.pool.free ++ queueBlocks s ++ slotBlocks s ++ idle ∧
          t.pool.retire = s.pool.retire ++ read))

/-- SET_TARGET stages its clamped target. SET_CONTROL refuses a bad code in a named enumerated field, and
stages each named setting, clamped into its range, and no other. -/
def Obligations.SettingCommands : Prop :=
  (∀ (num : Byte) (target : Half) (s : State), LinkUp s → s.monitor.run ≠ .stopping →
    exec (.setTarget num target) s = .next { s with
      monitor := entered
        { s.monitor with
          staged := { s.monitor.staged with target := min target.toNat (s.pool.blocks - 8) } }
        num 0x04 (if target.toNat ≤ s.pool.blocks - 8 then .accepted else .clamped) }) ∧
  (∀ (num : Byte) (a : ControlArgs) (s : State), LinkUp s → s.monitor.run ≠ .stopping →
    let named := fun i => a.change.getLsbD i = true
    let badCode := (named 1 ∧ 1 < a.eligibility.toNat) ∨ (named 5 ∧ 1 < a.dumpMode.toNat) ∨
      (named 8 ∧ 1 < a.dumpInflight.toNat) ∨ (named 10 ∧ 1 < a.stallPolicy.toNat)
    let outside := (named 0 ∧ 15 < a.band.toNat) ∨
      (named 2 ∧ (a.buildRate = 0 ∨ 500 < a.buildRate.toNat)) ∨
      (named 3 ∧ (a.catchRate = 0 ∨ 500 < a.catchRate.toNat)) ∨
      (named 6 ∧ (a.dumpLength = 0 ∨ 1024 < a.dumpLength.toNat)) ∨
      (named 7 ∧ 64 < a.dumpFloor.toNat) ∨ (named 9 ∧ (a.stallLimit = 0 ∨ 3000 < a.stallLimit.toNat)) ∨
      (named 11 ∧ (a.freezeLimit = 0 ∨ 1000 < a.freezeLimit.toNat))
    let into := fun (lo hi v : Nat) => if v < lo then lo else if hi < v then hi else v
    (badCode → exec (.setControl num a) s =
      .next { s with monitor := entered s.monitor num 0x05 .refusedRange }) ∧
    (¬ badCode → Gives (.setControl num a) s fun t => ∃ c r,
      t = { s with monitor := entered { s.monitor with staged := c } num 0x05 r } ∧
      (outside → r = .clamped) ∧ (¬ outside → r = .accepted) ∧
      c.target = s.monitor.staged.target ∧
      c.band = (if a.change.getLsbD 0 then into 0 15 a.band.toNat else s.monitor.staged.band) ∧
      c.eligibility = (if a.change.getLsbD 1 then (if a.eligibility = 0 then .quietOnly else .any)
        else s.monitor.staged.eligibility) ∧
      c.buildRate = (if a.change.getLsbD 2 then into 1 500 a.buildRate.toNat else s.monitor.staged.buildRate) ∧
      c.catchRate = (if a.change.getLsbD 3 then into 1 500 a.catchRate.toNat else s.monitor.staged.catchRate) ∧
      c.silence = (if a.change.getLsbD 4 then a.silence.toNat else s.monitor.staged.silence) ∧
      c.dumpMode = (if a.change.getLsbD 5 then (if a.dumpMode = 0 then .chunk else .segment)
        else s.monitor.staged.dumpMode) ∧
      c.dumpLength = (if a.change.getLsbD 6 then into 1 1024 a.dumpLength.toNat
        else s.monitor.staged.dumpLength) ∧
      c.dumpFloor = (if a.change.getLsbD 7 then into 0 64 a.dumpFloor.toNat
        else s.monitor.staged.dumpFloor) ∧
      c.dumpInflight = (if a.change.getLsbD 8 then decide (a.dumpInflight = 1)
        else s.monitor.staged.dumpInflight) ∧
      c.stallLimit = (if a.change.getLsbD 9 then into 1 3000 a.stallLimit.toNat
        else s.monitor.staged.stallLimit) ∧
      c.stallPolicy = (if a.change.getLsbD 10 then (if a.stallPolicy = 0 then .release else .dump)
        else s.monitor.staged.stallPolicy) ∧
      c.freezeLimit = (if a.change.getLsbD 11 then into 1 1000 a.freezeLimit.toNat
        else s.monitor.staged.freezeLimit)))

/-- DUMP in RUNNING: with no removable frame it is refused and changes nothing; otherwise the newest k entries
leave, their blocks are freed oldest first, the splice is pending, FILLING slots are discarded when
`dump_inflight` is on, and the dump total, hold table and edit log follow. -/
def Obligations.DumpTaken : Prop :=
  ∀ (num : Byte) (s : State), Running s →
    (s.queue.entries.length ≤ s.monitor.inForce.dumpFloor → exec (.dump num) s =
      .next { s with monitor := entered s.monitor num 0x06 .refusedState }) ∧
    (s.monitor.inForce.dumpFloor < s.queue.entries.length → 1 ≤ s.monitor.inForce.dumpLength →
      let keep := s.queue.entries.length - s.dumpCount
      let gone := s.queue.entries.drop keep
      let kept := s.queue.entries.take keep
      let lost := fun h : HoldRecord => (gone.filter fun e => e.hold = some h.id).length
      let emptied := fun h : HoldRecord =>
        decide (lost h ≠ 0 ∧ h.unaired ≤ lost h ∧ h.state = .pending)
      let cut := fun h : HoldRecord =>
        if lost h = 0 then h
        else { h with
          unaired := h.unaired - lost h
          firstSeq := (kept.filter fun e => e.hold = some h.id).head?.map (·.seq)
          lastSeq := if h.lastSeq = none then none
            else (kept.filter fun e => e.hold = some h.id).getLast?.map (·.seq) }
      Gives (.dump num) s fun t =>
        t = { s with
          queue := { entries := kept, splicePending := true }
          pool := { s.pool with free := s.pool.free ++ gone.map (·.block), records := t.pool.records }
          trim := s.trim.evaluate keep s.monitor.inForce.target s.monitor.inForce.band
          ingest := t.ingest
          holds := { s.holds with
            table := (s.holds.table.filter fun h => !emptied h).map cut
            dumpTotal := min 4294967295 (s.holds.dumpTotal + gone.length) }
          monitor := entered s.monitor num 0x06 .accepted
          readout := ((s.logEdit
            { kind := .dump, first := gone.head?.map (·.seq), last := gone.getLast?.map (·.seq),
              count := some (BitVec.ofNat 32 gone.length), hold := none, cause := .command }).logEdits
            ((s.holds.table.filter emptied).map fun h =>
              { kind := .holdDumped, first := h.firstSeq, last := h.lastSeq,
                count := some (BitVec.ofNat 32 (lost h)), hold := some h.id, cause := .command })).readout } ∧
        gone ≠ [] ∧ (∀ e ∈ gone, t.pool.record e.block = freeRecord) ∧
        (∀ i, i ∉ gone.map (·.block) → t.pool.record i = s.pool.record i) ∧
        DiscardedIf s.monitor.inForce.dumpInflight s t)

/-- How many frames a dump removes: in CHUNK the lesser of `dump_length` and the removable count, which
leaves the floor; in SEGMENT the frames from the newest marked one of that window on, or the window. -/
def Obligations.DumpCounts : Prop :=
  ∀ s : State, s.monitor.inForce.dumpFloor < s.queue.entries.length →
    let es := s.queue.entries
    let c := s.monitor.inForce
    let w := min c.dumpLength (es.length - c.dumpFloor)
    (c.dumpMode = .chunk → s.dumpCount = w ∧
      (∀ i < c.dumpFloor, (es.take (es.length - s.dumpCount))[i]? = es[i]?) ∧
      (es.length - c.dumpFloor < c.dumpLength →
        es.take (es.length - s.dumpCount) = es.take c.dumpFloor)) ∧
    (c.dumpMode = .segment →
      ((∀ e ∈ es.drop (es.length - w), e.segment = false) → s.dumpCount = w) ∧
      (∀ i (h : i < es.length), es.length - w ≤ i → es[i].segment = true →
        (∀ j (h' : j < es.length), i < j → es[j].segment = false) → s.dumpCount = es.length - i) ∧
      (∀ e, es.getLast? = some e → e.segment = true → 1 ≤ w → s.dumpCount = 1))

/-- HOLD_OPEN and HOLD_CLOSE in RUNNING, by the state of the hold table. -/
def Obligations.HoldOpenAndClose : Prop :=
  (∀ s : State, s.openHold = s.holds.table.find? fun h => h.state = .opened) ∧
  ∀ (num : Byte) (s : State), Running s →
    ((∀ h ∈ s.holds.table, h.state ≠ .opened) → s.holds.table.length < 4 →
      exec (.holdOpen num) s = .next { s with
        holds := { s.holds with
          table := s.holds.table ++
            [{ id := s.holds.openingId, state := .opened, firstSeq := none, lastSeq := none,
               unaired := 0, openedAt := s.air.serve }]
          nextId := if s.holds.openingId = 255 then 1 else s.holds.openingId + 1 }
        monitor := entered s.monitor num 0x07 .accepted }) ∧
    ((∃ h ∈ s.holds.table, h.state = .opened) → exec (.holdOpen num) s =
      .next { s with monitor := entered s.monitor num 0x07 .refusedState }) ∧
    ((∀ h ∈ s.holds.table, h.state ≠ .opened) → 4 ≤ s.holds.table.length → exec (.holdOpen num) s =
      .next { s with monitor := entered s.monitor num 0x07 .refusedBusy }) ∧
    ((∀ h ∈ s.holds.table, h.state ≠ .opened) → exec (.holdClose num) s =
      .next { s with monitor := entered s.monitor num 0x08 .refusedState }) ∧
    (∀ r, s.openHold = some r → r.unaired = 0 → exec (.holdClose num) s = .next { s with
        holds := { s.holds with table := s.holds.table.filter fun h => h.id ≠ r.id }
        readout := (s.logEdit
          { kind := .holdEmpty, first := none, last := none, count := none, hold := some r.id,
            cause := .command }).readout
        monitor := entered s.monitor num 0x08 .accepted }) ∧
    (∀ r, s.openHold = some r → r.unaired ≠ 0 → exec (.holdClose num) s = .next { s with
        holds := { s.holds with
          table := s.holds.table.map fun h =>
            if h.id = r.id then
              { h with
                state := .pending
                lastSeq := (s.queue.entries.filter fun e => e.hold = some r.id).getLast?.map (·.seq) }
            else h }
        monitor := entered s.monitor num 0x08 .accepted })

/-- The id a hold takes: the first id from the next hold id on, counting from 255 to 1, that no record
holds; the next hold id then becomes the taken id plus 1, or 1 after 255. -/
def Obligations.HoldIds : Prop :=
  ∀ (num : Byte) (s : State), Running s → (∀ h ∈ s.holds.table, h.state ≠ .opened) →
    s.holds.table.length < 4 → s.holds.nextId ≠ 0 →
    let after := fun id : Byte => if id = 255 then 1 else id + 1
    Gives (.holdOpen num) s fun t => ∃ n : Nat, n ≤ 3 ∧
      t.holds.table.getLast?.map (·.id) = some (after^[n] s.holds.nextId) ∧
      after^[n] s.holds.nextId ≠ 0 ∧
      after^[n] s.holds.nextId ∉ s.holds.table.map (·.id) ∧
      (∀ m < n, after^[m] s.holds.nextId ∈ s.holds.table.map (·.id)) ∧
      t.holds.nextId = after (after^[n] s.holds.nextId)

/-- RELEASE in RUNNING: the named hold, or the oldest for id 0, is decided for air: its tags are cleared, its
record removed, the decision logged; without such a hold it is refused. -/
def Obligations.ReleaseTaken : Prop :=
  ∀ (num hold : Byte) (s : State), Running s →
    let named := if hold = 0 then s.holds.table.head? else s.holds.table.find? fun r => r.id = hold
    (named = none → exec (.release num hold) s =
      .next { s with monitor := entered s.monitor num 0x09 .refusedState }) ∧
    (∀ r, named = some r →
      let run := s.queue.entries.filter fun e => e.hold = some r.id
      exec (.release num hold) s = .next { s with
        queue := { s.queue with
          entries := s.queue.entries.map fun e => if e.hold = some r.id then { e with hold := none } else e }
        holds := { s.holds with table := s.holds.table.filter fun h => h.id ≠ r.id }
        readout := (s.logEdit
          { kind := .holdReleased, first := run.head?.map (·.seq), last := run.getLast?.map (·.seq),
            count := some (BitVec.ofNat 32 r.unaired), hold := some r.id, cause := .command }).readout
        monitor := entered s.monitor num 0x09 .accepted })

/-- DUMP_HOLD in RUNNING: the named hold's entries and record leave, the join is marked, an OPEN hold's dump
discards FILLING slots when `dump_inflight` is on; id 0 or an unknown id is refused. -/
def Obligations.DumpHoldTaken : Prop :=
  ∀ (num hold : Byte) (s : State), Running s →
    (hold = 0 ∨ (∀ r ∈ s.holds.table, r.id ≠ hold) → exec (.dumpHold num hold) s =
      .next { s with monitor := entered s.monitor num 0x0A .refusedState }) ∧
    (∀ r, hold ≠ 0 → s.holds.table.find? (fun r => r.id = hold) = some r →
      let mine := fun e : Entry => decide (e.hold = some hold)
      let run := s.queue.entries.filter mine
      let older := s.queue.entries.takeWhile fun e => !mine e
      let newer := (s.queue.entries.dropWhile fun e => !mine e).filter fun e => !mine e
      Gives (.dumpHold num hold) s fun t =>
        t = { s with
          queue := t.queue
          pool := { s.pool with free := s.pool.free ++ run.map (·.block), records := t.pool.records }
          trim := t.trim
          ingest := t.ingest
          holds := { s.holds with
            table := s.holds.table.filter fun h => h.id ≠ hold
            dumpTotal := min 4294967295 (s.holds.dumpTotal + run.length) }
          readout := (s.logEdit
            { kind := .holdDumped, first := run.head?.map (·.seq), last := run.getLast?.map (·.seq),
              count := some (BitVec.ofNat 32 run.length), hold := some hold, cause := .command }).readout
          monitor := entered s.monitor num 0x0A .accepted } ∧
        (run = [] → t.queue = s.queue ∧ t.trim = s.trim) ∧
        (run ≠ [] →
          t.trim = s.trim.evaluate (s.queue.entries.length - run.length) s.monitor.inForce.target
            s.monitor.inForce.band ∧
          (newer = [] → t.queue = { entries := older, splicePending := true }) ∧
          (∀ e rest, newer = e :: rest → t.queue =
            { entries := older ++ { e with spliceIn := true } :: rest,
              splicePending := s.queue.splicePending })) ∧
        (∀ e ∈ run, t.pool.record e.block = freeRecord) ∧
        (∀ i, i ∉ run.map (·.block) → t.pool.record i = s.pool.record i) ∧
        DiscardedIf (decide (r.state = .opened) && s.monitor.inForce.dumpInflight) s t)

/-- CLEAR_FAULTS in STOPPED or RUNNING clears the named flags, and the first-fault record when it is of a
named kind, and nothing else. -/
def Obligations.ClearFaultsTaken : Prop :=
  ∀ (num : Byte) (kinds : Half) (s : State), LinkUp s → s.monitor.run ≠ .stopping →
    Gives (.clearFaults num kinds) s fun t =>
      t = { s with
        readout := { s.readout with flags := t.readout.flags, first := t.readout.first }
        monitor := entered s.monitor num 0x0B .accepted } ∧
      (∀ i < 10, t.readout.flags.getLsbD i = (s.readout.flags.getLsbD i && !kinds.getLsbD i)) ∧
      (s.readout.first = none → t.readout.first = none) ∧
      (∀ r, s.readout.first = some r →
        t.readout.first = if kinds.getLsbD r.kind.index then none else some r)

/-- RESET_ENGINE in every run state: in RUNNING it does what STOP does; then settings, holds, totals, faults
and the edit log take their reset values, the sequence register is absent, and the rest is kept. -/
def Obligations.ResetEngineTaken : Prop :=
  ∀ (num : Byte) (s : State), LinkUp s →
    let settings := tableSettings (min (strapFrames s.straps.rate s.straps.delay) (s.pool.blocks - 8))
    Gives (.resetEngine num) s fun t =>
      t = { s with
        pool := t.pool
        ingest := { slots := #v[.empty, .empty, .empty, .empty], lastSeq := none }
        queue := { entries := [], splicePending := false }
        air := { s.air with slotA := none, slotB := none, condition := .off, stallCount := 0,
                            stalledHold := none, freezeCount := 0, repeatTotal := 0, skipTotal := 0,
                            fillSince := none }
        trim := { state := .onDelay, credit := 0 }
        holds := { table := [], nextId := 1, dumpTotal := 0 }
        readout := { flags := 0, first := none, log := [], nextNumber := 0 }
        monitor := entered
          { s.monitor with run := t.monitor.run, staged := settings, inForce := settings }
          num 0x0C .accepted } ∧
      (s.monitor.run ≠ .running → t.pool = s.pool ∧ t.monitor.run = s.monitor.run) ∧
      (s.monitor.run = .running → Gives (.stop num) s fun u =>
        t.pool = u.pool ∧ t.monitor.run = u.monitor.run) ∧
      (s.store.cal ≠ .failed → t.alert = false)

/-- RESET_PART: with resample 0 or 1 the completion phase starts, with no result entered, after which no
command record is read and requests wait; with another value it is refused. -/
def Obligations.ResetPartTaken : Prop :=
  (∀ (num resample : Byte) (s : State), LinkUp s → resample.toNat ≤ 1 →
    exec (.resetPart num resample) s =
      .next { s with monitor := { s.monitor with resetPart := some (decide (resample = 1)) } }) ∧
  (∀ (num resample : Byte) (s : State), LinkUp s → 1 < resample.toNat →
    exec (.resetPart num resample) s =
      .next { s with monitor := entered s.monitor num 0x0D .refusedRange }) ∧
  (∀ (num : Byte) (c : Command) (s : State), s.monitor.resetPart ≠ none →
    exec (rowOf num c) s = .next s) ∧
  (∀ (c : Instr) (s : State), s.monitor.resetPart ≠ none → requestsOf c ≠ [] →
    exec c s =
      .next { s with link := { s.link with waiting := s.link.waiting ++ requestsOf c } })

/-! ### The tick generator and the tick -/

/-- A REF edge, not before the latest known count: outside RUNNING it changes only what its mode gives. In
AWAIT it is a tick; in LOCKED a glitch below half a period, a tick from there on; in LOST it ends the loss,
absorbed below half a period. An edge after the generator's own event has fallen due comes after it (the
model's order on counts, log 8). A period is that of the rate code in force, in counts of 27 MHz. -/
def Obligations.RefEdgeByMode : Prop :=
  (∀ s : State, s.period = match s.monitor.rateCode with
    | .rate25 => 1080000
    | .rate2997 => 900900
    | .rate50 => 540000
    | .rate5994 => 450450) ∧
  ∀ (n k : Nat) (s : State), s.link.ready = true → s.gen.osc ≤ n →
    let half := s.period / 2
    let locked := fun g : Nat => ({ mode := .locked, reference := n, generated := g, osc := n,
                                    restated := false } : TickGen)
    let returned := s.logEdit { kind := .refReturn, first := none, last := none,
                                count := some (BitVec.ofNat 32 s.gen.generated), hold := none,
                                cause := .device }
    (s.gen.mode = .await → n ≤ s.gen.reference + 3 * s.period / 2 → Gives (.refEdge ⟨n, k⟩) s fun t =>
      t.gen = locked s.gen.generated ∧ Ticked s t ∧
      (s.monitor.run ≠ .running → t = { s with gen := t.gen, monitor := t.monitor, console := t.console })) ∧
    (s.gen.mode = .locked → n < s.gen.reference + half →
      exec (.refEdge ⟨n, k⟩) s = .next { s with gen := { s.gen with osc := n } }) ∧
    (s.gen.mode = .locked → s.gen.reference + half ≤ n → n ≤ s.gen.reference + 3 * s.period / 2 →
      Gives (.refEdge ⟨n, k⟩) s fun t => t.gen = locked s.gen.generated ∧ Ticked s t ∧
        (s.monitor.run ≠ .running →
          t = { s with gen := t.gen, monitor := t.monitor, console := t.console })) ∧
    (s.gen.mode = .lost → n < s.gen.reference + half →
      exec (.refEdge ⟨n, k⟩) s = .next { s with gen := locked 0, readout := returned.readout }) ∧
    (s.gen.mode = .lost → s.gen.reference + half ≤ n → n ≤ s.gen.reference + s.period →
      Gives (.refEdge ⟨n, k⟩) s fun t => t.gen = locked 0 ∧ Ticked s t ∧
        (s.monitor.run ≠ .running →
          t = { s with gen := t.gen, monitor := t.monitor, console := t.console,
                       readout := returned.readout })) ∧
    (s.gen.mode ≠ .lost → max s.gen.osc (s.gen.reference + 3 * s.period / 2) < n →
      Gives (.refLost ⟨0, 0⟩) s fun u => exec (.refEdge ⟨n, k⟩) s = exec (.refEdge ⟨n, k⟩) u) ∧
    (s.gen.mode = .lost → max s.gen.osc (s.gen.reference + s.period) < n →
      Gives (.generatedTick ⟨0, 0⟩) s fun u => exec (.refEdge ⟨n, k⟩) s = exec (.refEdge ⟨n, k⟩) u)

/-- REF_LOST reports the loss first and makes the first generated tick, GENERATED_TICK each further one, at
the moment that falls due; in the wrong mode neither does anything. BLINK_PHASE is the wrap of the blink
count. After a change of rate code the moment may be the later count given (the model's choice, log 9). -/
def Obligations.LossGeneratedTicksAndBlink : Prop :=
  (∀ (m : Moment) (s : State), s.link.ready = true → s.gen.mode ≠ .lost → s.gen.restated = false →
    Gives (.refLost m) s fun t =>
      let due := max s.gen.osc (s.gen.reference + 3 * s.period / 2)
      t.gen = { mode := .lost, reference := due, generated := 1, osc := due, restated := false } ∧
      Ticked s t ∧ t.readout.flags.getLsbD 8 = true ∧
      (s.readout.first = none → t.readout.first =
        some { kind := .refLost, serve := s.air.serve, seq := none, addr := none }) ∧
      (s.monitor.run ≠ .running → t = { s with
        gen := t.gen, monitor := t.monitor, console := t.console
        readout := ((s.report .refLost none none).logEdit
          { kind := .refLost, first := none, last := none, count := none, hold := none,
            cause := .device }).readout })) ∧
  (∀ (m : Moment) (s : State), s.link.ready = true → s.gen.mode = .lost → s.gen.restated = false →
    Gives (.generatedTick m) s fun t =>
      let due := max s.gen.osc (s.gen.reference + s.period)
      t.gen = { mode := .lost, reference := due, generated := min 4294967295 (s.gen.generated + 1),
                osc := due, restated := false } ∧ Ticked s t ∧
      (s.monitor.run ≠ .running →
        t = { s with gen := t.gen, monitor := t.monitor, console := t.console })) ∧
  (∀ (m : Moment) (s : State), s.gen.mode = .lost → exec (.refLost m) s = .next s) ∧
  (∀ (m : Moment) (s : State), s.gen.mode ≠ .lost → exec (.generatedTick m) s = .next s) ∧
  (∀ s : State, s.link.ready = true → 15 ≤ s.console.blinkCount → exec .blinkPhase s =
    .next { s with console := { s.console with blinkLit := !s.console.blinkLit, blinkCount := 0 } }) ∧
  (∀ s : State, s.console.blinkCount < 15 → exec .blinkPhase s = .next s)

/-- A tick below the target in PRIMING serves fill. A tick whose oldest entry carries a hold id repeats the
current air frame, raises the stall count, touches no entry, and at the stall limit is followed by what
STALL_EXPIRED does. After either selection the tick does what SLOT_TIMEOUT does. The trim is evaluated exactly
when the tick's latch changes the target or the band. -/
def Obligations.PrimingAndStalledTicks : Prop :=
  ∀ (c : Instr) (s₀ : State), TicksOnce s₀ c → s₀.monitor.run = .running →
    let s := atTickStart s₀ c
    (s.air.condition = .priming → s.queue.entries.length < s.monitor.staged.target → TickGives c s₀ fun t =>
      t = { s with
        gen := t.gen, monitor := t.monitor, console := t.console, trim := trimAtTick s
        air := { s.air with serve := s.air.serve + 1, lastAction := .primeFill } } ∧ Ticked s t) ∧
    (∀ e rest h, PastPriming s → s.queue.entries = e :: rest → e.hold = some h → ∃ u,
      (u = { s with
        gen := u.gen, monitor := u.monitor, console := u.console, trim := trimAtTick s
        air := { stayed s.air with
          serve := s.air.serve + 1, condition := .stalled, lastAction := .stall
          stallCount := if s.air.stalledHold = some h then s.air.stallCount + 1 else 1
          stalledHold := some h } } ∧ Ticked s u) ∧
      (TickGives c s₀ fun v => exec .stallExpired u = .next v) ∧
      (u.air.stallCount < s.monitor.staged.stallLimit → exec .stallExpired u = .next u))

/-- A tick that finds the queue empty: below the freeze limit the frame stays on air, at the limit both
bindings leave with FILL_ON_AIR and FILL_START, and with no current air frame it serves fill; the tick then
does what SLOT_TIMEOUT does. FREEZE_LIMIT sent by itself does the second on the state as it stands (the
model's choice, log 6). -/
def Obligations.EmptyQueueTicks : Prop :=
  (∀ (c : Instr) (s₀ : State), TicksOnce s₀ c → s₀.monitor.run = .running →
    let s := atTickStart s₀ c
    PastPriming s → s.queue.entries = [] →
    (∀ b, s.air.current = some b → s.air.freezeCount < s.monitor.staged.freezeLimit → TickGives c s₀ fun t =>
      t = { s with
        gen := t.gen, monitor := t.monitor, console := t.console, trim := trimAtTick s
        air := { stayed s.air with
          serve := s.air.serve + 1, condition := .frozen, lastAction := .freeze
          freezeCount := s.air.freezeCount + 1, stallCount := 0, stalledHold := none }
        readout := t.readout } ∧ Ticked s t ∧
      (s.air.condition = .frozen → t.readout = s.readout) ∧
      (s.air.condition ≠ .frozen → t.readout = ({ s with air := t.air }.logEdit
        { kind := .freezeStart, first := some b.seq, last := none, count := none, hold := none,
          cause := .device }).readout)) ∧
    (∀ b, s.air.current = some b → s.monitor.staged.freezeLimit ≤ s.air.freezeCount → TickGives c s₀ fun t =>
      t = { s with
        gen := t.gen, monitor := t.monitor, console := t.console, trim := trimAtTick s
        air := { s.air with
          serve := s.air.serve + 1, slotA := none, slotB := none, condition := .filled
          lastAction := .fill, fillSince := some (s.air.serve + 1), stallCount := 0, stalledHold := none }
        pool := leftBy s.air.slotB (leftBy s.air.slotA s.pool)
        readout := (({ s with air := t.air }.report .fillOnAir (some b.seq) none).logEdit
          { kind := .fillStart, first := some b.seq, last := none,
            count := some (BitVec.ofNat 32 s.air.freezeCount), hold := none, cause := .device }).readout } ∧
      Ticked s t) ∧
    (s.air.current = none → TickGives c s₀ fun t =>
      t = { s with
        gen := t.gen, monitor := t.monitor, console := t.console, trim := trimAtTick s
        air := { s.air with
          serve := s.air.serve + 1, condition := .filled, lastAction := .fill, stallCount := 0
          stalledHold := none } } ∧ Ticked s t)) ∧
  (∀ (s : State) (b : Binding), s.link.ready = true → s.monitor.run = .running → s.queue.entries = [] →
    s.air.current = some b → s.monitor.inForce.freezeLimit ≤ s.air.freezeCount →
    exec .freezeLimit s = .next { s with
      air := { s.air with
        slotA := none, slotB := none, condition := .filled, lastAction := .fill
        fillSince := some s.air.serve, stallCount := 0, stalledHold := none }
      pool := leftBy s.air.slotB (leftBy s.air.slotA s.pool)
      readout := ((s.report .fillOnAir (some b.seq) none).logEdit
        { kind := .fillStart, first := some b.seq, last := none,
          count := some (BitVec.ofNat 32 s.air.freezeCount), hold := none, cause := .device }).readout }) ∧
  (∀ s : State, s.queue.entries ≠ [] ∨ s.air.current = none ∨
    s.air.freezeCount < s.monitor.inForce.freezeLimit → exec .freezeLimit s = .next s)

/-- A tick that asks the delay trim: NONE releases the oldest entry to the slot of its on-air number, REPEAT
keeps the current air frame on air, SKIP frees the oldest entry's block and releases the second; the credit
is lowered by 1,000 for an action before the depth is evaluated, and a release ends a fill period. The tick
then does what SLOT_TIMEOUT does. The trim is first evaluated exactly when the latch changes the target or the
band. Where the tick would have found the queue empty but for the commits of its own instant, the frame is
released with an air delay of 0 ticks; that the row says which those are is the model's form (log 30). -/
def Obligations.TrimDecidedTicks : Prop :=
  (∀ (a : Air) (b : Option Binding), a.setBinding .a b = { a with slotA := b } ∧
    a.setBinding .b b = { a with slotB := b }) ∧
  (∀ (p : Pool) (i : Nat),
    p.record i = p.records.getD i freeRecord ∧ p.readCount i = (p.record i).inFlight.getD 0 ∧
    p.freeBlock i = { p with records := p.records.set i freeRecord, free := p.free ++ [i] } ∧
    p.airBlock i = { p with
      records := p.records.set i { p.record i with state := .air, inFlight := some 0 } } ∧
    (p.readCount i = 0 → p.leaveBlock i = p.freeBlock i) ∧
    (p.readCount i ≠ 0 → p.leaveBlock i = { p with
      records := p.records.set i { p.record i with state := .retiring }, retire := p.retire ++ [i] })) ∧
  ∀ (c : Instr) (s₀ : State) (e : Entry) (rest : List Entry), TicksOnce s₀ c → s₀.monitor.run = .running →
    let s := atTickStart s₀ c
    PastPriming s → s.queue.entries = e :: rest → e.hold = none →
    let asked : Trim := { trimAtTick s with credit := (latched s).advancedCredit }
    let lowered : Trim := { trimAtTick s with credit := (latched s).advancedCredit - 1000 }
    let evaluated := fun (x : Trim) (d : Nat) =>
      x.evaluate d s.monitor.staged.target s.monitor.staged.band
    let on := s.air.onAir + 1
    let slot := EgressSlot.ofOnAir on
    let aired := fun (o : Entry) (skipped : Byte) => s.air.setBinding slot (some
      { block := o.block, seq := o.seq, level := o.level, isPartial := o.isPartial,
        gapBefore := o.gapBefore, spliceIn := o.spliceIn, onAir := on, releaseServe := s.air.serve + 1,
        airDelay := airDelayOf s c o, skipBefore := skipped, repeats := 0 })
    let left := leftBy (s.air.binding slot)
    let filled := fun (t : State) (o : Entry) => match s.air.fillSince with
      | none => s.readout
      | some since => ({ s with air := t.air }.logEdit
          { kind := .fillEnd, first := some o.seq, last := none, count := some (s.air.serve + 1 - since),
            hold := none, cause := .device }).readout
    ((latched s).trimAnswer = .none → TickGives c s₀ fun t =>
      t = { s with
        gen := t.gen, monitor := t.monitor, console := t.console
        queue := { s.queue with entries := rest }
        trim := evaluated asked rest.length
        pool := (left s.pool).airBlock e.block
        air := { aired e 0 with
          serve := s.air.serve + 1, onAir := on, condition := .flowing, stallCount := 0
          stalledHold := none, freezeCount := 0, lastAirDelay := some (airDelayOf s c e)
          fillSince := none, lastAction := .release }
        readout := filled t e } ∧ Ticked s t) ∧
    ((latched s).trimAnswer = .repeated → TickGives c s₀ fun t =>
      t = { s with
        gen := t.gen, monitor := t.monitor, console := t.console, trim := lowered
        air := { stayed s.air with
          serve := s.air.serve + 1, condition := .flowing, lastAction := .repeated
          repeatTotal := min 4294967295 (s.air.repeatTotal + 1), stallCount := 0
          stalledHold := none } } ∧ Ticked s t) ∧
    (∀ o rest', rest = o :: rest' → (latched s).trimAnswer = .skip → TickGives c s₀ fun t =>
      t = { s with
        gen := t.gen, monitor := t.monitor, console := t.console
        queue := { s.queue with entries := rest' }
        trim := evaluated lowered rest'.length
        pool := (left (s.pool.freeBlock e.block)).airBlock o.block
        air := { aired o (BitVec.ofNat 8 (min 255 (1 + e.gapBefore.toNat))) with
          serve := s.air.serve + 1, onAir := on, condition := .flowing, stallCount := 0
          stalledHold := none, freezeCount := 0, lastAirDelay := some (airDelayOf s c o)
          fillSince := none, lastAction := .skip
          skipTotal := min 4294967295 (s.air.skipTotal + 1) }
        readout := filled t o } ∧ Ticked s t)

/-- No frame that carries the id of an undecided hold is released: where a command that makes exactly one tick
(a REF edge on time in AWAIT, LOCKED or LOST, the loss of REF, a generated tick) changes the on-air number, it
rises by exactly one, and the frame now current is the oldest entry or the second, and carried no hold id. Its
air delay is the release serve number less its commit stamp, and 0 ticks where the tick would have found the
queue empty but for the commits of its own instant; that the row says which commits those are is the model's
form (log 30). -/
def Obligations.ReleasedFramesCarryNoHold : Prop :=
  ∀ (c : Instr) (s t : State), TicksOnce s c →
    s.monitor.run = .running → exec c s = .next t →
    t.air.serve = s.air.serve + 1 ∧
    (t.air.onAir ≠ s.air.onAir → t.air.onAir = s.air.onAir + 1 ∧
      ∃ i e b, i ≤ 1 ∧ s.queue.entries[i]? = some e ∧ e.hold = none ∧
        t.air.current = some b ∧ b.seq = e.seq ∧ b.block = e.block ∧ b.onAir = t.air.onAir ∧
        b.releaseServe = t.air.serve ∧
        b.airDelay = (if OnlyThisInstant s c then 0 else t.air.serve - e.stamp) ∧
        t.air.lastAirDelay = some b.airDelay) ∧
    ((∀ e, s.queue.entries[0]? = some e → e.hold ≠ none) → t.air.onAir = s.air.onAir)

/-- The slot timeout in RUNNING abandons exactly the slots 8 ticks old, frees their blocks in slot order and
reports each drop in slot order. A tick of any kind in RUNNING takes it after its selection, with the serve
number risen; sent by itself SLOT_TIMEOUT does so on the state as it stands (the model's choice, log 6). -/
def Obligations.SlotTimeoutAbandons : Prop :=
  let aged := fun (sl : IngestSlot) (serve : Seq) => match sl with
    | .filling b _ first => if serve - first = 8 then some b else none
    | .discard b first => if serve - first = 8 then some b else none
    | _ => none
  (∀ s : State, s.link.ready = true → s.monitor.run = .running →
    let old := fun k : Fin 4 => aged (s.slot k) s.air.serve
    Gives .slotTimeout s fun t =>
      t = { s with
        ingest := { s.ingest with slots := t.ingest.slots }
        pool := { s.pool with records := t.pool.records
                              free := s.pool.free ++ ([0, 1, 2, 3] : List (Fin 4)).filterMap old }
        readout := ((([0, 1, 2, 3] : List (Fin 4)).filter fun k => (old k).isSome).foldl
          (fun (u : State) k => (u.report .ingestDrop none (some (BitVec.ofNat 40 (s.slotLineAddr k 0)))).logEdit
            { kind := .ingestDrop, first := none, last := none, count := some 1, hold := none,
              cause := .timeout }) s).readout } ∧
      (∀ k, t.slot k = if old k = none then s.slot k else .empty) ∧
      (∀ k b, old k = some b → t.pool.record b = freeRecord) ∧
      (∀ i, (∀ k, old k ≠ some i) → t.pool.record i = s.pool.record i) ∧
      ((∀ k, old k = none) → t = s)) ∧
  (∀ (c : Instr) (s : State), TicksOnce s c → s.monitor.run = .running → TickGives c s fun u =>
    u.air.serve = s.air.serve + 1 ∧ u.link.ready = true ∧ u.monitor.run = .running ∧
    u.windows = s.windows ∧ ∃ d, DiscardedIf d s u) ∧
  (∀ (c : Instr) (s : State), TicksOnce s c → s.monitor.run = .running → Gives c s fun t => ∀ k,
    ((aged (s.slot k) (s.air.serve + 1)).isSome = true → t.slot k = .empty) ∧
    (s.slot k = .empty ∨ s.slot k = .overrun → t.slot k = s.slot k)) ∧
  (∀ s : State, s.monitor.run ≠ .running → exec .slotTimeout s = .next s)

/-- At the stall limit the hold that stalls air is decided by the policy: STALL_EXPIRED is raised and logged,
then RELEASE or DUMP does to the hold what the command of that name does, with cause POLICY and no result. -/
def Obligations.StallExpiredDecides : Prop :=
  (∀ (s : State) (e : Entry) (rest : List Entry) (r : HoldRecord), Running s →
    s.queue.entries = e :: rest → e.hold = some r.id → s.air.stalledHold = some r.id → r.id ≠ 0 →
    s.monitor.inForce.stallLimit ≤ s.air.stallCount →
    s.holds.table.find? (fun h => h.id = r.id) = some r →
    let run := s.queue.entries.filter fun e => e.hold = some r.id
    let expired := (s.report .stallExpired (some e.seq) none).logEdit
      { kind := .stallExpired, first := r.firstSeq, last := r.lastSeq,
        count := some (BitVec.ofNat 32 s.air.stallCount), hold := some r.id, cause := .policy }
    (s.monitor.inForce.stallPolicy = .release → Gives .stallExpired s fun t =>
      Gives (.release 0 r.id) s fun u =>
        t = { u with
          monitor := s.monitor
          readout := (expired.logEdit
            { kind := .holdReleased, first := run.head?.map (·.seq), last := run.getLast?.map (·.seq),
              count := some (BitVec.ofNat 32 r.unaired), hold := some r.id, cause := .policy }).readout }) ∧
    (s.monitor.inForce.stallPolicy = .dump → Gives .stallExpired s fun t =>
      Gives (.dumpHold 0 r.id) s fun u =>
        t = { u with
          monitor := s.monitor
          readout := (expired.logEdit
            { kind := .holdDumped, first := run.head?.map (·.seq), last := run.getLast?.map (·.seq),
              count := some (BitVec.ofNat 32 run.length), hold := some r.id,
              cause := .policy }).readout })) ∧
  (∀ s : State, s.monitor.run ≠ .running ∨ s.air.stallCount < s.monitor.inForce.stallLimit ∨
    s.queue.entries = [] → exec .stallExpired s = .next s)

/-! ### Console -/

/-- A press recognised on an armed line disarms it. In RUNNING a DUMP press dumps the oldest hold or, with
none, the newest frames; HOLD opens or closes a hold; RELEASE releases the oldest; each as the command of
that name does but with cause CONSOLE and no result. Otherwise the press has no further effect, and a line
not armed recognises none. -/
def Obligations.ConsolePresses : Prop :=
  (∀ (line : ConsoleLine) (s : State), s.link.ready = false ∨ (s.console.sampler line).armed = false →
    exec (pressRow line) s = .next s) ∧
  (∀ (line : ConsoleLine) (s : State), s.link.ready = true → (s.console.sampler line).armed = true →
    let down : LineSampler := { s.console.sampler line with armed := false, inactiveRun := 0 }
    let quiet : State := { s with console := s.console.setSampler line down }
    (s.monitor.run ≠ .running → exec (pressRow line) s = .next quiet) ∧
    (s.monitor.run = .running → s.monitor.resetPart = none →
      (line = .dump → s.holds.table = [] →
        s.queue.entries.length ≤ s.monitor.inForce.dumpFloor → exec (pressRow line) s = .next quiet) ∧
      (line = .dump → s.holds.table = [] → s.monitor.inForce.dumpFloor < s.queue.entries.length →
        let gone := s.queue.entries.drop (s.queue.entries.length - s.dumpCount)
        Gives (pressRow line) s fun t => Gives (.dump 0) s fun u =>
          t = { u with
            console := quiet.console
            monitor := s.monitor
            readout := (s.logEdit
              { kind := .dump, first := gone.head?.map (·.seq), last := gone.getLast?.map (·.seq),
                count := some (BitVec.ofNat 32 gone.length), hold := none,
                cause := .console }).readout }) ∧
      (∀ r rest, line = .dump → s.holds.table = r :: rest → r.id ≠ 0 →
        let run := s.queue.entries.filter fun e => e.hold = some r.id
        Gives (pressRow line) s fun t => Gives (.dumpHold 0 r.id) s fun u =>
          t = { u with
            console := quiet.console
            monitor := s.monitor
            readout := (s.logEdit
              { kind := .holdDumped, first := run.head?.map (·.seq), last := run.getLast?.map (·.seq),
                count := some (BitVec.ofNat 32 run.length), hold := some r.id,
                cause := .console }).readout }) ∧
      (line = .hold → (∀ h ∈ s.holds.table, h.state ≠ .opened) → Gives (pressRow line) s fun t =>
        Gives (.holdOpen 0) s fun u => t = { u with console := quiet.console, monitor := s.monitor }) ∧
      (∀ r, line = .hold → s.openHold = some r → Gives (pressRow line) s fun t =>
        Gives (.holdClose 0) s fun u =>
          t = { u with
            console := quiet.console
            monitor := s.monitor
            readout := if r.unaired = 0 then (s.logEdit
                { kind := .holdEmpty, first := none, last := none, count := none, hold := some r.id,
                  cause := .console }).readout
              else s.readout }) ∧
      (∀ r rest, line = .release → s.holds.table = r :: rest →
        let run := s.queue.entries.filter fun e => e.hold = some r.id
        Gives (pressRow line) s fun t => Gives (.release 0 0) s fun u =>
          t = { u with
            console := quiet.console
            monitor := s.monitor
            readout := (s.logEdit
              { kind := .holdReleased, first := run.head?.map (·.seq), last := run.getLast?.map (·.seq),
                count := some (BitVec.ofNat 32 r.unaired), hold := some r.id,
                cause := .console }).readout }) ∧
      (line = .release → s.holds.table = [] → exec (pressRow line) s = .next quiet)))

/-- A console sample, active by the latched polarity, shifts into its line's history. Two active of three on
an armed line are a press, which the press row then takes; a disarmed line is armed by the sample that
brings its inactive run to 20; no sample is taken while LINK_READY is low. Each of the three lines has its own
history. -/
def Obligations.ConsoleSampleTaken : Prop :=
  (∀ (c : Console) (p : LineSampler),
    c.setSampler .dump p = { c with dump := p } ∧ c.setSampler .hold p = { c with hold := p } ∧
    c.setSampler .release p = { c with release := p } ∧
    c.sampler .dump = c.dump ∧ c.sampler .hold = c.hold ∧ c.sampler .release = c.release) ∧
  (∀ (line : ConsoleLine) (high : Bool) (s : State), s.link.ready = false →
    exec (.consoleSample line high) s = .next s) ∧
  (∀ (line : ConsoleLine) (high : Bool) (s : State), s.link.ready = true →
    let p := s.console.sampler line
    let active := if s.straps.pol = 0 then !high else high
    let run := if active then 0 else min 20 (p.inactiveRun + 1)
    let next := fun armed : Bool =>
      ({ s0 := p.s1, s1 := p.s2, s2 := active, armed := armed, inactiveRun := run } : LineSampler)
    let shifted := fun armed : Bool =>
      ({ s with console := s.console.setSampler line (next armed) } : State)
    let two := (p.s1 && p.s2) || (p.s1 && active) || (p.s2 && active)
    (p.armed = false → exec (.consoleSample line high) s = .next (shifted (decide (run = 20)))) ∧
    (p.armed = true → two = false → exec (.consoleSample line high) s = .next (shifted true)) ∧
    (p.armed = true → two = true → active = true →
      exec (.consoleSample line high) s = exec (pressRow line) (shifted true)))

/-! ### Rules of the shared operations -/

/-- The evaluation of the trim state, row by row of its table; a change of state sets the credit to 0, and no
change keeps it. -/
def Obligations.TrimEvaluation : Prop :=
  ∀ (x : Trim) (d target band : Nat),
    let lower := target - band
    let upper := target + band
    let new := x.evaluate d target band
    (x.state = .onDelay →
      (d < lower → new.state = .building) ∧ (upper < d → new.state = .catching) ∧
      (lower ≤ d → d ≤ upper → new.state = .onDelay)) ∧
    (x.state = .building →
      (upper < d → new.state = .catching) ∧ (target ≤ d → d ≤ upper → new.state = .onDelay) ∧
      (d < target → new.state = .building)) ∧
    (x.state = .catching →
      (d < lower → new.state = .building) ∧ (d ≤ target → lower ≤ d → new.state = .onDelay) ∧
      (target < d → new.state = .catching)) ∧
    (new.state ≠ x.state → new.credit = 0) ∧ (new.state = x.state → new.credit = x.credit)

/-- Eligibility, and the trim's answer: REPEAT and SKIP under exactly their conditions on the advanced credit,
the trim state and the frames, NONE otherwise; REPEAT and SKIP lower the credit by 1,000. -/
def Obligations.TrimAnswer : Prop :=
  (∀ (c : Settings) (level : Byte) (isPartial : Bool), c.eligible level isPartial = true ↔
    isPartial = false ∧ (c.eligibility = .quietOnly → c.silence ≤ level.toNat)) ∧
  (∀ s : State,
    let c := s.monitor.inForce
    let credit := s.advancedCredit
    let mayRepeat := s.trim.state = .building ∧ 1000 ≤ credit ∧
      ∃ b, s.air.current = some b ∧ c.eligible b.level b.isPartial = true
    let maySkip := s.trim.state = .catching ∧ 1000 ≤ credit ∧
      ∃ o n rest, s.queue.entries = o :: n :: rest ∧ c.eligible o.level o.isPartial = true ∧
        o.spliceIn = false ∧ n.hold = none
    (s.trim.state = .building → credit = min 2000 (s.trim.credit + c.buildRate)) ∧
    (s.trim.state = .catching → credit = min 2000 (s.trim.credit + c.catchRate)) ∧
    (s.trim.state = .onDelay → credit = s.trim.credit) ∧
    (s.trimAnswer = .repeated ↔ mayRepeat) ∧ (s.trimAnswer = .skip ↔ maySkip) ∧
    (s.trimAnswer = .none ↔ ¬ mayRepeat ∧ ¬ maySkip) ∧
    (s.trimAnswer ≠ .none → s.afterAsk = { s with trim := { s.trim with credit := credit - 1000 } }) ∧
    (s.trimAnswer = .none → s.afterAsk = { s with trim := { s.trim with credit := credit } }))

/-- The conversion of a count to milliseconds: rounded to the nearest whole millisecond, an exact half up, and
never above 4,294,967,295. -/
def Obligations.MillisecondConversion : Prop :=
  ∀ (r : RateCode) (f : Nat),
    let (pn, pd) := match r with
      | .rate25 => (1, 25)
      | .rate2997 => (1001, 30000)
      | .rate50 => (1, 50)
      | .rate5994 => (1001, 60000)
    let ms := (2 * f * 1000 * pn + pd) / (2 * pd)
    r.toMs f = (if ms ≤ 4294967295 then ms else 4294967295) ∧
    2 * ms * pd ≤ 2 * f * 1000 * pn + pd ∧ 2 * f * 1000 * pn + pd < 2 * ms * pd + 2 * pd ∧
    (r = .rate25 → ms = 40 * f) ∧ (r = .rate50 → ms = 20 * f)

/-- ALERT is asserted exactly while a flag is set or in FAILED; a fault report sets its flag and fills an
empty first-fault record only; and no tick, press, sample or sub-event of one clears a flag. The DELAY lamp is
lit in ON_DELAY and blinks otherwise, READY is lit while a full dump is available above the floor, both dark
outside RUNNING; HOLD is dark on an empty table, blinks while air is STALLED and is lit otherwise; all are dark
while LINK_READY is low, and a blinking lamp follows the blink phase. An edit-log record takes the next running
number and the serve number, stands newest, drops the oldest of 32, and raises the next number by one. -/
def Obligations.AlertAndFaultFlags : Prop :=
  (∀ (s : State) (e : LogEntry),
    let newest : LogRecord := { number := s.readout.nextNumber, serve := s.air.serve, entry := e }
    let logged := fun log : List LogRecord =>
      ({ s with readout := { s.readout with log := log, nextNumber := s.readout.nextNumber + 1 } } : State)
    (s.readout.log.length < 32 → s.logEdit e = logged (s.readout.log ++ [newest])) ∧
    (s.readout.log.length = 32 → s.logEdit e = logged (s.readout.log.tail ++ [newest])) ∧
    s.logEdits [] = s ∧ ∀ es, s.logEdits (e :: es) = (s.logEdit e).logEdits es) ∧
  (∀ s : State,
    (s.link.ready = false → s.delayLamp = .dark ∧ s.readyLamp = .dark ∧ s.holdLamp = .dark) ∧
    (s.monitor.run ≠ .running → s.delayLamp = .dark ∧ s.readyLamp = .dark) ∧
    (s.link.ready = true → s.monitor.run = .running →
      (s.trim.state = .onDelay → s.delayLamp = .lit) ∧
      (s.trim.state = .building ∨ s.trim.state = .catching → s.delayLamp = .blinking) ∧
      ((s.monitor.inForce.dumpLength : Int) ≤ s.queue.entries.length - s.monitor.inForce.dumpFloor →
        s.readyLamp = .lit) ∧
      ((s.queue.entries.length : Int) - s.monitor.inForce.dumpFloor < s.monitor.inForce.dumpLength →
        s.readyLamp = .dark)) ∧
    (s.holds.table = [] → s.holdLamp = .dark) ∧
    (s.link.ready = true → s.holds.table ≠ [] → s.air.condition ≠ .stalled → s.holdLamp = .lit) ∧
    (s.link.ready = true → s.holds.table ≠ [] → s.air.condition = .stalled → s.holdLamp = .blinking) ∧
    s.lampDrive .dark = false ∧ s.lampDrive .lit = true ∧ s.lampDrive .blinking = s.console.blinkLit) ∧
  (∀ s : State, s.alert = true ↔ (∃ i < 10, s.readout.flags.getLsbD i = true) ∨ s.store.cal = .failed) ∧
  (∀ (s : State) (k : FaultKind) (q : Option Seq) (a : Option Addr),
    s.report k q a = { s with readout := (s.report k q a).readout } ∧
    (s.report k q a).readout.flags.getLsbD k.index = true ∧
    (∀ i, i ≠ k.index →
      (s.report k q a).readout.flags.getLsbD i = s.readout.flags.getLsbD i) ∧
    (∀ r, s.readout.first = some r → (s.report k q a).readout.first = some r) ∧
    (s.readout.first = none → (s.report k q a).readout.first =
      some { kind := k, serve := s.air.serve, seq := q, addr := a }) ∧
    (s.report k q a).readout.log = s.readout.log) ∧
  (∀ (c : Instr) (s t : State),
    (c = .slotTimeout ∨ c = .stallExpired ∨ c = .freezeLimit ∨ c = .blinkPhase ∨ c = .dumpPress ∨
      c = .holdPress ∨ c = .releasePress ∨ (∃ l h, c = .consoleSample l h) ∨ (∃ m, c = .refEdge m) ∨
      (∃ m, c = .refLost m) ∨ (∃ m, c = .generatedTick m)) →
    exec c s = .next t → ∀ i, s.readout.flags.getLsbD i = true → t.readout.flags.getLsbD i = true)

/-! ### Invariants that every step keeps -/

/-- Every block is in exactly one place, its state corresponds to the place, and outside RUNNING no slot,
entry or binding holds one: every step keeps this. -/
def Obligations.BlocksPlacedKept : Prop := KeptByEveryStep BlocksPlaced

/-- With the blocks placed, every step keeps: counts in AIR and RETIRING only, at least 1 on the retire list,
missing-tile sets as the partial fields say, and each count equal to the reads in flight on its block. -/
def Obligations.ReadCountsKept : Prop :=
  KeptByEveryStep fun s => BlocksPlaced s ∧ RecordsSound s ∧ ReadsCounted s

/-- Every step keeps the queue in strictly ascending sequence order. -/
def Obligations.QueueOrderKept : Prop := KeptByEveryStep fun s => Ascending s.queue.entries

/-- Every step keeps the hold table true of the queue: at most four records of distinct ids, at most one OPEN,
each unaired count the number of entries that carry its id. -/
def Obligations.HoldTableKept : Prop := KeptByEveryStep HoldsSound

/-- Every step keeps the settings, targets, credit, counts and result list in their ranges, and the air
condition OFF exactly outside RUNNING. -/
def Obligations.LimitsKept : Prop := KeptByEveryStep fun s => LimitsHeld s ∧ OffOutsideRun s

/-- Every step keeps the in-flight read list within 64 places with no accepted tag twice, and the edit log
within 32 records of consecutive running numbers. -/
def Obligations.ReadListAndLogKept : Prop := KeptByEveryStep fun s => InFlightSound s ∧ LogSound s

/-- Every step keeps the windows aligned, apart and below the host-visible top, and DRAM in its one canonical
form. -/
def Obligations.WindowsAndDramKept : Prop :=
  KeptByEveryStep fun s => WindowsSound s ∧ Memory.wf s.dram

/-- The state after reset has the reset values of every block and satisfies every invariant; its strap levels
and its unwritten DRAM are the model's choice (log 1, log 2). -/
def Obligations.ResetStateSound : Prop :=
  AtReset State.reset { rate := 0, mem := 0, delay := 0, pol := 0, check := 0 } ∧
  State.reset.dram = [] ∧ State.reset.link.waiting = [] ∧ State.reset.pending = [] ∧
  State.reset.resetHeld = false ∧ State.reset.alert = false ∧
  BlocksPlaced State.reset ∧ RecordsSound State.reset ∧ ReadsCounted State.reset ∧
  Ascending State.reset.queue.entries ∧ HoldsSound State.reset ∧ LimitsHeld State.reset ∧
  OffOutsideRun State.reset ∧ InFlightSound State.reset ∧ LogSound State.reset ∧
  WindowsSound State.reset ∧ Memory.wf State.reset.dram
end

