-- ==== Sys2Proof/Laws/State.lean ====
section
/-! SUPPORT. One lemma per field per update of `State`, true by rfl, so that no proof unfolds an update. -/

namespace Sys2Proof.Machine

@[simp] theorem State.setLink_link (s : State) (v : Link) : (s.setLink v).link = v := rfl
@[simp] theorem State.setLink_windows (s : State) (v : Link) : (s.setLink v).windows = s.windows := rfl
@[simp] theorem State.setLink_store (s : State) (v : Link) : (s.setLink v).store = s.store := rfl
@[simp] theorem State.setLink_straps (s : State) (v : Link) : (s.setLink v).straps = s.straps := rfl
@[simp] theorem State.setLink_resetHeld (s : State) (v : Link) : (s.setLink v).resetHeld = s.resetHeld := rfl
@[simp] theorem State.setLink_dram (s : State) (v : Link) : (s.setLink v).dram = s.dram := rfl
@[simp] theorem State.setLink_pool (s : State) (v : Link) : (s.setLink v).pool = s.pool := rfl
@[simp] theorem State.setLink_ingest (s : State) (v : Link) : (s.setLink v).ingest = s.ingest := rfl
@[simp] theorem State.setLink_queue (s : State) (v : Link) : (s.setLink v).queue = s.queue := rfl
@[simp] theorem State.setLink_gen (s : State) (v : Link) : (s.setLink v).gen = s.gen := rfl
@[simp] theorem State.setLink_air (s : State) (v : Link) : (s.setLink v).air = s.air := rfl
@[simp] theorem State.setLink_trim (s : State) (v : Link) : (s.setLink v).trim = s.trim := rfl
@[simp] theorem State.setLink_holds (s : State) (v : Link) : (s.setLink v).holds = s.holds := rfl
@[simp] theorem State.setLink_console (s : State) (v : Link) : (s.setLink v).console = s.console := rfl
@[simp] theorem State.setLink_monitor (s : State) (v : Link) : (s.setLink v).monitor = s.monitor := rfl
@[simp] theorem State.setLink_readout (s : State) (v : Link) : (s.setLink v).readout = s.readout := rfl
@[simp] theorem State.setLink_pending (s : State) (v : Link) : (s.setLink v).pending = s.pending := rfl

@[simp] theorem State.setWindows_link (s : State) (v : Windows) : (s.setWindows v).link = s.link := rfl
@[simp] theorem State.setWindows_windows (s : State) (v : Windows) : (s.setWindows v).windows = v := rfl
@[simp] theorem State.setWindows_store (s : State) (v : Windows) : (s.setWindows v).store = s.store := rfl
@[simp] theorem State.setWindows_straps (s : State) (v : Windows) : (s.setWindows v).straps = s.straps := rfl
@[simp] theorem State.setWindows_resetHeld (s : State) (v : Windows) : (s.setWindows v).resetHeld = s.resetHeld := rfl
@[simp] theorem State.setWindows_dram (s : State) (v : Windows) : (s.setWindows v).dram = s.dram := rfl
@[simp] theorem State.setWindows_pool (s : State) (v : Windows) : (s.setWindows v).pool = s.pool := rfl
@[simp] theorem State.setWindows_ingest (s : State) (v : Windows) : (s.setWindows v).ingest = s.ingest := rfl
@[simp] theorem State.setWindows_queue (s : State) (v : Windows) : (s.setWindows v).queue = s.queue := rfl
@[simp] theorem State.setWindows_gen (s : State) (v : Windows) : (s.setWindows v).gen = s.gen := rfl
@[simp] theorem State.setWindows_air (s : State) (v : Windows) : (s.setWindows v).air = s.air := rfl
@[simp] theorem State.setWindows_trim (s : State) (v : Windows) : (s.setWindows v).trim = s.trim := rfl
@[simp] theorem State.setWindows_holds (s : State) (v : Windows) : (s.setWindows v).holds = s.holds := rfl
@[simp] theorem State.setWindows_console (s : State) (v : Windows) : (s.setWindows v).console = s.console := rfl
@[simp] theorem State.setWindows_monitor (s : State) (v : Windows) : (s.setWindows v).monitor = s.monitor := rfl
@[simp] theorem State.setWindows_readout (s : State) (v : Windows) : (s.setWindows v).readout = s.readout := rfl
@[simp] theorem State.setWindows_pending (s : State) (v : Windows) : (s.setWindows v).pending = s.pending := rfl

@[simp] theorem State.setStore_link (s : State) (v : Store) : (s.setStore v).link = s.link := rfl
@[simp] theorem State.setStore_windows (s : State) (v : Store) : (s.setStore v).windows = s.windows := rfl
@[simp] theorem State.setStore_store (s : State) (v : Store) : (s.setStore v).store = v := rfl
@[simp] theorem State.setStore_straps (s : State) (v : Store) : (s.setStore v).straps = s.straps := rfl
@[simp] theorem State.setStore_resetHeld (s : State) (v : Store) : (s.setStore v).resetHeld = s.resetHeld := rfl
@[simp] theorem State.setStore_dram (s : State) (v : Store) : (s.setStore v).dram = s.dram := rfl
@[simp] theorem State.setStore_pool (s : State) (v : Store) : (s.setStore v).pool = s.pool := rfl
@[simp] theorem State.setStore_ingest (s : State) (v : Store) : (s.setStore v).ingest = s.ingest := rfl
@[simp] theorem State.setStore_queue (s : State) (v : Store) : (s.setStore v).queue = s.queue := rfl
@[simp] theorem State.setStore_gen (s : State) (v : Store) : (s.setStore v).gen = s.gen := rfl
@[simp] theorem State.setStore_air (s : State) (v : Store) : (s.setStore v).air = s.air := rfl
@[simp] theorem State.setStore_trim (s : State) (v : Store) : (s.setStore v).trim = s.trim := rfl
@[simp] theorem State.setStore_holds (s : State) (v : Store) : (s.setStore v).holds = s.holds := rfl
@[simp] theorem State.setStore_console (s : State) (v : Store) : (s.setStore v).console = s.console := rfl
@[simp] theorem State.setStore_monitor (s : State) (v : Store) : (s.setStore v).monitor = s.monitor := rfl
@[simp] theorem State.setStore_readout (s : State) (v : Store) : (s.setStore v).readout = s.readout := rfl
@[simp] theorem State.setStore_pending (s : State) (v : Store) : (s.setStore v).pending = s.pending := rfl

@[simp] theorem State.setStraps_link (s : State) (v : Straps) : (s.setStraps v).link = s.link := rfl
@[simp] theorem State.setStraps_windows (s : State) (v : Straps) : (s.setStraps v).windows = s.windows := rfl
@[simp] theorem State.setStraps_store (s : State) (v : Straps) : (s.setStraps v).store = s.store := rfl
@[simp] theorem State.setStraps_straps (s : State) (v : Straps) : (s.setStraps v).straps = v := rfl
@[simp] theorem State.setStraps_resetHeld (s : State) (v : Straps) : (s.setStraps v).resetHeld = s.resetHeld := rfl
@[simp] theorem State.setStraps_dram (s : State) (v : Straps) : (s.setStraps v).dram = s.dram := rfl
@[simp] theorem State.setStraps_pool (s : State) (v : Straps) : (s.setStraps v).pool = s.pool := rfl
@[simp] theorem State.setStraps_ingest (s : State) (v : Straps) : (s.setStraps v).ingest = s.ingest := rfl
@[simp] theorem State.setStraps_queue (s : State) (v : Straps) : (s.setStraps v).queue = s.queue := rfl
@[simp] theorem State.setStraps_gen (s : State) (v : Straps) : (s.setStraps v).gen = s.gen := rfl
@[simp] theorem State.setStraps_air (s : State) (v : Straps) : (s.setStraps v).air = s.air := rfl
@[simp] theorem State.setStraps_trim (s : State) (v : Straps) : (s.setStraps v).trim = s.trim := rfl
@[simp] theorem State.setStraps_holds (s : State) (v : Straps) : (s.setStraps v).holds = s.holds := rfl
@[simp] theorem State.setStraps_console (s : State) (v : Straps) : (s.setStraps v).console = s.console := rfl
@[simp] theorem State.setStraps_monitor (s : State) (v : Straps) : (s.setStraps v).monitor = s.monitor := rfl
@[simp] theorem State.setStraps_readout (s : State) (v : Straps) : (s.setStraps v).readout = s.readout := rfl
@[simp] theorem State.setStraps_pending (s : State) (v : Straps) : (s.setStraps v).pending = s.pending := rfl

@[simp] theorem State.setResetHeld_link (s : State) (v : Bool) : (s.setResetHeld v).link = s.link := rfl
@[simp] theorem State.setResetHeld_windows (s : State) (v : Bool) : (s.setResetHeld v).windows = s.windows := rfl
@[simp] theorem State.setResetHeld_store (s : State) (v : Bool) : (s.setResetHeld v).store = s.store := rfl
@[simp] theorem State.setResetHeld_straps (s : State) (v : Bool) : (s.setResetHeld v).straps = s.straps := rfl
@[simp] theorem State.setResetHeld_resetHeld (s : State) (v : Bool) : (s.setResetHeld v).resetHeld = v := rfl
@[simp] theorem State.setResetHeld_dram (s : State) (v : Bool) : (s.setResetHeld v).dram = s.dram := rfl
@[simp] theorem State.setResetHeld_pool (s : State) (v : Bool) : (s.setResetHeld v).pool = s.pool := rfl
@[simp] theorem State.setResetHeld_ingest (s : State) (v : Bool) : (s.setResetHeld v).ingest = s.ingest := rfl
@[simp] theorem State.setResetHeld_queue (s : State) (v : Bool) : (s.setResetHeld v).queue = s.queue := rfl
@[simp] theorem State.setResetHeld_gen (s : State) (v : Bool) : (s.setResetHeld v).gen = s.gen := rfl
@[simp] theorem State.setResetHeld_air (s : State) (v : Bool) : (s.setResetHeld v).air = s.air := rfl
@[simp] theorem State.setResetHeld_trim (s : State) (v : Bool) : (s.setResetHeld v).trim = s.trim := rfl
@[simp] theorem State.setResetHeld_holds (s : State) (v : Bool) : (s.setResetHeld v).holds = s.holds := rfl
@[simp] theorem State.setResetHeld_console (s : State) (v : Bool) : (s.setResetHeld v).console = s.console := rfl
@[simp] theorem State.setResetHeld_monitor (s : State) (v : Bool) : (s.setResetHeld v).monitor = s.monitor := rfl
@[simp] theorem State.setResetHeld_readout (s : State) (v : Bool) : (s.setResetHeld v).readout = s.readout := rfl
@[simp] theorem State.setResetHeld_pending (s : State) (v : Bool) : (s.setResetHeld v).pending = s.pending := rfl

@[simp] theorem State.setDram_link (s : State) (v : List Host.Cell) : (s.setDram v).link = s.link := rfl
@[simp] theorem State.setDram_windows (s : State) (v : List Host.Cell) : (s.setDram v).windows = s.windows := rfl
@[simp] theorem State.setDram_store (s : State) (v : List Host.Cell) : (s.setDram v).store = s.store := rfl
@[simp] theorem State.setDram_straps (s : State) (v : List Host.Cell) : (s.setDram v).straps = s.straps := rfl
@[simp] theorem State.setDram_resetHeld (s : State) (v : List Host.Cell) : (s.setDram v).resetHeld = s.resetHeld := rfl
@[simp] theorem State.setDram_dram (s : State) (v : List Host.Cell) : (s.setDram v).dram = v := rfl
@[simp] theorem State.setDram_pool (s : State) (v : List Host.Cell) : (s.setDram v).pool = s.pool := rfl
@[simp] theorem State.setDram_ingest (s : State) (v : List Host.Cell) : (s.setDram v).ingest = s.ingest := rfl
@[simp] theorem State.setDram_queue (s : State) (v : List Host.Cell) : (s.setDram v).queue = s.queue := rfl
@[simp] theorem State.setDram_gen (s : State) (v : List Host.Cell) : (s.setDram v).gen = s.gen := rfl
@[simp] theorem State.setDram_air (s : State) (v : List Host.Cell) : (s.setDram v).air = s.air := rfl
@[simp] theorem State.setDram_trim (s : State) (v : List Host.Cell) : (s.setDram v).trim = s.trim := rfl
@[simp] theorem State.setDram_holds (s : State) (v : List Host.Cell) : (s.setDram v).holds = s.holds := rfl
@[simp] theorem State.setDram_console (s : State) (v : List Host.Cell) : (s.setDram v).console = s.console := rfl
@[simp] theorem State.setDram_monitor (s : State) (v : List Host.Cell) : (s.setDram v).monitor = s.monitor := rfl
@[simp] theorem State.setDram_readout (s : State) (v : List Host.Cell) : (s.setDram v).readout = s.readout := rfl
@[simp] theorem State.setDram_pending (s : State) (v : List Host.Cell) : (s.setDram v).pending = s.pending := rfl

@[simp] theorem State.setPool_link (s : State) (v : Pool) : (s.setPool v).link = s.link := rfl
@[simp] theorem State.setPool_windows (s : State) (v : Pool) : (s.setPool v).windows = s.windows := rfl
@[simp] theorem State.setPool_store (s : State) (v : Pool) : (s.setPool v).store = s.store := rfl
@[simp] theorem State.setPool_straps (s : State) (v : Pool) : (s.setPool v).straps = s.straps := rfl
@[simp] theorem State.setPool_resetHeld (s : State) (v : Pool) : (s.setPool v).resetHeld = s.resetHeld := rfl
@[simp] theorem State.setPool_dram (s : State) (v : Pool) : (s.setPool v).dram = s.dram := rfl
@[simp] theorem State.setPool_pool (s : State) (v : Pool) : (s.setPool v).pool = v := rfl
@[simp] theorem State.setPool_ingest (s : State) (v : Pool) : (s.setPool v).ingest = s.ingest := rfl
@[simp] theorem State.setPool_queue (s : State) (v : Pool) : (s.setPool v).queue = s.queue := rfl
@[simp] theorem State.setPool_gen (s : State) (v : Pool) : (s.setPool v).gen = s.gen := rfl
@[simp] theorem State.setPool_air (s : State) (v : Pool) : (s.setPool v).air = s.air := rfl
@[simp] theorem State.setPool_trim (s : State) (v : Pool) : (s.setPool v).trim = s.trim := rfl
@[simp] theorem State.setPool_holds (s : State) (v : Pool) : (s.setPool v).holds = s.holds := rfl
@[simp] theorem State.setPool_console (s : State) (v : Pool) : (s.setPool v).console = s.console := rfl
@[simp] theorem State.setPool_monitor (s : State) (v : Pool) : (s.setPool v).monitor = s.monitor := rfl
@[simp] theorem State.setPool_readout (s : State) (v : Pool) : (s.setPool v).readout = s.readout := rfl
@[simp] theorem State.setPool_pending (s : State) (v : Pool) : (s.setPool v).pending = s.pending := rfl

@[simp] theorem State.setIngest_link (s : State) (v : Ingest) : (s.setIngest v).link = s.link := rfl
@[simp] theorem State.setIngest_windows (s : State) (v : Ingest) : (s.setIngest v).windows = s.windows := rfl
@[simp] theorem State.setIngest_store (s : State) (v : Ingest) : (s.setIngest v).store = s.store := rfl
@[simp] theorem State.setIngest_straps (s : State) (v : Ingest) : (s.setIngest v).straps = s.straps := rfl
@[simp] theorem State.setIngest_resetHeld (s : State) (v : Ingest) : (s.setIngest v).resetHeld = s.resetHeld := rfl
@[simp] theorem State.setIngest_dram (s : State) (v : Ingest) : (s.setIngest v).dram = s.dram := rfl
@[simp] theorem State.setIngest_pool (s : State) (v : Ingest) : (s.setIngest v).pool = s.pool := rfl
@[simp] theorem State.setIngest_ingest (s : State) (v : Ingest) : (s.setIngest v).ingest = v := rfl
@[simp] theorem State.setIngest_queue (s : State) (v : Ingest) : (s.setIngest v).queue = s.queue := rfl
@[simp] theorem State.setIngest_gen (s : State) (v : Ingest) : (s.setIngest v).gen = s.gen := rfl
@[simp] theorem State.setIngest_air (s : State) (v : Ingest) : (s.setIngest v).air = s.air := rfl
@[simp] theorem State.setIngest_trim (s : State) (v : Ingest) : (s.setIngest v).trim = s.trim := rfl
@[simp] theorem State.setIngest_holds (s : State) (v : Ingest) : (s.setIngest v).holds = s.holds := rfl
@[simp] theorem State.setIngest_console (s : State) (v : Ingest) : (s.setIngest v).console = s.console := rfl
@[simp] theorem State.setIngest_monitor (s : State) (v : Ingest) : (s.setIngest v).monitor = s.monitor := rfl
@[simp] theorem State.setIngest_readout (s : State) (v : Ingest) : (s.setIngest v).readout = s.readout := rfl
@[simp] theorem State.setIngest_pending (s : State) (v : Ingest) : (s.setIngest v).pending = s.pending := rfl

@[simp] theorem State.setQueue_link (s : State) (v : Queue) : (s.setQueue v).link = s.link := rfl
@[simp] theorem State.setQueue_windows (s : State) (v : Queue) : (s.setQueue v).windows = s.windows := rfl
@[simp] theorem State.setQueue_store (s : State) (v : Queue) : (s.setQueue v).store = s.store := rfl
@[simp] theorem State.setQueue_straps (s : State) (v : Queue) : (s.setQueue v).straps = s.straps := rfl
@[simp] theorem State.setQueue_resetHeld (s : State) (v : Queue) : (s.setQueue v).resetHeld = s.resetHeld := rfl
@[simp] theorem State.setQueue_dram (s : State) (v : Queue) : (s.setQueue v).dram = s.dram := rfl
@[simp] theorem State.setQueue_pool (s : State) (v : Queue) : (s.setQueue v).pool = s.pool := rfl
@[simp] theorem State.setQueue_ingest (s : State) (v : Queue) : (s.setQueue v).ingest = s.ingest := rfl
@[simp] theorem State.setQueue_queue (s : State) (v : Queue) : (s.setQueue v).queue = v := rfl
@[simp] theorem State.setQueue_gen (s : State) (v : Queue) : (s.setQueue v).gen = s.gen := rfl
@[simp] theorem State.setQueue_air (s : State) (v : Queue) : (s.setQueue v).air = s.air := rfl
@[simp] theorem State.setQueue_trim (s : State) (v : Queue) : (s.setQueue v).trim = s.trim := rfl
@[simp] theorem State.setQueue_holds (s : State) (v : Queue) : (s.setQueue v).holds = s.holds := rfl
@[simp] theorem State.setQueue_console (s : State) (v : Queue) : (s.setQueue v).console = s.console := rfl
@[simp] theorem State.setQueue_monitor (s : State) (v : Queue) : (s.setQueue v).monitor = s.monitor := rfl
@[simp] theorem State.setQueue_readout (s : State) (v : Queue) : (s.setQueue v).readout = s.readout := rfl
@[simp] theorem State.setQueue_pending (s : State) (v : Queue) : (s.setQueue v).pending = s.pending := rfl

@[simp] theorem State.setGen_link (s : State) (v : TickGen) : (s.setGen v).link = s.link := rfl
@[simp] theorem State.setGen_windows (s : State) (v : TickGen) : (s.setGen v).windows = s.windows := rfl
@[simp] theorem State.setGen_store (s : State) (v : TickGen) : (s.setGen v).store = s.store := rfl
@[simp] theorem State.setGen_straps (s : State) (v : TickGen) : (s.setGen v).straps = s.straps := rfl
@[simp] theorem State.setGen_resetHeld (s : State) (v : TickGen) : (s.setGen v).resetHeld = s.resetHeld := rfl
@[simp] theorem State.setGen_dram (s : State) (v : TickGen) : (s.setGen v).dram = s.dram := rfl
@[simp] theorem State.setGen_pool (s : State) (v : TickGen) : (s.setGen v).pool = s.pool := rfl
@[simp] theorem State.setGen_ingest (s : State) (v : TickGen) : (s.setGen v).ingest = s.ingest := rfl
@[simp] theorem State.setGen_queue (s : State) (v : TickGen) : (s.setGen v).queue = s.queue := rfl
@[simp] theorem State.setGen_gen (s : State) (v : TickGen) : (s.setGen v).gen = v := rfl
@[simp] theorem State.setGen_air (s : State) (v : TickGen) : (s.setGen v).air = s.air := rfl
@[simp] theorem State.setGen_trim (s : State) (v : TickGen) : (s.setGen v).trim = s.trim := rfl
@[simp] theorem State.setGen_holds (s : State) (v : TickGen) : (s.setGen v).holds = s.holds := rfl
@[simp] theorem State.setGen_console (s : State) (v : TickGen) : (s.setGen v).console = s.console := rfl
@[simp] theorem State.setGen_monitor (s : State) (v : TickGen) : (s.setGen v).monitor = s.monitor := rfl
@[simp] theorem State.setGen_readout (s : State) (v : TickGen) : (s.setGen v).readout = s.readout := rfl
@[simp] theorem State.setGen_pending (s : State) (v : TickGen) : (s.setGen v).pending = s.pending := rfl

@[simp] theorem State.setAir_link (s : State) (v : Air) : (s.setAir v).link = s.link := rfl
@[simp] theorem State.setAir_windows (s : State) (v : Air) : (s.setAir v).windows = s.windows := rfl
@[simp] theorem State.setAir_store (s : State) (v : Air) : (s.setAir v).store = s.store := rfl
@[simp] theorem State.setAir_straps (s : State) (v : Air) : (s.setAir v).straps = s.straps := rfl
@[simp] theorem State.setAir_resetHeld (s : State) (v : Air) : (s.setAir v).resetHeld = s.resetHeld := rfl
@[simp] theorem State.setAir_dram (s : State) (v : Air) : (s.setAir v).dram = s.dram := rfl
@[simp] theorem State.setAir_pool (s : State) (v : Air) : (s.setAir v).pool = s.pool := rfl
@[simp] theorem State.setAir_ingest (s : State) (v : Air) : (s.setAir v).ingest = s.ingest := rfl
@[simp] theorem State.setAir_queue (s : State) (v : Air) : (s.setAir v).queue = s.queue := rfl
@[simp] theorem State.setAir_gen (s : State) (v : Air) : (s.setAir v).gen = s.gen := rfl
@[simp] theorem State.setAir_air (s : State) (v : Air) : (s.setAir v).air = v := rfl
@[simp] theorem State.setAir_trim (s : State) (v : Air) : (s.setAir v).trim = s.trim := rfl
@[simp] theorem State.setAir_holds (s : State) (v : Air) : (s.setAir v).holds = s.holds := rfl
@[simp] theorem State.setAir_console (s : State) (v : Air) : (s.setAir v).console = s.console := rfl
@[simp] theorem State.setAir_monitor (s : State) (v : Air) : (s.setAir v).monitor = s.monitor := rfl
@[simp] theorem State.setAir_readout (s : State) (v : Air) : (s.setAir v).readout = s.readout := rfl
@[simp] theorem State.setAir_pending (s : State) (v : Air) : (s.setAir v).pending = s.pending := rfl

@[simp] theorem State.setTrim_link (s : State) (v : Trim) : (s.setTrim v).link = s.link := rfl
@[simp] theorem State.setTrim_windows (s : State) (v : Trim) : (s.setTrim v).windows = s.windows := rfl
@[simp] theorem State.setTrim_store (s : State) (v : Trim) : (s.setTrim v).store = s.store := rfl
@[simp] theorem State.setTrim_straps (s : State) (v : Trim) : (s.setTrim v).straps = s.straps := rfl
@[simp] theorem State.setTrim_resetHeld (s : State) (v : Trim) : (s.setTrim v).resetHeld = s.resetHeld := rfl
@[simp] theorem State.setTrim_dram (s : State) (v : Trim) : (s.setTrim v).dram = s.dram := rfl
@[simp] theorem State.setTrim_pool (s : State) (v : Trim) : (s.setTrim v).pool = s.pool := rfl
@[simp] theorem State.setTrim_ingest (s : State) (v : Trim) : (s.setTrim v).ingest = s.ingest := rfl
@[simp] theorem State.setTrim_queue (s : State) (v : Trim) : (s.setTrim v).queue = s.queue := rfl
@[simp] theorem State.setTrim_gen (s : State) (v : Trim) : (s.setTrim v).gen = s.gen := rfl
@[simp] theorem State.setTrim_air (s : State) (v : Trim) : (s.setTrim v).air = s.air := rfl
@[simp] theorem State.setTrim_trim (s : State) (v : Trim) : (s.setTrim v).trim = v := rfl
@[simp] theorem State.setTrim_holds (s : State) (v : Trim) : (s.setTrim v).holds = s.holds := rfl
@[simp] theorem State.setTrim_console (s : State) (v : Trim) : (s.setTrim v).console = s.console := rfl
@[simp] theorem State.setTrim_monitor (s : State) (v : Trim) : (s.setTrim v).monitor = s.monitor := rfl
@[simp] theorem State.setTrim_readout (s : State) (v : Trim) : (s.setTrim v).readout = s.readout := rfl
@[simp] theorem State.setTrim_pending (s : State) (v : Trim) : (s.setTrim v).pending = s.pending := rfl

@[simp] theorem State.setHolds_link (s : State) (v : Holds) : (s.setHolds v).link = s.link := rfl
@[simp] theorem State.setHolds_windows (s : State) (v : Holds) : (s.setHolds v).windows = s.windows := rfl
@[simp] theorem State.setHolds_store (s : State) (v : Holds) : (s.setHolds v).store = s.store := rfl
@[simp] theorem State.setHolds_straps (s : State) (v : Holds) : (s.setHolds v).straps = s.straps := rfl
@[simp] theorem State.setHolds_resetHeld (s : State) (v : Holds) : (s.setHolds v).resetHeld = s.resetHeld := rfl
@[simp] theorem State.setHolds_dram (s : State) (v : Holds) : (s.setHolds v).dram = s.dram := rfl
@[simp] theorem State.setHolds_pool (s : State) (v : Holds) : (s.setHolds v).pool = s.pool := rfl
@[simp] theorem State.setHolds_ingest (s : State) (v : Holds) : (s.setHolds v).ingest = s.ingest := rfl
@[simp] theorem State.setHolds_queue (s : State) (v : Holds) : (s.setHolds v).queue = s.queue := rfl
@[simp] theorem State.setHolds_gen (s : State) (v : Holds) : (s.setHolds v).gen = s.gen := rfl
@[simp] theorem State.setHolds_air (s : State) (v : Holds) : (s.setHolds v).air = s.air := rfl
@[simp] theorem State.setHolds_trim (s : State) (v : Holds) : (s.setHolds v).trim = s.trim := rfl
@[simp] theorem State.setHolds_holds (s : State) (v : Holds) : (s.setHolds v).holds = v := rfl
@[simp] theorem State.setHolds_console (s : State) (v : Holds) : (s.setHolds v).console = s.console := rfl
@[simp] theorem State.setHolds_monitor (s : State) (v : Holds) : (s.setHolds v).monitor = s.monitor := rfl
@[simp] theorem State.setHolds_readout (s : State) (v : Holds) : (s.setHolds v).readout = s.readout := rfl
@[simp] theorem State.setHolds_pending (s : State) (v : Holds) : (s.setHolds v).pending = s.pending := rfl

@[simp] theorem State.setConsole_link (s : State) (v : Console) : (s.setConsole v).link = s.link := rfl
@[simp] theorem State.setConsole_windows (s : State) (v : Console) : (s.setConsole v).windows = s.windows := rfl
@[simp] theorem State.setConsole_store (s : State) (v : Console) : (s.setConsole v).store = s.store := rfl
@[simp] theorem State.setConsole_straps (s : State) (v : Console) : (s.setConsole v).straps = s.straps := rfl
@[simp] theorem State.setConsole_resetHeld (s : State) (v : Console) : (s.setConsole v).resetHeld = s.resetHeld := rfl
@[simp] theorem State.setConsole_dram (s : State) (v : Console) : (s.setConsole v).dram = s.dram := rfl
@[simp] theorem State.setConsole_pool (s : State) (v : Console) : (s.setConsole v).pool = s.pool := rfl
@[simp] theorem State.setConsole_ingest (s : State) (v : Console) : (s.setConsole v).ingest = s.ingest := rfl
@[simp] theorem State.setConsole_queue (s : State) (v : Console) : (s.setConsole v).queue = s.queue := rfl
@[simp] theorem State.setConsole_gen (s : State) (v : Console) : (s.setConsole v).gen = s.gen := rfl
@[simp] theorem State.setConsole_air (s : State) (v : Console) : (s.setConsole v).air = s.air := rfl
@[simp] theorem State.setConsole_trim (s : State) (v : Console) : (s.setConsole v).trim = s.trim := rfl
@[simp] theorem State.setConsole_holds (s : State) (v : Console) : (s.setConsole v).holds = s.holds := rfl
@[simp] theorem State.setConsole_console (s : State) (v : Console) : (s.setConsole v).console = v := rfl
@[simp] theorem State.setConsole_monitor (s : State) (v : Console) : (s.setConsole v).monitor = s.monitor := rfl
@[simp] theorem State.setConsole_readout (s : State) (v : Console) : (s.setConsole v).readout = s.readout := rfl
@[simp] theorem State.setConsole_pending (s : State) (v : Console) : (s.setConsole v).pending = s.pending := rfl

@[simp] theorem State.setMonitor_link (s : State) (v : Monitor) : (s.setMonitor v).link = s.link := rfl
@[simp] theorem State.setMonitor_windows (s : State) (v : Monitor) : (s.setMonitor v).windows = s.windows := rfl
@[simp] theorem State.setMonitor_store (s : State) (v : Monitor) : (s.setMonitor v).store = s.store := rfl
@[simp] theorem State.setMonitor_straps (s : State) (v : Monitor) : (s.setMonitor v).straps = s.straps := rfl
@[simp] theorem State.setMonitor_resetHeld (s : State) (v : Monitor) : (s.setMonitor v).resetHeld = s.resetHeld := rfl
@[simp] theorem State.setMonitor_dram (s : State) (v : Monitor) : (s.setMonitor v).dram = s.dram := rfl
@[simp] theorem State.setMonitor_pool (s : State) (v : Monitor) : (s.setMonitor v).pool = s.pool := rfl
@[simp] theorem State.setMonitor_ingest (s : State) (v : Monitor) : (s.setMonitor v).ingest = s.ingest := rfl
@[simp] theorem State.setMonitor_queue (s : State) (v : Monitor) : (s.setMonitor v).queue = s.queue := rfl
@[simp] theorem State.setMonitor_gen (s : State) (v : Monitor) : (s.setMonitor v).gen = s.gen := rfl
@[simp] theorem State.setMonitor_air (s : State) (v : Monitor) : (s.setMonitor v).air = s.air := rfl
@[simp] theorem State.setMonitor_trim (s : State) (v : Monitor) : (s.setMonitor v).trim = s.trim := rfl
@[simp] theorem State.setMonitor_holds (s : State) (v : Monitor) : (s.setMonitor v).holds = s.holds := rfl
@[simp] theorem State.setMonitor_console (s : State) (v : Monitor) : (s.setMonitor v).console = s.console := rfl
@[simp] theorem State.setMonitor_monitor (s : State) (v : Monitor) : (s.setMonitor v).monitor = v := rfl
@[simp] theorem State.setMonitor_readout (s : State) (v : Monitor) : (s.setMonitor v).readout = s.readout := rfl
@[simp] theorem State.setMonitor_pending (s : State) (v : Monitor) : (s.setMonitor v).pending = s.pending := rfl

@[simp] theorem State.setReadout_link (s : State) (v : Readout) : (s.setReadout v).link = s.link := rfl
@[simp] theorem State.setReadout_windows (s : State) (v : Readout) : (s.setReadout v).windows = s.windows := rfl
@[simp] theorem State.setReadout_store (s : State) (v : Readout) : (s.setReadout v).store = s.store := rfl
@[simp] theorem State.setReadout_straps (s : State) (v : Readout) : (s.setReadout v).straps = s.straps := rfl
@[simp] theorem State.setReadout_resetHeld (s : State) (v : Readout) : (s.setReadout v).resetHeld = s.resetHeld := rfl
@[simp] theorem State.setReadout_dram (s : State) (v : Readout) : (s.setReadout v).dram = s.dram := rfl
@[simp] theorem State.setReadout_pool (s : State) (v : Readout) : (s.setReadout v).pool = s.pool := rfl
@[simp] theorem State.setReadout_ingest (s : State) (v : Readout) : (s.setReadout v).ingest = s.ingest := rfl
@[simp] theorem State.setReadout_queue (s : State) (v : Readout) : (s.setReadout v).queue = s.queue := rfl
@[simp] theorem State.setReadout_gen (s : State) (v : Readout) : (s.setReadout v).gen = s.gen := rfl
@[simp] theorem State.setReadout_air (s : State) (v : Readout) : (s.setReadout v).air = s.air := rfl
@[simp] theorem State.setReadout_trim (s : State) (v : Readout) : (s.setReadout v).trim = s.trim := rfl
@[simp] theorem State.setReadout_holds (s : State) (v : Readout) : (s.setReadout v).holds = s.holds := rfl
@[simp] theorem State.setReadout_console (s : State) (v : Readout) : (s.setReadout v).console = s.console := rfl
@[simp] theorem State.setReadout_monitor (s : State) (v : Readout) : (s.setReadout v).monitor = s.monitor := rfl
@[simp] theorem State.setReadout_readout (s : State) (v : Readout) : (s.setReadout v).readout = v := rfl
@[simp] theorem State.setReadout_pending (s : State) (v : Readout) : (s.setReadout v).pending = s.pending := rfl

@[simp] theorem State.setPending_link (s : State) (v : List Instr) : (s.setPending v).link = s.link := rfl
@[simp] theorem State.setPending_windows (s : State) (v : List Instr) : (s.setPending v).windows = s.windows := rfl
@[simp] theorem State.setPending_store (s : State) (v : List Instr) : (s.setPending v).store = s.store := rfl
@[simp] theorem State.setPending_straps (s : State) (v : List Instr) : (s.setPending v).straps = s.straps := rfl
@[simp] theorem State.setPending_resetHeld (s : State) (v : List Instr) : (s.setPending v).resetHeld = s.resetHeld := rfl
@[simp] theorem State.setPending_dram (s : State) (v : List Instr) : (s.setPending v).dram = s.dram := rfl
@[simp] theorem State.setPending_pool (s : State) (v : List Instr) : (s.setPending v).pool = s.pool := rfl
@[simp] theorem State.setPending_ingest (s : State) (v : List Instr) : (s.setPending v).ingest = s.ingest := rfl
@[simp] theorem State.setPending_queue (s : State) (v : List Instr) : (s.setPending v).queue = s.queue := rfl
@[simp] theorem State.setPending_gen (s : State) (v : List Instr) : (s.setPending v).gen = s.gen := rfl
@[simp] theorem State.setPending_air (s : State) (v : List Instr) : (s.setPending v).air = s.air := rfl
@[simp] theorem State.setPending_trim (s : State) (v : List Instr) : (s.setPending v).trim = s.trim := rfl
@[simp] theorem State.setPending_holds (s : State) (v : List Instr) : (s.setPending v).holds = s.holds := rfl
@[simp] theorem State.setPending_console (s : State) (v : List Instr) : (s.setPending v).console = s.console := rfl
@[simp] theorem State.setPending_monitor (s : State) (v : List Instr) : (s.setPending v).monitor = s.monitor := rfl
@[simp] theorem State.setPending_readout (s : State) (v : List Instr) : (s.setPending v).readout = s.readout := rfl
@[simp] theorem State.setPending_pending (s : State) (v : List Instr) : (s.setPending v).pending = v := rfl

end Sys2Proof.Machine
end

