-- ==== Sys2Proof/Laws/QueueFrames.lean ====
section
/-! SUPPORT. Frames: what the fault, edit-log, queue and hold operations leave unchanged, one lemma per operation and block. -/

namespace Sys2Proof.Machine

open Sys2Proof

@[simp] theorem State.report_link (s : State) (k : FaultKind) (q : Option Seq) (a : Option Addr) : (s.report k q a).link = s.link := by simp [State.report]
@[simp] theorem State.report_windows (s : State) (k : FaultKind) (q : Option Seq) (a : Option Addr) : (s.report k q a).windows = s.windows := by simp [State.report]
@[simp] theorem State.report_store (s : State) (k : FaultKind) (q : Option Seq) (a : Option Addr) : (s.report k q a).store = s.store := by simp [State.report]
@[simp] theorem State.report_straps (s : State) (k : FaultKind) (q : Option Seq) (a : Option Addr) : (s.report k q a).straps = s.straps := by simp [State.report]
@[simp] theorem State.report_resetHeld (s : State) (k : FaultKind) (q : Option Seq) (a : Option Addr) : (s.report k q a).resetHeld = s.resetHeld := by simp [State.report]
@[simp] theorem State.report_dram (s : State) (k : FaultKind) (q : Option Seq) (a : Option Addr) : (s.report k q a).dram = s.dram := by simp [State.report]
@[simp] theorem State.report_pool (s : State) (k : FaultKind) (q : Option Seq) (a : Option Addr) : (s.report k q a).pool = s.pool := by simp [State.report]
@[simp] theorem State.report_ingest (s : State) (k : FaultKind) (q : Option Seq) (a : Option Addr) : (s.report k q a).ingest = s.ingest := by simp [State.report]
@[simp] theorem State.report_queue (s : State) (k : FaultKind) (q : Option Seq) (a : Option Addr) : (s.report k q a).queue = s.queue := by simp [State.report]
@[simp] theorem State.report_gen (s : State) (k : FaultKind) (q : Option Seq) (a : Option Addr) : (s.report k q a).gen = s.gen := by simp [State.report]
@[simp] theorem State.report_air (s : State) (k : FaultKind) (q : Option Seq) (a : Option Addr) : (s.report k q a).air = s.air := by simp [State.report]
@[simp] theorem State.report_trim (s : State) (k : FaultKind) (q : Option Seq) (a : Option Addr) : (s.report k q a).trim = s.trim := by simp [State.report]
@[simp] theorem State.report_holds (s : State) (k : FaultKind) (q : Option Seq) (a : Option Addr) : (s.report k q a).holds = s.holds := by simp [State.report]
@[simp] theorem State.report_console (s : State) (k : FaultKind) (q : Option Seq) (a : Option Addr) : (s.report k q a).console = s.console := by simp [State.report]
@[simp] theorem State.report_monitor (s : State) (k : FaultKind) (q : Option Seq) (a : Option Addr) : (s.report k q a).monitor = s.monitor := by simp [State.report]
@[simp] theorem State.report_pending (s : State) (k : FaultKind) (q : Option Seq) (a : Option Addr) : (s.report k q a).pending = s.pending := by simp [State.report]

@[simp] theorem State.logEdit_link (s : State) (e : LogEntry) : (s.logEdit e).link = s.link := by simp [State.logEdit]
@[simp] theorem State.logEdit_windows (s : State) (e : LogEntry) : (s.logEdit e).windows = s.windows := by simp [State.logEdit]
@[simp] theorem State.logEdit_store (s : State) (e : LogEntry) : (s.logEdit e).store = s.store := by simp [State.logEdit]
@[simp] theorem State.logEdit_straps (s : State) (e : LogEntry) : (s.logEdit e).straps = s.straps := by simp [State.logEdit]
@[simp] theorem State.logEdit_resetHeld (s : State) (e : LogEntry) : (s.logEdit e).resetHeld = s.resetHeld := by simp [State.logEdit]
@[simp] theorem State.logEdit_dram (s : State) (e : LogEntry) : (s.logEdit e).dram = s.dram := by simp [State.logEdit]
@[simp] theorem State.logEdit_pool (s : State) (e : LogEntry) : (s.logEdit e).pool = s.pool := by simp [State.logEdit]
@[simp] theorem State.logEdit_ingest (s : State) (e : LogEntry) : (s.logEdit e).ingest = s.ingest := by simp [State.logEdit]
@[simp] theorem State.logEdit_queue (s : State) (e : LogEntry) : (s.logEdit e).queue = s.queue := by simp [State.logEdit]
@[simp] theorem State.logEdit_gen (s : State) (e : LogEntry) : (s.logEdit e).gen = s.gen := by simp [State.logEdit]
@[simp] theorem State.logEdit_air (s : State) (e : LogEntry) : (s.logEdit e).air = s.air := by simp [State.logEdit]
@[simp] theorem State.logEdit_trim (s : State) (e : LogEntry) : (s.logEdit e).trim = s.trim := by simp [State.logEdit]
@[simp] theorem State.logEdit_holds (s : State) (e : LogEntry) : (s.logEdit e).holds = s.holds := by simp [State.logEdit]
@[simp] theorem State.logEdit_console (s : State) (e : LogEntry) : (s.logEdit e).console = s.console := by simp [State.logEdit]
@[simp] theorem State.logEdit_monitor (s : State) (e : LogEntry) : (s.logEdit e).monitor = s.monitor := by simp [State.logEdit]
@[simp] theorem State.logEdit_pending (s : State) (e : LogEntry) : (s.logEdit e).pending = s.pending := by simp [State.logEdit]

@[simp] theorem State.logEdits_link (s : State) (es : List LogEntry) : (s.logEdits es).link = s.link := by
  induction es generalizing s with
  | nil => rfl
  | cons e rest ih => exact (ih _).trans (State.logEdit_link s e)
@[simp] theorem State.logEdits_windows (s : State) (es : List LogEntry) : (s.logEdits es).windows = s.windows := by
  induction es generalizing s with
  | nil => rfl
  | cons e rest ih => exact (ih _).trans (State.logEdit_windows s e)
@[simp] theorem State.logEdits_store (s : State) (es : List LogEntry) : (s.logEdits es).store = s.store := by
  induction es generalizing s with
  | nil => rfl
  | cons e rest ih => exact (ih _).trans (State.logEdit_store s e)
@[simp] theorem State.logEdits_straps (s : State) (es : List LogEntry) : (s.logEdits es).straps = s.straps := by
  induction es generalizing s with
  | nil => rfl
  | cons e rest ih => exact (ih _).trans (State.logEdit_straps s e)
@[simp] theorem State.logEdits_resetHeld (s : State) (es : List LogEntry) : (s.logEdits es).resetHeld = s.resetHeld := by
  induction es generalizing s with
  | nil => rfl
  | cons e rest ih => exact (ih _).trans (State.logEdit_resetHeld s e)
@[simp] theorem State.logEdits_dram (s : State) (es : List LogEntry) : (s.logEdits es).dram = s.dram := by
  induction es generalizing s with
  | nil => rfl
  | cons e rest ih => exact (ih _).trans (State.logEdit_dram s e)
@[simp] theorem State.logEdits_pool (s : State) (es : List LogEntry) : (s.logEdits es).pool = s.pool := by
  induction es generalizing s with
  | nil => rfl
  | cons e rest ih => exact (ih _).trans (State.logEdit_pool s e)
@[simp] theorem State.logEdits_ingest (s : State) (es : List LogEntry) : (s.logEdits es).ingest = s.ingest := by
  induction es generalizing s with
  | nil => rfl
  | cons e rest ih => exact (ih _).trans (State.logEdit_ingest s e)
@[simp] theorem State.logEdits_queue (s : State) (es : List LogEntry) : (s.logEdits es).queue = s.queue := by
  induction es generalizing s with
  | nil => rfl
  | cons e rest ih => exact (ih _).trans (State.logEdit_queue s e)
@[simp] theorem State.logEdits_gen (s : State) (es : List LogEntry) : (s.logEdits es).gen = s.gen := by
  induction es generalizing s with
  | nil => rfl
  | cons e rest ih => exact (ih _).trans (State.logEdit_gen s e)
@[simp] theorem State.logEdits_air (s : State) (es : List LogEntry) : (s.logEdits es).air = s.air := by
  induction es generalizing s with
  | nil => rfl
  | cons e rest ih => exact (ih _).trans (State.logEdit_air s e)
@[simp] theorem State.logEdits_trim (s : State) (es : List LogEntry) : (s.logEdits es).trim = s.trim := by
  induction es generalizing s with
  | nil => rfl
  | cons e rest ih => exact (ih _).trans (State.logEdit_trim s e)
@[simp] theorem State.logEdits_holds (s : State) (es : List LogEntry) : (s.logEdits es).holds = s.holds := by
  induction es generalizing s with
  | nil => rfl
  | cons e rest ih => exact (ih _).trans (State.logEdit_holds s e)
@[simp] theorem State.logEdits_console (s : State) (es : List LogEntry) : (s.logEdits es).console = s.console := by
  induction es generalizing s with
  | nil => rfl
  | cons e rest ih => exact (ih _).trans (State.logEdit_console s e)
@[simp] theorem State.logEdits_monitor (s : State) (es : List LogEntry) : (s.logEdits es).monitor = s.monitor := by
  induction es generalizing s with
  | nil => rfl
  | cons e rest ih => exact (ih _).trans (State.logEdit_monitor s e)
@[simp] theorem State.logEdits_pending (s : State) (es : List LogEntry) : (s.logEdits es).pending = s.pending := by
  induction es generalizing s with
  | nil => rfl
  | cons e rest ih => exact (ih _).trans (State.logEdit_pending s e)

@[simp] theorem State.evaluateTrim_link (s : State) : (s.evaluateTrim).link = s.link := by simp [State.evaluateTrim]
@[simp] theorem State.evaluateTrim_windows (s : State) : (s.evaluateTrim).windows = s.windows := by simp [State.evaluateTrim]
@[simp] theorem State.evaluateTrim_store (s : State) : (s.evaluateTrim).store = s.store := by simp [State.evaluateTrim]
@[simp] theorem State.evaluateTrim_straps (s : State) : (s.evaluateTrim).straps = s.straps := by simp [State.evaluateTrim]
@[simp] theorem State.evaluateTrim_resetHeld (s : State) : (s.evaluateTrim).resetHeld = s.resetHeld := by simp [State.evaluateTrim]
@[simp] theorem State.evaluateTrim_dram (s : State) : (s.evaluateTrim).dram = s.dram := by simp [State.evaluateTrim]
@[simp] theorem State.evaluateTrim_pool (s : State) : (s.evaluateTrim).pool = s.pool := by simp [State.evaluateTrim]
@[simp] theorem State.evaluateTrim_ingest (s : State) : (s.evaluateTrim).ingest = s.ingest := by simp [State.evaluateTrim]
@[simp] theorem State.evaluateTrim_queue (s : State) : (s.evaluateTrim).queue = s.queue := by simp [State.evaluateTrim]
@[simp] theorem State.evaluateTrim_gen (s : State) : (s.evaluateTrim).gen = s.gen := by simp [State.evaluateTrim]
@[simp] theorem State.evaluateTrim_air (s : State) : (s.evaluateTrim).air = s.air := by simp [State.evaluateTrim]
@[simp] theorem State.evaluateTrim_holds (s : State) : (s.evaluateTrim).holds = s.holds := by simp [State.evaluateTrim]
@[simp] theorem State.evaluateTrim_console (s : State) : (s.evaluateTrim).console = s.console := by simp [State.evaluateTrim]
@[simp] theorem State.evaluateTrim_monitor (s : State) : (s.evaluateTrim).monitor = s.monitor := by simp [State.evaluateTrim]
@[simp] theorem State.evaluateTrim_readout (s : State) : (s.evaluateTrim).readout = s.readout := by simp [State.evaluateTrim]
@[simp] theorem State.evaluateTrim_pending (s : State) : (s.evaluateTrim).pending = s.pending := by simp [State.evaluateTrim]

@[simp] theorem State.depthReport_link (s : State) : (s.depthReport).link = s.link := by
  simp only [State.depthReport]; (repeat' split) <;> simp
@[simp] theorem State.depthReport_windows (s : State) : (s.depthReport).windows = s.windows := by
  simp only [State.depthReport]; (repeat' split) <;> simp
@[simp] theorem State.depthReport_store (s : State) : (s.depthReport).store = s.store := by
  simp only [State.depthReport]; (repeat' split) <;> simp
@[simp] theorem State.depthReport_straps (s : State) : (s.depthReport).straps = s.straps := by
  simp only [State.depthReport]; (repeat' split) <;> simp
@[simp] theorem State.depthReport_resetHeld (s : State) : (s.depthReport).resetHeld = s.resetHeld := by
  simp only [State.depthReport]; (repeat' split) <;> simp
@[simp] theorem State.depthReport_dram (s : State) : (s.depthReport).dram = s.dram := by
  simp only [State.depthReport]; (repeat' split) <;> simp
@[simp] theorem State.depthReport_pool (s : State) : (s.depthReport).pool = s.pool := by
  simp only [State.depthReport]; (repeat' split) <;> simp
@[simp] theorem State.depthReport_ingest (s : State) : (s.depthReport).ingest = s.ingest := by
  simp only [State.depthReport]; (repeat' split) <;> simp
@[simp] theorem State.depthReport_queue (s : State) : (s.depthReport).queue = s.queue := by
  simp only [State.depthReport]; (repeat' split) <;> simp
@[simp] theorem State.depthReport_gen (s : State) : (s.depthReport).gen = s.gen := by
  simp only [State.depthReport]; (repeat' split) <;> simp
@[simp] theorem State.depthReport_air (s : State) : (s.depthReport).air = s.air := by
  simp only [State.depthReport]; (repeat' split) <;> simp
@[simp] theorem State.depthReport_holds (s : State) : (s.depthReport).holds = s.holds := by
  simp only [State.depthReport]; (repeat' split) <;> simp
@[simp] theorem State.depthReport_console (s : State) : (s.depthReport).console = s.console := by
  simp only [State.depthReport]; (repeat' split) <;> simp
@[simp] theorem State.depthReport_monitor (s : State) : (s.depthReport).monitor = s.monitor := by
  simp only [State.depthReport]; (repeat' split) <;> simp
@[simp] theorem State.depthReport_readout (s : State) : (s.depthReport).readout = s.readout := by
  simp only [State.depthReport]; (repeat' split) <;> simp
@[simp] theorem State.depthReport_pending (s : State) : (s.depthReport).pending = s.pending := by
  simp only [State.depthReport]; (repeat' split) <;> simp

@[simp] theorem State.afterAsk_link (s : State) : (s.afterAsk).link = s.link := by simp [State.afterAsk]
@[simp] theorem State.afterAsk_windows (s : State) : (s.afterAsk).windows = s.windows := by simp [State.afterAsk]
@[simp] theorem State.afterAsk_store (s : State) : (s.afterAsk).store = s.store := by simp [State.afterAsk]
@[simp] theorem State.afterAsk_straps (s : State) : (s.afterAsk).straps = s.straps := by simp [State.afterAsk]
@[simp] theorem State.afterAsk_resetHeld (s : State) : (s.afterAsk).resetHeld = s.resetHeld := by simp [State.afterAsk]
@[simp] theorem State.afterAsk_dram (s : State) : (s.afterAsk).dram = s.dram := by simp [State.afterAsk]
@[simp] theorem State.afterAsk_pool (s : State) : (s.afterAsk).pool = s.pool := by simp [State.afterAsk]
@[simp] theorem State.afterAsk_ingest (s : State) : (s.afterAsk).ingest = s.ingest := by simp [State.afterAsk]
@[simp] theorem State.afterAsk_queue (s : State) : (s.afterAsk).queue = s.queue := by simp [State.afterAsk]
@[simp] theorem State.afterAsk_gen (s : State) : (s.afterAsk).gen = s.gen := by simp [State.afterAsk]
@[simp] theorem State.afterAsk_air (s : State) : (s.afterAsk).air = s.air := by simp [State.afterAsk]
@[simp] theorem State.afterAsk_holds (s : State) : (s.afterAsk).holds = s.holds := by simp [State.afterAsk]
@[simp] theorem State.afterAsk_console (s : State) : (s.afterAsk).console = s.console := by simp [State.afterAsk]
@[simp] theorem State.afterAsk_monitor (s : State) : (s.afterAsk).monitor = s.monitor := by simp [State.afterAsk]
@[simp] theorem State.afterAsk_readout (s : State) : (s.afterAsk).readout = s.readout := by simp [State.afterAsk]
@[simp] theorem State.afterAsk_pending (s : State) : (s.afterAsk).pending = s.pending := by simp [State.afterAsk]

@[simp] theorem State.endDrain_link (s : State) : (s.endDrain).link = s.link := by
  simp only [State.endDrain]; (repeat' split) <;> simp
@[simp] theorem State.endDrain_windows (s : State) : (s.endDrain).windows = s.windows := by
  simp only [State.endDrain]; (repeat' split) <;> simp
@[simp] theorem State.endDrain_store (s : State) : (s.endDrain).store = s.store := by
  simp only [State.endDrain]; (repeat' split) <;> simp
@[simp] theorem State.endDrain_straps (s : State) : (s.endDrain).straps = s.straps := by
  simp only [State.endDrain]; (repeat' split) <;> simp
@[simp] theorem State.endDrain_resetHeld (s : State) : (s.endDrain).resetHeld = s.resetHeld := by
  simp only [State.endDrain]; (repeat' split) <;> simp
@[simp] theorem State.endDrain_dram (s : State) : (s.endDrain).dram = s.dram := by
  simp only [State.endDrain]; (repeat' split) <;> simp
@[simp] theorem State.endDrain_ingest (s : State) : (s.endDrain).ingest = s.ingest := by
  simp only [State.endDrain]; (repeat' split) <;> simp
@[simp] theorem State.endDrain_queue (s : State) : (s.endDrain).queue = s.queue := by
  simp only [State.endDrain]; (repeat' split) <;> simp
@[simp] theorem State.endDrain_gen (s : State) : (s.endDrain).gen = s.gen := by
  simp only [State.endDrain]; (repeat' split) <;> simp
@[simp] theorem State.endDrain_air (s : State) : (s.endDrain).air = s.air := by
  simp only [State.endDrain]; (repeat' split) <;> simp
@[simp] theorem State.endDrain_trim (s : State) : (s.endDrain).trim = s.trim := by
  simp only [State.endDrain]; (repeat' split) <;> simp
@[simp] theorem State.endDrain_holds (s : State) : (s.endDrain).holds = s.holds := by
  simp only [State.endDrain]; (repeat' split) <;> simp
@[simp] theorem State.endDrain_console (s : State) : (s.endDrain).console = s.console := by
  simp only [State.endDrain]; (repeat' split) <;> simp
@[simp] theorem State.endDrain_readout (s : State) : (s.endDrain).readout = s.readout := by
  simp only [State.endDrain]; (repeat' split) <;> simp
@[simp] theorem State.endDrain_pending (s : State) : (s.endDrain).pending = s.pending := by
  simp only [State.endDrain]; (repeat' split) <;> simp

@[simp] theorem State.accountRemoval_link (s : State) (r k : List Entry) (c : Cause) : (s.accountRemoval r k c).link = s.link := by simp [State.accountRemoval]
@[simp] theorem State.accountRemoval_windows (s : State) (r k : List Entry) (c : Cause) : (s.accountRemoval r k c).windows = s.windows := by simp [State.accountRemoval]
@[simp] theorem State.accountRemoval_store (s : State) (r k : List Entry) (c : Cause) : (s.accountRemoval r k c).store = s.store := by simp [State.accountRemoval]
@[simp] theorem State.accountRemoval_straps (s : State) (r k : List Entry) (c : Cause) : (s.accountRemoval r k c).straps = s.straps := by simp [State.accountRemoval]
@[simp] theorem State.accountRemoval_resetHeld (s : State) (r k : List Entry) (c : Cause) : (s.accountRemoval r k c).resetHeld = s.resetHeld := by simp [State.accountRemoval]
@[simp] theorem State.accountRemoval_dram (s : State) (r k : List Entry) (c : Cause) : (s.accountRemoval r k c).dram = s.dram := by simp [State.accountRemoval]
@[simp] theorem State.accountRemoval_pool (s : State) (r k : List Entry) (c : Cause) : (s.accountRemoval r k c).pool = s.pool := by simp [State.accountRemoval]
@[simp] theorem State.accountRemoval_ingest (s : State) (r k : List Entry) (c : Cause) : (s.accountRemoval r k c).ingest = s.ingest := by simp [State.accountRemoval]
@[simp] theorem State.accountRemoval_queue (s : State) (r k : List Entry) (c : Cause) : (s.accountRemoval r k c).queue = s.queue := by simp [State.accountRemoval]
@[simp] theorem State.accountRemoval_gen (s : State) (r k : List Entry) (c : Cause) : (s.accountRemoval r k c).gen = s.gen := by simp [State.accountRemoval]
@[simp] theorem State.accountRemoval_air (s : State) (r k : List Entry) (c : Cause) : (s.accountRemoval r k c).air = s.air := by simp [State.accountRemoval]
@[simp] theorem State.accountRemoval_trim (s : State) (r k : List Entry) (c : Cause) : (s.accountRemoval r k c).trim = s.trim := by simp [State.accountRemoval]
@[simp] theorem State.accountRemoval_console (s : State) (r k : List Entry) (c : Cause) : (s.accountRemoval r k c).console = s.console := by simp [State.accountRemoval]
@[simp] theorem State.accountRemoval_monitor (s : State) (r k : List Entry) (c : Cause) : (s.accountRemoval r k c).monitor = s.monitor := by simp [State.accountRemoval]
@[simp] theorem State.accountRemoval_pending (s : State) (r k : List Entry) (c : Cause) : (s.accountRemoval r k c).pending = s.pending := by simp [State.accountRemoval]

@[simp] theorem State.applyGuard_link (s : State) (q : Seq) : (s.applyGuard q).link = s.link := by
  simp only [State.applyGuard]; (repeat' split) <;> simp
@[simp] theorem State.applyGuard_windows (s : State) (q : Seq) : (s.applyGuard q).windows = s.windows := by
  simp only [State.applyGuard]; (repeat' split) <;> simp
@[simp] theorem State.applyGuard_store (s : State) (q : Seq) : (s.applyGuard q).store = s.store := by
  simp only [State.applyGuard]; (repeat' split) <;> simp
@[simp] theorem State.applyGuard_straps (s : State) (q : Seq) : (s.applyGuard q).straps = s.straps := by
  simp only [State.applyGuard]; (repeat' split) <;> simp
@[simp] theorem State.applyGuard_resetHeld (s : State) (q : Seq) : (s.applyGuard q).resetHeld = s.resetHeld := by
  simp only [State.applyGuard]; (repeat' split) <;> simp
@[simp] theorem State.applyGuard_dram (s : State) (q : Seq) : (s.applyGuard q).dram = s.dram := by
  simp only [State.applyGuard]; (repeat' split) <;> simp
@[simp] theorem State.applyGuard_ingest (s : State) (q : Seq) : (s.applyGuard q).ingest = s.ingest := by
  simp only [State.applyGuard]; (repeat' split) <;> simp
@[simp] theorem State.applyGuard_gen (s : State) (q : Seq) : (s.applyGuard q).gen = s.gen := by
  simp only [State.applyGuard]; (repeat' split) <;> simp
@[simp] theorem State.applyGuard_air (s : State) (q : Seq) : (s.applyGuard q).air = s.air := by
  simp only [State.applyGuard]; (repeat' split) <;> simp
@[simp] theorem State.applyGuard_trim (s : State) (q : Seq) : (s.applyGuard q).trim = s.trim := by
  simp only [State.applyGuard]; (repeat' split) <;> simp
@[simp] theorem State.applyGuard_console (s : State) (q : Seq) : (s.applyGuard q).console = s.console := by
  simp only [State.applyGuard]; (repeat' split) <;> simp
@[simp] theorem State.applyGuard_monitor (s : State) (q : Seq) : (s.applyGuard q).monitor = s.monitor := by
  simp only [State.applyGuard]; (repeat' split) <;> simp
@[simp] theorem State.applyGuard_pending (s : State) (q : Seq) : (s.applyGuard q).pending = s.pending := by
  simp only [State.applyGuard]; (repeat' split) <;> simp

@[simp] theorem State.joinTail_link (s : State) (e : Entry) : (s.joinTail e).link = s.link := by simp [State.joinTail]
@[simp] theorem State.joinTail_windows (s : State) (e : Entry) : (s.joinTail e).windows = s.windows := by simp [State.joinTail]
@[simp] theorem State.joinTail_store (s : State) (e : Entry) : (s.joinTail e).store = s.store := by simp [State.joinTail]
@[simp] theorem State.joinTail_straps (s : State) (e : Entry) : (s.joinTail e).straps = s.straps := by simp [State.joinTail]
@[simp] theorem State.joinTail_resetHeld (s : State) (e : Entry) : (s.joinTail e).resetHeld = s.resetHeld := by simp [State.joinTail]
@[simp] theorem State.joinTail_dram (s : State) (e : Entry) : (s.joinTail e).dram = s.dram := by simp [State.joinTail]
@[simp] theorem State.joinTail_pool (s : State) (e : Entry) : (s.joinTail e).pool = s.pool := by simp [State.joinTail]
@[simp] theorem State.joinTail_ingest (s : State) (e : Entry) : (s.joinTail e).ingest = s.ingest := by simp [State.joinTail]
@[simp] theorem State.joinTail_gen (s : State) (e : Entry) : (s.joinTail e).gen = s.gen := by simp [State.joinTail]
@[simp] theorem State.joinTail_air (s : State) (e : Entry) : (s.joinTail e).air = s.air := by simp [State.joinTail]
@[simp] theorem State.joinTail_trim (s : State) (e : Entry) : (s.joinTail e).trim = s.trim := by simp [State.joinTail]
@[simp] theorem State.joinTail_console (s : State) (e : Entry) : (s.joinTail e).console = s.console := by simp [State.joinTail]
@[simp] theorem State.joinTail_monitor (s : State) (e : Entry) : (s.joinTail e).monitor = s.monitor := by simp [State.joinTail]
@[simp] theorem State.joinTail_readout (s : State) (e : Entry) : (s.joinTail e).readout = s.readout := by simp [State.joinTail]
@[simp] theorem State.joinTail_pending (s : State) (e : Entry) : (s.joinTail e).pending = s.pending := by simp [State.joinTail]

@[simp] theorem State.append_link (s : State) (e : Entry) : (s.append e).link = s.link := by simp [State.append]
@[simp] theorem State.append_windows (s : State) (e : Entry) : (s.append e).windows = s.windows := by simp [State.append]
@[simp] theorem State.append_store (s : State) (e : Entry) : (s.append e).store = s.store := by simp [State.append]
@[simp] theorem State.append_straps (s : State) (e : Entry) : (s.append e).straps = s.straps := by simp [State.append]
@[simp] theorem State.append_resetHeld (s : State) (e : Entry) : (s.append e).resetHeld = s.resetHeld := by simp [State.append]
@[simp] theorem State.append_dram (s : State) (e : Entry) : (s.append e).dram = s.dram := by simp [State.append]
@[simp] theorem State.append_ingest (s : State) (e : Entry) : (s.append e).ingest = s.ingest := by simp [State.append]
@[simp] theorem State.append_gen (s : State) (e : Entry) : (s.append e).gen = s.gen := by simp [State.append]
@[simp] theorem State.append_air (s : State) (e : Entry) : (s.append e).air = s.air := by simp [State.append]
@[simp] theorem State.append_console (s : State) (e : Entry) : (s.append e).console = s.console := by simp [State.append]
@[simp] theorem State.append_monitor (s : State) (e : Entry) : (s.append e).monitor = s.monitor := by simp [State.append]
@[simp] theorem State.append_pending (s : State) (e : Entry) : (s.append e).pending = s.pending := by simp [State.append]

@[simp] theorem State.removeNewest_link (s : State) (k : Nat) : (s.removeNewest k).link = s.link := by
  simp only [State.removeNewest]; (repeat' split) <;> simp
@[simp] theorem State.removeNewest_windows (s : State) (k : Nat) : (s.removeNewest k).windows = s.windows := by
  simp only [State.removeNewest]; (repeat' split) <;> simp
@[simp] theorem State.removeNewest_store (s : State) (k : Nat) : (s.removeNewest k).store = s.store := by
  simp only [State.removeNewest]; (repeat' split) <;> simp
@[simp] theorem State.removeNewest_straps (s : State) (k : Nat) : (s.removeNewest k).straps = s.straps := by
  simp only [State.removeNewest]; (repeat' split) <;> simp
@[simp] theorem State.removeNewest_resetHeld (s : State) (k : Nat) : (s.removeNewest k).resetHeld = s.resetHeld := by
  simp only [State.removeNewest]; (repeat' split) <;> simp
@[simp] theorem State.removeNewest_dram (s : State) (k : Nat) : (s.removeNewest k).dram = s.dram := by
  simp only [State.removeNewest]; (repeat' split) <;> simp
@[simp] theorem State.removeNewest_ingest (s : State) (k : Nat) : (s.removeNewest k).ingest = s.ingest := by
  simp only [State.removeNewest]; (repeat' split) <;> simp
@[simp] theorem State.removeNewest_gen (s : State) (k : Nat) : (s.removeNewest k).gen = s.gen := by
  simp only [State.removeNewest]; (repeat' split) <;> simp
@[simp] theorem State.removeNewest_air (s : State) (k : Nat) : (s.removeNewest k).air = s.air := by
  simp only [State.removeNewest]; (repeat' split) <;> simp
@[simp] theorem State.removeNewest_holds (s : State) (k : Nat) : (s.removeNewest k).holds = s.holds := by
  simp only [State.removeNewest]; (repeat' split) <;> simp
@[simp] theorem State.removeNewest_console (s : State) (k : Nat) : (s.removeNewest k).console = s.console := by
  simp only [State.removeNewest]; (repeat' split) <;> simp
@[simp] theorem State.removeNewest_monitor (s : State) (k : Nat) : (s.removeNewest k).monitor = s.monitor := by
  simp only [State.removeNewest]; (repeat' split) <;> simp
@[simp] theorem State.removeNewest_readout (s : State) (k : Nat) : (s.removeNewest k).readout = s.readout := by
  simp only [State.removeNewest]; (repeat' split) <;> simp
@[simp] theorem State.removeNewest_pending (s : State) (k : Nat) : (s.removeNewest k).pending = s.pending := by
  simp only [State.removeNewest]; (repeat' split) <;> simp

@[simp] theorem State.removeHoldRun_link (s : State) (h : Byte) : (s.removeHoldRun h).link = s.link := by
  simp only [State.removeHoldRun]; (repeat' split) <;> simp
@[simp] theorem State.removeHoldRun_windows (s : State) (h : Byte) : (s.removeHoldRun h).windows = s.windows := by
  simp only [State.removeHoldRun]; (repeat' split) <;> simp
@[simp] theorem State.removeHoldRun_store (s : State) (h : Byte) : (s.removeHoldRun h).store = s.store := by
  simp only [State.removeHoldRun]; (repeat' split) <;> simp
@[simp] theorem State.removeHoldRun_straps (s : State) (h : Byte) : (s.removeHoldRun h).straps = s.straps := by
  simp only [State.removeHoldRun]; (repeat' split) <;> simp
@[simp] theorem State.removeHoldRun_resetHeld (s : State) (h : Byte) : (s.removeHoldRun h).resetHeld = s.resetHeld := by
  simp only [State.removeHoldRun]; (repeat' split) <;> simp
@[simp] theorem State.removeHoldRun_dram (s : State) (h : Byte) : (s.removeHoldRun h).dram = s.dram := by
  simp only [State.removeHoldRun]; (repeat' split) <;> simp
@[simp] theorem State.removeHoldRun_ingest (s : State) (h : Byte) : (s.removeHoldRun h).ingest = s.ingest := by
  simp only [State.removeHoldRun]; (repeat' split) <;> simp
@[simp] theorem State.removeHoldRun_gen (s : State) (h : Byte) : (s.removeHoldRun h).gen = s.gen := by
  simp only [State.removeHoldRun]; (repeat' split) <;> simp
@[simp] theorem State.removeHoldRun_air (s : State) (h : Byte) : (s.removeHoldRun h).air = s.air := by
  simp only [State.removeHoldRun]; (repeat' split) <;> simp
@[simp] theorem State.removeHoldRun_holds (s : State) (h : Byte) : (s.removeHoldRun h).holds = s.holds := by
  simp only [State.removeHoldRun]; (repeat' split) <;> simp
@[simp] theorem State.removeHoldRun_console (s : State) (h : Byte) : (s.removeHoldRun h).console = s.console := by
  simp only [State.removeHoldRun]; (repeat' split) <;> simp
@[simp] theorem State.removeHoldRun_monitor (s : State) (h : Byte) : (s.removeHoldRun h).monitor = s.monitor := by
  simp only [State.removeHoldRun]; (repeat' split) <;> simp
@[simp] theorem State.removeHoldRun_readout (s : State) (h : Byte) : (s.removeHoldRun h).readout = s.readout := by
  simp only [State.removeHoldRun]; (repeat' split) <;> simp
@[simp] theorem State.removeHoldRun_pending (s : State) (h : Byte) : (s.removeHoldRun h).pending = s.pending := by
  simp only [State.removeHoldRun]; (repeat' split) <;> simp

@[simp] theorem State.clearQueue_link (s : State) : (s.clearQueue).link = s.link := by simp [State.clearQueue]
@[simp] theorem State.clearQueue_windows (s : State) : (s.clearQueue).windows = s.windows := by simp [State.clearQueue]
@[simp] theorem State.clearQueue_store (s : State) : (s.clearQueue).store = s.store := by simp [State.clearQueue]
@[simp] theorem State.clearQueue_straps (s : State) : (s.clearQueue).straps = s.straps := by simp [State.clearQueue]
@[simp] theorem State.clearQueue_resetHeld (s : State) : (s.clearQueue).resetHeld = s.resetHeld := by simp [State.clearQueue]
@[simp] theorem State.clearQueue_dram (s : State) : (s.clearQueue).dram = s.dram := by simp [State.clearQueue]
@[simp] theorem State.clearQueue_ingest (s : State) : (s.clearQueue).ingest = s.ingest := by simp [State.clearQueue]
@[simp] theorem State.clearQueue_gen (s : State) : (s.clearQueue).gen = s.gen := by simp [State.clearQueue]
@[simp] theorem State.clearQueue_air (s : State) : (s.clearQueue).air = s.air := by simp [State.clearQueue]
@[simp] theorem State.clearQueue_trim (s : State) : (s.clearQueue).trim = s.trim := by simp [State.clearQueue]
@[simp] theorem State.clearQueue_holds (s : State) : (s.clearQueue).holds = s.holds := by simp [State.clearQueue]
@[simp] theorem State.clearQueue_console (s : State) : (s.clearQueue).console = s.console := by simp [State.clearQueue]
@[simp] theorem State.clearQueue_monitor (s : State) : (s.clearQueue).monitor = s.monitor := by simp [State.clearQueue]
@[simp] theorem State.clearQueue_readout (s : State) : (s.clearQueue).readout = s.readout := by simp [State.clearQueue]
@[simp] theorem State.clearQueue_pending (s : State) : (s.clearQueue).pending = s.pending := by simp [State.clearQueue]

@[simp] theorem State.discardNotice_link (s : State) : (s.discardNotice).link = s.link := by simp [State.discardNotice]
@[simp] theorem State.discardNotice_windows (s : State) : (s.discardNotice).windows = s.windows := by simp [State.discardNotice]
@[simp] theorem State.discardNotice_store (s : State) : (s.discardNotice).store = s.store := by simp [State.discardNotice]
@[simp] theorem State.discardNotice_straps (s : State) : (s.discardNotice).straps = s.straps := by simp [State.discardNotice]
@[simp] theorem State.discardNotice_resetHeld (s : State) : (s.discardNotice).resetHeld = s.resetHeld := by simp [State.discardNotice]
@[simp] theorem State.discardNotice_dram (s : State) : (s.discardNotice).dram = s.dram := by simp [State.discardNotice]
@[simp] theorem State.discardNotice_pool (s : State) : (s.discardNotice).pool = s.pool := by simp [State.discardNotice]
@[simp] theorem State.discardNotice_queue (s : State) : (s.discardNotice).queue = s.queue := by simp [State.discardNotice]
@[simp] theorem State.discardNotice_gen (s : State) : (s.discardNotice).gen = s.gen := by simp [State.discardNotice]
@[simp] theorem State.discardNotice_air (s : State) : (s.discardNotice).air = s.air := by simp [State.discardNotice]
@[simp] theorem State.discardNotice_trim (s : State) : (s.discardNotice).trim = s.trim := by simp [State.discardNotice]
@[simp] theorem State.discardNotice_holds (s : State) : (s.discardNotice).holds = s.holds := by simp [State.discardNotice]
@[simp] theorem State.discardNotice_console (s : State) : (s.discardNotice).console = s.console := by simp [State.discardNotice]
@[simp] theorem State.discardNotice_monitor (s : State) : (s.discardNotice).monitor = s.monitor := by simp [State.discardNotice]
@[simp] theorem State.discardNotice_readout (s : State) : (s.discardNotice).readout = s.readout := by simp [State.discardNotice]
@[simp] theorem State.discardNotice_pending (s : State) : (s.discardNotice).pending = s.pending := by simp [State.discardNotice]

@[simp] theorem State.discardIf_link (s : State) (c : Bool) : (s.discardIf c).link = s.link := by
  simp only [State.discardIf]; (repeat' split) <;> simp
@[simp] theorem State.discardIf_windows (s : State) (c : Bool) : (s.discardIf c).windows = s.windows := by
  simp only [State.discardIf]; (repeat' split) <;> simp
@[simp] theorem State.discardIf_store (s : State) (c : Bool) : (s.discardIf c).store = s.store := by
  simp only [State.discardIf]; (repeat' split) <;> simp
@[simp] theorem State.discardIf_straps (s : State) (c : Bool) : (s.discardIf c).straps = s.straps := by
  simp only [State.discardIf]; (repeat' split) <;> simp
@[simp] theorem State.discardIf_resetHeld (s : State) (c : Bool) : (s.discardIf c).resetHeld = s.resetHeld := by
  simp only [State.discardIf]; (repeat' split) <;> simp
@[simp] theorem State.discardIf_dram (s : State) (c : Bool) : (s.discardIf c).dram = s.dram := by
  simp only [State.discardIf]; (repeat' split) <;> simp
@[simp] theorem State.discardIf_pool (s : State) (c : Bool) : (s.discardIf c).pool = s.pool := by
  simp only [State.discardIf]; (repeat' split) <;> simp
@[simp] theorem State.discardIf_queue (s : State) (c : Bool) : (s.discardIf c).queue = s.queue := by
  simp only [State.discardIf]; (repeat' split) <;> simp
@[simp] theorem State.discardIf_gen (s : State) (c : Bool) : (s.discardIf c).gen = s.gen := by
  simp only [State.discardIf]; (repeat' split) <;> simp
@[simp] theorem State.discardIf_air (s : State) (c : Bool) : (s.discardIf c).air = s.air := by
  simp only [State.discardIf]; (repeat' split) <;> simp
@[simp] theorem State.discardIf_trim (s : State) (c : Bool) : (s.discardIf c).trim = s.trim := by
  simp only [State.discardIf]; (repeat' split) <;> simp
@[simp] theorem State.discardIf_holds (s : State) (c : Bool) : (s.discardIf c).holds = s.holds := by
  simp only [State.discardIf]; (repeat' split) <;> simp
@[simp] theorem State.discardIf_console (s : State) (c : Bool) : (s.discardIf c).console = s.console := by
  simp only [State.discardIf]; (repeat' split) <;> simp
@[simp] theorem State.discardIf_monitor (s : State) (c : Bool) : (s.discardIf c).monitor = s.monitor := by
  simp only [State.discardIf]; (repeat' split) <;> simp
@[simp] theorem State.discardIf_readout (s : State) (c : Bool) : (s.discardIf c).readout = s.readout := by
  simp only [State.discardIf]; (repeat' split) <;> simp
@[simp] theorem State.discardIf_pending (s : State) (c : Bool) : (s.discardIf c).pending = s.pending := by
  simp only [State.discardIf]; (repeat' split) <;> simp

@[simp] theorem State.dumpNewest_link (s : State) (c : Cause) : (s.dumpNewest c).link = s.link := by simp [State.dumpNewest]
@[simp] theorem State.dumpNewest_windows (s : State) (c : Cause) : (s.dumpNewest c).windows = s.windows := by simp [State.dumpNewest]
@[simp] theorem State.dumpNewest_store (s : State) (c : Cause) : (s.dumpNewest c).store = s.store := by simp [State.dumpNewest]
@[simp] theorem State.dumpNewest_straps (s : State) (c : Cause) : (s.dumpNewest c).straps = s.straps := by simp [State.dumpNewest]
@[simp] theorem State.dumpNewest_resetHeld (s : State) (c : Cause) : (s.dumpNewest c).resetHeld = s.resetHeld := by simp [State.dumpNewest]
@[simp] theorem State.dumpNewest_dram (s : State) (c : Cause) : (s.dumpNewest c).dram = s.dram := by simp [State.dumpNewest]
@[simp] theorem State.dumpNewest_gen (s : State) (c : Cause) : (s.dumpNewest c).gen = s.gen := by simp [State.dumpNewest]
@[simp] theorem State.dumpNewest_air (s : State) (c : Cause) : (s.dumpNewest c).air = s.air := by simp [State.dumpNewest]
@[simp] theorem State.dumpNewest_console (s : State) (c : Cause) : (s.dumpNewest c).console = s.console := by simp [State.dumpNewest]
@[simp] theorem State.dumpNewest_monitor (s : State) (c : Cause) : (s.dumpNewest c).monitor = s.monitor := by simp [State.dumpNewest]
@[simp] theorem State.dumpNewest_pending (s : State) (c : Cause) : (s.dumpNewest c).pending = s.pending := by simp [State.dumpNewest]

@[simp] theorem State.openNewHold_link (s : State) : (s.openNewHold).link = s.link := by simp [State.openNewHold]
@[simp] theorem State.openNewHold_windows (s : State) : (s.openNewHold).windows = s.windows := by simp [State.openNewHold]
@[simp] theorem State.openNewHold_store (s : State) : (s.openNewHold).store = s.store := by simp [State.openNewHold]
@[simp] theorem State.openNewHold_straps (s : State) : (s.openNewHold).straps = s.straps := by simp [State.openNewHold]
@[simp] theorem State.openNewHold_resetHeld (s : State) : (s.openNewHold).resetHeld = s.resetHeld := by simp [State.openNewHold]
@[simp] theorem State.openNewHold_dram (s : State) : (s.openNewHold).dram = s.dram := by simp [State.openNewHold]
@[simp] theorem State.openNewHold_pool (s : State) : (s.openNewHold).pool = s.pool := by simp [State.openNewHold]
@[simp] theorem State.openNewHold_ingest (s : State) : (s.openNewHold).ingest = s.ingest := by simp [State.openNewHold]
@[simp] theorem State.openNewHold_queue (s : State) : (s.openNewHold).queue = s.queue := by simp [State.openNewHold]
@[simp] theorem State.openNewHold_gen (s : State) : (s.openNewHold).gen = s.gen := by simp [State.openNewHold]
@[simp] theorem State.openNewHold_air (s : State) : (s.openNewHold).air = s.air := by simp [State.openNewHold]
@[simp] theorem State.openNewHold_trim (s : State) : (s.openNewHold).trim = s.trim := by simp [State.openNewHold]
@[simp] theorem State.openNewHold_console (s : State) : (s.openNewHold).console = s.console := by simp [State.openNewHold]
@[simp] theorem State.openNewHold_monitor (s : State) : (s.openNewHold).monitor = s.monitor := by simp [State.openNewHold]
@[simp] theorem State.openNewHold_readout (s : State) : (s.openNewHold).readout = s.readout := by simp [State.openNewHold]
@[simp] theorem State.openNewHold_pending (s : State) : (s.openNewHold).pending = s.pending := by simp [State.openNewHold]

@[simp] theorem State.dropHold_link (s : State) (h : Byte) : (s.dropHold h).link = s.link := by simp [State.dropHold]
@[simp] theorem State.dropHold_windows (s : State) (h : Byte) : (s.dropHold h).windows = s.windows := by simp [State.dropHold]
@[simp] theorem State.dropHold_store (s : State) (h : Byte) : (s.dropHold h).store = s.store := by simp [State.dropHold]
@[simp] theorem State.dropHold_straps (s : State) (h : Byte) : (s.dropHold h).straps = s.straps := by simp [State.dropHold]
@[simp] theorem State.dropHold_resetHeld (s : State) (h : Byte) : (s.dropHold h).resetHeld = s.resetHeld := by simp [State.dropHold]
@[simp] theorem State.dropHold_dram (s : State) (h : Byte) : (s.dropHold h).dram = s.dram := by simp [State.dropHold]
@[simp] theorem State.dropHold_pool (s : State) (h : Byte) : (s.dropHold h).pool = s.pool := by simp [State.dropHold]
@[simp] theorem State.dropHold_ingest (s : State) (h : Byte) : (s.dropHold h).ingest = s.ingest := by simp [State.dropHold]
@[simp] theorem State.dropHold_queue (s : State) (h : Byte) : (s.dropHold h).queue = s.queue := by simp [State.dropHold]
@[simp] theorem State.dropHold_gen (s : State) (h : Byte) : (s.dropHold h).gen = s.gen := by simp [State.dropHold]
@[simp] theorem State.dropHold_air (s : State) (h : Byte) : (s.dropHold h).air = s.air := by simp [State.dropHold]
@[simp] theorem State.dropHold_trim (s : State) (h : Byte) : (s.dropHold h).trim = s.trim := by simp [State.dropHold]
@[simp] theorem State.dropHold_console (s : State) (h : Byte) : (s.dropHold h).console = s.console := by simp [State.dropHold]
@[simp] theorem State.dropHold_monitor (s : State) (h : Byte) : (s.dropHold h).monitor = s.monitor := by simp [State.dropHold]
@[simp] theorem State.dropHold_readout (s : State) (h : Byte) : (s.dropHold h).readout = s.readout := by simp [State.dropHold]
@[simp] theorem State.dropHold_pending (s : State) (h : Byte) : (s.dropHold h).pending = s.pending := by simp [State.dropHold]

@[simp] theorem State.addDumpTotal_link (s : State) (n : Nat) : (s.addDumpTotal n).link = s.link := by simp [State.addDumpTotal]
@[simp] theorem State.addDumpTotal_windows (s : State) (n : Nat) : (s.addDumpTotal n).windows = s.windows := by simp [State.addDumpTotal]
@[simp] theorem State.addDumpTotal_store (s : State) (n : Nat) : (s.addDumpTotal n).store = s.store := by simp [State.addDumpTotal]
@[simp] theorem State.addDumpTotal_straps (s : State) (n : Nat) : (s.addDumpTotal n).straps = s.straps := by simp [State.addDumpTotal]
@[simp] theorem State.addDumpTotal_resetHeld (s : State) (n : Nat) : (s.addDumpTotal n).resetHeld = s.resetHeld := by simp [State.addDumpTotal]
@[simp] theorem State.addDumpTotal_dram (s : State) (n : Nat) : (s.addDumpTotal n).dram = s.dram := by simp [State.addDumpTotal]
@[simp] theorem State.addDumpTotal_pool (s : State) (n : Nat) : (s.addDumpTotal n).pool = s.pool := by simp [State.addDumpTotal]
@[simp] theorem State.addDumpTotal_ingest (s : State) (n : Nat) : (s.addDumpTotal n).ingest = s.ingest := by simp [State.addDumpTotal]
@[simp] theorem State.addDumpTotal_queue (s : State) (n : Nat) : (s.addDumpTotal n).queue = s.queue := by simp [State.addDumpTotal]
@[simp] theorem State.addDumpTotal_gen (s : State) (n : Nat) : (s.addDumpTotal n).gen = s.gen := by simp [State.addDumpTotal]
@[simp] theorem State.addDumpTotal_air (s : State) (n : Nat) : (s.addDumpTotal n).air = s.air := by simp [State.addDumpTotal]
@[simp] theorem State.addDumpTotal_trim (s : State) (n : Nat) : (s.addDumpTotal n).trim = s.trim := by simp [State.addDumpTotal]
@[simp] theorem State.addDumpTotal_console (s : State) (n : Nat) : (s.addDumpTotal n).console = s.console := by simp [State.addDumpTotal]
@[simp] theorem State.addDumpTotal_monitor (s : State) (n : Nat) : (s.addDumpTotal n).monitor = s.monitor := by simp [State.addDumpTotal]
@[simp] theorem State.addDumpTotal_readout (s : State) (n : Nat) : (s.addDumpTotal n).readout = s.readout := by simp [State.addDumpTotal]
@[simp] theorem State.addDumpTotal_pending (s : State) (n : Nat) : (s.addDumpTotal n).pending = s.pending := by simp [State.addDumpTotal]

@[simp] theorem State.closeHold_link (s : State) (r : HoldRecord) (c : Cause) : (s.closeHold r c).link = s.link := by
  simp only [State.closeHold]; (repeat' split) <;> simp
@[simp] theorem State.closeHold_windows (s : State) (r : HoldRecord) (c : Cause) : (s.closeHold r c).windows = s.windows := by
  simp only [State.closeHold]; (repeat' split) <;> simp
@[simp] theorem State.closeHold_store (s : State) (r : HoldRecord) (c : Cause) : (s.closeHold r c).store = s.store := by
  simp only [State.closeHold]; (repeat' split) <;> simp
@[simp] theorem State.closeHold_straps (s : State) (r : HoldRecord) (c : Cause) : (s.closeHold r c).straps = s.straps := by
  simp only [State.closeHold]; (repeat' split) <;> simp
@[simp] theorem State.closeHold_resetHeld (s : State) (r : HoldRecord) (c : Cause) : (s.closeHold r c).resetHeld = s.resetHeld := by
  simp only [State.closeHold]; (repeat' split) <;> simp
@[simp] theorem State.closeHold_dram (s : State) (r : HoldRecord) (c : Cause) : (s.closeHold r c).dram = s.dram := by
  simp only [State.closeHold]; (repeat' split) <;> simp
@[simp] theorem State.closeHold_pool (s : State) (r : HoldRecord) (c : Cause) : (s.closeHold r c).pool = s.pool := by
  simp only [State.closeHold]; (repeat' split) <;> simp
@[simp] theorem State.closeHold_ingest (s : State) (r : HoldRecord) (c : Cause) : (s.closeHold r c).ingest = s.ingest := by
  simp only [State.closeHold]; (repeat' split) <;> simp
@[simp] theorem State.closeHold_queue (s : State) (r : HoldRecord) (c : Cause) : (s.closeHold r c).queue = s.queue := by
  simp only [State.closeHold]; (repeat' split) <;> simp
@[simp] theorem State.closeHold_gen (s : State) (r : HoldRecord) (c : Cause) : (s.closeHold r c).gen = s.gen := by
  simp only [State.closeHold]; (repeat' split) <;> simp
@[simp] theorem State.closeHold_air (s : State) (r : HoldRecord) (c : Cause) : (s.closeHold r c).air = s.air := by
  simp only [State.closeHold]; (repeat' split) <;> simp
@[simp] theorem State.closeHold_trim (s : State) (r : HoldRecord) (c : Cause) : (s.closeHold r c).trim = s.trim := by
  simp only [State.closeHold]; (repeat' split) <;> simp
@[simp] theorem State.closeHold_console (s : State) (r : HoldRecord) (c : Cause) : (s.closeHold r c).console = s.console := by
  simp only [State.closeHold]; (repeat' split) <;> simp
@[simp] theorem State.closeHold_monitor (s : State) (r : HoldRecord) (c : Cause) : (s.closeHold r c).monitor = s.monitor := by
  simp only [State.closeHold]; (repeat' split) <;> simp
@[simp] theorem State.closeHold_pending (s : State) (r : HoldRecord) (c : Cause) : (s.closeHold r c).pending = s.pending := by
  simp only [State.closeHold]; (repeat' split) <;> simp

@[simp] theorem State.releaseHold_link (s : State) (r : HoldRecord) (c : Cause) : (s.releaseHold r c).link = s.link := by simp [State.releaseHold]
@[simp] theorem State.releaseHold_windows (s : State) (r : HoldRecord) (c : Cause) : (s.releaseHold r c).windows = s.windows := by simp [State.releaseHold]
@[simp] theorem State.releaseHold_store (s : State) (r : HoldRecord) (c : Cause) : (s.releaseHold r c).store = s.store := by simp [State.releaseHold]
@[simp] theorem State.releaseHold_straps (s : State) (r : HoldRecord) (c : Cause) : (s.releaseHold r c).straps = s.straps := by simp [State.releaseHold]
@[simp] theorem State.releaseHold_resetHeld (s : State) (r : HoldRecord) (c : Cause) : (s.releaseHold r c).resetHeld = s.resetHeld := by simp [State.releaseHold]
@[simp] theorem State.releaseHold_dram (s : State) (r : HoldRecord) (c : Cause) : (s.releaseHold r c).dram = s.dram := by simp [State.releaseHold]
@[simp] theorem State.releaseHold_pool (s : State) (r : HoldRecord) (c : Cause) : (s.releaseHold r c).pool = s.pool := by simp [State.releaseHold]
@[simp] theorem State.releaseHold_ingest (s : State) (r : HoldRecord) (c : Cause) : (s.releaseHold r c).ingest = s.ingest := by simp [State.releaseHold]
@[simp] theorem State.releaseHold_gen (s : State) (r : HoldRecord) (c : Cause) : (s.releaseHold r c).gen = s.gen := by simp [State.releaseHold]
@[simp] theorem State.releaseHold_air (s : State) (r : HoldRecord) (c : Cause) : (s.releaseHold r c).air = s.air := by simp [State.releaseHold]
@[simp] theorem State.releaseHold_trim (s : State) (r : HoldRecord) (c : Cause) : (s.releaseHold r c).trim = s.trim := by simp [State.releaseHold]
@[simp] theorem State.releaseHold_console (s : State) (r : HoldRecord) (c : Cause) : (s.releaseHold r c).console = s.console := by simp [State.releaseHold]
@[simp] theorem State.releaseHold_monitor (s : State) (r : HoldRecord) (c : Cause) : (s.releaseHold r c).monitor = s.monitor := by simp [State.releaseHold]
@[simp] theorem State.releaseHold_pending (s : State) (r : HoldRecord) (c : Cause) : (s.releaseHold r c).pending = s.pending := by simp [State.releaseHold]

@[simp] theorem State.dumpHold_link (s : State) (r : HoldRecord) (c : Cause) : (s.dumpHold r c).link = s.link := by simp [State.dumpHold]
@[simp] theorem State.dumpHold_windows (s : State) (r : HoldRecord) (c : Cause) : (s.dumpHold r c).windows = s.windows := by simp [State.dumpHold]
@[simp] theorem State.dumpHold_store (s : State) (r : HoldRecord) (c : Cause) : (s.dumpHold r c).store = s.store := by simp [State.dumpHold]
@[simp] theorem State.dumpHold_straps (s : State) (r : HoldRecord) (c : Cause) : (s.dumpHold r c).straps = s.straps := by simp [State.dumpHold]
@[simp] theorem State.dumpHold_resetHeld (s : State) (r : HoldRecord) (c : Cause) : (s.dumpHold r c).resetHeld = s.resetHeld := by simp [State.dumpHold]
@[simp] theorem State.dumpHold_dram (s : State) (r : HoldRecord) (c : Cause) : (s.dumpHold r c).dram = s.dram := by simp [State.dumpHold]
@[simp] theorem State.dumpHold_gen (s : State) (r : HoldRecord) (c : Cause) : (s.dumpHold r c).gen = s.gen := by simp [State.dumpHold]
@[simp] theorem State.dumpHold_air (s : State) (r : HoldRecord) (c : Cause) : (s.dumpHold r c).air = s.air := by simp [State.dumpHold]
@[simp] theorem State.dumpHold_console (s : State) (r : HoldRecord) (c : Cause) : (s.dumpHold r c).console = s.console := by simp [State.dumpHold]
@[simp] theorem State.dumpHold_monitor (s : State) (r : HoldRecord) (c : Cause) : (s.dumpHold r c).monitor = s.monitor := by simp [State.dumpHold]
@[simp] theorem State.dumpHold_pending (s : State) (r : HoldRecord) (c : Cause) : (s.dumpHold r c).pending = s.pending := by simp [State.dumpHold]

@[simp] theorem State.expireStall_link (s : State) (r : HoldRecord) : (s.expireStall r).link = s.link := by
  simp only [State.expireStall]; (repeat' split) <;> simp
@[simp] theorem State.expireStall_windows (s : State) (r : HoldRecord) : (s.expireStall r).windows = s.windows := by
  simp only [State.expireStall]; (repeat' split) <;> simp
@[simp] theorem State.expireStall_store (s : State) (r : HoldRecord) : (s.expireStall r).store = s.store := by
  simp only [State.expireStall]; (repeat' split) <;> simp
@[simp] theorem State.expireStall_straps (s : State) (r : HoldRecord) : (s.expireStall r).straps = s.straps := by
  simp only [State.expireStall]; (repeat' split) <;> simp
@[simp] theorem State.expireStall_resetHeld (s : State) (r : HoldRecord) : (s.expireStall r).resetHeld = s.resetHeld := by
  simp only [State.expireStall]; (repeat' split) <;> simp
@[simp] theorem State.expireStall_dram (s : State) (r : HoldRecord) : (s.expireStall r).dram = s.dram := by
  simp only [State.expireStall]; (repeat' split) <;> simp
@[simp] theorem State.expireStall_gen (s : State) (r : HoldRecord) : (s.expireStall r).gen = s.gen := by
  simp only [State.expireStall]; (repeat' split) <;> simp
@[simp] theorem State.expireStall_air (s : State) (r : HoldRecord) : (s.expireStall r).air = s.air := by
  simp only [State.expireStall]; (repeat' split) <;> simp
@[simp] theorem State.expireStall_console (s : State) (r : HoldRecord) : (s.expireStall r).console = s.console := by
  simp only [State.expireStall]; (repeat' split) <;> simp
@[simp] theorem State.expireStall_monitor (s : State) (r : HoldRecord) : (s.expireStall r).monitor = s.monitor := by
  simp only [State.expireStall]; (repeat' split) <;> simp
@[simp] theorem State.expireStall_pending (s : State) (r : HoldRecord) : (s.expireStall r).pending = s.pending := by
  simp only [State.expireStall]; (repeat' split) <;> simp

@[simp] theorem State.stallPolicyStep_link (s : State) : (s.stallPolicyStep).link = s.link := by
  simp only [State.stallPolicyStep]; (repeat' split) <;> simp
@[simp] theorem State.stallPolicyStep_windows (s : State) : (s.stallPolicyStep).windows = s.windows := by
  simp only [State.stallPolicyStep]; (repeat' split) <;> simp
@[simp] theorem State.stallPolicyStep_store (s : State) : (s.stallPolicyStep).store = s.store := by
  simp only [State.stallPolicyStep]; (repeat' split) <;> simp
@[simp] theorem State.stallPolicyStep_straps (s : State) : (s.stallPolicyStep).straps = s.straps := by
  simp only [State.stallPolicyStep]; (repeat' split) <;> simp
@[simp] theorem State.stallPolicyStep_resetHeld (s : State) : (s.stallPolicyStep).resetHeld = s.resetHeld := by
  simp only [State.stallPolicyStep]; (repeat' split) <;> simp
@[simp] theorem State.stallPolicyStep_dram (s : State) : (s.stallPolicyStep).dram = s.dram := by
  simp only [State.stallPolicyStep]; (repeat' split) <;> simp
@[simp] theorem State.stallPolicyStep_gen (s : State) : (s.stallPolicyStep).gen = s.gen := by
  simp only [State.stallPolicyStep]; (repeat' split) <;> simp
@[simp] theorem State.stallPolicyStep_air (s : State) : (s.stallPolicyStep).air = s.air := by
  simp only [State.stallPolicyStep]; (repeat' split) <;> simp
@[simp] theorem State.stallPolicyStep_console (s : State) : (s.stallPolicyStep).console = s.console := by
  simp only [State.stallPolicyStep]; (repeat' split) <;> simp
@[simp] theorem State.stallPolicyStep_monitor (s : State) : (s.stallPolicyStep).monitor = s.monitor := by
  simp only [State.stallPolicyStep]; (repeat' split) <;> simp
@[simp] theorem State.stallPolicyStep_pending (s : State) : (s.stallPolicyStep).pending = s.pending := by
  simp only [State.stallPolicyStep]; (repeat' split) <;> simp

end Sys2Proof.Machine
end

