-- ==== Sys2Proof/Laws/AirFrames.lean ====
section
/-! SUPPORT. Frames: what the ingest and air operations leave unchanged, one lemma per operation and block. -/

namespace Sys2Proof.Machine

open Sys2Proof

@[simp] theorem State.setSlot_link (s : State) (k : Fin 4) (sl : IngestSlot) : (s.setSlot k sl).link = s.link := by simp [State.setSlot]
@[simp] theorem State.setSlot_windows (s : State) (k : Fin 4) (sl : IngestSlot) : (s.setSlot k sl).windows = s.windows := by simp [State.setSlot]
@[simp] theorem State.setSlot_store (s : State) (k : Fin 4) (sl : IngestSlot) : (s.setSlot k sl).store = s.store := by simp [State.setSlot]
@[simp] theorem State.setSlot_straps (s : State) (k : Fin 4) (sl : IngestSlot) : (s.setSlot k sl).straps = s.straps := by simp [State.setSlot]
@[simp] theorem State.setSlot_resetHeld (s : State) (k : Fin 4) (sl : IngestSlot) : (s.setSlot k sl).resetHeld = s.resetHeld := by simp [State.setSlot]
@[simp] theorem State.setSlot_dram (s : State) (k : Fin 4) (sl : IngestSlot) : (s.setSlot k sl).dram = s.dram := by simp [State.setSlot]
@[simp] theorem State.setSlot_pool (s : State) (k : Fin 4) (sl : IngestSlot) : (s.setSlot k sl).pool = s.pool := by simp [State.setSlot]
@[simp] theorem State.setSlot_queue (s : State) (k : Fin 4) (sl : IngestSlot) : (s.setSlot k sl).queue = s.queue := by simp [State.setSlot]
@[simp] theorem State.setSlot_gen (s : State) (k : Fin 4) (sl : IngestSlot) : (s.setSlot k sl).gen = s.gen := by simp [State.setSlot]
@[simp] theorem State.setSlot_air (s : State) (k : Fin 4) (sl : IngestSlot) : (s.setSlot k sl).air = s.air := by simp [State.setSlot]
@[simp] theorem State.setSlot_trim (s : State) (k : Fin 4) (sl : IngestSlot) : (s.setSlot k sl).trim = s.trim := by simp [State.setSlot]
@[simp] theorem State.setSlot_holds (s : State) (k : Fin 4) (sl : IngestSlot) : (s.setSlot k sl).holds = s.holds := by simp [State.setSlot]
@[simp] theorem State.setSlot_console (s : State) (k : Fin 4) (sl : IngestSlot) : (s.setSlot k sl).console = s.console := by simp [State.setSlot]
@[simp] theorem State.setSlot_monitor (s : State) (k : Fin 4) (sl : IngestSlot) : (s.setSlot k sl).monitor = s.monitor := by simp [State.setSlot]
@[simp] theorem State.setSlot_readout (s : State) (k : Fin 4) (sl : IngestSlot) : (s.setSlot k sl).readout = s.readout := by simp [State.setSlot]
@[simp] theorem State.setSlot_pending (s : State) (k : Fin 4) (sl : IngestSlot) : (s.setSlot k sl).pending = s.pending := by simp [State.setSlot]

@[simp] theorem State.freeBlock_link (s : State) (i : Nat) : (s.freeBlock i).link = s.link := by simp [State.freeBlock]
@[simp] theorem State.freeBlock_windows (s : State) (i : Nat) : (s.freeBlock i).windows = s.windows := by simp [State.freeBlock]
@[simp] theorem State.freeBlock_store (s : State) (i : Nat) : (s.freeBlock i).store = s.store := by simp [State.freeBlock]
@[simp] theorem State.freeBlock_straps (s : State) (i : Nat) : (s.freeBlock i).straps = s.straps := by simp [State.freeBlock]
@[simp] theorem State.freeBlock_resetHeld (s : State) (i : Nat) : (s.freeBlock i).resetHeld = s.resetHeld := by simp [State.freeBlock]
@[simp] theorem State.freeBlock_dram (s : State) (i : Nat) : (s.freeBlock i).dram = s.dram := by simp [State.freeBlock]
@[simp] theorem State.freeBlock_ingest (s : State) (i : Nat) : (s.freeBlock i).ingest = s.ingest := by simp [State.freeBlock]
@[simp] theorem State.freeBlock_queue (s : State) (i : Nat) : (s.freeBlock i).queue = s.queue := by simp [State.freeBlock]
@[simp] theorem State.freeBlock_gen (s : State) (i : Nat) : (s.freeBlock i).gen = s.gen := by simp [State.freeBlock]
@[simp] theorem State.freeBlock_air (s : State) (i : Nat) : (s.freeBlock i).air = s.air := by simp [State.freeBlock]
@[simp] theorem State.freeBlock_trim (s : State) (i : Nat) : (s.freeBlock i).trim = s.trim := by simp [State.freeBlock]
@[simp] theorem State.freeBlock_holds (s : State) (i : Nat) : (s.freeBlock i).holds = s.holds := by simp [State.freeBlock]
@[simp] theorem State.freeBlock_console (s : State) (i : Nat) : (s.freeBlock i).console = s.console := by simp [State.freeBlock]
@[simp] theorem State.freeBlock_monitor (s : State) (i : Nat) : (s.freeBlock i).monitor = s.monitor := by simp [State.freeBlock]
@[simp] theorem State.freeBlock_readout (s : State) (i : Nat) : (s.freeBlock i).readout = s.readout := by simp [State.freeBlock]
@[simp] theorem State.freeBlock_pending (s : State) (i : Nat) : (s.freeBlock i).pending = s.pending := by simp [State.freeBlock]

@[simp] theorem State.writeBlockLine_link (s : State) (i j : Nat) (l : Line) : (s.writeBlockLine i j l).link = s.link := by simp [State.writeBlockLine]
@[simp] theorem State.writeBlockLine_windows (s : State) (i j : Nat) (l : Line) : (s.writeBlockLine i j l).windows = s.windows := by simp [State.writeBlockLine]
@[simp] theorem State.writeBlockLine_store (s : State) (i j : Nat) (l : Line) : (s.writeBlockLine i j l).store = s.store := by simp [State.writeBlockLine]
@[simp] theorem State.writeBlockLine_straps (s : State) (i j : Nat) (l : Line) : (s.writeBlockLine i j l).straps = s.straps := by simp [State.writeBlockLine]
@[simp] theorem State.writeBlockLine_resetHeld (s : State) (i j : Nat) (l : Line) : (s.writeBlockLine i j l).resetHeld = s.resetHeld := by simp [State.writeBlockLine]
@[simp] theorem State.writeBlockLine_pool (s : State) (i j : Nat) (l : Line) : (s.writeBlockLine i j l).pool = s.pool := by simp [State.writeBlockLine]
@[simp] theorem State.writeBlockLine_ingest (s : State) (i j : Nat) (l : Line) : (s.writeBlockLine i j l).ingest = s.ingest := by simp [State.writeBlockLine]
@[simp] theorem State.writeBlockLine_queue (s : State) (i j : Nat) (l : Line) : (s.writeBlockLine i j l).queue = s.queue := by simp [State.writeBlockLine]
@[simp] theorem State.writeBlockLine_gen (s : State) (i j : Nat) (l : Line) : (s.writeBlockLine i j l).gen = s.gen := by simp [State.writeBlockLine]
@[simp] theorem State.writeBlockLine_air (s : State) (i j : Nat) (l : Line) : (s.writeBlockLine i j l).air = s.air := by simp [State.writeBlockLine]
@[simp] theorem State.writeBlockLine_trim (s : State) (i j : Nat) (l : Line) : (s.writeBlockLine i j l).trim = s.trim := by simp [State.writeBlockLine]
@[simp] theorem State.writeBlockLine_holds (s : State) (i j : Nat) (l : Line) : (s.writeBlockLine i j l).holds = s.holds := by simp [State.writeBlockLine]
@[simp] theorem State.writeBlockLine_console (s : State) (i j : Nat) (l : Line) : (s.writeBlockLine i j l).console = s.console := by simp [State.writeBlockLine]
@[simp] theorem State.writeBlockLine_monitor (s : State) (i j : Nat) (l : Line) : (s.writeBlockLine i j l).monitor = s.monitor := by simp [State.writeBlockLine]
@[simp] theorem State.writeBlockLine_readout (s : State) (i j : Nat) (l : Line) : (s.writeBlockLine i j l).readout = s.readout := by simp [State.writeBlockLine]
@[simp] theorem State.writeBlockLine_pending (s : State) (i j : Nat) (l : Line) : (s.writeBlockLine i j l).pending = s.pending := by simp [State.writeBlockLine]

@[simp] theorem State.payloadLine_link (s : State) (k : Fin 4) (j : Nat) (l : Line) : (s.payloadLine k j l).link = s.link := by
  simp only [State.payloadLine]; (repeat' split) <;> simp
@[simp] theorem State.payloadLine_windows (s : State) (k : Fin 4) (j : Nat) (l : Line) : (s.payloadLine k j l).windows = s.windows := by
  simp only [State.payloadLine]; (repeat' split) <;> simp
@[simp] theorem State.payloadLine_store (s : State) (k : Fin 4) (j : Nat) (l : Line) : (s.payloadLine k j l).store = s.store := by
  simp only [State.payloadLine]; (repeat' split) <;> simp
@[simp] theorem State.payloadLine_straps (s : State) (k : Fin 4) (j : Nat) (l : Line) : (s.payloadLine k j l).straps = s.straps := by
  simp only [State.payloadLine]; (repeat' split) <;> simp
@[simp] theorem State.payloadLine_resetHeld (s : State) (k : Fin 4) (j : Nat) (l : Line) : (s.payloadLine k j l).resetHeld = s.resetHeld := by
  simp only [State.payloadLine]; (repeat' split) <;> simp
@[simp] theorem State.payloadLine_queue (s : State) (k : Fin 4) (j : Nat) (l : Line) : (s.payloadLine k j l).queue = s.queue := by
  simp only [State.payloadLine]; (repeat' split) <;> simp
@[simp] theorem State.payloadLine_gen (s : State) (k : Fin 4) (j : Nat) (l : Line) : (s.payloadLine k j l).gen = s.gen := by
  simp only [State.payloadLine]; (repeat' split) <;> simp
@[simp] theorem State.payloadLine_air (s : State) (k : Fin 4) (j : Nat) (l : Line) : (s.payloadLine k j l).air = s.air := by
  simp only [State.payloadLine]; (repeat' split) <;> simp
@[simp] theorem State.payloadLine_trim (s : State) (k : Fin 4) (j : Nat) (l : Line) : (s.payloadLine k j l).trim = s.trim := by
  simp only [State.payloadLine]; (repeat' split) <;> simp
@[simp] theorem State.payloadLine_holds (s : State) (k : Fin 4) (j : Nat) (l : Line) : (s.payloadLine k j l).holds = s.holds := by
  simp only [State.payloadLine]; (repeat' split) <;> simp
@[simp] theorem State.payloadLine_console (s : State) (k : Fin 4) (j : Nat) (l : Line) : (s.payloadLine k j l).console = s.console := by
  simp only [State.payloadLine]; (repeat' split) <;> simp
@[simp] theorem State.payloadLine_monitor (s : State) (k : Fin 4) (j : Nat) (l : Line) : (s.payloadLine k j l).monitor = s.monitor := by
  simp only [State.payloadLine]; (repeat' split) <;> simp
@[simp] theorem State.payloadLine_readout (s : State) (k : Fin 4) (j : Nat) (l : Line) : (s.payloadLine k j l).readout = s.readout := by
  simp only [State.payloadLine]; (repeat' split) <;> simp
@[simp] theorem State.payloadLine_pending (s : State) (k : Fin 4) (j : Nat) (l : Line) : (s.payloadLine k j l).pending = s.pending := by
  simp only [State.payloadLine]; (repeat' split) <;> simp

@[simp] theorem State.commitFrame_link (s : State) (k : Fin 4) (b : Nat) (w : List Nat) (l : Line) (g : Byte) : (s.commitFrame k b w l g).link = s.link := by simp [State.commitFrame]
@[simp] theorem State.commitFrame_windows (s : State) (k : Fin 4) (b : Nat) (w : List Nat) (l : Line) (g : Byte) : (s.commitFrame k b w l g).windows = s.windows := by simp [State.commitFrame]
@[simp] theorem State.commitFrame_store (s : State) (k : Fin 4) (b : Nat) (w : List Nat) (l : Line) (g : Byte) : (s.commitFrame k b w l g).store = s.store := by simp [State.commitFrame]
@[simp] theorem State.commitFrame_straps (s : State) (k : Fin 4) (b : Nat) (w : List Nat) (l : Line) (g : Byte) : (s.commitFrame k b w l g).straps = s.straps := by simp [State.commitFrame]
@[simp] theorem State.commitFrame_resetHeld (s : State) (k : Fin 4) (b : Nat) (w : List Nat) (l : Line) (g : Byte) : (s.commitFrame k b w l g).resetHeld = s.resetHeld := by simp [State.commitFrame]
@[simp] theorem State.commitFrame_dram (s : State) (k : Fin 4) (b : Nat) (w : List Nat) (l : Line) (g : Byte) : (s.commitFrame k b w l g).dram = s.dram := by simp [State.commitFrame]
@[simp] theorem State.commitFrame_gen (s : State) (k : Fin 4) (b : Nat) (w : List Nat) (l : Line) (g : Byte) : (s.commitFrame k b w l g).gen = s.gen := by simp [State.commitFrame]
@[simp] theorem State.commitFrame_air (s : State) (k : Fin 4) (b : Nat) (w : List Nat) (l : Line) (g : Byte) : (s.commitFrame k b w l g).air = s.air := by simp [State.commitFrame]
@[simp] theorem State.commitFrame_console (s : State) (k : Fin 4) (b : Nat) (w : List Nat) (l : Line) (g : Byte) : (s.commitFrame k b w l g).console = s.console := by simp [State.commitFrame]
@[simp] theorem State.commitFrame_monitor (s : State) (k : Fin 4) (b : Nat) (w : List Nat) (l : Line) (g : Byte) : (s.commitFrame k b w l g).monitor = s.monitor := by simp [State.commitFrame]
@[simp] theorem State.commitFrame_pending (s : State) (k : Fin 4) (b : Nat) (w : List Nat) (l : Line) (g : Byte) : (s.commitFrame k b w l g).pending = s.pending := by simp [State.commitFrame]

@[simp] theorem State.refuseFrame_link (s : State) (k : Fin 4) (b : Nat) : (s.refuseFrame k b).link = s.link := by simp [State.refuseFrame]
@[simp] theorem State.refuseFrame_windows (s : State) (k : Fin 4) (b : Nat) : (s.refuseFrame k b).windows = s.windows := by simp [State.refuseFrame]
@[simp] theorem State.refuseFrame_store (s : State) (k : Fin 4) (b : Nat) : (s.refuseFrame k b).store = s.store := by simp [State.refuseFrame]
@[simp] theorem State.refuseFrame_straps (s : State) (k : Fin 4) (b : Nat) : (s.refuseFrame k b).straps = s.straps := by simp [State.refuseFrame]
@[simp] theorem State.refuseFrame_resetHeld (s : State) (k : Fin 4) (b : Nat) : (s.refuseFrame k b).resetHeld = s.resetHeld := by simp [State.refuseFrame]
@[simp] theorem State.refuseFrame_dram (s : State) (k : Fin 4) (b : Nat) : (s.refuseFrame k b).dram = s.dram := by simp [State.refuseFrame]
@[simp] theorem State.refuseFrame_queue (s : State) (k : Fin 4) (b : Nat) : (s.refuseFrame k b).queue = s.queue := by simp [State.refuseFrame]
@[simp] theorem State.refuseFrame_gen (s : State) (k : Fin 4) (b : Nat) : (s.refuseFrame k b).gen = s.gen := by simp [State.refuseFrame]
@[simp] theorem State.refuseFrame_air (s : State) (k : Fin 4) (b : Nat) : (s.refuseFrame k b).air = s.air := by simp [State.refuseFrame]
@[simp] theorem State.refuseFrame_trim (s : State) (k : Fin 4) (b : Nat) : (s.refuseFrame k b).trim = s.trim := by simp [State.refuseFrame]
@[simp] theorem State.refuseFrame_holds (s : State) (k : Fin 4) (b : Nat) : (s.refuseFrame k b).holds = s.holds := by simp [State.refuseFrame]
@[simp] theorem State.refuseFrame_console (s : State) (k : Fin 4) (b : Nat) : (s.refuseFrame k b).console = s.console := by simp [State.refuseFrame]
@[simp] theorem State.refuseFrame_monitor (s : State) (k : Fin 4) (b : Nat) : (s.refuseFrame k b).monitor = s.monitor := by simp [State.refuseFrame]
@[simp] theorem State.refuseFrame_readout (s : State) (k : Fin 4) (b : Nat) : (s.refuseFrame k b).readout = s.readout := by simp [State.refuseFrame]
@[simp] theorem State.refuseFrame_pending (s : State) (k : Fin 4) (b : Nat) : (s.refuseFrame k b).pending = s.pending := by simp [State.refuseFrame]

@[simp] theorem State.reportDrop_link (s : State) (k : Fin 4) (q : Option Seq) (c : Cause) : (s.reportDrop k q c).link = s.link := by simp [State.reportDrop]
@[simp] theorem State.reportDrop_windows (s : State) (k : Fin 4) (q : Option Seq) (c : Cause) : (s.reportDrop k q c).windows = s.windows := by simp [State.reportDrop]
@[simp] theorem State.reportDrop_store (s : State) (k : Fin 4) (q : Option Seq) (c : Cause) : (s.reportDrop k q c).store = s.store := by simp [State.reportDrop]
@[simp] theorem State.reportDrop_straps (s : State) (k : Fin 4) (q : Option Seq) (c : Cause) : (s.reportDrop k q c).straps = s.straps := by simp [State.reportDrop]
@[simp] theorem State.reportDrop_resetHeld (s : State) (k : Fin 4) (q : Option Seq) (c : Cause) : (s.reportDrop k q c).resetHeld = s.resetHeld := by simp [State.reportDrop]
@[simp] theorem State.reportDrop_dram (s : State) (k : Fin 4) (q : Option Seq) (c : Cause) : (s.reportDrop k q c).dram = s.dram := by simp [State.reportDrop]
@[simp] theorem State.reportDrop_pool (s : State) (k : Fin 4) (q : Option Seq) (c : Cause) : (s.reportDrop k q c).pool = s.pool := by simp [State.reportDrop]
@[simp] theorem State.reportDrop_ingest (s : State) (k : Fin 4) (q : Option Seq) (c : Cause) : (s.reportDrop k q c).ingest = s.ingest := by simp [State.reportDrop]
@[simp] theorem State.reportDrop_queue (s : State) (k : Fin 4) (q : Option Seq) (c : Cause) : (s.reportDrop k q c).queue = s.queue := by simp [State.reportDrop]
@[simp] theorem State.reportDrop_gen (s : State) (k : Fin 4) (q : Option Seq) (c : Cause) : (s.reportDrop k q c).gen = s.gen := by simp [State.reportDrop]
@[simp] theorem State.reportDrop_air (s : State) (k : Fin 4) (q : Option Seq) (c : Cause) : (s.reportDrop k q c).air = s.air := by simp [State.reportDrop]
@[simp] theorem State.reportDrop_trim (s : State) (k : Fin 4) (q : Option Seq) (c : Cause) : (s.reportDrop k q c).trim = s.trim := by simp [State.reportDrop]
@[simp] theorem State.reportDrop_holds (s : State) (k : Fin 4) (q : Option Seq) (c : Cause) : (s.reportDrop k q c).holds = s.holds := by simp [State.reportDrop]
@[simp] theorem State.reportDrop_console (s : State) (k : Fin 4) (q : Option Seq) (c : Cause) : (s.reportDrop k q c).console = s.console := by simp [State.reportDrop]
@[simp] theorem State.reportDrop_monitor (s : State) (k : Fin 4) (q : Option Seq) (c : Cause) : (s.reportDrop k q c).monitor = s.monitor := by simp [State.reportDrop]
@[simp] theorem State.reportDrop_pending (s : State) (k : Fin 4) (q : Option Seq) (c : Cause) : (s.reportDrop k q c).pending = s.pending := by simp [State.reportDrop]

@[simp] theorem State.finishFrame_link (s : State) (k : Fin 4) (b : Nat) (w : List Nat) (l : Line) : (s.finishFrame k b w l).link = s.link := by
  simp only [State.finishFrame]; (repeat' split) <;> simp
@[simp] theorem State.finishFrame_windows (s : State) (k : Fin 4) (b : Nat) (w : List Nat) (l : Line) : (s.finishFrame k b w l).windows = s.windows := by
  simp only [State.finishFrame]; (repeat' split) <;> simp
@[simp] theorem State.finishFrame_store (s : State) (k : Fin 4) (b : Nat) (w : List Nat) (l : Line) : (s.finishFrame k b w l).store = s.store := by
  simp only [State.finishFrame]; (repeat' split) <;> simp
@[simp] theorem State.finishFrame_straps (s : State) (k : Fin 4) (b : Nat) (w : List Nat) (l : Line) : (s.finishFrame k b w l).straps = s.straps := by
  simp only [State.finishFrame]; (repeat' split) <;> simp
@[simp] theorem State.finishFrame_resetHeld (s : State) (k : Fin 4) (b : Nat) (w : List Nat) (l : Line) : (s.finishFrame k b w l).resetHeld = s.resetHeld := by
  simp only [State.finishFrame]; (repeat' split) <;> simp
@[simp] theorem State.finishFrame_gen (s : State) (k : Fin 4) (b : Nat) (w : List Nat) (l : Line) : (s.finishFrame k b w l).gen = s.gen := by
  simp only [State.finishFrame]; (repeat' split) <;> simp
@[simp] theorem State.finishFrame_air (s : State) (k : Fin 4) (b : Nat) (w : List Nat) (l : Line) : (s.finishFrame k b w l).air = s.air := by
  simp only [State.finishFrame]; (repeat' split) <;> simp
@[simp] theorem State.finishFrame_console (s : State) (k : Fin 4) (b : Nat) (w : List Nat) (l : Line) : (s.finishFrame k b w l).console = s.console := by
  simp only [State.finishFrame]; (repeat' split) <;> simp
@[simp] theorem State.finishFrame_monitor (s : State) (k : Fin 4) (b : Nat) (w : List Nat) (l : Line) : (s.finishFrame k b w l).monitor = s.monitor := by
  simp only [State.finishFrame]; (repeat' split) <;> simp
@[simp] theorem State.finishFrame_pending (s : State) (k : Fin 4) (b : Nat) (w : List Nat) (l : Line) : (s.finishFrame k b w l).pending = s.pending := by
  simp only [State.finishFrame]; (repeat' split) <;> simp

@[simp] theorem State.pictureRecord_link (s : State) (k : Fin 4) (l : Line) : (s.pictureRecord k l).link = s.link := by
  simp only [State.pictureRecord]; (repeat' split) <;> simp
@[simp] theorem State.pictureRecord_windows (s : State) (k : Fin 4) (l : Line) : (s.pictureRecord k l).windows = s.windows := by
  simp only [State.pictureRecord]; (repeat' split) <;> simp
@[simp] theorem State.pictureRecord_store (s : State) (k : Fin 4) (l : Line) : (s.pictureRecord k l).store = s.store := by
  simp only [State.pictureRecord]; (repeat' split) <;> simp
@[simp] theorem State.pictureRecord_straps (s : State) (k : Fin 4) (l : Line) : (s.pictureRecord k l).straps = s.straps := by
  simp only [State.pictureRecord]; (repeat' split) <;> simp
@[simp] theorem State.pictureRecord_resetHeld (s : State) (k : Fin 4) (l : Line) : (s.pictureRecord k l).resetHeld = s.resetHeld := by
  simp only [State.pictureRecord]; (repeat' split) <;> simp
@[simp] theorem State.pictureRecord_gen (s : State) (k : Fin 4) (l : Line) : (s.pictureRecord k l).gen = s.gen := by
  simp only [State.pictureRecord]; (repeat' split) <;> simp
@[simp] theorem State.pictureRecord_air (s : State) (k : Fin 4) (l : Line) : (s.pictureRecord k l).air = s.air := by
  simp only [State.pictureRecord]; (repeat' split) <;> simp
@[simp] theorem State.pictureRecord_console (s : State) (k : Fin 4) (l : Line) : (s.pictureRecord k l).console = s.console := by
  simp only [State.pictureRecord]; (repeat' split) <;> simp
@[simp] theorem State.pictureRecord_monitor (s : State) (k : Fin 4) (l : Line) : (s.pictureRecord k l).monitor = s.monitor := by
  simp only [State.pictureRecord]; (repeat' split) <;> simp
@[simp] theorem State.pictureRecord_pending (s : State) (k : Fin 4) (l : Line) : (s.pictureRecord k l).pending = s.pending := by
  simp only [State.pictureRecord]; (repeat' split) <;> simp

@[simp] theorem State.ingestLine_link (s : State) (k : Fin 4) (j : Nat) (l : Line) : (s.ingestLine k j l).link = s.link := by
  simp only [State.ingestLine]; (repeat' split) <;> simp
@[simp] theorem State.ingestLine_windows (s : State) (k : Fin 4) (j : Nat) (l : Line) : (s.ingestLine k j l).windows = s.windows := by
  simp only [State.ingestLine]; (repeat' split) <;> simp
@[simp] theorem State.ingestLine_store (s : State) (k : Fin 4) (j : Nat) (l : Line) : (s.ingestLine k j l).store = s.store := by
  simp only [State.ingestLine]; (repeat' split) <;> simp
@[simp] theorem State.ingestLine_straps (s : State) (k : Fin 4) (j : Nat) (l : Line) : (s.ingestLine k j l).straps = s.straps := by
  simp only [State.ingestLine]; (repeat' split) <;> simp
@[simp] theorem State.ingestLine_resetHeld (s : State) (k : Fin 4) (j : Nat) (l : Line) : (s.ingestLine k j l).resetHeld = s.resetHeld := by
  simp only [State.ingestLine]; (repeat' split) <;> simp
@[simp] theorem State.ingestLine_gen (s : State) (k : Fin 4) (j : Nat) (l : Line) : (s.ingestLine k j l).gen = s.gen := by
  simp only [State.ingestLine]; (repeat' split) <;> simp
@[simp] theorem State.ingestLine_air (s : State) (k : Fin 4) (j : Nat) (l : Line) : (s.ingestLine k j l).air = s.air := by
  simp only [State.ingestLine]; (repeat' split) <;> simp
@[simp] theorem State.ingestLine_console (s : State) (k : Fin 4) (j : Nat) (l : Line) : (s.ingestLine k j l).console = s.console := by
  simp only [State.ingestLine]; (repeat' split) <;> simp
@[simp] theorem State.ingestLine_monitor (s : State) (k : Fin 4) (j : Nat) (l : Line) : (s.ingestLine k j l).monitor = s.monitor := by
  simp only [State.ingestLine]; (repeat' split) <;> simp
@[simp] theorem State.ingestLine_pending (s : State) (k : Fin 4) (j : Nat) (l : Line) : (s.ingestLine k j l).pending = s.pending := by
  simp only [State.ingestLine]; (repeat' split) <;> simp

@[simp] theorem State.timeoutSlot_link (s : State) (k : Fin 4) : (s.timeoutSlot k).link = s.link := by
  simp only [State.timeoutSlot]; (repeat' split) <;> simp
@[simp] theorem State.timeoutSlot_windows (s : State) (k : Fin 4) : (s.timeoutSlot k).windows = s.windows := by
  simp only [State.timeoutSlot]; (repeat' split) <;> simp
@[simp] theorem State.timeoutSlot_store (s : State) (k : Fin 4) : (s.timeoutSlot k).store = s.store := by
  simp only [State.timeoutSlot]; (repeat' split) <;> simp
@[simp] theorem State.timeoutSlot_straps (s : State) (k : Fin 4) : (s.timeoutSlot k).straps = s.straps := by
  simp only [State.timeoutSlot]; (repeat' split) <;> simp
@[simp] theorem State.timeoutSlot_resetHeld (s : State) (k : Fin 4) : (s.timeoutSlot k).resetHeld = s.resetHeld := by
  simp only [State.timeoutSlot]; (repeat' split) <;> simp
@[simp] theorem State.timeoutSlot_dram (s : State) (k : Fin 4) : (s.timeoutSlot k).dram = s.dram := by
  simp only [State.timeoutSlot]; (repeat' split) <;> simp
@[simp] theorem State.timeoutSlot_queue (s : State) (k : Fin 4) : (s.timeoutSlot k).queue = s.queue := by
  simp only [State.timeoutSlot]; (repeat' split) <;> simp
@[simp] theorem State.timeoutSlot_gen (s : State) (k : Fin 4) : (s.timeoutSlot k).gen = s.gen := by
  simp only [State.timeoutSlot]; (repeat' split) <;> simp
@[simp] theorem State.timeoutSlot_air (s : State) (k : Fin 4) : (s.timeoutSlot k).air = s.air := by
  simp only [State.timeoutSlot]; (repeat' split) <;> simp
@[simp] theorem State.timeoutSlot_trim (s : State) (k : Fin 4) : (s.timeoutSlot k).trim = s.trim := by
  simp only [State.timeoutSlot]; (repeat' split) <;> simp
@[simp] theorem State.timeoutSlot_holds (s : State) (k : Fin 4) : (s.timeoutSlot k).holds = s.holds := by
  simp only [State.timeoutSlot]; (repeat' split) <;> simp
@[simp] theorem State.timeoutSlot_console (s : State) (k : Fin 4) : (s.timeoutSlot k).console = s.console := by
  simp only [State.timeoutSlot]; (repeat' split) <;> simp
@[simp] theorem State.timeoutSlot_monitor (s : State) (k : Fin 4) : (s.timeoutSlot k).monitor = s.monitor := by
  simp only [State.timeoutSlot]; (repeat' split) <;> simp
@[simp] theorem State.timeoutSlot_pending (s : State) (k : Fin 4) : (s.timeoutSlot k).pending = s.pending := by
  simp only [State.timeoutSlot]; (repeat' split) <;> simp

@[simp] theorem State.slotTimeouts_link (s : State) : (s.slotTimeouts).link = s.link := by simp [State.slotTimeouts]
@[simp] theorem State.slotTimeouts_windows (s : State) : (s.slotTimeouts).windows = s.windows := by simp [State.slotTimeouts]
@[simp] theorem State.slotTimeouts_store (s : State) : (s.slotTimeouts).store = s.store := by simp [State.slotTimeouts]
@[simp] theorem State.slotTimeouts_straps (s : State) : (s.slotTimeouts).straps = s.straps := by simp [State.slotTimeouts]
@[simp] theorem State.slotTimeouts_resetHeld (s : State) : (s.slotTimeouts).resetHeld = s.resetHeld := by simp [State.slotTimeouts]
@[simp] theorem State.slotTimeouts_dram (s : State) : (s.slotTimeouts).dram = s.dram := by simp [State.slotTimeouts]
@[simp] theorem State.slotTimeouts_queue (s : State) : (s.slotTimeouts).queue = s.queue := by simp [State.slotTimeouts]
@[simp] theorem State.slotTimeouts_gen (s : State) : (s.slotTimeouts).gen = s.gen := by simp [State.slotTimeouts]
@[simp] theorem State.slotTimeouts_air (s : State) : (s.slotTimeouts).air = s.air := by simp [State.slotTimeouts]
@[simp] theorem State.slotTimeouts_trim (s : State) : (s.slotTimeouts).trim = s.trim := by simp [State.slotTimeouts]
@[simp] theorem State.slotTimeouts_holds (s : State) : (s.slotTimeouts).holds = s.holds := by simp [State.slotTimeouts]
@[simp] theorem State.slotTimeouts_console (s : State) : (s.slotTimeouts).console = s.console := by simp [State.slotTimeouts]
@[simp] theorem State.slotTimeouts_monitor (s : State) : (s.slotTimeouts).monitor = s.monitor := by simp [State.slotTimeouts]
@[simp] theorem State.slotTimeouts_pending (s : State) : (s.slotTimeouts).pending = s.pending := by simp [State.slotTimeouts]

@[simp] theorem State.endSlots_link (s : State) : (s.endSlots).link = s.link := by simp [State.endSlots]
@[simp] theorem State.endSlots_windows (s : State) : (s.endSlots).windows = s.windows := by simp [State.endSlots]
@[simp] theorem State.endSlots_store (s : State) : (s.endSlots).store = s.store := by simp [State.endSlots]
@[simp] theorem State.endSlots_straps (s : State) : (s.endSlots).straps = s.straps := by simp [State.endSlots]
@[simp] theorem State.endSlots_resetHeld (s : State) : (s.endSlots).resetHeld = s.resetHeld := by simp [State.endSlots]
@[simp] theorem State.endSlots_dram (s : State) : (s.endSlots).dram = s.dram := by simp [State.endSlots]
@[simp] theorem State.endSlots_queue (s : State) : (s.endSlots).queue = s.queue := by simp [State.endSlots]
@[simp] theorem State.endSlots_gen (s : State) : (s.endSlots).gen = s.gen := by simp [State.endSlots]
@[simp] theorem State.endSlots_air (s : State) : (s.endSlots).air = s.air := by simp [State.endSlots]
@[simp] theorem State.endSlots_trim (s : State) : (s.endSlots).trim = s.trim := by simp [State.endSlots]
@[simp] theorem State.endSlots_holds (s : State) : (s.endSlots).holds = s.holds := by simp [State.endSlots]
@[simp] theorem State.endSlots_console (s : State) : (s.endSlots).console = s.console := by simp [State.endSlots]
@[simp] theorem State.endSlots_monitor (s : State) : (s.endSlots).monitor = s.monitor := by simp [State.endSlots]
@[simp] theorem State.endSlots_readout (s : State) : (s.endSlots).readout = s.readout := by simp [State.endSlots]
@[simp] theorem State.endSlots_pending (s : State) : (s.endSlots).pending = s.pending := by simp [State.endSlots]

@[simp] theorem State.leaveSlot_link (s : State) (e : EgressSlot) : (s.leaveSlot e).link = s.link := by
  simp only [State.leaveSlot]; (repeat' split) <;> simp
@[simp] theorem State.leaveSlot_windows (s : State) (e : EgressSlot) : (s.leaveSlot e).windows = s.windows := by
  simp only [State.leaveSlot]; (repeat' split) <;> simp
@[simp] theorem State.leaveSlot_store (s : State) (e : EgressSlot) : (s.leaveSlot e).store = s.store := by
  simp only [State.leaveSlot]; (repeat' split) <;> simp
@[simp] theorem State.leaveSlot_straps (s : State) (e : EgressSlot) : (s.leaveSlot e).straps = s.straps := by
  simp only [State.leaveSlot]; (repeat' split) <;> simp
@[simp] theorem State.leaveSlot_resetHeld (s : State) (e : EgressSlot) : (s.leaveSlot e).resetHeld = s.resetHeld := by
  simp only [State.leaveSlot]; (repeat' split) <;> simp
@[simp] theorem State.leaveSlot_dram (s : State) (e : EgressSlot) : (s.leaveSlot e).dram = s.dram := by
  simp only [State.leaveSlot]; (repeat' split) <;> simp
@[simp] theorem State.leaveSlot_ingest (s : State) (e : EgressSlot) : (s.leaveSlot e).ingest = s.ingest := by
  simp only [State.leaveSlot]; (repeat' split) <;> simp
@[simp] theorem State.leaveSlot_queue (s : State) (e : EgressSlot) : (s.leaveSlot e).queue = s.queue := by
  simp only [State.leaveSlot]; (repeat' split) <;> simp
@[simp] theorem State.leaveSlot_gen (s : State) (e : EgressSlot) : (s.leaveSlot e).gen = s.gen := by
  simp only [State.leaveSlot]; (repeat' split) <;> simp
@[simp] theorem State.leaveSlot_trim (s : State) (e : EgressSlot) : (s.leaveSlot e).trim = s.trim := by
  simp only [State.leaveSlot]; (repeat' split) <;> simp
@[simp] theorem State.leaveSlot_holds (s : State) (e : EgressSlot) : (s.leaveSlot e).holds = s.holds := by
  simp only [State.leaveSlot]; (repeat' split) <;> simp
@[simp] theorem State.leaveSlot_console (s : State) (e : EgressSlot) : (s.leaveSlot e).console = s.console := by
  simp only [State.leaveSlot]; (repeat' split) <;> simp
@[simp] theorem State.leaveSlot_monitor (s : State) (e : EgressSlot) : (s.leaveSlot e).monitor = s.monitor := by
  simp only [State.leaveSlot]; (repeat' split) <;> simp
@[simp] theorem State.leaveSlot_readout (s : State) (e : EgressSlot) : (s.leaveSlot e).readout = s.readout := by
  simp only [State.leaveSlot]; (repeat' split) <;> simp
@[simp] theorem State.leaveSlot_pending (s : State) (e : EgressSlot) : (s.leaveSlot e).pending = s.pending := by
  simp only [State.leaveSlot]; (repeat' split) <;> simp

@[simp] theorem State.leaveBoth_link (s : State) : (s.leaveBoth).link = s.link := by simp [State.leaveBoth]
@[simp] theorem State.leaveBoth_windows (s : State) : (s.leaveBoth).windows = s.windows := by simp [State.leaveBoth]
@[simp] theorem State.leaveBoth_store (s : State) : (s.leaveBoth).store = s.store := by simp [State.leaveBoth]
@[simp] theorem State.leaveBoth_straps (s : State) : (s.leaveBoth).straps = s.straps := by simp [State.leaveBoth]
@[simp] theorem State.leaveBoth_resetHeld (s : State) : (s.leaveBoth).resetHeld = s.resetHeld := by simp [State.leaveBoth]
@[simp] theorem State.leaveBoth_dram (s : State) : (s.leaveBoth).dram = s.dram := by simp [State.leaveBoth]
@[simp] theorem State.leaveBoth_ingest (s : State) : (s.leaveBoth).ingest = s.ingest := by simp [State.leaveBoth]
@[simp] theorem State.leaveBoth_queue (s : State) : (s.leaveBoth).queue = s.queue := by simp [State.leaveBoth]
@[simp] theorem State.leaveBoth_gen (s : State) : (s.leaveBoth).gen = s.gen := by simp [State.leaveBoth]
@[simp] theorem State.leaveBoth_trim (s : State) : (s.leaveBoth).trim = s.trim := by simp [State.leaveBoth]
@[simp] theorem State.leaveBoth_holds (s : State) : (s.leaveBoth).holds = s.holds := by simp [State.leaveBoth]
@[simp] theorem State.leaveBoth_console (s : State) : (s.leaveBoth).console = s.console := by simp [State.leaveBoth]
@[simp] theorem State.leaveBoth_monitor (s : State) : (s.leaveBoth).monitor = s.monitor := by simp [State.leaveBoth]
@[simp] theorem State.leaveBoth_readout (s : State) : (s.leaveBoth).readout = s.readout := by simp [State.leaveBoth]
@[simp] theorem State.leaveBoth_pending (s : State) : (s.leaveBoth).pending = s.pending := by simp [State.leaveBoth]

@[simp] theorem State.endFill_link (s : State) (q : Seq) : (s.endFill q).link = s.link := by
  simp only [State.endFill]; (repeat' split) <;> simp
@[simp] theorem State.endFill_windows (s : State) (q : Seq) : (s.endFill q).windows = s.windows := by
  simp only [State.endFill]; (repeat' split) <;> simp
@[simp] theorem State.endFill_store (s : State) (q : Seq) : (s.endFill q).store = s.store := by
  simp only [State.endFill]; (repeat' split) <;> simp
@[simp] theorem State.endFill_straps (s : State) (q : Seq) : (s.endFill q).straps = s.straps := by
  simp only [State.endFill]; (repeat' split) <;> simp
@[simp] theorem State.endFill_resetHeld (s : State) (q : Seq) : (s.endFill q).resetHeld = s.resetHeld := by
  simp only [State.endFill]; (repeat' split) <;> simp
@[simp] theorem State.endFill_dram (s : State) (q : Seq) : (s.endFill q).dram = s.dram := by
  simp only [State.endFill]; (repeat' split) <;> simp
@[simp] theorem State.endFill_pool (s : State) (q : Seq) : (s.endFill q).pool = s.pool := by
  simp only [State.endFill]; (repeat' split) <;> simp
@[simp] theorem State.endFill_ingest (s : State) (q : Seq) : (s.endFill q).ingest = s.ingest := by
  simp only [State.endFill]; (repeat' split) <;> simp
@[simp] theorem State.endFill_queue (s : State) (q : Seq) : (s.endFill q).queue = s.queue := by
  simp only [State.endFill]; (repeat' split) <;> simp
@[simp] theorem State.endFill_gen (s : State) (q : Seq) : (s.endFill q).gen = s.gen := by
  simp only [State.endFill]; (repeat' split) <;> simp
@[simp] theorem State.endFill_trim (s : State) (q : Seq) : (s.endFill q).trim = s.trim := by
  simp only [State.endFill]; (repeat' split) <;> simp
@[simp] theorem State.endFill_holds (s : State) (q : Seq) : (s.endFill q).holds = s.holds := by
  simp only [State.endFill]; (repeat' split) <;> simp
@[simp] theorem State.endFill_console (s : State) (q : Seq) : (s.endFill q).console = s.console := by
  simp only [State.endFill]; (repeat' split) <;> simp
@[simp] theorem State.endFill_monitor (s : State) (q : Seq) : (s.endFill q).monitor = s.monitor := by
  simp only [State.endFill]; (repeat' split) <;> simp
@[simp] theorem State.endFill_pending (s : State) (q : Seq) : (s.endFill q).pending = s.pending := by
  simp only [State.endFill]; (repeat' split) <;> simp

@[simp] theorem State.bindEntry_link (s : State) (e : Entry) (k : Byte) : (s.bindEntry e k).link = s.link := by simp [State.bindEntry]
@[simp] theorem State.bindEntry_windows (s : State) (e : Entry) (k : Byte) : (s.bindEntry e k).windows = s.windows := by simp [State.bindEntry]
@[simp] theorem State.bindEntry_store (s : State) (e : Entry) (k : Byte) : (s.bindEntry e k).store = s.store := by simp [State.bindEntry]
@[simp] theorem State.bindEntry_straps (s : State) (e : Entry) (k : Byte) : (s.bindEntry e k).straps = s.straps := by simp [State.bindEntry]
@[simp] theorem State.bindEntry_resetHeld (s : State) (e : Entry) (k : Byte) : (s.bindEntry e k).resetHeld = s.resetHeld := by simp [State.bindEntry]
@[simp] theorem State.bindEntry_dram (s : State) (e : Entry) (k : Byte) : (s.bindEntry e k).dram = s.dram := by simp [State.bindEntry]
@[simp] theorem State.bindEntry_ingest (s : State) (e : Entry) (k : Byte) : (s.bindEntry e k).ingest = s.ingest := by simp [State.bindEntry]
@[simp] theorem State.bindEntry_queue (s : State) (e : Entry) (k : Byte) : (s.bindEntry e k).queue = s.queue := by simp [State.bindEntry]
@[simp] theorem State.bindEntry_gen (s : State) (e : Entry) (k : Byte) : (s.bindEntry e k).gen = s.gen := by simp [State.bindEntry]
@[simp] theorem State.bindEntry_trim (s : State) (e : Entry) (k : Byte) : (s.bindEntry e k).trim = s.trim := by simp [State.bindEntry]
@[simp] theorem State.bindEntry_holds (s : State) (e : Entry) (k : Byte) : (s.bindEntry e k).holds = s.holds := by simp [State.bindEntry]
@[simp] theorem State.bindEntry_console (s : State) (e : Entry) (k : Byte) : (s.bindEntry e k).console = s.console := by simp [State.bindEntry]
@[simp] theorem State.bindEntry_monitor (s : State) (e : Entry) (k : Byte) : (s.bindEntry e k).monitor = s.monitor := by simp [State.bindEntry]
@[simp] theorem State.bindEntry_pending (s : State) (e : Entry) (k : Byte) : (s.bindEntry e k).pending = s.pending := by simp [State.bindEntry]

@[simp] theorem State.release_link (s : State) (k : Byte) : (s.release k).link = s.link := by
  simp only [State.release]; (repeat' split) <;> simp
@[simp] theorem State.release_windows (s : State) (k : Byte) : (s.release k).windows = s.windows := by
  simp only [State.release]; (repeat' split) <;> simp
@[simp] theorem State.release_store (s : State) (k : Byte) : (s.release k).store = s.store := by
  simp only [State.release]; (repeat' split) <;> simp
@[simp] theorem State.release_straps (s : State) (k : Byte) : (s.release k).straps = s.straps := by
  simp only [State.release]; (repeat' split) <;> simp
@[simp] theorem State.release_resetHeld (s : State) (k : Byte) : (s.release k).resetHeld = s.resetHeld := by
  simp only [State.release]; (repeat' split) <;> simp
@[simp] theorem State.release_dram (s : State) (k : Byte) : (s.release k).dram = s.dram := by
  simp only [State.release]; (repeat' split) <;> simp
@[simp] theorem State.release_ingest (s : State) (k : Byte) : (s.release k).ingest = s.ingest := by
  simp only [State.release]; (repeat' split) <;> simp
@[simp] theorem State.release_gen (s : State) (k : Byte) : (s.release k).gen = s.gen := by
  simp only [State.release]; (repeat' split) <;> simp
@[simp] theorem State.release_holds (s : State) (k : Byte) : (s.release k).holds = s.holds := by
  simp only [State.release]; (repeat' split) <;> simp
@[simp] theorem State.release_console (s : State) (k : Byte) : (s.release k).console = s.console := by
  simp only [State.release]; (repeat' split) <;> simp
@[simp] theorem State.release_monitor (s : State) (k : Byte) : (s.release k).monitor = s.monitor := by
  simp only [State.release]; (repeat' split) <;> simp
@[simp] theorem State.release_pending (s : State) (k : Byte) : (s.release k).pending = s.pending := by
  simp only [State.release]; (repeat' split) <;> simp

@[simp] theorem State.skip_link (s : State) : (s.skip).link = s.link := by
  simp only [State.skip]; (repeat' split) <;> simp
@[simp] theorem State.skip_windows (s : State) : (s.skip).windows = s.windows := by
  simp only [State.skip]; (repeat' split) <;> simp
@[simp] theorem State.skip_store (s : State) : (s.skip).store = s.store := by
  simp only [State.skip]; (repeat' split) <;> simp
@[simp] theorem State.skip_straps (s : State) : (s.skip).straps = s.straps := by
  simp only [State.skip]; (repeat' split) <;> simp
@[simp] theorem State.skip_resetHeld (s : State) : (s.skip).resetHeld = s.resetHeld := by
  simp only [State.skip]; (repeat' split) <;> simp
@[simp] theorem State.skip_dram (s : State) : (s.skip).dram = s.dram := by
  simp only [State.skip]; (repeat' split) <;> simp
@[simp] theorem State.skip_ingest (s : State) : (s.skip).ingest = s.ingest := by
  simp only [State.skip]; (repeat' split) <;> simp
@[simp] theorem State.skip_gen (s : State) : (s.skip).gen = s.gen := by
  simp only [State.skip]; (repeat' split) <;> simp
@[simp] theorem State.skip_holds (s : State) : (s.skip).holds = s.holds := by
  simp only [State.skip]; (repeat' split) <;> simp
@[simp] theorem State.skip_console (s : State) : (s.skip).console = s.console := by
  simp only [State.skip]; (repeat' split) <;> simp
@[simp] theorem State.skip_monitor (s : State) : (s.skip).monitor = s.monitor := by
  simp only [State.skip]; (repeat' split) <;> simp
@[simp] theorem State.skip_pending (s : State) : (s.skip).pending = s.pending := by
  simp only [State.skip]; (repeat' split) <;> simp

@[simp] theorem State.stalledTick_link (s : State) (h : Byte) : (s.stalledTick h).link = s.link := by simp [State.stalledTick]
@[simp] theorem State.stalledTick_windows (s : State) (h : Byte) : (s.stalledTick h).windows = s.windows := by simp [State.stalledTick]
@[simp] theorem State.stalledTick_store (s : State) (h : Byte) : (s.stalledTick h).store = s.store := by simp [State.stalledTick]
@[simp] theorem State.stalledTick_straps (s : State) (h : Byte) : (s.stalledTick h).straps = s.straps := by simp [State.stalledTick]
@[simp] theorem State.stalledTick_resetHeld (s : State) (h : Byte) : (s.stalledTick h).resetHeld = s.resetHeld := by simp [State.stalledTick]
@[simp] theorem State.stalledTick_dram (s : State) (h : Byte) : (s.stalledTick h).dram = s.dram := by simp [State.stalledTick]
@[simp] theorem State.stalledTick_gen (s : State) (h : Byte) : (s.stalledTick h).gen = s.gen := by simp [State.stalledTick]
@[simp] theorem State.stalledTick_console (s : State) (h : Byte) : (s.stalledTick h).console = s.console := by simp [State.stalledTick]
@[simp] theorem State.stalledTick_monitor (s : State) (h : Byte) : (s.stalledTick h).monitor = s.monitor := by simp [State.stalledTick]
@[simp] theorem State.stalledTick_pending (s : State) (h : Byte) : (s.stalledTick h).pending = s.pending := by simp [State.stalledTick]

@[simp] theorem State.frozenTick_link (s : State) (c : Binding) : (s.frozenTick c).link = s.link := by
  simp only [State.frozenTick]; (repeat' split) <;> simp
@[simp] theorem State.frozenTick_windows (s : State) (c : Binding) : (s.frozenTick c).windows = s.windows := by
  simp only [State.frozenTick]; (repeat' split) <;> simp
@[simp] theorem State.frozenTick_store (s : State) (c : Binding) : (s.frozenTick c).store = s.store := by
  simp only [State.frozenTick]; (repeat' split) <;> simp
@[simp] theorem State.frozenTick_straps (s : State) (c : Binding) : (s.frozenTick c).straps = s.straps := by
  simp only [State.frozenTick]; (repeat' split) <;> simp
@[simp] theorem State.frozenTick_resetHeld (s : State) (c : Binding) : (s.frozenTick c).resetHeld = s.resetHeld := by
  simp only [State.frozenTick]; (repeat' split) <;> simp
@[simp] theorem State.frozenTick_dram (s : State) (c : Binding) : (s.frozenTick c).dram = s.dram := by
  simp only [State.frozenTick]; (repeat' split) <;> simp
@[simp] theorem State.frozenTick_pool (s : State) (c : Binding) : (s.frozenTick c).pool = s.pool := by
  simp only [State.frozenTick]; (repeat' split) <;> simp
@[simp] theorem State.frozenTick_ingest (s : State) (c : Binding) : (s.frozenTick c).ingest = s.ingest := by
  simp only [State.frozenTick]; (repeat' split) <;> simp
@[simp] theorem State.frozenTick_queue (s : State) (c : Binding) : (s.frozenTick c).queue = s.queue := by
  simp only [State.frozenTick]; (repeat' split) <;> simp
@[simp] theorem State.frozenTick_gen (s : State) (c : Binding) : (s.frozenTick c).gen = s.gen := by
  simp only [State.frozenTick]; (repeat' split) <;> simp
@[simp] theorem State.frozenTick_trim (s : State) (c : Binding) : (s.frozenTick c).trim = s.trim := by
  simp only [State.frozenTick]; (repeat' split) <;> simp
@[simp] theorem State.frozenTick_holds (s : State) (c : Binding) : (s.frozenTick c).holds = s.holds := by
  simp only [State.frozenTick]; (repeat' split) <;> simp
@[simp] theorem State.frozenTick_console (s : State) (c : Binding) : (s.frozenTick c).console = s.console := by
  simp only [State.frozenTick]; (repeat' split) <;> simp
@[simp] theorem State.frozenTick_monitor (s : State) (c : Binding) : (s.frozenTick c).monitor = s.monitor := by
  simp only [State.frozenTick]; (repeat' split) <;> simp
@[simp] theorem State.frozenTick_pending (s : State) (c : Binding) : (s.frozenTick c).pending = s.pending := by
  simp only [State.frozenTick]; (repeat' split) <;> simp

@[simp] theorem State.freezeEnd_link (s : State) (c : Binding) : (s.freezeEnd c).link = s.link := by simp [State.freezeEnd]
@[simp] theorem State.freezeEnd_windows (s : State) (c : Binding) : (s.freezeEnd c).windows = s.windows := by simp [State.freezeEnd]
@[simp] theorem State.freezeEnd_store (s : State) (c : Binding) : (s.freezeEnd c).store = s.store := by simp [State.freezeEnd]
@[simp] theorem State.freezeEnd_straps (s : State) (c : Binding) : (s.freezeEnd c).straps = s.straps := by simp [State.freezeEnd]
@[simp] theorem State.freezeEnd_resetHeld (s : State) (c : Binding) : (s.freezeEnd c).resetHeld = s.resetHeld := by simp [State.freezeEnd]
@[simp] theorem State.freezeEnd_dram (s : State) (c : Binding) : (s.freezeEnd c).dram = s.dram := by simp [State.freezeEnd]
@[simp] theorem State.freezeEnd_ingest (s : State) (c : Binding) : (s.freezeEnd c).ingest = s.ingest := by simp [State.freezeEnd]
@[simp] theorem State.freezeEnd_queue (s : State) (c : Binding) : (s.freezeEnd c).queue = s.queue := by simp [State.freezeEnd]
@[simp] theorem State.freezeEnd_gen (s : State) (c : Binding) : (s.freezeEnd c).gen = s.gen := by simp [State.freezeEnd]
@[simp] theorem State.freezeEnd_trim (s : State) (c : Binding) : (s.freezeEnd c).trim = s.trim := by simp [State.freezeEnd]
@[simp] theorem State.freezeEnd_holds (s : State) (c : Binding) : (s.freezeEnd c).holds = s.holds := by simp [State.freezeEnd]
@[simp] theorem State.freezeEnd_console (s : State) (c : Binding) : (s.freezeEnd c).console = s.console := by simp [State.freezeEnd]
@[simp] theorem State.freezeEnd_monitor (s : State) (c : Binding) : (s.freezeEnd c).monitor = s.monitor := by simp [State.freezeEnd]
@[simp] theorem State.freezeEnd_pending (s : State) (c : Binding) : (s.freezeEnd c).pending = s.pending := by simp [State.freezeEnd]

@[simp] theorem State.emptyTick_link (s : State) : (s.emptyTick).link = s.link := by
  simp only [State.emptyTick]; (repeat' split) <;> simp
@[simp] theorem State.emptyTick_windows (s : State) : (s.emptyTick).windows = s.windows := by
  simp only [State.emptyTick]; (repeat' split) <;> simp
@[simp] theorem State.emptyTick_store (s : State) : (s.emptyTick).store = s.store := by
  simp only [State.emptyTick]; (repeat' split) <;> simp
@[simp] theorem State.emptyTick_straps (s : State) : (s.emptyTick).straps = s.straps := by
  simp only [State.emptyTick]; (repeat' split) <;> simp
@[simp] theorem State.emptyTick_resetHeld (s : State) : (s.emptyTick).resetHeld = s.resetHeld := by
  simp only [State.emptyTick]; (repeat' split) <;> simp
@[simp] theorem State.emptyTick_dram (s : State) : (s.emptyTick).dram = s.dram := by
  simp only [State.emptyTick]; (repeat' split) <;> simp
@[simp] theorem State.emptyTick_ingest (s : State) : (s.emptyTick).ingest = s.ingest := by
  simp only [State.emptyTick]; (repeat' split) <;> simp
@[simp] theorem State.emptyTick_queue (s : State) : (s.emptyTick).queue = s.queue := by
  simp only [State.emptyTick]; (repeat' split) <;> simp
@[simp] theorem State.emptyTick_gen (s : State) : (s.emptyTick).gen = s.gen := by
  simp only [State.emptyTick]; (repeat' split) <;> simp
@[simp] theorem State.emptyTick_trim (s : State) : (s.emptyTick).trim = s.trim := by
  simp only [State.emptyTick]; (repeat' split) <;> simp
@[simp] theorem State.emptyTick_holds (s : State) : (s.emptyTick).holds = s.holds := by
  simp only [State.emptyTick]; (repeat' split) <;> simp
@[simp] theorem State.emptyTick_console (s : State) : (s.emptyTick).console = s.console := by
  simp only [State.emptyTick]; (repeat' split) <;> simp
@[simp] theorem State.emptyTick_monitor (s : State) : (s.emptyTick).monitor = s.monitor := by
  simp only [State.emptyTick]; (repeat' split) <;> simp
@[simp] theorem State.emptyTick_pending (s : State) : (s.emptyTick).pending = s.pending := by
  simp only [State.emptyTick]; (repeat' split) <;> simp

@[simp] theorem State.trimTick_link (s : State) : (s.trimTick).link = s.link := by
  simp only [State.trimTick]; (repeat' split) <;> simp
@[simp] theorem State.trimTick_windows (s : State) : (s.trimTick).windows = s.windows := by
  simp only [State.trimTick]; (repeat' split) <;> simp
@[simp] theorem State.trimTick_store (s : State) : (s.trimTick).store = s.store := by
  simp only [State.trimTick]; (repeat' split) <;> simp
@[simp] theorem State.trimTick_straps (s : State) : (s.trimTick).straps = s.straps := by
  simp only [State.trimTick]; (repeat' split) <;> simp
@[simp] theorem State.trimTick_resetHeld (s : State) : (s.trimTick).resetHeld = s.resetHeld := by
  simp only [State.trimTick]; (repeat' split) <;> simp
@[simp] theorem State.trimTick_dram (s : State) : (s.trimTick).dram = s.dram := by
  simp only [State.trimTick]; (repeat' split) <;> simp
@[simp] theorem State.trimTick_ingest (s : State) : (s.trimTick).ingest = s.ingest := by
  simp only [State.trimTick]; (repeat' split) <;> simp
@[simp] theorem State.trimTick_gen (s : State) : (s.trimTick).gen = s.gen := by
  simp only [State.trimTick]; (repeat' split) <;> simp
@[simp] theorem State.trimTick_holds (s : State) : (s.trimTick).holds = s.holds := by
  simp only [State.trimTick]; (repeat' split) <;> simp
@[simp] theorem State.trimTick_console (s : State) : (s.trimTick).console = s.console := by
  simp only [State.trimTick]; (repeat' split) <;> simp
@[simp] theorem State.trimTick_monitor (s : State) : (s.trimTick).monitor = s.monitor := by
  simp only [State.trimTick]; (repeat' split) <;> simp
@[simp] theorem State.trimTick_pending (s : State) : (s.trimTick).pending = s.pending := by
  simp only [State.trimTick]; (repeat' split) <;> simp

@[simp] theorem State.clearStall_link (s : State) : (s.clearStall).link = s.link := by simp [State.clearStall]
@[simp] theorem State.clearStall_windows (s : State) : (s.clearStall).windows = s.windows := by simp [State.clearStall]
@[simp] theorem State.clearStall_store (s : State) : (s.clearStall).store = s.store := by simp [State.clearStall]
@[simp] theorem State.clearStall_straps (s : State) : (s.clearStall).straps = s.straps := by simp [State.clearStall]
@[simp] theorem State.clearStall_resetHeld (s : State) : (s.clearStall).resetHeld = s.resetHeld := by simp [State.clearStall]
@[simp] theorem State.clearStall_dram (s : State) : (s.clearStall).dram = s.dram := by simp [State.clearStall]
@[simp] theorem State.clearStall_pool (s : State) : (s.clearStall).pool = s.pool := by simp [State.clearStall]
@[simp] theorem State.clearStall_ingest (s : State) : (s.clearStall).ingest = s.ingest := by simp [State.clearStall]
@[simp] theorem State.clearStall_queue (s : State) : (s.clearStall).queue = s.queue := by simp [State.clearStall]
@[simp] theorem State.clearStall_gen (s : State) : (s.clearStall).gen = s.gen := by simp [State.clearStall]
@[simp] theorem State.clearStall_trim (s : State) : (s.clearStall).trim = s.trim := by simp [State.clearStall]
@[simp] theorem State.clearStall_holds (s : State) : (s.clearStall).holds = s.holds := by simp [State.clearStall]
@[simp] theorem State.clearStall_console (s : State) : (s.clearStall).console = s.console := by simp [State.clearStall]
@[simp] theorem State.clearStall_monitor (s : State) : (s.clearStall).monitor = s.monitor := by simp [State.clearStall]
@[simp] theorem State.clearStall_readout (s : State) : (s.clearStall).readout = s.readout := by simp [State.clearStall]
@[simp] theorem State.clearStall_pending (s : State) : (s.clearStall).pending = s.pending := by simp [State.clearStall]

@[simp] theorem State.select_link (s : State) : (s.select).link = s.link := by
  simp only [State.select]; (repeat' split) <;> simp
@[simp] theorem State.select_windows (s : State) : (s.select).windows = s.windows := by
  simp only [State.select]; (repeat' split) <;> simp
@[simp] theorem State.select_store (s : State) : (s.select).store = s.store := by
  simp only [State.select]; (repeat' split) <;> simp
@[simp] theorem State.select_straps (s : State) : (s.select).straps = s.straps := by
  simp only [State.select]; (repeat' split) <;> simp
@[simp] theorem State.select_resetHeld (s : State) : (s.select).resetHeld = s.resetHeld := by
  simp only [State.select]; (repeat' split) <;> simp
@[simp] theorem State.select_dram (s : State) : (s.select).dram = s.dram := by
  simp only [State.select]; (repeat' split) <;> simp
@[simp] theorem State.select_gen (s : State) : (s.select).gen = s.gen := by
  simp only [State.select]; (repeat' split) <;> simp
@[simp] theorem State.select_console (s : State) : (s.select).console = s.console := by
  simp only [State.select]; (repeat' split) <;> simp
@[simp] theorem State.select_monitor (s : State) : (s.select).monitor = s.monitor := by
  simp only [State.select]; (repeat' split) <;> simp
@[simp] theorem State.select_pending (s : State) : (s.select).pending = s.pending := by
  simp only [State.select]; (repeat' split) <;> simp

@[simp] theorem State.latch_link (s : State) : (s.latch).link = s.link := by
  simp only [State.latch]; (repeat' split) <;> simp
@[simp] theorem State.latch_windows (s : State) : (s.latch).windows = s.windows := by
  simp only [State.latch]; (repeat' split) <;> simp
@[simp] theorem State.latch_store (s : State) : (s.latch).store = s.store := by
  simp only [State.latch]; (repeat' split) <;> simp
@[simp] theorem State.latch_straps (s : State) : (s.latch).straps = s.straps := by
  simp only [State.latch]; (repeat' split) <;> simp
@[simp] theorem State.latch_resetHeld (s : State) : (s.latch).resetHeld = s.resetHeld := by
  simp only [State.latch]; (repeat' split) <;> simp
@[simp] theorem State.latch_dram (s : State) : (s.latch).dram = s.dram := by
  simp only [State.latch]; (repeat' split) <;> simp
@[simp] theorem State.latch_pool (s : State) : (s.latch).pool = s.pool := by
  simp only [State.latch]; (repeat' split) <;> simp
@[simp] theorem State.latch_ingest (s : State) : (s.latch).ingest = s.ingest := by
  simp only [State.latch]; (repeat' split) <;> simp
@[simp] theorem State.latch_queue (s : State) : (s.latch).queue = s.queue := by
  simp only [State.latch]; (repeat' split) <;> simp
@[simp] theorem State.latch_gen (s : State) : (s.latch).gen = s.gen := by
  simp only [State.latch]; (repeat' split) <;> simp
@[simp] theorem State.latch_air (s : State) : (s.latch).air = s.air := by
  simp only [State.latch]; (repeat' split) <;> simp
@[simp] theorem State.latch_holds (s : State) : (s.latch).holds = s.holds := by
  simp only [State.latch]; (repeat' split) <;> simp
@[simp] theorem State.latch_console (s : State) : (s.latch).console = s.console := by
  simp only [State.latch]; (repeat' split) <;> simp
@[simp] theorem State.latch_readout (s : State) : (s.latch).readout = s.readout := by
  simp only [State.latch]; (repeat' split) <;> simp
@[simp] theorem State.latch_pending (s : State) : (s.latch).pending = s.pending := by
  simp only [State.latch]; (repeat' split) <;> simp

@[simp] theorem State.blinkTick_link (s : State) : (s.blinkTick).link = s.link := by simp [State.blinkTick]
@[simp] theorem State.blinkTick_windows (s : State) : (s.blinkTick).windows = s.windows := by simp [State.blinkTick]
@[simp] theorem State.blinkTick_store (s : State) : (s.blinkTick).store = s.store := by simp [State.blinkTick]
@[simp] theorem State.blinkTick_straps (s : State) : (s.blinkTick).straps = s.straps := by simp [State.blinkTick]
@[simp] theorem State.blinkTick_resetHeld (s : State) : (s.blinkTick).resetHeld = s.resetHeld := by simp [State.blinkTick]
@[simp] theorem State.blinkTick_dram (s : State) : (s.blinkTick).dram = s.dram := by simp [State.blinkTick]
@[simp] theorem State.blinkTick_pool (s : State) : (s.blinkTick).pool = s.pool := by simp [State.blinkTick]
@[simp] theorem State.blinkTick_ingest (s : State) : (s.blinkTick).ingest = s.ingest := by simp [State.blinkTick]
@[simp] theorem State.blinkTick_queue (s : State) : (s.blinkTick).queue = s.queue := by simp [State.blinkTick]
@[simp] theorem State.blinkTick_gen (s : State) : (s.blinkTick).gen = s.gen := by simp [State.blinkTick]
@[simp] theorem State.blinkTick_air (s : State) : (s.blinkTick).air = s.air := by simp [State.blinkTick]
@[simp] theorem State.blinkTick_trim (s : State) : (s.blinkTick).trim = s.trim := by simp [State.blinkTick]
@[simp] theorem State.blinkTick_holds (s : State) : (s.blinkTick).holds = s.holds := by simp [State.blinkTick]
@[simp] theorem State.blinkTick_monitor (s : State) : (s.blinkTick).monitor = s.monitor := by simp [State.blinkTick]
@[simp] theorem State.blinkTick_readout (s : State) : (s.blinkTick).readout = s.readout := by simp [State.blinkTick]
@[simp] theorem State.blinkTick_pending (s : State) : (s.blinkTick).pending = s.pending := by simp [State.blinkTick]

@[simp] theorem State.raiseServe_link (s : State) : (s.raiseServe).link = s.link := by simp [State.raiseServe]
@[simp] theorem State.raiseServe_windows (s : State) : (s.raiseServe).windows = s.windows := by simp [State.raiseServe]
@[simp] theorem State.raiseServe_store (s : State) : (s.raiseServe).store = s.store := by simp [State.raiseServe]
@[simp] theorem State.raiseServe_straps (s : State) : (s.raiseServe).straps = s.straps := by simp [State.raiseServe]
@[simp] theorem State.raiseServe_resetHeld (s : State) : (s.raiseServe).resetHeld = s.resetHeld := by simp [State.raiseServe]
@[simp] theorem State.raiseServe_dram (s : State) : (s.raiseServe).dram = s.dram := by simp [State.raiseServe]
@[simp] theorem State.raiseServe_pool (s : State) : (s.raiseServe).pool = s.pool := by simp [State.raiseServe]
@[simp] theorem State.raiseServe_ingest (s : State) : (s.raiseServe).ingest = s.ingest := by simp [State.raiseServe]
@[simp] theorem State.raiseServe_queue (s : State) : (s.raiseServe).queue = s.queue := by simp [State.raiseServe]
@[simp] theorem State.raiseServe_gen (s : State) : (s.raiseServe).gen = s.gen := by simp [State.raiseServe]
@[simp] theorem State.raiseServe_trim (s : State) : (s.raiseServe).trim = s.trim := by simp [State.raiseServe]
@[simp] theorem State.raiseServe_holds (s : State) : (s.raiseServe).holds = s.holds := by simp [State.raiseServe]
@[simp] theorem State.raiseServe_console (s : State) : (s.raiseServe).console = s.console := by simp [State.raiseServe]
@[simp] theorem State.raiseServe_monitor (s : State) : (s.raiseServe).monitor = s.monitor := by simp [State.raiseServe]
@[simp] theorem State.raiseServe_readout (s : State) : (s.raiseServe).readout = s.readout := by simp [State.raiseServe]
@[simp] theorem State.raiseServe_pending (s : State) : (s.raiseServe).pending = s.pending := by simp [State.raiseServe]

/-- The frame released in R93's case keeps its binding but for the air delay. -/
theorem Air.zeroDelay_current (a : Air) :
    a.zeroDelay.current = a.current.map fun b => { b with airDelay := 0 } := by
  unfold Air.zeroDelay
  cases h : a.current with
  | none => simpa using h
  | some b =>
    have hc : ∀ slot, EgressSlot.ofOnAir a.onAir = slot →
        (({ a.setBinding slot (some { b with airDelay := 0 }) with lastAirDelay := some 0 } : Air).current) =
          some { b with airDelay := 0 } := by
      intro slot hs
      cases slot <;> simp only [Air.current, Air.setBinding, hs] <;> rfl
    exact hc _ rfl

/-- What a tick's selection does: the selection with the serve number risen, and then at most the air delay of
0 ticks (R93). -/
theorem State.selectTick_cases (s : State) (joined : Nat) :
    s.selectTick joined = s.raiseServe.select ∨
    (s.onlyThisInstant joined = true ∧ s.raiseServe.select.air.onAir ≠ s.air.onAir ∧
      s.selectTick joined = s.raiseServe.select.setAir s.raiseServe.select.air.zeroDelay) := by
  by_cases h : s.onlyThisInstant joined = true ∧ s.raiseServe.select.air.onAir ≠ s.air.onAir
  · exact .inr ⟨h.1, h.2, if_pos h⟩
  · exact .inl (if_neg h)

/-- No commit in the tick's instant: R79's difference stands, unless the queue is empty. -/
theorem State.onlyThisInstant_zero (s : State) (h : s.queue.entries ≠ []) :
    s.onlyThisInstant 0 = false := by
  simp [State.onlyThisInstant, State.depth, h]

@[simp] theorem State.selectTick_link (s : State) (joined : Nat) :
    (s.selectTick joined).link = s.raiseServe.select.link := by
  rcases s.selectTick_cases joined with h | ⟨-, -, h⟩ <;> simp [h]
@[simp] theorem State.selectTick_windows (s : State) (joined : Nat) :
    (s.selectTick joined).windows = s.raiseServe.select.windows := by
  rcases s.selectTick_cases joined with h | ⟨-, -, h⟩ <;> simp [h]
@[simp] theorem State.selectTick_store (s : State) (joined : Nat) :
    (s.selectTick joined).store = s.raiseServe.select.store := by
  rcases s.selectTick_cases joined with h | ⟨-, -, h⟩ <;> simp [h]
@[simp] theorem State.selectTick_straps (s : State) (joined : Nat) :
    (s.selectTick joined).straps = s.raiseServe.select.straps := by
  rcases s.selectTick_cases joined with h | ⟨-, -, h⟩ <;> simp [h]
@[simp] theorem State.selectTick_resetHeld (s : State) (joined : Nat) :
    (s.selectTick joined).resetHeld = s.raiseServe.select.resetHeld := by
  rcases s.selectTick_cases joined with h | ⟨-, -, h⟩ <;> simp [h]
@[simp] theorem State.selectTick_dram (s : State) (joined : Nat) :
    (s.selectTick joined).dram = s.raiseServe.select.dram := by
  rcases s.selectTick_cases joined with h | ⟨-, -, h⟩ <;> simp [h]
@[simp] theorem State.selectTick_gen (s : State) (joined : Nat) :
    (s.selectTick joined).gen = s.raiseServe.select.gen := by
  rcases s.selectTick_cases joined with h | ⟨-, -, h⟩ <;> simp [h]
@[simp] theorem State.selectTick_pending (s : State) (joined : Nat) :
    (s.selectTick joined).pending = s.raiseServe.select.pending := by
  rcases s.selectTick_cases joined with h | ⟨-, -, h⟩ <;> simp [h]
@[simp] theorem State.selectTick_pool (s : State) (joined : Nat) :
    (s.selectTick joined).pool = s.raiseServe.select.pool := by
  rcases s.selectTick_cases joined with h | ⟨-, -, h⟩ <;> simp [h]
@[simp] theorem State.selectTick_ingest (s : State) (joined : Nat) :
    (s.selectTick joined).ingest = s.raiseServe.select.ingest := by
  rcases s.selectTick_cases joined with h | ⟨-, -, h⟩ <;> simp [h]
@[simp] theorem State.selectTick_queue (s : State) (joined : Nat) :
    (s.selectTick joined).queue = s.raiseServe.select.queue := by
  rcases s.selectTick_cases joined with h | ⟨-, -, h⟩ <;> simp [h]
@[simp] theorem State.selectTick_trim (s : State) (joined : Nat) :
    (s.selectTick joined).trim = s.raiseServe.select.trim := by
  rcases s.selectTick_cases joined with h | ⟨-, -, h⟩ <;> simp [h]
@[simp] theorem State.selectTick_holds (s : State) (joined : Nat) :
    (s.selectTick joined).holds = s.raiseServe.select.holds := by
  rcases s.selectTick_cases joined with h | ⟨-, -, h⟩ <;> simp [h]
@[simp] theorem State.selectTick_monitor (s : State) (joined : Nat) :
    (s.selectTick joined).monitor = s.raiseServe.select.monitor := by
  rcases s.selectTick_cases joined with h | ⟨-, -, h⟩ <;> simp [h]
@[simp] theorem State.selectTick_console (s : State) (joined : Nat) :
    (s.selectTick joined).console = s.raiseServe.select.console := by
  rcases s.selectTick_cases joined with h | ⟨-, -, h⟩ <;> simp [h]
@[simp] theorem State.selectTick_readout (s : State) (joined : Nat) :
    (s.selectTick joined).readout = s.raiseServe.select.readout := by
  rcases s.selectTick_cases joined with h | ⟨-, -, h⟩ <;> simp [h]

@[simp] theorem State.tick_link (s : State) (joined : Nat) : (s.tick joined).link = s.link := by
  simp only [State.tick]; (repeat' split) <;> simp
@[simp] theorem State.tick_windows (s : State) (joined : Nat) : (s.tick joined).windows = s.windows := by
  simp only [State.tick]; (repeat' split) <;> simp
@[simp] theorem State.tick_store (s : State) (joined : Nat) : (s.tick joined).store = s.store := by
  simp only [State.tick]; (repeat' split) <;> simp
@[simp] theorem State.tick_straps (s : State) (joined : Nat) : (s.tick joined).straps = s.straps := by
  simp only [State.tick]; (repeat' split) <;> simp
@[simp] theorem State.tick_resetHeld (s : State) (joined : Nat) : (s.tick joined).resetHeld = s.resetHeld := by
  simp only [State.tick]; (repeat' split) <;> simp
@[simp] theorem State.tick_dram (s : State) (joined : Nat) : (s.tick joined).dram = s.dram := by
  simp only [State.tick]; (repeat' split) <;> simp
@[simp] theorem State.tick_gen (s : State) (joined : Nat) : (s.tick joined).gen = s.gen := by
  simp only [State.tick]; (repeat' split) <;> simp
@[simp] theorem State.tick_pending (s : State) (joined : Nat) : (s.tick joined).pending = s.pending := by
  simp only [State.tick]; (repeat' split) <;> simp

end Sys2Proof.Machine
end

