-- ==== Sys2Proof/Laws/LinkFrames.lean ====
section
/-! SUPPORT. Frames: what the link, command, tick and console operations leave unchanged, one lemma per operation and block. -/

namespace Sys2Proof.Machine

open Sys2Proof

@[simp] theorem State.writeHostLine_link (s : State) (a : Nat) (l : Line) : (s.writeHostLine a l).link = s.link := by simp [State.writeHostLine]
@[simp] theorem State.writeHostLine_windows (s : State) (a : Nat) (l : Line) : (s.writeHostLine a l).windows = s.windows := by simp [State.writeHostLine]
@[simp] theorem State.writeHostLine_store (s : State) (a : Nat) (l : Line) : (s.writeHostLine a l).store = s.store := by simp [State.writeHostLine]
@[simp] theorem State.writeHostLine_straps (s : State) (a : Nat) (l : Line) : (s.writeHostLine a l).straps = s.straps := by simp [State.writeHostLine]
@[simp] theorem State.writeHostLine_resetHeld (s : State) (a : Nat) (l : Line) : (s.writeHostLine a l).resetHeld = s.resetHeld := by simp [State.writeHostLine]
@[simp] theorem State.writeHostLine_pool (s : State) (a : Nat) (l : Line) : (s.writeHostLine a l).pool = s.pool := by simp [State.writeHostLine]
@[simp] theorem State.writeHostLine_ingest (s : State) (a : Nat) (l : Line) : (s.writeHostLine a l).ingest = s.ingest := by simp [State.writeHostLine]
@[simp] theorem State.writeHostLine_queue (s : State) (a : Nat) (l : Line) : (s.writeHostLine a l).queue = s.queue := by simp [State.writeHostLine]
@[simp] theorem State.writeHostLine_gen (s : State) (a : Nat) (l : Line) : (s.writeHostLine a l).gen = s.gen := by simp [State.writeHostLine]
@[simp] theorem State.writeHostLine_air (s : State) (a : Nat) (l : Line) : (s.writeHostLine a l).air = s.air := by simp [State.writeHostLine]
@[simp] theorem State.writeHostLine_trim (s : State) (a : Nat) (l : Line) : (s.writeHostLine a l).trim = s.trim := by simp [State.writeHostLine]
@[simp] theorem State.writeHostLine_holds (s : State) (a : Nat) (l : Line) : (s.writeHostLine a l).holds = s.holds := by simp [State.writeHostLine]
@[simp] theorem State.writeHostLine_console (s : State) (a : Nat) (l : Line) : (s.writeHostLine a l).console = s.console := by simp [State.writeHostLine]
@[simp] theorem State.writeHostLine_monitor (s : State) (a : Nat) (l : Line) : (s.writeHostLine a l).monitor = s.monitor := by simp [State.writeHostLine]
@[simp] theorem State.writeHostLine_readout (s : State) (a : Nat) (l : Line) : (s.writeHostLine a l).readout = s.readout := by simp [State.writeHostLine]
@[simp] theorem State.writeHostLine_pending (s : State) (a : Nat) (l : Line) : (s.writeHostLine a l).pending = s.pending := by simp [State.writeHostLine]

@[simp] theorem State.checkFailureNotice_link (s : State) (as : List Nat) : (s.checkFailureNotice as).link = s.link := by simp [State.checkFailureNotice]
@[simp] theorem State.checkFailureNotice_windows (s : State) (as : List Nat) : (s.checkFailureNotice as).windows = s.windows := by simp [State.checkFailureNotice]
@[simp] theorem State.checkFailureNotice_store (s : State) (as : List Nat) : (s.checkFailureNotice as).store = s.store := by simp [State.checkFailureNotice]
@[simp] theorem State.checkFailureNotice_straps (s : State) (as : List Nat) : (s.checkFailureNotice as).straps = s.straps := by simp [State.checkFailureNotice]
@[simp] theorem State.checkFailureNotice_resetHeld (s : State) (as : List Nat) : (s.checkFailureNotice as).resetHeld = s.resetHeld := by simp [State.checkFailureNotice]
@[simp] theorem State.checkFailureNotice_dram (s : State) (as : List Nat) : (s.checkFailureNotice as).dram = s.dram := by simp [State.checkFailureNotice]
@[simp] theorem State.checkFailureNotice_pool (s : State) (as : List Nat) : (s.checkFailureNotice as).pool = s.pool := by simp [State.checkFailureNotice]
@[simp] theorem State.checkFailureNotice_queue (s : State) (as : List Nat) : (s.checkFailureNotice as).queue = s.queue := by simp [State.checkFailureNotice]
@[simp] theorem State.checkFailureNotice_gen (s : State) (as : List Nat) : (s.checkFailureNotice as).gen = s.gen := by simp [State.checkFailureNotice]
@[simp] theorem State.checkFailureNotice_air (s : State) (as : List Nat) : (s.checkFailureNotice as).air = s.air := by simp [State.checkFailureNotice]
@[simp] theorem State.checkFailureNotice_trim (s : State) (as : List Nat) : (s.checkFailureNotice as).trim = s.trim := by simp [State.checkFailureNotice]
@[simp] theorem State.checkFailureNotice_holds (s : State) (as : List Nat) : (s.checkFailureNotice as).holds = s.holds := by simp [State.checkFailureNotice]
@[simp] theorem State.checkFailureNotice_console (s : State) (as : List Nat) : (s.checkFailureNotice as).console = s.console := by simp [State.checkFailureNotice]
@[simp] theorem State.checkFailureNotice_monitor (s : State) (as : List Nat) : (s.checkFailureNotice as).monitor = s.monitor := by simp [State.checkFailureNotice]
@[simp] theorem State.checkFailureNotice_readout (s : State) (as : List Nat) : (s.checkFailureNotice as).readout = s.readout := by simp [State.checkFailureNotice]
@[simp] theorem State.checkFailureNotice_pending (s : State) (as : List Nat) : (s.checkFailureNotice as).pending = s.pending := by simp [State.checkFailureNotice]

@[simp] theorem State.failedWrite_link (s : State) (a : Addr) (n : Nat) : (s.failedWrite a n).link = s.link := by
  simp only [State.failedWrite]; (repeat' split) <;> simp
@[simp] theorem State.failedWrite_windows (s : State) (a : Addr) (n : Nat) : (s.failedWrite a n).windows = s.windows := by
  simp only [State.failedWrite]; (repeat' split) <;> simp
@[simp] theorem State.failedWrite_store (s : State) (a : Addr) (n : Nat) : (s.failedWrite a n).store = s.store := by
  simp only [State.failedWrite]; (repeat' split) <;> simp
@[simp] theorem State.failedWrite_straps (s : State) (a : Addr) (n : Nat) : (s.failedWrite a n).straps = s.straps := by
  simp only [State.failedWrite]; (repeat' split) <;> simp
@[simp] theorem State.failedWrite_resetHeld (s : State) (a : Addr) (n : Nat) : (s.failedWrite a n).resetHeld = s.resetHeld := by
  simp only [State.failedWrite]; (repeat' split) <;> simp
@[simp] theorem State.failedWrite_dram (s : State) (a : Addr) (n : Nat) : (s.failedWrite a n).dram = s.dram := by
  simp only [State.failedWrite]; (repeat' split) <;> simp
@[simp] theorem State.failedWrite_pool (s : State) (a : Addr) (n : Nat) : (s.failedWrite a n).pool = s.pool := by
  simp only [State.failedWrite]; (repeat' split) <;> simp
@[simp] theorem State.failedWrite_queue (s : State) (a : Addr) (n : Nat) : (s.failedWrite a n).queue = s.queue := by
  simp only [State.failedWrite]; (repeat' split) <;> simp
@[simp] theorem State.failedWrite_gen (s : State) (a : Addr) (n : Nat) : (s.failedWrite a n).gen = s.gen := by
  simp only [State.failedWrite]; (repeat' split) <;> simp
@[simp] theorem State.failedWrite_air (s : State) (a : Addr) (n : Nat) : (s.failedWrite a n).air = s.air := by
  simp only [State.failedWrite]; (repeat' split) <;> simp
@[simp] theorem State.failedWrite_trim (s : State) (a : Addr) (n : Nat) : (s.failedWrite a n).trim = s.trim := by
  simp only [State.failedWrite]; (repeat' split) <;> simp
@[simp] theorem State.failedWrite_holds (s : State) (a : Addr) (n : Nat) : (s.failedWrite a n).holds = s.holds := by
  simp only [State.failedWrite]; (repeat' split) <;> simp
@[simp] theorem State.failedWrite_console (s : State) (a : Addr) (n : Nat) : (s.failedWrite a n).console = s.console := by
  simp only [State.failedWrite]; (repeat' split) <;> simp
@[simp] theorem State.failedWrite_monitor (s : State) (a : Addr) (n : Nat) : (s.failedWrite a n).monitor = s.monitor := by
  simp only [State.failedWrite]; (repeat' split) <;> simp
@[simp] theorem State.failedWrite_pending (s : State) (a : Addr) (n : Nat) : (s.failedWrite a n).pending = s.pending := by
  simp only [State.failedWrite]; (repeat' split) <;> simp

@[simp] theorem State.pushInFlight_windows (s : State) (e : InFlight) : (s.pushInFlight e).windows = s.windows := by simp [State.pushInFlight]
@[simp] theorem State.pushInFlight_store (s : State) (e : InFlight) : (s.pushInFlight e).store = s.store := by simp [State.pushInFlight]
@[simp] theorem State.pushInFlight_straps (s : State) (e : InFlight) : (s.pushInFlight e).straps = s.straps := by simp [State.pushInFlight]
@[simp] theorem State.pushInFlight_resetHeld (s : State) (e : InFlight) : (s.pushInFlight e).resetHeld = s.resetHeld := by simp [State.pushInFlight]
@[simp] theorem State.pushInFlight_dram (s : State) (e : InFlight) : (s.pushInFlight e).dram = s.dram := by simp [State.pushInFlight]
@[simp] theorem State.pushInFlight_pool (s : State) (e : InFlight) : (s.pushInFlight e).pool = s.pool := by simp [State.pushInFlight]
@[simp] theorem State.pushInFlight_ingest (s : State) (e : InFlight) : (s.pushInFlight e).ingest = s.ingest := by simp [State.pushInFlight]
@[simp] theorem State.pushInFlight_queue (s : State) (e : InFlight) : (s.pushInFlight e).queue = s.queue := by simp [State.pushInFlight]
@[simp] theorem State.pushInFlight_gen (s : State) (e : InFlight) : (s.pushInFlight e).gen = s.gen := by simp [State.pushInFlight]
@[simp] theorem State.pushInFlight_air (s : State) (e : InFlight) : (s.pushInFlight e).air = s.air := by simp [State.pushInFlight]
@[simp] theorem State.pushInFlight_trim (s : State) (e : InFlight) : (s.pushInFlight e).trim = s.trim := by simp [State.pushInFlight]
@[simp] theorem State.pushInFlight_holds (s : State) (e : InFlight) : (s.pushInFlight e).holds = s.holds := by simp [State.pushInFlight]
@[simp] theorem State.pushInFlight_console (s : State) (e : InFlight) : (s.pushInFlight e).console = s.console := by simp [State.pushInFlight]
@[simp] theorem State.pushInFlight_monitor (s : State) (e : InFlight) : (s.pushInFlight e).monitor = s.monitor := by simp [State.pushInFlight]
@[simp] theorem State.pushInFlight_readout (s : State) (e : InFlight) : (s.pushInFlight e).readout = s.readout := by simp [State.pushInFlight]
@[simp] theorem State.pushInFlight_pending (s : State) (e : InFlight) : (s.pushInFlight e).pending = s.pending := by simp [State.pushInFlight]

@[simp] theorem State.reportUnclaimed_link (s : State) (as : List Nat) : (s.reportUnclaimed as).link = s.link := by
  simp only [State.reportUnclaimed]; (repeat' split) <;> simp
@[simp] theorem State.reportUnclaimed_windows (s : State) (as : List Nat) : (s.reportUnclaimed as).windows = s.windows := by
  simp only [State.reportUnclaimed]; (repeat' split) <;> simp
@[simp] theorem State.reportUnclaimed_store (s : State) (as : List Nat) : (s.reportUnclaimed as).store = s.store := by
  simp only [State.reportUnclaimed]; (repeat' split) <;> simp
@[simp] theorem State.reportUnclaimed_straps (s : State) (as : List Nat) : (s.reportUnclaimed as).straps = s.straps := by
  simp only [State.reportUnclaimed]; (repeat' split) <;> simp
@[simp] theorem State.reportUnclaimed_resetHeld (s : State) (as : List Nat) : (s.reportUnclaimed as).resetHeld = s.resetHeld := by
  simp only [State.reportUnclaimed]; (repeat' split) <;> simp
@[simp] theorem State.reportUnclaimed_dram (s : State) (as : List Nat) : (s.reportUnclaimed as).dram = s.dram := by
  simp only [State.reportUnclaimed]; (repeat' split) <;> simp
@[simp] theorem State.reportUnclaimed_pool (s : State) (as : List Nat) : (s.reportUnclaimed as).pool = s.pool := by
  simp only [State.reportUnclaimed]; (repeat' split) <;> simp
@[simp] theorem State.reportUnclaimed_ingest (s : State) (as : List Nat) : (s.reportUnclaimed as).ingest = s.ingest := by
  simp only [State.reportUnclaimed]; (repeat' split) <;> simp
@[simp] theorem State.reportUnclaimed_queue (s : State) (as : List Nat) : (s.reportUnclaimed as).queue = s.queue := by
  simp only [State.reportUnclaimed]; (repeat' split) <;> simp
@[simp] theorem State.reportUnclaimed_gen (s : State) (as : List Nat) : (s.reportUnclaimed as).gen = s.gen := by
  simp only [State.reportUnclaimed]; (repeat' split) <;> simp
@[simp] theorem State.reportUnclaimed_air (s : State) (as : List Nat) : (s.reportUnclaimed as).air = s.air := by
  simp only [State.reportUnclaimed]; (repeat' split) <;> simp
@[simp] theorem State.reportUnclaimed_trim (s : State) (as : List Nat) : (s.reportUnclaimed as).trim = s.trim := by
  simp only [State.reportUnclaimed]; (repeat' split) <;> simp
@[simp] theorem State.reportUnclaimed_holds (s : State) (as : List Nat) : (s.reportUnclaimed as).holds = s.holds := by
  simp only [State.reportUnclaimed]; (repeat' split) <;> simp
@[simp] theorem State.reportUnclaimed_console (s : State) (as : List Nat) : (s.reportUnclaimed as).console = s.console := by
  simp only [State.reportUnclaimed]; (repeat' split) <;> simp
@[simp] theorem State.reportUnclaimed_monitor (s : State) (as : List Nat) : (s.reportUnclaimed as).monitor = s.monitor := by
  simp only [State.reportUnclaimed]; (repeat' split) <;> simp
@[simp] theorem State.reportUnclaimed_pending (s : State) (as : List Nat) : (s.reportUnclaimed as).pending = s.pending := by
  simp only [State.reportUnclaimed]; (repeat' split) <;> simp

@[simp] theorem State.acceptRead_windows (s : State) (as : List Nat) (t : BitVec 6) : (s.acceptRead as t).windows = s.windows := by simp [State.acceptRead]
@[simp] theorem State.acceptRead_store (s : State) (as : List Nat) (t : BitVec 6) : (s.acceptRead as t).store = s.store := by simp [State.acceptRead]
@[simp] theorem State.acceptRead_straps (s : State) (as : List Nat) (t : BitVec 6) : (s.acceptRead as t).straps = s.straps := by simp [State.acceptRead]
@[simp] theorem State.acceptRead_resetHeld (s : State) (as : List Nat) (t : BitVec 6) : (s.acceptRead as t).resetHeld = s.resetHeld := by simp [State.acceptRead]
@[simp] theorem State.acceptRead_dram (s : State) (as : List Nat) (t : BitVec 6) : (s.acceptRead as t).dram = s.dram := by simp [State.acceptRead]
@[simp] theorem State.acceptRead_ingest (s : State) (as : List Nat) (t : BitVec 6) : (s.acceptRead as t).ingest = s.ingest := by simp [State.acceptRead]
@[simp] theorem State.acceptRead_queue (s : State) (as : List Nat) (t : BitVec 6) : (s.acceptRead as t).queue = s.queue := by simp [State.acceptRead]
@[simp] theorem State.acceptRead_gen (s : State) (as : List Nat) (t : BitVec 6) : (s.acceptRead as t).gen = s.gen := by simp [State.acceptRead]
@[simp] theorem State.acceptRead_air (s : State) (as : List Nat) (t : BitVec 6) : (s.acceptRead as t).air = s.air := by simp [State.acceptRead]
@[simp] theorem State.acceptRead_trim (s : State) (as : List Nat) (t : BitVec 6) : (s.acceptRead as t).trim = s.trim := by simp [State.acceptRead]
@[simp] theorem State.acceptRead_holds (s : State) (as : List Nat) (t : BitVec 6) : (s.acceptRead as t).holds = s.holds := by simp [State.acceptRead]
@[simp] theorem State.acceptRead_console (s : State) (as : List Nat) (t : BitVec 6) : (s.acceptRead as t).console = s.console := by simp [State.acceptRead]
@[simp] theorem State.acceptRead_monitor (s : State) (as : List Nat) (t : BitVec 6) : (s.acceptRead as t).monitor = s.monitor := by simp [State.acceptRead]
@[simp] theorem State.acceptRead_pending (s : State) (as : List Nat) (t : BitVec 6) : (s.acceptRead as t).pending = s.pending := by simp [State.acceptRead]

@[simp] theorem State.takeRead_windows (s : State) (a : Addr) (n : Nat) (t : BitVec 6) : (s.takeRead a n t).windows = s.windows := by
  simp only [State.takeRead]; (repeat' split) <;> simp
@[simp] theorem State.takeRead_store (s : State) (a : Addr) (n : Nat) (t : BitVec 6) : (s.takeRead a n t).store = s.store := by
  simp only [State.takeRead]; (repeat' split) <;> simp
@[simp] theorem State.takeRead_straps (s : State) (a : Addr) (n : Nat) (t : BitVec 6) : (s.takeRead a n t).straps = s.straps := by
  simp only [State.takeRead]; (repeat' split) <;> simp
@[simp] theorem State.takeRead_resetHeld (s : State) (a : Addr) (n : Nat) (t : BitVec 6) : (s.takeRead a n t).resetHeld = s.resetHeld := by
  simp only [State.takeRead]; (repeat' split) <;> simp
@[simp] theorem State.takeRead_dram (s : State) (a : Addr) (n : Nat) (t : BitVec 6) : (s.takeRead a n t).dram = s.dram := by
  simp only [State.takeRead]; (repeat' split) <;> simp
@[simp] theorem State.takeRead_ingest (s : State) (a : Addr) (n : Nat) (t : BitVec 6) : (s.takeRead a n t).ingest = s.ingest := by
  simp only [State.takeRead]; (repeat' split) <;> simp
@[simp] theorem State.takeRead_queue (s : State) (a : Addr) (n : Nat) (t : BitVec 6) : (s.takeRead a n t).queue = s.queue := by
  simp only [State.takeRead]; (repeat' split) <;> simp
@[simp] theorem State.takeRead_gen (s : State) (a : Addr) (n : Nat) (t : BitVec 6) : (s.takeRead a n t).gen = s.gen := by
  simp only [State.takeRead]; (repeat' split) <;> simp
@[simp] theorem State.takeRead_air (s : State) (a : Addr) (n : Nat) (t : BitVec 6) : (s.takeRead a n t).air = s.air := by
  simp only [State.takeRead]; (repeat' split) <;> simp
@[simp] theorem State.takeRead_trim (s : State) (a : Addr) (n : Nat) (t : BitVec 6) : (s.takeRead a n t).trim = s.trim := by
  simp only [State.takeRead]; (repeat' split) <;> simp
@[simp] theorem State.takeRead_holds (s : State) (a : Addr) (n : Nat) (t : BitVec 6) : (s.takeRead a n t).holds = s.holds := by
  simp only [State.takeRead]; (repeat' split) <;> simp
@[simp] theorem State.takeRead_console (s : State) (a : Addr) (n : Nat) (t : BitVec 6) : (s.takeRead a n t).console = s.console := by
  simp only [State.takeRead]; (repeat' split) <;> simp
@[simp] theorem State.takeRead_monitor (s : State) (a : Addr) (n : Nat) (t : BitVec 6) : (s.takeRead a n t).monitor = s.monitor := by
  simp only [State.takeRead]; (repeat' split) <;> simp
@[simp] theorem State.takeRead_pending (s : State) (a : Addr) (n : Nat) (t : BitVec 6) : (s.takeRead a n t).pending = s.pending := by
  simp only [State.takeRead]; (repeat' split) <;> simp

@[simp] theorem State.setWaiting_windows (s : State) (rs : List Request) : (s.setWaiting rs).windows = s.windows := by simp [State.setWaiting]
@[simp] theorem State.setWaiting_store (s : State) (rs : List Request) : (s.setWaiting rs).store = s.store := by simp [State.setWaiting]
@[simp] theorem State.setWaiting_straps (s : State) (rs : List Request) : (s.setWaiting rs).straps = s.straps := by simp [State.setWaiting]
@[simp] theorem State.setWaiting_resetHeld (s : State) (rs : List Request) : (s.setWaiting rs).resetHeld = s.resetHeld := by simp [State.setWaiting]
@[simp] theorem State.setWaiting_dram (s : State) (rs : List Request) : (s.setWaiting rs).dram = s.dram := by simp [State.setWaiting]
@[simp] theorem State.setWaiting_pool (s : State) (rs : List Request) : (s.setWaiting rs).pool = s.pool := by simp [State.setWaiting]
@[simp] theorem State.setWaiting_ingest (s : State) (rs : List Request) : (s.setWaiting rs).ingest = s.ingest := by simp [State.setWaiting]
@[simp] theorem State.setWaiting_queue (s : State) (rs : List Request) : (s.setWaiting rs).queue = s.queue := by simp [State.setWaiting]
@[simp] theorem State.setWaiting_gen (s : State) (rs : List Request) : (s.setWaiting rs).gen = s.gen := by simp [State.setWaiting]
@[simp] theorem State.setWaiting_air (s : State) (rs : List Request) : (s.setWaiting rs).air = s.air := by simp [State.setWaiting]
@[simp] theorem State.setWaiting_trim (s : State) (rs : List Request) : (s.setWaiting rs).trim = s.trim := by simp [State.setWaiting]
@[simp] theorem State.setWaiting_holds (s : State) (rs : List Request) : (s.setWaiting rs).holds = s.holds := by simp [State.setWaiting]
@[simp] theorem State.setWaiting_console (s : State) (rs : List Request) : (s.setWaiting rs).console = s.console := by simp [State.setWaiting]
@[simp] theorem State.setWaiting_monitor (s : State) (rs : List Request) : (s.setWaiting rs).monitor = s.monitor := by simp [State.setWaiting]
@[simp] theorem State.setWaiting_readout (s : State) (rs : List Request) : (s.setWaiting rs).readout = s.readout := by simp [State.setWaiting]
@[simp] theorem State.setWaiting_pending (s : State) (rs : List Request) : (s.setWaiting rs).pending = s.pending := by simp [State.setWaiting]

@[simp] theorem State.drainStep_link (s : State) : (s.drainStep).link = s.link := by
  simp only [State.drainStep]; (repeat' split) <;> simp
@[simp] theorem State.drainStep_windows (s : State) : (s.drainStep).windows = s.windows := by
  simp only [State.drainStep]; (repeat' split) <;> simp
@[simp] theorem State.drainStep_store (s : State) : (s.drainStep).store = s.store := by
  simp only [State.drainStep]; (repeat' split) <;> simp
@[simp] theorem State.drainStep_straps (s : State) : (s.drainStep).straps = s.straps := by
  simp only [State.drainStep]; (repeat' split) <;> simp
@[simp] theorem State.drainStep_resetHeld (s : State) : (s.drainStep).resetHeld = s.resetHeld := by
  simp only [State.drainStep]; (repeat' split) <;> simp
@[simp] theorem State.drainStep_dram (s : State) : (s.drainStep).dram = s.dram := by
  simp only [State.drainStep]; (repeat' split) <;> simp
@[simp] theorem State.drainStep_ingest (s : State) : (s.drainStep).ingest = s.ingest := by
  simp only [State.drainStep]; (repeat' split) <;> simp
@[simp] theorem State.drainStep_queue (s : State) : (s.drainStep).queue = s.queue := by
  simp only [State.drainStep]; (repeat' split) <;> simp
@[simp] theorem State.drainStep_gen (s : State) : (s.drainStep).gen = s.gen := by
  simp only [State.drainStep]; (repeat' split) <;> simp
@[simp] theorem State.drainStep_air (s : State) : (s.drainStep).air = s.air := by
  simp only [State.drainStep]; (repeat' split) <;> simp
@[simp] theorem State.drainStep_trim (s : State) : (s.drainStep).trim = s.trim := by
  simp only [State.drainStep]; (repeat' split) <;> simp
@[simp] theorem State.drainStep_holds (s : State) : (s.drainStep).holds = s.holds := by
  simp only [State.drainStep]; (repeat' split) <;> simp
@[simp] theorem State.drainStep_console (s : State) : (s.drainStep).console = s.console := by
  simp only [State.drainStep]; (repeat' split) <;> simp
@[simp] theorem State.drainStep_readout (s : State) : (s.drainStep).readout = s.readout := by
  simp only [State.drainStep]; (repeat' split) <;> simp
@[simp] theorem State.drainStep_pending (s : State) : (s.drainStep).pending = s.pending := by
  simp only [State.drainStep]; (repeat' split) <;> simp

@[simp] theorem State.completeOldest_windows (s : State) (e : InFlight) (rest : List InFlight) : (s.completeOldest e rest).windows = s.windows := by simp [State.completeOldest]
@[simp] theorem State.completeOldest_store (s : State) (e : InFlight) (rest : List InFlight) : (s.completeOldest e rest).store = s.store := by simp [State.completeOldest]
@[simp] theorem State.completeOldest_straps (s : State) (e : InFlight) (rest : List InFlight) : (s.completeOldest e rest).straps = s.straps := by simp [State.completeOldest]
@[simp] theorem State.completeOldest_resetHeld (s : State) (e : InFlight) (rest : List InFlight) : (s.completeOldest e rest).resetHeld = s.resetHeld := by simp [State.completeOldest]
@[simp] theorem State.completeOldest_dram (s : State) (e : InFlight) (rest : List InFlight) : (s.completeOldest e rest).dram = s.dram := by simp [State.completeOldest]
@[simp] theorem State.completeOldest_ingest (s : State) (e : InFlight) (rest : List InFlight) : (s.completeOldest e rest).ingest = s.ingest := by simp [State.completeOldest]
@[simp] theorem State.completeOldest_queue (s : State) (e : InFlight) (rest : List InFlight) : (s.completeOldest e rest).queue = s.queue := by simp [State.completeOldest]
@[simp] theorem State.completeOldest_gen (s : State) (e : InFlight) (rest : List InFlight) : (s.completeOldest e rest).gen = s.gen := by simp [State.completeOldest]
@[simp] theorem State.completeOldest_air (s : State) (e : InFlight) (rest : List InFlight) : (s.completeOldest e rest).air = s.air := by simp [State.completeOldest]
@[simp] theorem State.completeOldest_trim (s : State) (e : InFlight) (rest : List InFlight) : (s.completeOldest e rest).trim = s.trim := by simp [State.completeOldest]
@[simp] theorem State.completeOldest_holds (s : State) (e : InFlight) (rest : List InFlight) : (s.completeOldest e rest).holds = s.holds := by simp [State.completeOldest]
@[simp] theorem State.completeOldest_console (s : State) (e : InFlight) (rest : List InFlight) : (s.completeOldest e rest).console = s.console := by simp [State.completeOldest]
@[simp] theorem State.completeOldest_readout (s : State) (e : InFlight) (rest : List InFlight) : (s.completeOldest e rest).readout = s.readout := by simp [State.completeOldest]
@[simp] theorem State.completeOldest_pending (s : State) (e : InFlight) (rest : List InFlight) : (s.completeOldest e rest).pending = s.pending := by simp [State.completeOldest]

@[simp] theorem State.tearDown_link (s : State) : (s.tearDown).link = s.link := by simp [State.tearDown]
@[simp] theorem State.tearDown_windows (s : State) : (s.tearDown).windows = s.windows := by simp [State.tearDown]
@[simp] theorem State.tearDown_store (s : State) : (s.tearDown).store = s.store := by simp [State.tearDown]
@[simp] theorem State.tearDown_straps (s : State) : (s.tearDown).straps = s.straps := by simp [State.tearDown]
@[simp] theorem State.tearDown_resetHeld (s : State) : (s.tearDown).resetHeld = s.resetHeld := by simp [State.tearDown]
@[simp] theorem State.tearDown_dram (s : State) : (s.tearDown).dram = s.dram := by simp [State.tearDown]
@[simp] theorem State.tearDown_gen (s : State) : (s.tearDown).gen = s.gen := by simp [State.tearDown]
@[simp] theorem State.tearDown_console (s : State) : (s.tearDown).console = s.console := by simp [State.tearDown]
@[simp] theorem State.tearDown_readout (s : State) : (s.tearDown).readout = s.readout := by simp [State.tearDown]
@[simp] theorem State.tearDown_pending (s : State) : (s.tearDown).pending = s.pending := by simp [State.tearDown]

@[simp] theorem State.stopRun_link (s : State) : (s.stopRun).link = s.link := by simp [State.stopRun]
@[simp] theorem State.stopRun_windows (s : State) : (s.stopRun).windows = s.windows := by simp [State.stopRun]
@[simp] theorem State.stopRun_store (s : State) : (s.stopRun).store = s.store := by simp [State.stopRun]
@[simp] theorem State.stopRun_straps (s : State) : (s.stopRun).straps = s.straps := by simp [State.stopRun]
@[simp] theorem State.stopRun_resetHeld (s : State) : (s.stopRun).resetHeld = s.resetHeld := by simp [State.stopRun]
@[simp] theorem State.stopRun_dram (s : State) : (s.stopRun).dram = s.dram := by simp [State.stopRun]
@[simp] theorem State.stopRun_gen (s : State) : (s.stopRun).gen = s.gen := by simp [State.stopRun]
@[simp] theorem State.stopRun_console (s : State) : (s.stopRun).console = s.console := by simp [State.stopRun]
@[simp] theorem State.stopRun_readout (s : State) : (s.stopRun).readout = s.readout := by simp [State.stopRun]
@[simp] theorem State.stopRun_pending (s : State) : (s.stopRun).pending = s.pending := by simp [State.stopRun]

@[simp] theorem State.engineReset_link (s : State) : (s.engineReset).link = s.link := by simp [State.engineReset]
@[simp] theorem State.engineReset_windows (s : State) : (s.engineReset).windows = s.windows := by simp [State.engineReset]
@[simp] theorem State.engineReset_store (s : State) : (s.engineReset).store = s.store := by simp [State.engineReset]
@[simp] theorem State.engineReset_straps (s : State) : (s.engineReset).straps = s.straps := by simp [State.engineReset]
@[simp] theorem State.engineReset_resetHeld (s : State) : (s.engineReset).resetHeld = s.resetHeld := by simp [State.engineReset]
@[simp] theorem State.engineReset_dram (s : State) : (s.engineReset).dram = s.dram := by simp [State.engineReset]
@[simp] theorem State.engineReset_pool (s : State) : (s.engineReset).pool = s.pool := by simp [State.engineReset]
@[simp] theorem State.engineReset_gen (s : State) : (s.engineReset).gen = s.gen := by simp [State.engineReset]
@[simp] theorem State.engineReset_console (s : State) : (s.engineReset).console = s.console := by simp [State.engineReset]
@[simp] theorem State.engineReset_pending (s : State) : (s.engineReset).pending = s.pending := by simp [State.engineReset]

@[simp] theorem State.enterResult_link (s : State) (n c : Byte) (r : CmdResult) : (s.enterResult n c r).link = s.link := by simp [State.enterResult]
@[simp] theorem State.enterResult_windows (s : State) (n c : Byte) (r : CmdResult) : (s.enterResult n c r).windows = s.windows := by simp [State.enterResult]
@[simp] theorem State.enterResult_store (s : State) (n c : Byte) (r : CmdResult) : (s.enterResult n c r).store = s.store := by simp [State.enterResult]
@[simp] theorem State.enterResult_straps (s : State) (n c : Byte) (r : CmdResult) : (s.enterResult n c r).straps = s.straps := by simp [State.enterResult]
@[simp] theorem State.enterResult_resetHeld (s : State) (n c : Byte) (r : CmdResult) : (s.enterResult n c r).resetHeld = s.resetHeld := by simp [State.enterResult]
@[simp] theorem State.enterResult_dram (s : State) (n c : Byte) (r : CmdResult) : (s.enterResult n c r).dram = s.dram := by simp [State.enterResult]
@[simp] theorem State.enterResult_pool (s : State) (n c : Byte) (r : CmdResult) : (s.enterResult n c r).pool = s.pool := by simp [State.enterResult]
@[simp] theorem State.enterResult_ingest (s : State) (n c : Byte) (r : CmdResult) : (s.enterResult n c r).ingest = s.ingest := by simp [State.enterResult]
@[simp] theorem State.enterResult_queue (s : State) (n c : Byte) (r : CmdResult) : (s.enterResult n c r).queue = s.queue := by simp [State.enterResult]
@[simp] theorem State.enterResult_gen (s : State) (n c : Byte) (r : CmdResult) : (s.enterResult n c r).gen = s.gen := by simp [State.enterResult]
@[simp] theorem State.enterResult_air (s : State) (n c : Byte) (r : CmdResult) : (s.enterResult n c r).air = s.air := by simp [State.enterResult]
@[simp] theorem State.enterResult_trim (s : State) (n c : Byte) (r : CmdResult) : (s.enterResult n c r).trim = s.trim := by simp [State.enterResult]
@[simp] theorem State.enterResult_holds (s : State) (n c : Byte) (r : CmdResult) : (s.enterResult n c r).holds = s.holds := by simp [State.enterResult]
@[simp] theorem State.enterResult_console (s : State) (n c : Byte) (r : CmdResult) : (s.enterResult n c r).console = s.console := by simp [State.enterResult]
@[simp] theorem State.enterResult_readout (s : State) (n c : Byte) (r : CmdResult) : (s.enterResult n c r).readout = s.readout := by simp [State.enterResult]
@[simp] theorem State.enterResult_pending (s : State) (n c : Byte) (r : CmdResult) : (s.enterResult n c r).pending = s.pending := by simp [State.enterResult]

@[simp] theorem State.setReference_link (s : State) (m : GenMode) (t g : Nat) : (s.setReference m t g).link = s.link := by simp [State.setReference]
@[simp] theorem State.setReference_windows (s : State) (m : GenMode) (t g : Nat) : (s.setReference m t g).windows = s.windows := by simp [State.setReference]
@[simp] theorem State.setReference_store (s : State) (m : GenMode) (t g : Nat) : (s.setReference m t g).store = s.store := by simp [State.setReference]
@[simp] theorem State.setReference_straps (s : State) (m : GenMode) (t g : Nat) : (s.setReference m t g).straps = s.straps := by simp [State.setReference]
@[simp] theorem State.setReference_resetHeld (s : State) (m : GenMode) (t g : Nat) : (s.setReference m t g).resetHeld = s.resetHeld := by simp [State.setReference]
@[simp] theorem State.setReference_dram (s : State) (m : GenMode) (t g : Nat) : (s.setReference m t g).dram = s.dram := by simp [State.setReference]
@[simp] theorem State.setReference_pool (s : State) (m : GenMode) (t g : Nat) : (s.setReference m t g).pool = s.pool := by simp [State.setReference]
@[simp] theorem State.setReference_ingest (s : State) (m : GenMode) (t g : Nat) : (s.setReference m t g).ingest = s.ingest := by simp [State.setReference]
@[simp] theorem State.setReference_queue (s : State) (m : GenMode) (t g : Nat) : (s.setReference m t g).queue = s.queue := by simp [State.setReference]
@[simp] theorem State.setReference_air (s : State) (m : GenMode) (t g : Nat) : (s.setReference m t g).air = s.air := by simp [State.setReference]
@[simp] theorem State.setReference_trim (s : State) (m : GenMode) (t g : Nat) : (s.setReference m t g).trim = s.trim := by simp [State.setReference]
@[simp] theorem State.setReference_holds (s : State) (m : GenMode) (t g : Nat) : (s.setReference m t g).holds = s.holds := by simp [State.setReference]
@[simp] theorem State.setReference_console (s : State) (m : GenMode) (t g : Nat) : (s.setReference m t g).console = s.console := by simp [State.setReference]
@[simp] theorem State.setReference_monitor (s : State) (m : GenMode) (t g : Nat) : (s.setReference m t g).monitor = s.monitor := by simp [State.setReference]
@[simp] theorem State.setReference_readout (s : State) (m : GenMode) (t g : Nat) : (s.setReference m t g).readout = s.readout := by simp [State.setReference]
@[simp] theorem State.setReference_pending (s : State) (m : GenMode) (t g : Nat) : (s.setReference m t g).pending = s.pending := by simp [State.setReference]

@[simp] theorem State.loseRef_link (s : State) (t joined : Nat) : (s.loseRef t joined).link = s.link := by simp [State.loseRef]
@[simp] theorem State.loseRef_windows (s : State) (t joined : Nat) : (s.loseRef t joined).windows = s.windows := by simp [State.loseRef]
@[simp] theorem State.loseRef_store (s : State) (t joined : Nat) : (s.loseRef t joined).store = s.store := by simp [State.loseRef]
@[simp] theorem State.loseRef_straps (s : State) (t joined : Nat) : (s.loseRef t joined).straps = s.straps := by simp [State.loseRef]
@[simp] theorem State.loseRef_resetHeld (s : State) (t joined : Nat) : (s.loseRef t joined).resetHeld = s.resetHeld := by simp [State.loseRef]
@[simp] theorem State.loseRef_dram (s : State) (t joined : Nat) : (s.loseRef t joined).dram = s.dram := by simp [State.loseRef]
@[simp] theorem State.loseRef_pending (s : State) (t joined : Nat) : (s.loseRef t joined).pending = s.pending := by simp [State.loseRef]

@[simp] theorem State.generateTick_link (s : State) (t joined : Nat) : (s.generateTick t joined).link = s.link := by simp [State.generateTick]
@[simp] theorem State.generateTick_windows (s : State) (t joined : Nat) : (s.generateTick t joined).windows = s.windows := by simp [State.generateTick]
@[simp] theorem State.generateTick_store (s : State) (t joined : Nat) : (s.generateTick t joined).store = s.store := by simp [State.generateTick]
@[simp] theorem State.generateTick_straps (s : State) (t joined : Nat) : (s.generateTick t joined).straps = s.straps := by simp [State.generateTick]
@[simp] theorem State.generateTick_resetHeld (s : State) (t joined : Nat) : (s.generateTick t joined).resetHeld = s.resetHeld := by simp [State.generateTick]
@[simp] theorem State.generateTick_dram (s : State) (t joined : Nat) : (s.generateTick t joined).dram = s.dram := by simp [State.generateTick]
@[simp] theorem State.generateTick_pending (s : State) (t joined : Nat) : (s.generateTick t joined).pending = s.pending := by simp [State.generateTick]

@[simp] theorem State.ownEvent_link (s : State) (t : Nat) : (s.ownEvent t).link = s.link := by
  simp only [State.ownEvent]; (repeat' split) <;> simp
@[simp] theorem State.ownEvent_windows (s : State) (t : Nat) : (s.ownEvent t).windows = s.windows := by
  simp only [State.ownEvent]; (repeat' split) <;> simp
@[simp] theorem State.ownEvent_store (s : State) (t : Nat) : (s.ownEvent t).store = s.store := by
  simp only [State.ownEvent]; (repeat' split) <;> simp
@[simp] theorem State.ownEvent_straps (s : State) (t : Nat) : (s.ownEvent t).straps = s.straps := by
  simp only [State.ownEvent]; (repeat' split) <;> simp
@[simp] theorem State.ownEvent_resetHeld (s : State) (t : Nat) : (s.ownEvent t).resetHeld = s.resetHeld := by
  simp only [State.ownEvent]; (repeat' split) <;> simp
@[simp] theorem State.ownEvent_dram (s : State) (t : Nat) : (s.ownEvent t).dram = s.dram := by
  simp only [State.ownEvent]; (repeat' split) <;> simp
@[simp] theorem State.ownEvent_pending (s : State) (t : Nat) : (s.ownEvent t).pending = s.pending := by
  simp only [State.ownEvent]; (repeat' split) <;> simp

@[simp] theorem State.catchUp_link (s : State) (t n : Nat) : (s.catchUp t n).link = s.link := by
  induction n generalizing s with
  | zero => rfl
  | succ n ih => rw [State.catchUp]; split <;> simp [ih]
@[simp] theorem State.catchUp_windows (s : State) (t n : Nat) : (s.catchUp t n).windows = s.windows := by
  induction n generalizing s with
  | zero => rfl
  | succ n ih => rw [State.catchUp]; split <;> simp [ih]
@[simp] theorem State.catchUp_store (s : State) (t n : Nat) : (s.catchUp t n).store = s.store := by
  induction n generalizing s with
  | zero => rfl
  | succ n ih => rw [State.catchUp]; split <;> simp [ih]
@[simp] theorem State.catchUp_straps (s : State) (t n : Nat) : (s.catchUp t n).straps = s.straps := by
  induction n generalizing s with
  | zero => rfl
  | succ n ih => rw [State.catchUp]; split <;> simp [ih]
@[simp] theorem State.catchUp_resetHeld (s : State) (t n : Nat) : (s.catchUp t n).resetHeld = s.resetHeld := by
  induction n generalizing s with
  | zero => rfl
  | succ n ih => rw [State.catchUp]; split <;> simp [ih]
@[simp] theorem State.catchUp_dram (s : State) (t n : Nat) : (s.catchUp t n).dram = s.dram := by
  induction n generalizing s with
  | zero => rfl
  | succ n ih => rw [State.catchUp]; split <;> simp [ih]
@[simp] theorem State.catchUp_pending (s : State) (t n : Nat) : (s.catchUp t n).pending = s.pending := by
  induction n generalizing s with
  | zero => rfl
  | succ n ih => rw [State.catchUp]; split <;> simp [ih]

@[simp] theorem State.reachCount_link (s : State) (t : Nat) : (s.reachCount t).link = s.link := by simp [State.reachCount]
@[simp] theorem State.reachCount_windows (s : State) (t : Nat) : (s.reachCount t).windows = s.windows := by simp [State.reachCount]
@[simp] theorem State.reachCount_store (s : State) (t : Nat) : (s.reachCount t).store = s.store := by simp [State.reachCount]
@[simp] theorem State.reachCount_straps (s : State) (t : Nat) : (s.reachCount t).straps = s.straps := by simp [State.reachCount]
@[simp] theorem State.reachCount_resetHeld (s : State) (t : Nat) : (s.reachCount t).resetHeld = s.resetHeld := by simp [State.reachCount]
@[simp] theorem State.reachCount_dram (s : State) (t : Nat) : (s.reachCount t).dram = s.dram := by simp [State.reachCount]
@[simp] theorem State.reachCount_pool (s : State) (t : Nat) : (s.reachCount t).pool = s.pool := by simp [State.reachCount]
@[simp] theorem State.reachCount_ingest (s : State) (t : Nat) : (s.reachCount t).ingest = s.ingest := by simp [State.reachCount]
@[simp] theorem State.reachCount_queue (s : State) (t : Nat) : (s.reachCount t).queue = s.queue := by simp [State.reachCount]
@[simp] theorem State.reachCount_air (s : State) (t : Nat) : (s.reachCount t).air = s.air := by simp [State.reachCount]
@[simp] theorem State.reachCount_trim (s : State) (t : Nat) : (s.reachCount t).trim = s.trim := by simp [State.reachCount]
@[simp] theorem State.reachCount_holds (s : State) (t : Nat) : (s.reachCount t).holds = s.holds := by simp [State.reachCount]
@[simp] theorem State.reachCount_console (s : State) (t : Nat) : (s.reachCount t).console = s.console := by simp [State.reachCount]
@[simp] theorem State.reachCount_monitor (s : State) (t : Nat) : (s.reachCount t).monitor = s.monitor := by simp [State.reachCount]
@[simp] theorem State.reachCount_readout (s : State) (t : Nat) : (s.reachCount t).readout = s.readout := by simp [State.reachCount]
@[simp] theorem State.reachCount_pending (s : State) (t : Nat) : (s.reachCount t).pending = s.pending := by simp [State.reachCount]

@[simp] theorem State.edgeLocked_link (s : State) (t joined : Nat) : (s.edgeLocked t joined).link = s.link := by
  simp only [State.edgeLocked]; (repeat' split) <;> simp
@[simp] theorem State.edgeLocked_windows (s : State) (t joined : Nat) : (s.edgeLocked t joined).windows = s.windows := by
  simp only [State.edgeLocked]; (repeat' split) <;> simp
@[simp] theorem State.edgeLocked_store (s : State) (t joined : Nat) : (s.edgeLocked t joined).store = s.store := by
  simp only [State.edgeLocked]; (repeat' split) <;> simp
@[simp] theorem State.edgeLocked_straps (s : State) (t joined : Nat) : (s.edgeLocked t joined).straps = s.straps := by
  simp only [State.edgeLocked]; (repeat' split) <;> simp
@[simp] theorem State.edgeLocked_resetHeld (s : State) (t joined : Nat) : (s.edgeLocked t joined).resetHeld = s.resetHeld := by
  simp only [State.edgeLocked]; (repeat' split) <;> simp
@[simp] theorem State.edgeLocked_dram (s : State) (t joined : Nat) : (s.edgeLocked t joined).dram = s.dram := by
  simp only [State.edgeLocked]; (repeat' split) <;> simp
@[simp] theorem State.edgeLocked_pending (s : State) (t joined : Nat) : (s.edgeLocked t joined).pending = s.pending := by
  simp only [State.edgeLocked]; (repeat' split) <;> simp

@[simp] theorem State.edgeReturns_link (s : State) (t joined : Nat) : (s.edgeReturns t joined).link = s.link := by
  simp only [State.edgeReturns]; (repeat' split) <;> simp
@[simp] theorem State.edgeReturns_windows (s : State) (t joined : Nat) : (s.edgeReturns t joined).windows = s.windows := by
  simp only [State.edgeReturns]; (repeat' split) <;> simp
@[simp] theorem State.edgeReturns_store (s : State) (t joined : Nat) : (s.edgeReturns t joined).store = s.store := by
  simp only [State.edgeReturns]; (repeat' split) <;> simp
@[simp] theorem State.edgeReturns_straps (s : State) (t joined : Nat) : (s.edgeReturns t joined).straps = s.straps := by
  simp only [State.edgeReturns]; (repeat' split) <;> simp
@[simp] theorem State.edgeReturns_resetHeld (s : State) (t joined : Nat) : (s.edgeReturns t joined).resetHeld = s.resetHeld := by
  simp only [State.edgeReturns]; (repeat' split) <;> simp
@[simp] theorem State.edgeReturns_dram (s : State) (t joined : Nat) : (s.edgeReturns t joined).dram = s.dram := by
  simp only [State.edgeReturns]; (repeat' split) <;> simp
@[simp] theorem State.edgeReturns_pending (s : State) (t joined : Nat) : (s.edgeReturns t joined).pending = s.pending := by
  simp only [State.edgeReturns]; (repeat' split) <;> simp

@[simp] theorem State.takeEdge_link (s : State) (t joined : Nat) : (s.takeEdge t joined).link = s.link := by
  simp only [State.takeEdge]; (repeat' split) <;> simp
@[simp] theorem State.takeEdge_windows (s : State) (t joined : Nat) : (s.takeEdge t joined).windows = s.windows := by
  simp only [State.takeEdge]; (repeat' split) <;> simp
@[simp] theorem State.takeEdge_store (s : State) (t joined : Nat) : (s.takeEdge t joined).store = s.store := by
  simp only [State.takeEdge]; (repeat' split) <;> simp
@[simp] theorem State.takeEdge_straps (s : State) (t joined : Nat) : (s.takeEdge t joined).straps = s.straps := by
  simp only [State.takeEdge]; (repeat' split) <;> simp
@[simp] theorem State.takeEdge_resetHeld (s : State) (t joined : Nat) : (s.takeEdge t joined).resetHeld = s.resetHeld := by
  simp only [State.takeEdge]; (repeat' split) <;> simp
@[simp] theorem State.takeEdge_dram (s : State) (t joined : Nat) : (s.takeEdge t joined).dram = s.dram := by
  simp only [State.takeEdge]; (repeat' split) <;> simp
@[simp] theorem State.takeEdge_pending (s : State) (t joined : Nat) : (s.takeEdge t joined).pending = s.pending := by
  simp only [State.takeEdge]; (repeat' split) <;> simp

@[simp] theorem State.refEdgeAt_link (s : State) (t joined : Nat) : (s.refEdgeAt t joined).link = s.link := by simp [State.refEdgeAt]
@[simp] theorem State.refEdgeAt_windows (s : State) (t joined : Nat) : (s.refEdgeAt t joined).windows = s.windows := by simp [State.refEdgeAt]
@[simp] theorem State.refEdgeAt_store (s : State) (t joined : Nat) : (s.refEdgeAt t joined).store = s.store := by simp [State.refEdgeAt]
@[simp] theorem State.refEdgeAt_straps (s : State) (t joined : Nat) : (s.refEdgeAt t joined).straps = s.straps := by simp [State.refEdgeAt]
@[simp] theorem State.refEdgeAt_resetHeld (s : State) (t joined : Nat) : (s.refEdgeAt t joined).resetHeld = s.resetHeld := by simp [State.refEdgeAt]
@[simp] theorem State.refEdgeAt_dram (s : State) (t joined : Nat) : (s.refEdgeAt t joined).dram = s.dram := by simp [State.refEdgeAt]
@[simp] theorem State.refEdgeAt_pending (s : State) (t joined : Nat) : (s.refEdgeAt t joined).pending = s.pending := by simp [State.refEdgeAt]

@[simp] theorem State.pressDump_link (s : State) : (s.pressDump).link = s.link := by
  simp only [State.pressDump]; (repeat' split) <;> simp
@[simp] theorem State.pressDump_windows (s : State) : (s.pressDump).windows = s.windows := by
  simp only [State.pressDump]; (repeat' split) <;> simp
@[simp] theorem State.pressDump_store (s : State) : (s.pressDump).store = s.store := by
  simp only [State.pressDump]; (repeat' split) <;> simp
@[simp] theorem State.pressDump_straps (s : State) : (s.pressDump).straps = s.straps := by
  simp only [State.pressDump]; (repeat' split) <;> simp
@[simp] theorem State.pressDump_resetHeld (s : State) : (s.pressDump).resetHeld = s.resetHeld := by
  simp only [State.pressDump]; (repeat' split) <;> simp
@[simp] theorem State.pressDump_dram (s : State) : (s.pressDump).dram = s.dram := by
  simp only [State.pressDump]; (repeat' split) <;> simp
@[simp] theorem State.pressDump_gen (s : State) : (s.pressDump).gen = s.gen := by
  simp only [State.pressDump]; (repeat' split) <;> simp
@[simp] theorem State.pressDump_air (s : State) : (s.pressDump).air = s.air := by
  simp only [State.pressDump]; (repeat' split) <;> simp
@[simp] theorem State.pressDump_console (s : State) : (s.pressDump).console = s.console := by
  simp only [State.pressDump]; (repeat' split) <;> simp
@[simp] theorem State.pressDump_monitor (s : State) : (s.pressDump).monitor = s.monitor := by
  simp only [State.pressDump]; (repeat' split) <;> simp
@[simp] theorem State.pressDump_pending (s : State) : (s.pressDump).pending = s.pending := by
  simp only [State.pressDump]; (repeat' split) <;> simp

@[simp] theorem State.pressHold_link (s : State) : (s.pressHold).link = s.link := by
  simp only [State.pressHold]; (repeat' split) <;> simp
@[simp] theorem State.pressHold_windows (s : State) : (s.pressHold).windows = s.windows := by
  simp only [State.pressHold]; (repeat' split) <;> simp
@[simp] theorem State.pressHold_store (s : State) : (s.pressHold).store = s.store := by
  simp only [State.pressHold]; (repeat' split) <;> simp
@[simp] theorem State.pressHold_straps (s : State) : (s.pressHold).straps = s.straps := by
  simp only [State.pressHold]; (repeat' split) <;> simp
@[simp] theorem State.pressHold_resetHeld (s : State) : (s.pressHold).resetHeld = s.resetHeld := by
  simp only [State.pressHold]; (repeat' split) <;> simp
@[simp] theorem State.pressHold_dram (s : State) : (s.pressHold).dram = s.dram := by
  simp only [State.pressHold]; (repeat' split) <;> simp
@[simp] theorem State.pressHold_pool (s : State) : (s.pressHold).pool = s.pool := by
  simp only [State.pressHold]; (repeat' split) <;> simp
@[simp] theorem State.pressHold_ingest (s : State) : (s.pressHold).ingest = s.ingest := by
  simp only [State.pressHold]; (repeat' split) <;> simp
@[simp] theorem State.pressHold_queue (s : State) : (s.pressHold).queue = s.queue := by
  simp only [State.pressHold]; (repeat' split) <;> simp
@[simp] theorem State.pressHold_gen (s : State) : (s.pressHold).gen = s.gen := by
  simp only [State.pressHold]; (repeat' split) <;> simp
@[simp] theorem State.pressHold_air (s : State) : (s.pressHold).air = s.air := by
  simp only [State.pressHold]; (repeat' split) <;> simp
@[simp] theorem State.pressHold_trim (s : State) : (s.pressHold).trim = s.trim := by
  simp only [State.pressHold]; (repeat' split) <;> simp
@[simp] theorem State.pressHold_console (s : State) : (s.pressHold).console = s.console := by
  simp only [State.pressHold]; (repeat' split) <;> simp
@[simp] theorem State.pressHold_monitor (s : State) : (s.pressHold).monitor = s.monitor := by
  simp only [State.pressHold]; (repeat' split) <;> simp
@[simp] theorem State.pressHold_pending (s : State) : (s.pressHold).pending = s.pending := by
  simp only [State.pressHold]; (repeat' split) <;> simp

@[simp] theorem State.pressRelease_link (s : State) : (s.pressRelease).link = s.link := by
  simp only [State.pressRelease]; (repeat' split) <;> simp
@[simp] theorem State.pressRelease_windows (s : State) : (s.pressRelease).windows = s.windows := by
  simp only [State.pressRelease]; (repeat' split) <;> simp
@[simp] theorem State.pressRelease_store (s : State) : (s.pressRelease).store = s.store := by
  simp only [State.pressRelease]; (repeat' split) <;> simp
@[simp] theorem State.pressRelease_straps (s : State) : (s.pressRelease).straps = s.straps := by
  simp only [State.pressRelease]; (repeat' split) <;> simp
@[simp] theorem State.pressRelease_resetHeld (s : State) : (s.pressRelease).resetHeld = s.resetHeld := by
  simp only [State.pressRelease]; (repeat' split) <;> simp
@[simp] theorem State.pressRelease_dram (s : State) : (s.pressRelease).dram = s.dram := by
  simp only [State.pressRelease]; (repeat' split) <;> simp
@[simp] theorem State.pressRelease_pool (s : State) : (s.pressRelease).pool = s.pool := by
  simp only [State.pressRelease]; (repeat' split) <;> simp
@[simp] theorem State.pressRelease_ingest (s : State) : (s.pressRelease).ingest = s.ingest := by
  simp only [State.pressRelease]; (repeat' split) <;> simp
@[simp] theorem State.pressRelease_gen (s : State) : (s.pressRelease).gen = s.gen := by
  simp only [State.pressRelease]; (repeat' split) <;> simp
@[simp] theorem State.pressRelease_air (s : State) : (s.pressRelease).air = s.air := by
  simp only [State.pressRelease]; (repeat' split) <;> simp
@[simp] theorem State.pressRelease_trim (s : State) : (s.pressRelease).trim = s.trim := by
  simp only [State.pressRelease]; (repeat' split) <;> simp
@[simp] theorem State.pressRelease_console (s : State) : (s.pressRelease).console = s.console := by
  simp only [State.pressRelease]; (repeat' split) <;> simp
@[simp] theorem State.pressRelease_monitor (s : State) : (s.pressRelease).monitor = s.monitor := by
  simp only [State.pressRelease]; (repeat' split) <;> simp
@[simp] theorem State.pressRelease_pending (s : State) : (s.pressRelease).pending = s.pending := by
  simp only [State.pressRelease]; (repeat' split) <;> simp

@[simp] theorem State.handPress_link (s : State) (l : ConsoleLine) : (s.handPress l).link = s.link := by
  simp only [State.handPress]; (repeat' split) <;> simp
@[simp] theorem State.handPress_windows (s : State) (l : ConsoleLine) : (s.handPress l).windows = s.windows := by
  simp only [State.handPress]; (repeat' split) <;> simp
@[simp] theorem State.handPress_store (s : State) (l : ConsoleLine) : (s.handPress l).store = s.store := by
  simp only [State.handPress]; (repeat' split) <;> simp
@[simp] theorem State.handPress_straps (s : State) (l : ConsoleLine) : (s.handPress l).straps = s.straps := by
  simp only [State.handPress]; (repeat' split) <;> simp
@[simp] theorem State.handPress_resetHeld (s : State) (l : ConsoleLine) : (s.handPress l).resetHeld = s.resetHeld := by
  simp only [State.handPress]; (repeat' split) <;> simp
@[simp] theorem State.handPress_dram (s : State) (l : ConsoleLine) : (s.handPress l).dram = s.dram := by
  simp only [State.handPress]; (repeat' split) <;> simp
@[simp] theorem State.handPress_gen (s : State) (l : ConsoleLine) : (s.handPress l).gen = s.gen := by
  simp only [State.handPress]; (repeat' split) <;> simp
@[simp] theorem State.handPress_air (s : State) (l : ConsoleLine) : (s.handPress l).air = s.air := by
  simp only [State.handPress]; (repeat' split) <;> simp
@[simp] theorem State.handPress_console (s : State) (l : ConsoleLine) : (s.handPress l).console = s.console := by
  simp only [State.handPress]; (repeat' split) <;> simp
@[simp] theorem State.handPress_monitor (s : State) (l : ConsoleLine) : (s.handPress l).monitor = s.monitor := by
  simp only [State.handPress]; (repeat' split) <;> simp
@[simp] theorem State.handPress_pending (s : State) (l : ConsoleLine) : (s.handPress l).pending = s.pending := by
  simp only [State.handPress]; (repeat' split) <;> simp

@[simp] theorem State.sample_link (s : State) (l : ConsoleLine) (b : Bool) : (s.sample l b).link = s.link := by
  simp only [State.sample]; (repeat' split) <;> simp
@[simp] theorem State.sample_windows (s : State) (l : ConsoleLine) (b : Bool) : (s.sample l b).windows = s.windows := by
  simp only [State.sample]; (repeat' split) <;> simp
@[simp] theorem State.sample_store (s : State) (l : ConsoleLine) (b : Bool) : (s.sample l b).store = s.store := by
  simp only [State.sample]; (repeat' split) <;> simp
@[simp] theorem State.sample_straps (s : State) (l : ConsoleLine) (b : Bool) : (s.sample l b).straps = s.straps := by
  simp only [State.sample]; (repeat' split) <;> simp
@[simp] theorem State.sample_resetHeld (s : State) (l : ConsoleLine) (b : Bool) : (s.sample l b).resetHeld = s.resetHeld := by
  simp only [State.sample]; (repeat' split) <;> simp
@[simp] theorem State.sample_dram (s : State) (l : ConsoleLine) (b : Bool) : (s.sample l b).dram = s.dram := by
  simp only [State.sample]; (repeat' split) <;> simp
@[simp] theorem State.sample_gen (s : State) (l : ConsoleLine) (b : Bool) : (s.sample l b).gen = s.gen := by
  simp only [State.sample]; (repeat' split) <;> simp
@[simp] theorem State.sample_air (s : State) (l : ConsoleLine) (b : Bool) : (s.sample l b).air = s.air := by
  simp only [State.sample]; (repeat' split) <;> simp
@[simp] theorem State.sample_monitor (s : State) (l : ConsoleLine) (b : Bool) : (s.sample l b).monitor = s.monitor := by
  simp only [State.sample]; (repeat' split) <;> simp
@[simp] theorem State.sample_pending (s : State) (l : ConsoleLine) (b : Bool) : (s.sample l b).pending = s.pending := by
  simp only [State.sample]; (repeat' split) <;> simp

@[simp] theorem State.press_link (s : State) (l : ConsoleLine) : (s.press l).link = s.link := by
  simp only [State.press]; (repeat' split) <;> simp
@[simp] theorem State.press_windows (s : State) (l : ConsoleLine) : (s.press l).windows = s.windows := by
  simp only [State.press]; (repeat' split) <;> simp
@[simp] theorem State.press_store (s : State) (l : ConsoleLine) : (s.press l).store = s.store := by
  simp only [State.press]; (repeat' split) <;> simp
@[simp] theorem State.press_straps (s : State) (l : ConsoleLine) : (s.press l).straps = s.straps := by
  simp only [State.press]; (repeat' split) <;> simp
@[simp] theorem State.press_resetHeld (s : State) (l : ConsoleLine) : (s.press l).resetHeld = s.resetHeld := by
  simp only [State.press]; (repeat' split) <;> simp
@[simp] theorem State.press_dram (s : State) (l : ConsoleLine) : (s.press l).dram = s.dram := by
  simp only [State.press]; (repeat' split) <;> simp
@[simp] theorem State.press_gen (s : State) (l : ConsoleLine) : (s.press l).gen = s.gen := by
  simp only [State.press]; (repeat' split) <;> simp
@[simp] theorem State.press_air (s : State) (l : ConsoleLine) : (s.press l).air = s.air := by
  simp only [State.press]; (repeat' split) <;> simp
@[simp] theorem State.press_monitor (s : State) (l : ConsoleLine) : (s.press l).monitor = s.monitor := by
  simp only [State.press]; (repeat' split) <;> simp
@[simp] theorem State.press_pending (s : State) (l : ConsoleLine) : (s.press l).pending = s.pending := by
  simp only [State.press]; (repeat' split) <;> simp

/-! ### A completion's blocks and the start of a tick -/

@[simp] theorem completeReads_nil (p : Pool) : p.completeReads [] = p := rfl

/-- The blocks of one completion are handled one after the other (log 31). -/
@[simp] theorem completeReads_cons (p : Pool) (i : Nat) (is : List Nat) :
    p.completeReads (i :: is) = (p.completeRead i).completeReads is := rfl

/-- What the generator reports before a tick's latch changes the readout generator's state only. -/
theorem atTickStart_eq (s : State) (c : Instr) : ∃ r, Safety.atTickStart s c = s.setReadout r := by
  unfold Safety.atTickStart
  split
  · exact ⟨_, rfl⟩
  · exact ⟨_, rfl⟩
  · exact ⟨s.readout, rfl⟩

/-- The latch in RUNNING: the settings in force and, on a change of target or band, the trim (R99, R148). -/
theorem State.latch_running (s : State) (h : s.monitor.run = .running) : s.latch = Safety.latched s := by
  unfold State.latch Safety.latched Safety.trimAtTick
  by_cases h2 : s.monitor.staged.target ≠ s.monitor.inForce.target ∨
      s.monitor.staged.band ≠ s.monitor.inForce.band <;>
    simp only [h, h2, true_and, if_true, if_false] <;> rfl

/-- Both bindings leave, slot A's block first (R81, R13). -/
theorem State.leaveBoth_pool (s : State) :
    s.leaveBoth.pool = Safety.leftBy s.air.slotB (Safety.leftBy s.air.slotA s.pool) := by
  unfold State.leaveBoth State.leaveSlot Safety.leftBy
  cases ha : s.air.slotA <;> cases hb : s.air.slotB <;> simp_all [Air.binding, Air.setBinding]

/-- The test of R93 in the terms of the statements. -/
theorem State.onlyThisInstant_iff (s : State) (c : Instr) :
    s.onlyThisInstant (Safety.joinedOf c) = true ↔ Safety.OnlyThisInstant s c := by
  rw [State.onlyThisInstant, Bool.and_eq_true, decide_eq_true_iff, List.all_eq_true]
  simp only [beq_iff_eq, State.depth]

/-- Whether a request is taken now, in the terms of the statements (R18, R22). -/
theorem State.canTake_iff (s : State) (r : Request) : s.canTake r = true ↔ Safety.Takable s r := by
  cases r <;> simp [State.canTake, State.takesRequests, Safety.Takable, Safety.LinkUp]

end Sys2Proof.Machine
end

