-- ==== Sys2Proof/Laws/Memory.lean ====
section
/-! SUPPORT. The laws of DRAM: read after write, and every write keeps the canonical form. -/

namespace Sys2Proof.Machine

open Sys2Proof

/-- An address below every listed one reads as an unlisted byte. -/
theorem readByte_of_lt {m : List Host.Cell} {a : Nat} (h : ∀ c ∈ m, a < c.1) :
    readByte m a = Config.unwritten := by
  induction m with
  | nil => rfl
  | cons c rest ih =>
    obtain ⟨k, v⟩ := c
    have hk : a < k := h (k, v) (by simp)
    have : ¬ k = a := by omega
    simp [readByte, this]
    exact ih fun c hc => h c (by simp [hc])

/-- Every entry of a written memory is an old one or the one written. -/
theorem mem_writeByte {m : List Host.Cell} {a : Nat} {b : Byte} {c : Host.Cell}
    (h : c ∈ writeByte m a b) : c ∈ m ∨ (c = (a, b) ∧ b ≠ Config.unwritten) := by
  induction m with
  | nil =>
    simp only [writeByte] at h
    split at h <;> simp_all
  | cons d rest ih =>
    obtain ⟨k, v⟩ := d
    simp only [writeByte] at h
    split at h
    · split at h
      · exact .inl h
      · rcases List.mem_cons.1 h with h | h
        · exact .inr ⟨h, by assumption⟩
        · exact .inl h
    · split at h
      · split at h
        · exact .inl (List.mem_cons_of_mem _ h)
        · rcases List.mem_cons.1 h with h | h
          · exact .inr ⟨h, by assumption⟩
          · exact .inl (List.mem_cons_of_mem _ h)
      · rcases List.mem_cons.1 h with h | h
        · exact .inl (by simp [h])
        · rcases ih h with h | h
          · exact .inl (List.mem_cons_of_mem _ h)
          · exact .inr h

/-- Writing a byte keeps the canonical form. -/
theorem writeByte_wf {m : List Host.Cell} {a : Nat} {b : Byte} (h : Memory.wf m) :
    Memory.wf (writeByte m a b) := by
  refine ⟨?_, ?_⟩
  · have hp := h.1
    clear h
    induction m with
    | nil => simp only [writeByte]; split <;> simp
    | cons d rest ih =>
      obtain ⟨k, v⟩ := d
      rw [List.pairwise_cons] at hp
      have lo : ∀ c ∈ rest, k < c.1 := fun c hc => hp.1 c hc
      simp only [writeByte]
      split
      · split
        · exact List.pairwise_cons.2 hp
        · refine List.pairwise_cons.2 ⟨?_, List.pairwise_cons.2 hp⟩
          intro c hc
          rcases List.mem_cons.1 hc with hc | hc
          · simp [hc]; assumption
          · have := lo c hc; simp; omega
      · split
        · rename_i _ hak
          subst hak
          split
          · exact hp.2
          · exact List.pairwise_cons.2 ⟨fun c hc => lo c hc, hp.2⟩
        · refine List.pairwise_cons.2 ⟨?_, ih hp.2⟩
          intro c hc
          rcases mem_writeByte hc with hc | ⟨hc, _⟩
          · exact lo c hc
          · subst hc; simp; omega
  · intro c hc
    rcases mem_writeByte hc with hc | ⟨hc, hb⟩
    · exact h.2 c hc
    · rw [hc]; exact hb

/-- A read after a write of the same byte gives the value written. -/
theorem readByte_writeByte_same {m : List Host.Cell} {a : Nat} {b : Byte} (h : Memory.wf m) :
    readByte (writeByte m a b) a = b := by
  have hp := h.1
  clear h
  induction m with
  | nil => simp only [writeByte]; split <;> simp_all [readByte]
  | cons d rest ih =>
    obtain ⟨k, v⟩ := d
    rw [List.pairwise_cons] at hp
    simp only [writeByte]
    split
    · split
      · rename_i hlt hb
        subst hb
        refine readByte_of_lt ?_
        intro c hc
        rcases List.mem_cons.1 hc with hc | hc
        · simp [hc]; exact hlt
        · have := hp.1 c hc; simp at this; omega
      · simp [readByte]
    · split
      · rename_i _ hak
        subst hak
        split
        · rename_i hb
          subst hb
          exact readByte_of_lt fun c hc => hp.1 c hc
        · simp [readByte]
      · rename_i _ hne
        have : ¬ k = a := fun e => hne e.symm
        simp [readByte, this, ih hp.2]

/-- A write leaves every other byte alone. -/
theorem readByte_writeByte_other {m : List Host.Cell} {a x : Nat} {b : Byte} (h : x ≠ a) :
    readByte (writeByte m a b) x = readByte m x := by
  have hax : ¬ a = x := fun e => h e.symm
  induction m with
  | nil => simp only [writeByte]; split <;> simp [readByte, hax]
  | cons d rest ih =>
    obtain ⟨k, v⟩ := d
    simp only [writeByte]
    split
    · split <;> simp [readByte, hax]
    · split
      · rename_i _ hak
        subst hak
        split <;> simp [readByte, hax]
      · simp [readByte, ih]

/-- Writing consecutive bytes keeps the canonical form. -/
theorem writeBytes_wf {m : List Host.Cell} {a : Nat} {bs : List Byte} (h : Memory.wf m) :
    Memory.wf (writeBytes m a bs) := by
  induction bs generalizing m a with
  | nil => exact h
  | cons b rest ih => exact ih (writeByte_wf h)

/-- Writing consecutive bytes leaves every byte outside them alone. -/
theorem readByte_writeBytes_outside {m : List Host.Cell} {a x : Nat} {bs : List Byte}
    (h : x < a ∨ a + bs.length ≤ x) : readByte (writeBytes m a bs) x = readByte m x := by
  induction bs generalizing m a with
  | nil => rfl
  | cons b rest ih =>
    simp only [List.length_cons] at h
    rw [writeBytes, ih (by omega), readByte_writeByte_other (by omega)]

/-- A byte of a run of bytes reads back as written. -/
theorem readByte_writeBytes_inside {m : List Host.Cell} {a i : Nat} {bs : List Byte} (hm : Memory.wf m)
    (h : i < bs.length) : readByte (writeBytes m a bs) (a + i) = bs[i] := by
  induction bs generalizing m a i with
  | nil => simp at h
  | cons b rest ih =>
    rw [writeBytes]
    cases i with
    | zero =>
      rw [readByte_writeBytes_outside (by omega)]
      simpa using readByte_writeByte_same hm
    | succ j =>
      have hj : j < rest.length := by simpa using h
      have := ih (m := writeByte m a b) (a := a + 1) (writeByte_wf hm) hj
      rw [show a + (j + 1) = a + 1 + j by omega, this]
      simp

@[simp] theorem lineToBytes_length (l : Line) : (lineToBytes l).length = 64 := by
  simp [lineToBytes, Config.lineBytes]

/-- Writing a line keeps the canonical form of DRAM. -/
theorem writeLine_wf {m : List Host.Cell} {a : Nat} {l : Line} (h : Memory.wf m) :
    Memory.wf (writeLine m a l) := writeBytes_wf h

/-- A line write leaves every byte outside its 64 bytes alone. -/
theorem readByte_writeLine_outside {m : List Host.Cell} {a x : Nat} {l : Line}
    (h : x < a ∨ a + 64 ≤ x) : readByte (writeLine m a l) x = readByte m x :=
  readByte_writeBytes_outside (by simpa using h)

/-- Byte `i` of a written line reads back as the line's byte `i`. -/
theorem readByte_writeLine_inside {m : List Host.Cell} {a i : Nat} {l : Line} (hm : Memory.wf m)
    (h : i < 64) : readByte (writeLine m a l) (a + i) = fieldAt l i 8 := by
  have := readByte_writeBytes_inside (a := a) (bs := lineToBytes l) hm (i := i) (by simpa using h)
  rw [writeLine, this]
  simp [lineToBytes]

/-- The bits of a line put together from bytes. -/
theorem lineOfBytes_getLsbD (bs : List Byte) (i : Nat) (h : i < 512) :
    (lineOfBytes bs).getLsbD i = (bs.getD (i / 8) 0).getLsbD (i % 8) := by
  induction bs generalizing i with
  | nil => simp [lineOfBytes]
  | cons b rest ih =>
    rw [lineOfBytes]
    by_cases hi : i < 8
    · have h0 : i / 8 = 0 := by omega
      have h1 : i % 8 = i := by omega
      simp [hi, h0, h1, h]
    · have h0 : i / 8 = (i - 8) / 8 + 1 := by omega
      have h1 : i % 8 = (i - 8) % 8 := by omega
      have h2 : b.getLsbD i = false := BitVec.getLsbD_of_ge _ _ (by omega)
      rw [h0, h1]
      rw [List.getD_cons_succ, ← ih (i - 8) (by omega)]
      simp [hi, h, h2]
      rfl

/-- A line that has been written reads back. -/
theorem readLine_writeLine_same {m : List Host.Cell} {a : Nat} {l : Line} (hm : Memory.wf m) :
    readLine (writeLine m a l) a = l := by
  apply BitVec.eq_of_getLsbD_eq
  intro i hi
  rw [readLine, lineOfBytes_getLsbD _ _ hi]
  have h8 : i / 8 < 64 := by omega
  rw [List.getD_eq_getElem _ _ (by simpa [Config.lineBytes] using h8)]
  simp only [List.getElem_map, List.getElem_range]
  rw [readByte_writeLine_inside hm h8, fieldAt, BitVec.getLsbD_extractLsb']
  have : 8 * (i / 8) + i % 8 = i := by omega
  simp [this, Nat.mod_lt]

/-- A line write leaves a line that shares no byte with it alone. -/
theorem readLine_writeLine_other {m : List Host.Cell} {a x : Nat} {l : Line}
    (h : x + 64 ≤ a ∨ a + 64 ≤ x) : readLine (writeLine m a l) x = readLine m x := by
  have same : (List.range Config.lineBytes).map (fun i => readByte (writeLine m a l) (x + i)) =
      (List.range Config.lineBytes).map (fun i => readByte m (x + i)) :=
    List.map_congr_left fun i hi => by
      rw [List.mem_range, Config.lineBytes] at hi
      exact readByte_writeLine_outside (by omega)
  rw [readLine, same]
  rfl

end Sys2Proof.Machine
end

