-- ==== Sys2Proof/Laws/Ops.lean ====
section
/-! SUPPORT. What the operations over record fields, the block pool and the edit log answer. -/

namespace Sys2Proof.Machine

open Sys2Proof

/-! ### Fields of a record -/

/-- A written field reads back as written, where it lies inside the line. -/
theorem fieldAt_putField_same {w : Nat} (l : Line) (off : Nat) (v : BitVec w)
    (h : 8 * off + w ≤ 512) : fieldAt (putField l off v) off w = v := by
  ext i hi
  have h1 : 8 * off + i < 512 := by omega
  have h2 : ¬ 8 * off + i < 8 * off := by omega
  simp [fieldAt, putField, h1, hi]

/-- A field that shares no bit with the written one reads as before. -/
theorem fieldAt_putField_disjoint {w : Nat} (l : Line) (off : Nat) (v : BitVec w) (o n : Nat)
    (h : 8 * o + n ≤ 8 * off ∨ 8 * off + w ≤ 8 * o) :
    fieldAt (putField l off v) o n = fieldAt l o n := by
  ext i hi
  simp only [fieldAt, putField, BitVec.getElem_extractLsb', BitVec.getLsbD_or, BitVec.getLsbD_and,
    BitVec.getLsbD_not, BitVec.getLsbD_shiftLeft, BitVec.getLsbD_setWidth, BitVec.getLsbD_allOnes]
  by_cases h1 : 8 * o + i < 512
  · by_cases h2 : 8 * o + i < 8 * off
    · simp [h1, h2]
    · have h3 : ¬ 8 * o + i - 8 * off < w := by omega
      have h4 : v.getLsbD (8 * o + i - 8 * off) = false := BitVec.getLsbD_of_ge _ _ (by omega)
      simp [h1, h2, h3, h4]
  · simp [h1, BitVec.getLsbD_of_ge l (8 * o + i) (by omega)]

/-- The word sum is the sum of the 32 little-endian words modulo 65,536 (0.7.6). -/
theorem wordSum_toNat (l : Line) :
    (wordSum l).toNat = ((List.range 32).map fun i => (fieldAt l (2 * i) 16).toNat).sum % 65536 := by
  have key : ∀ n : Nat, ((List.range n).foldl (fun acc i => acc + l.extractLsb' (16 * i) 16) (0 : Half)).toNat =
      ((List.range n).map fun i => (fieldAt l (2 * i) 16).toNat).sum % 65536 := by
    intro n
    induction n with
    | zero => rfl
    | succ n ih =>
      rw [List.range_succ, List.foldl_append, List.map_append, List.sum_append, List.foldl_cons, List.foldl_nil,
        BitVec.toNat_add, ih]
      simp only [List.map_cons, List.map_nil, List.sum_cons, List.sum_nil, fieldAt,
        show 8 * (2 * n) = 16 * n by omega]
      omega
  exact key 32

/-- The record check (0.7.6, R45): the sum of the 32 words is 0 modulo 65,536. -/
theorem recordGood_iff (l : Line) :
    recordGood l = true ↔ ((List.range 32).map fun i => (fieldAt l (2 * i) 16).toNat).sum % 65536 = 0 := by
  rw [← wordSum_toNat, recordGood, beq_iff_eq, ← BitVec.toNat_inj]
  rfl

/-- The word sum with its last word set apart. -/
theorem wordSum_putField_last (l : Line) (v : Half) :
    wordSum (putField l 62 v) = wordSum (putField l 62 (0 : Half)) + v := by
  have hs : ∀ u : Half, (putField l 62 u).extractLsb' 496 16 = u := fun u =>
    fieldAt_putField_same l 62 u (by omega)
  have hd : ∀ (u : Half) (i : Nat), i < 31 →
      (putField l 62 u).extractLsb' (16 * i) 16 = l.extractLsb' (16 * i) 16 := by
    intro u i hi
    have := fieldAt_putField_disjoint l 62 u (2 * i) 16 (by omega)
    simpa [fieldAt, show 8 * (2 * i) = 16 * i by omega] using this
  have hsum : ∀ u : Half, wordSum (putField l 62 u) =
      (List.range 31).foldl (fun acc i => acc + l.extractLsb' (16 * i) 16) 0 + u := by
    intro u
    have : ∀ (is : List Nat) (a : Half), (∀ i ∈ is, i < 31) →
        is.foldl (fun acc i => acc + (putField l 62 u).extractLsb' (16 * i) 16) a =
        is.foldl (fun acc i => acc + l.extractLsb' (16 * i) 16) a := by
      intro is
      induction is with
      | nil => intro a _; rfl
      | cons i is ih =>
        intro a hi
        rw [List.foldl_cons, List.foldl_cons, hd u i (hi i (by simp)),
          ih _ (fun j hj => hi j (by simp [hj]))]
    have hr : List.range 32 = List.range 31 ++ [31] := List.range_succ
    rw [wordSum, hr, List.foldl_append, this _ 0 (fun i hi => List.mem_range.mp hi), List.foldl_cons,
      List.foldl_nil, hs u]
  rw [hsum v, hsum 0]
  simp

/-- A sealed record passes the record check (R155, R156). -/
theorem recordGood_sealRecord (l : Line) : recordGood (sealRecord l) = true := by
  rw [recordGood, sealRecord, wordSum_putField_last]
  simp

/-- Sealing a record changes no field below byte 62. -/
theorem fieldAt_sealRecord (l : Line) (o n : Nat) (h : 8 * o + n ≤ 496) :
    fieldAt (sealRecord l) o n = fieldAt l o n := by
  rw [sealRecord, fieldAt_putField_disjoint _ _ _ _ _ (.inl (by omega))]

/-! ### Records of the block pool -/

@[simp] theorem setRecord_tiles (p : Pool) (i : Nat) (r : BlockRecord) : (p.setRecord i r).tiles = p.tiles := rfl
@[simp] theorem setRecord_blocks (p : Pool) (i : Nat) (r : BlockRecord) :
    (p.setRecord i r).blocks = p.blocks := rfl
@[simp] theorem setRecord_free (p : Pool) (i : Nat) (r : BlockRecord) : (p.setRecord i r).free = p.free := rfl
@[simp] theorem setRecord_retire (p : Pool) (i : Nat) (r : BlockRecord) :
    (p.setRecord i r).retire = p.retire := rfl
@[simp] theorem setRecord_records_length (p : Pool) (i : Nat) (r : BlockRecord) :
    (p.setRecord i r).records.length = p.records.length := by simp [Pool.setRecord]

/-- A replaced record reads back. -/
theorem record_setRecord_self (p : Pool) (i : Nat) (r : BlockRecord) (h : i < p.records.length) :
    (p.setRecord i r).record i = r := by
  simp [Pool.record, Pool.setRecord, List.getD_eq_getElem?_getD, h]

/-- Replacing one block's record leaves every other block's record. -/
theorem record_setRecord_ne (p : Pool) (i j : Nat) (r : BlockRecord) (h : j ≠ i) :
    (p.setRecord i r).record j = p.record j := by
  simp [Pool.record, Pool.setRecord, List.getD_eq_getElem?_getD, List.getElem?_set_ne (Ne.symm h)]

@[simp] theorem freeBlock_free (p : Pool) (i : Nat) : (p.freeBlock i).free = p.free ++ [i] := rfl
@[simp] theorem freeBlock_retire (p : Pool) (i : Nat) : (p.freeBlock i).retire = p.retire := rfl
@[simp] theorem freeBlock_tiles (p : Pool) (i : Nat) : (p.freeBlock i).tiles = p.tiles := rfl
@[simp] theorem freeBlock_blocks (p : Pool) (i : Nat) : (p.freeBlock i).blocks = p.blocks := rfl
@[simp] theorem freeBlock_records_length (p : Pool) (i : Nat) :
    (p.freeBlock i).records.length = p.records.length := by simp [Pool.freeBlock]

/-- A freed block's record is a FREE block's (R3, R8). -/
theorem record_freeBlock_self (p : Pool) (i : Nat) : (p.freeBlock i).record i = BlockRecord.fresh := by
  by_cases h : i < p.records.length
  · exact record_setRecord_self p i _ h
  · simp [Pool.record, Pool.freeBlock, Pool.setRecord, List.getD_eq_getElem?_getD, h]

/-- Freeing a block leaves every other block's record. -/
theorem record_freeBlock_ne (p : Pool) (i j : Nat) (h : j ≠ i) :
    (p.freeBlock i).record j = p.record j := record_setRecord_ne p i j _ h

/-- Freeing several blocks appends them to the free list, in their order, and changes nothing else but
their records (R9, R15). -/
theorem freeBlocks_lists (is : List Nat) : ∀ p : Pool,
    (p.freeBlocks is).free = p.free ++ is ∧ (p.freeBlocks is).retire = p.retire ∧
    (p.freeBlocks is).tiles = p.tiles ∧ (p.freeBlocks is).blocks = p.blocks ∧
    (p.freeBlocks is).records.length = p.records.length := by
  induction is with
  | nil => intro p; simp [Pool.freeBlocks]
  | cons i is ih =>
    intro p
    obtain ⟨h1, h2, h3, h4, h5⟩ := ih (p.freeBlock i)
    refine ⟨?_, h2, h3, h4, h5.trans (freeBlock_records_length p i)⟩
    have := h1
    simp only [freeBlock_free, List.append_assoc, List.singleton_append] at this
    exact this

/-- After several blocks are freed, a block among them has a FREE block's record, and any other its own. -/
theorem record_freeBlocks (is : List Nat) : ∀ (p : Pool) (j : Nat),
    (p.freeBlocks is).record j = if j ∈ is then BlockRecord.fresh else p.record j := by
  induction is with
  | nil => intro p j; simp [Pool.freeBlocks]
  | cons i is ih =>
    intro p j
    have h := ih (p.freeBlock i) j
    rw [show p.freeBlocks (i :: is) = (p.freeBlock i).freeBlocks is from rfl, h]
    by_cases hj : j = i
    · subst hj; simp [record_freeBlock_self]
    · simp [hj, record_freeBlock_ne p i j hj]

/-- Allocation answers a block exactly when the free list has a head, which leaves it (R7). -/
theorem allocate_eq_some {p q : Pool} {i : Nat} (h : p.allocate = some (i, q)) :
    p.free = i :: q.free ∧ q = { p.setRecord i { p.record i with state := .ingest } with free := q.free } := by
  unfold Pool.allocate at h
  split at h
  · cases h
  · next j rest hf =>
    cases h
    exact ⟨hf, rfl⟩

/-- No block is given exactly when the free list is empty (R7). -/
theorem allocate_eq_none (p : Pool) : p.allocate = none ↔ p.free = [] := by
  unfold Pool.allocate
  split <;> simp_all

/-- A block that leaves its binding joins the free list or the retire list, by its read count (R13). -/
theorem leaveBlock_cases (p : Pool) (i : Nat) :
    (p.readCount i = 0 ∧ p.leaveBlock i = p.freeBlock i) ∨
    (p.readCount i ≠ 0 ∧ (p.leaveBlock i).free = p.free ∧ (p.leaveBlock i).retire = p.retire ++ [i] ∧
      ∀ j, (p.leaveBlock i).record j = (p.setRecord i { p.record i with state := .retiring }).record j) := by
  by_cases h : p.readCount i = 0
  · exact .inl ⟨h, by simp [Pool.leaveBlock, h]⟩
  · refine .inr ⟨h, ?_⟩
    rw [Pool.leaveBlock, if_neg h]
    exact ⟨rfl, rfl, fun _ => rfl⟩

/-! ### The edit log and the flags -/

/-- The edit log never grows past its 32 records (R154). -/
theorem logEdit_length (s : State) (e : LogEntry) :
    (s.logEdit e).readout.log.length = min 32 (s.readout.log.length + 1) ∨
    32 < s.readout.log.length := by
  by_cases h : 32 < s.readout.log.length
  · exact .inr h
  · left
    simp [State.logEdit]
    omega

/-- The record just logged stands last, and the running number advances by one (R154). -/
theorem logEdit_last (s : State) (e : LogEntry) (h : s.readout.log.length ≤ 32) :
    (s.logEdit e).readout.log.getLast? = some (s.logRecord e) ∧
    (s.logEdit e).readout.nextNumber = s.readout.nextNumber + 1 := by
  refine ⟨?_, by simp [State.logEdit]⟩
  have h1 : s.readout.log.length - 31 ≤ s.readout.log.length := by omega
  simp [State.logEdit, List.drop_append_of_le_length h1]

/-- A report keeps a first-fault record that stands (R153). -/
theorem report_first_of_some (s : State) (k : FaultKind) (seq : Option Seq) (addr : Option Addr)
    {f : FaultRecord} (h : s.readout.first = some f) : (s.report k seq addr).readout.first = some f := by
  simp [State.report, h]

end Sys2Proof.Machine
end

