-- ==== Sys2Proof/WellFormed.lean ====
section
/-! DEFINITION. The commands the link can carry: a request has 1 to 16 lines (R17). -/

namespace Sys2Proof

/-- The line count field of a request expresses 1 to 16 and no other value (R17). -/
def lineCountOk (n : Nat) : Bool := decide (1 ≤ n) && decide (n ≤ 16)

/-- A command is well-formed when the hardware can be given it. -/
def Instr.wellFormed : Instr → Bool
  | .read _ lines _ => lineCountOk lines
  | .write _ data _ => lineCountOk data.length
  | .readCompletion => true
  | .configure _ _ => true
  | .start _ _ _ => true
  | .stop _ => true
  | .setTarget _ _ => true
  | .setControl _ _ => true
  | .dump _ => true
  | .holdOpen _ => true
  | .holdClose _ => true
  | .release _ _ => true
  | .dumpHold _ _ => true
  | .clearFaults _ _ => true
  | .resetEngine _ => true
  | .resetPart _ _ => true
  | .resetProper _ => true
  | .powerOn _ => true
  | .resetPin _ => true
  | .calibrationAttempt _ _ => true
  | .refEdge _ => true
  | .refLost _ => true
  | .generatedTick _ => true
  | .slotTimeout => true
  | .stallExpired => true
  | .freezeLimit => true
  | .blinkPhase => true
  | .dumpPress => true
  | .holdPress => true
  | .releasePress => true
  | .consoleSample _ _ => true

end Sys2Proof
end

