-- ==== Sys2Proof/Tests/Slice0.lean ====
section
/-! SUPPORT. Tests of single commands against the spec's worked examples, the WellFormed smoke tests, and one
witness for every statement that has hypotheses. -/

namespace Sys2Proof.Tests

open Sys2Proof Sys2Proof.Machine Sys2Proof.Safety

/-! The kernel decides these theorems one after another. -/

set_option Elab.async false

/-! ### Small states -/

/-- A pool of 16 blocks of 4 tiles, the link up, the windows of R31's first example, STOPPED. -/
def idle : State :=
  { State.reset with
    link := { State.reset.link with ready := true }
    store := { cal := .ready, rate := .full, attempts := 1 }
    windows := { ingest := 0x20000000, egress := 0x21000000, control := 0x1000, readout := 0x2000 }
    pool := Pool.fresh 4 16
    monitor := { Monitor.start Config.resetStraps (Pool.fresh 4 16) with
                 staged := tableSettings 4, inForce := tableSettings 4 } }

/-- The same part RUNNING after a STRETCH start, the generator LOCKED with m = 0. -/
def live : State :=
  { idle with
    monitor := { idle.monitor with run := .running }
    air := { Air.start with condition := .filled }
    gen := { mode := .locked, reference := 0, generated := 0, osc := 0, restated := false } }

/-- The live part in LOST. -/
def lost : State := { live with gen := { live.gen with mode := .lost, generated := 3 } }

/-- An entry of seq `q` in block `b`, of level 120. -/
def frame (q : Seq) (b : Nat) (hold : Option Byte := none) (segment : Bool := false) : Entry :=
  { seq := q, stamp := 0, block := b, level := 120, segment := segment, isPartial := false, gapBefore := 0,
    spliceIn := false, hold := hold }

/-- The binding of seq `q` in block `b` with on-air number `n`. -/
def onAir (q : Seq) (b : Nat) (n : Seq) : Binding := (frame q b).binding n 0 0

/-- The live part with a queue, its blocks QUEUED. -/
def queued (es : List Entry) : State :=
  { live with
    queue := { entries := es, splicePending := false }
    pool := es.foldl (fun p e => { p.commitBlock e.block [] with free := p.free.erase e.block }) live.pool }

/-- A hold record. -/
def hold (id : Byte) (st : HoldState) (first last : Option Seq) (n : Nat) : HoldRecord :=
  { id := id, state := st, firstSeq := first, lastSeq := last, unaired := n, openedAt := 0 }

/-- The live part with frames 1 and 2 queued, 1 of them in PENDING hold 1, and hold 2 OPEN. -/
def held : State :=
  { queued [frame 1 0 (some 1), frame 2 1] with
    holds := { table := [hold 1 .pending (some 1) (some 1) 1, hold 2 .opened none none 0], nextId := 3,
               dumpTotal := 0 } }

/-- The live part with the frame of block 3 on air in slot B. -/
def airing (es : List Entry) : State :=
  let s := queued es
  { s with
    air := { s.air with onAir := 1, slotB := some (onAir 9 3 1), condition := .flowing }
    pool := { s.pool.airBlock 3 with free := s.pool.free.erase 3 } }

/-- A part with one ingest slot as given. -/
def slotted (k : Fin 4) (sl : IngestSlot) : State := live.setSlot k sl

/-- Slot 0 FILLING in block 0 with line 1 written. -/
def filling : State :=
  { slotted 0 (.filling 0 [1] 0) with
    pool := { live.pool.setRecord 0 { BlockRecord.fresh with state := .ingest } with free := (List.range 16).tail } }

/-- A read with tag 9 in flight on the retiring block 5. -/
def retiring (n : Nat) (run : RunState) : State :=
  { live with
    monitor := { live.monitor with run := run }
    link := { live.link with inFlight := [.accepted 9 [.fill 0] [5]] }
    pool := { live.pool.setRecord 5 { state := .retiring, inFlight := some n, missing := none } with
              free := live.pool.free.erase 5, retire := [5] } }

/-- A part in the completion phase of a RESET_PART. -/
def leaving : State := { live with monitor := { live.monitor with resetPart := some true } }

/-- A picture record of seq `q` and level 120. -/
def header (q : Seq) : Line := sealRecord (putField (putField (putField 0 0 (1 : Byte)) 2 (120 : Byte)) 4 q)

/-- A command record. -/
def record (num code : Byte) (args : BitVec 64) : Line :=
  sealRecord (putField (putField (putField (putField 0 0 (0x10 : Byte)) 1 num) 2 code) 4 args)

/-- SET_CONTROL arguments with a change set, band, eligibility and `build_rate`, the other fields 0. -/
def controls (change : Half) (band eligibility : Byte) (buildRate : Half) : ControlArgs :=
  { change := change, band := band, eligibility := eligibility, buildRate := buildRate, catchRate := 0,
    silence := 0, dumpMode := 0, dumpLength := 0, dumpFloor := 0, dumpInflight := 0, stallLimit := 0,
    stallPolicy := 0, freezeLimit := 0 }

/-- CONFIGURE arguments for windows at the places of R31's first example. -/
def config (egress : Addr) (tiles : Byte) (blocks : Half) : ConfigureArgs :=
  { ingest := 0x20000000, egress := egress, control := 0x1000, readout := 0x2000, tiles := tiles,
    blocks := blocks, rateCode := 3, linkCheck := 1 }

/-- What a command leaves, on the states of this file. -/
def after (c : Instr) (s : State) : State :=
  match exec c s with
  | .next t => t
  | .fault _ => s
  | .refused _ => s

/-! ### WellFormed -/

theorem test_wellFormed_read_no_lines : (Instr.read 0x40 0 1).wellFormed = false := by decide

theorem test_wellFormed_read_17_lines : (Instr.read 0x40 17 1).wellFormed = false := by decide

theorem test_wellFormed_read_16_lines : (Instr.read 0x40 16 1).wellFormed = true := by decide

theorem test_wellFormed_write_no_lines : (Instr.write 0x40 [] none).wellFormed = false := by decide

theorem test_wellFormed_write_17_lines :
    (Instr.write 0x40 (List.replicate 17 0) none).wellFormed = false := by decide

/-! ### Tables and records -/

/-- R160's table: RATE_5994 at 20 s is 1,199 frames, clamped to 760 on the 4 GiB pool (10 section 10.2). -/
theorem test_strap_target :
    strapTarget { rate := 3, mem := 0, delay := 3, pol := 0, check := 0 } = 1199 ∧
    (Settings.default { rate := 3, mem := 0, delay := 3, pol := 0, check := 0 } (Pool.fresh 4 768)).target = 760 := by
  decide +kernel

/-- R110's worked figures (06 section 6.9). -/
theorem test_milliseconds :
    RateCode.toMs .rate5994 600 = 10010 ∧ RateCode.toMs .rate5994 30 = 501 ∧ RateCode.toMs .rate2997 15 = 501 ∧
    RateCode.toMs .rate25 107374182 = 4294967280 ∧ RateCode.toMs .rate25 107374183 = 4294967295 := by decide

/-- R33's worked check word (02 section 2.11): a line whose words sum to 0x3A5C. -/
theorem test_link_check :
    linkCheckPasses 0x1000 [putField 0 6 (0x3A5C : Half)] (some 0xB5A4) = true ∧
    linkCheckPasses 0x1040 [putField 0 6 (0x3A5C : Half)] (some 0xB5A4) = false := by decide +kernel

/-- R46's worked sequence tests across the wrap (03 section 3.13). -/
theorem test_sequence :
    sequenceTest (some 4294967294) 4294967295 = .inOrder ∧ sequenceTest (some 4294967295) 2 = .gap 0 2 ∧
    sequenceTest (some 2) 1 = .behind ∧ sequenceTest (some 2) 300 = .gap 3 297 ∧
    sequenceTest (some 300) 2147483951 = .behind := by decide

/-- R65's example: with 0 alone in the list, seq 2^31 does not fit and 0 is removed. -/
theorem test_order_guard :
    guardRemoved 2147483648 [frame 0 0] = [frame 0 0] ∧ guardKept 2147483647 [frame 0 0] = [frame 0 0] := by
  decide

/-! ### One command each -/

/-- R29 (02 section 2.8): a READ across the host-visible top. -/
theorem test_read_across_top :
    (after (.read 0xFFBFFF80 4 20) idle).link.inFlight =
      [.accepted 20 [.ok 0, .ok 0, .unclaimed, .unclaimed] []] ∧
    (after (.read 0xFFBFFF80 4 20) idle).readout.first =
      some { kind := .unclaimed, serve := 0, seq := none, addr := some 0xFFC00000 } := by decide +kernel

/-- R11: a READ of a bound slot is taken on its block. -/
theorem test_read_on_block :
    (after (.read 0x21040000 2 6) (airing [])).pool.readCount 3 = 1 := by decide +kernel

/-- R40: the first payload line takes the head of the free list, whatever the slot. -/
theorem test_write_payload :
    (after (.write 0x20080040 [7] none) live).slot 2 = .filling 0 [1] 0 ∧
    (after (.write 0x20080040 [7] none) live).readBlockLine 0 1 = 7 := by decide +kernel

/-- R52: a picture record at an EMPTY slot commits a fully PARTIAL frame. -/
theorem test_write_header_first :
    (after (.write 0x20000000 [header 7000] none) live).queue.entries =
      [{ frame 7000 0 with isPartial := true }] ∧
    ((after (.write 0x20000000 [header 7000] none) live).pool.record 0).missing = some [0, 1, 2, 3] := by
  decide +kernel

/-- R12: the last completion on a RETIRING block frees it to the tail. -/
theorem test_readCompletion :
    (after .readCompletion (retiring 1 .running)).pool.free.getLast? = some 5 ∧
    (after .readCompletion (retiring 1 .running)).pool.retire = [] := by decide +kernel

/-- R31's second example: the egress window inside the ingest window is refused. -/
theorem test_configure_overlap :
    (after (.configure 2 (config 0x20000000 4 16)) idle).monitor.results =
      [{ num := 2, code := 0x01, result := .refusedRange }] := by decide +kernel

/-- R144, R2: an accepted CONFIGURE re-makes the pool. -/
theorem test_configure_pool :
    (after (.configure 2 (config 0x21000000 8 20)) idle).pool = Pool.fresh 8 20 := by decide +kernel

/-- R145, R100: START with a target above the band enters BUILDING. -/
theorem test_start :
    (after (.start 5 6 1) idle).air.condition = .priming ∧ (after (.start 5 6 1) idle).trim.state = .building := by
  decide +kernel

/-- R15 (01 section 1.7): STOP with a read in flight drains. -/
theorem test_stop :
    (after (.stop 1) (after (.read 0x21040000 2 6) (airing [frame 1 0]))).monitor.run = .stopping ∧
    (after (.stop 1) (after (.read 0x21040000 2 6) (airing [frame 1 0]))).pool.retire = [3] := by decide +kernel

/-- R147: SET_TARGET is clamped to `pool_blocks` - 8. -/
theorem test_setTarget : (after (.setTarget 1 900) idle).monitor.staged.target = 8 := by decide +kernel

/-- R147 (09 section 9.10): band 20 is staged as 15, CLAMPED. -/
theorem test_setControl :
    (after (.setControl 3 (controls 5 20 9 60)) idle).monitor.staged =
      { tableSettings 4 with band := 15, buildRate := 60 } := by decide +kernel

/-- R68, R63: a dump frees the newest entries and sets the splice. -/
theorem test_dump :
    (after (.dump 1) (queued [frame 1 0, frame 2 1])).queue = { entries := [], splicePending := true } ∧
    (after (.dump 1) (queued [frame 1 0, frame 2 1])).pool.free.drop 14 = [0, 1] := by decide +kernel

/-- R117 (07 section 7.8): a dump that empties a PENDING hold removes it. -/
theorem test_dump_hold_emptied : (after (.dump 1) held).holds.table.map (·.id) = [2] := by decide +kernel

/-- R119: after id 255 comes 1. -/
theorem test_holdOpen :
    (after (.holdOpen 1) { live with holds := { table := [], nextId := 255, dumpTotal := 0 } }).holds.nextId = 1 := by
  decide +kernel

/-- R122: closing an empty hold removes it with a HOLD_EMPTY record. -/
theorem test_holdClose : (after (.holdClose 1) held).readout.log.map (·.entry.kind) = [.holdEmpty] := by
  decide +kernel

/-- R123: id 0 names the oldest hold, whose tags are cleared. -/
theorem test_release : (after (.release 1 0) held).queue.entries = [frame 1 0, frame 2 1] := by decide +kernel

/-- R124, R63: the entry behind a dumped hold carries the splice. -/
theorem test_dumpHold :
    (after (.dumpHold 1 1) held).queue.entries = [{ frame 2 1 with spliceIn := true }] := by decide +kernel

/-- R149: only the named flag is cleared. -/
theorem test_clearFaults :
    (after (.clearFaults 1 2) { live with readout := { live.readout with flags := 3 } }).readout.flags = 1 := by
  decide +kernel

/-- R150: RESET_ENGINE keeps the command results and enters ACCEPTED. -/
theorem test_resetEngine :
    (after (.resetEngine 7) held).monitor.results = [{ num := 7, code := 0x0C, result := .accepted }] ∧
    (after (.resetEngine 7) held).holds.nextId = 1 := by decide +kernel

/-- R152: a resample value of 2 is refused. -/
theorem test_resetPart :
    (after (.resetPart 7 2) live).monitor.results = [{ num := 7, code := 0x0D, result := .refusedRange }] := by
  decide +kernel

/-- R164: the reset proper waits for the last read in flight. -/
theorem test_resetProper :
    after (.resetProper Config.resetStraps)
      { leaving with link := { leaving.link with inFlight := [.refused 4] } } =
      { leaving with link := { leaving.link with inFlight := [.refused 4] } } := by decide +kernel

/-- R2: the default pool of CFG_MEM level 1. -/
theorem test_powerOn :
    (after (.powerOn { rate := 2, mem := 1, delay := 3, pol := 1, check := 1 }) live).pool.blocks = 1792 ∧
    (after (.powerOn { rate := 2, mem := 1, delay := 3, pol := 1, check := 1 }) live).monitor.inForce.target = 1000 := by
  decide +kernel

/-- R163: the RESET pin takes LINK_READY low at once. -/
theorem test_resetPin : (after (.resetPin .asserted) live).link.ready = false := by decide +kernel

/-- R161's table: the third failure at FULL falls back to HALF. -/
theorem test_calibration :
    (after (.calibrationAttempt false 0) { State.reset with store := { Store.start with attempts := 2 } }).store =
      { cal := .calibrating, rate := .half, attempts := 3 } := by decide +kernel

/-- 05 section 5.2.1: at RATE_25 an edge at 12 ms is a glitch and one at 40 ms is a tick. -/
theorem test_refEdge :
    (after (.refEdge ⟨324000, 0⟩) live).air.serve = 0 ∧ (after (.refEdge ⟨1080000, 0⟩) live).air.serve = 1 := by
  decide +kernel

/-- 05 section 5.9: frame 707 of stamp 2,003, released at serve number 2,004, has air delay 1 (events 7 and 8);
committed in the instant of the tick of event 6, it alone in the queue, it would be released at 2,003 with air
delay 0 (R93); and a frame of an earlier stamp has its difference, whatever the row says. -/
theorem test_air_delay :
    let s := fun (serve stamp : Seq) => { queued [{ frame 707 0 with stamp := stamp }] with
      air := { live.air with serve := serve } }
    let delay := fun t : State => t.air.current.map fun b => (b.releaseServe, b.airDelay)
    delay (after (.refEdge ⟨1080000, 0⟩) (s 2003 2003)) = some (2004, 1) ∧
    delay (after (.refEdge ⟨1080000, 1⟩) (s 2002 2002)) = some (2003, 0) ∧
    delay (after (.refEdge ⟨1080000, 1⟩) (s 2002 2001)) = some (2003, 2) := by decide +kernel

/-- 05 section 5.2.1: no edge by 60 ms after the tick loses REF, and the moment is a tick. -/
theorem test_refLost :
    (after (.refLost ⟨0, 0⟩) live).gen =
      { mode := .lost, reference := 1620000, generated := 1, osc := 1620000, restated := false } := by
  decide +kernel

/-- 05 section 5.10: the tick at the freeze limit serves fill. -/
theorem test_generatedTick :
    (after (.generatedTick ⟨0, 0⟩) { airing [] with
      gen := lost.gen, air := { (airing []).air with freezeCount := 100 } }).air.condition = .filled := by
  decide +kernel

/-- R54: a slot 8 ticks old is abandoned. -/
theorem test_slotTimeout :
    (after .slotTimeout { filling with air := { filling.air with serve := 8 } }).slot 0 = .empty := by
  decide +kernel

/-- R126: the policy DUMP decides the hold at the limit. -/
theorem test_stallExpired :
    (after .stallExpired { held with
      air := { held.air with stallCount := 500, stalledHold := some 1 } }).holds.table.map (·.id) = [2] := by
  decide +kernel

/-- R86: FILL_ON_AIR carries the seq of the frame that left air. -/
theorem test_freezeLimit :
    (after .freezeLimit { airing [] with air := { (airing []).air with freezeCount := 100 } }).readout.first =
      some { kind := .fillOnAir, serve := 0, seq := some 9, addr := none } := by decide +kernel

/-- R136: the blink count wraps from 15. -/
theorem test_blinkPhase :
    (after .blinkPhase { live with console := { live.console with blinkCount := 15 } }).console.blinkLit = false := by
  decide +kernel

/-- A part whose three console lines are armed. -/
def armed (s : State) : State :=
  let p : LineSampler := { LineSampler.start with armed := true, inactiveRun := 20 }
  { s with console := { s.console with dump := p, hold := p, release := p } }

/-- R133: with an undecided hold a DUMP press dumps the oldest. -/
theorem test_dumpPress : (after .dumpPress (armed held)).holds.table.map (·.id) = [2] := by decide +kernel

/-- R134: a HOLD press closes the OPEN hold. -/
theorem test_holdPress : (after .holdPress (armed held)).holds.table.map (·.id) = [1] := by decide +kernel

/-- R135: a RELEASE press releases the oldest hold. -/
theorem test_releasePress : (after .releasePress (armed held)).holds.table.map (·.id) = [2] := by
  decide +kernel

/-- 08 section 8.6, sample 3: active, inactive, active makes a press and disarms the line. -/
theorem test_consoleSample :
    (after (.consoleSample .dump false) { armed (queued [frame 1 0]) with
      console := { (armed live).console with dump :=
        { s0 := false, s1 := true, s2 := false, armed := true, inactiveRun := 1 } } }).queue.entries = [] := by
  decide +kernel

/-- A running part with a hold table. -/
def withHolds (rs : List HoldRecord) (es : List Entry) : State :=
  { queued es with holds := { table := rs, nextId := 255, dumpTotal := 0 } }

/-! ### Witnesses: states and operands that meet the hypotheses of the statements -/

/-- A part with `n` refused reads in flight behind an accepted one with tag 9. -/
def inFlight (n : Nat) : State :=
  { live with
    link := { live.link with inFlight := .accepted 9 [.fill 0] [] :: List.replicate n (.refused 0) } }

theorem witness_stepRunsFrontCommand : State.reset.pending = [] := by decide

theorem witness_linkDownCommandsOnlyWait :
    State.reset.link.ready = false ∧ (∀ p, Instr.read 0 1 0 ≠ .powerOn p) ∧
    (∀ e, Instr.read 0 1 0 ≠ .resetPin e) ∧ (∀ p n, Instr.read 0 1 0 ≠ .calibrationAttempt p n) := by
  refine ⟨by decide, ?_, ?_, ?_⟩ <;> simp

theorem witness_linkDown_calibration_failed :
    ({ State.reset with store := { Store.start with cal := .failed } } : State).store.cal ≠ .calibrating ∧
    (after (.resetPin .asserted) live).resetHeld = true := by decide +kernel

theorem witness_strapDefaultTarget : LinkUp live := by decide +kernel

theorem witness_resetProperResets :
    (leaving.link.ready = true ∧ leaving.monitor.resetPart = some true ∧ leaving.link.inFlight = []) ∧
    live.monitor.resetPart = none ∧
    ({ leaving with link := (inFlight 0).link } : State).link.inFlight ≠ [] := by decide +kernel

theorem witness_calibrationAttemptOutcome :
    State.reset.store.cal = .calibrating ∧ State.reset.resetHeld = false ∧ State.reset.link.waiting = [] ∧
    State.reset.store.rate = .full ∧
    (let s : State := { State.reset with store := { cal := .calibrating, rate := .half, attempts := 5 } }
     s.store.cal = .calibrating ∧ s.resetHeld = false ∧ s.store.rate = .half ∧
     (after (.calibrationAttempt false 0) s).store.cal = .failed) := by decide +kernel

theorem witness_readAccepted :
    LinkClear (inFlight 62) ∧ (inFlight 62).link.inFlight.length < 64 ∧
    (∀ e ∈ (inFlight 62).link.inFlight, e.acceptedTag ≠ some 0) ∧
    (inFlight 62).hostTop ≤ requestLine 0xFFBFFFC0 1 ∧
    (∀ j < 1, requestLine 0xFFBFFFC0 j < (inFlight 62).hostTop) ∧
    (∀ x ∈ (List.range 1).map (requestLine 0xFFBFFFC0), x < (inFlight 62).hostTop) := by decide +kernel

theorem witness_readRefusedOrWaiting :
    (LinkClear (inFlight 62) ∧ (inFlight 62).link.inFlight.length < 64 ∧
      InFlight.accepted 9 [.fill 0] [] ∈ (inFlight 62).link.inFlight ∧
      (InFlight.accepted 9 [.fill 0] []).acceptedTag = some 9) ∧
    (LinkClear (inFlight 63) ∧ 64 ≤ (inFlight 63).link.inFlight.length) ∧
    (requestsOf (.write 0 [0] none) ≠ [] ∧
      64 ≤ (after (.read 0 1 2) (inFlight 63)).link.inFlight.length ∧
      (after (.read 0 1 2) (inFlight 63)).link.waiting = .read 0 1 2 :: []) := by decide +kernel

theorem witness_readLineResults :
    live.hostTop ≤ live.hostTop ∧ live.classify 0 = .pass ∧ live.classify 0x1FC0 = .control 63 ∧
    (filling.classify 0x20000040 = .ingest 0 1 ∧ filling.slot 0 = .filling 0 [1] 0 ∧
      filling.monitor.run = .running) ∧
    (live.classify 0x200FFFC0 = .ingest 3 4095 ∧ live.slot 3 = .empty) ∧
    (live.classify 0x21000040 = .egress .a 1 ∧ live.air.binding .a = none) ∧
    ((airing []).classify 0x2107FFC0 = .egress .b 4095 ∧
      (airing []).air.binding .b = some (onAir 9 3 1) ∧ 4095 / 1024 ∉ (airing []).pool.missingTiles 3) := by
  decide +kernel

/-- A part whose block on air in slot B lacks its last tile. -/
def partAired : State :=
  { airing [] with
    pool := (airing []).pool.setRecord 3 { state := .air, inFlight := some 0, missing := some [3] } }

theorem witness_readLineResults_missing :
    partAired.classify 0x2107FFC0 = .egress .b 4095 ∧ partAired.air.binding .b = some (onAir 9 3 1) ∧
    4095 / 1024 ∈ partAired.pool.missingTiles 3 := by decide +kernel

/-- A picture record's address in slot 3, and one that carries low bits, in a part with sound windows. -/
theorem witness_readLineResults_addr :
    WindowsSound filling ∧ filling.classify (requestLine 0x200C0000 0) = .ingest 3 0 ∧
    filling.classify (requestLine 0x2000003F 0) = .ingest 0 0 := by decide +kernel

/-- R11, R89: a line of a missing tile is taken on its block, and no line of an unbound slot on any. -/
theorem witness_readBlock :
    partAired.readBlock 0x2107FFC0 = some 3 ∧ partAired.readBlock 0x21000000 = none ∧
    partAired.readBlock 0x20000000 = none := by decide +kernel

theorem witness_pictureRecordsOnEgress :
    (airing []).classify 0x21040000 = .egress .b 0 ∧ (airing []).air.binding .b = some (onAir 9 3 1) ∧
    (airing []).classify 0x21000000 = .egress .a 0 ∧ (airing []).air.binding .a = none := by decide +kernel

theorem witness_readoutLinesComposed :
    live.classify 0x2000 = .readout 0 ∧ live.classify 0x2FC0 = .readout 63 ∧
    held.holds.table[1]? = some (hold 2 .opened none none 0) ∧ held.holds.table[2]? = none ∧
    (after (.holdClose 1) held).readout.log[0]?.isSome = true ∧
    (after (.holdClose 1) held).readout.log[1]? = none := by decide +kernel

theorem witness_windowClasses :
    WindowsSound live ∧ live.monitor.run ≠ .stopped ∧ WindowsSound idle ∧ idle.monitor.run = .stopped ∧
    (live.classify 0x1FFFFFC0 = .pass ∧ live.classify 0x20000000 = .ingest 0 0 ∧
      live.classify 0x200FFFC0 = .ingest 3 4095 ∧ live.classify 0x20100000 = .pass) ∧
    (live.classify 0x2103FFC0 = .egress .a 4095 ∧ live.classify 0x21040000 = .egress .b 0 ∧
      live.classify 0x21080000 = .pass) ∧
    (live.classify 0xFC0 = .pass ∧ live.classify 0x1000 = .control 0 ∧ live.classify 0x1FC0 = .control 63 ∧
      live.classify 0x2000 = .readout 0 ∧ live.classify 0x3000 = .pass) ∧
    (live.classify 0xFFBFFFC0 = .pass ∧ live.classify 0xFFC00000 = .unclaimed) ∧
    idle.classify 0x20000000 = .pass := by decide +kernel

/-- A part in link check mode ON. -/
def checked (s : State) : State := { s with link := { s.link with checkMode := true } }

theorem witness_writeStoresLines :
    LinkClear live ∧ Memory.wf live.dram ∧ WritePasses live 0xFC0 [1, 2] none ∧
    (live.classify (requestLine 0xFC0 0) = .pass ∧ live.classify (requestLine 0xFC0 1) = .control 0 ∧
      fieldAt (2 : Line) 0 8 ≠ 0x10) ∧
    (live.classify (requestLine 0x2FC0 0) = .readout 63 ∧ live.classify (requestLine 0x2FC0 1) = .pass) ∧
    WritePasses (checked live) 0x1000 [putField 0 6 (0x3A5C : Half)] (some 0xB5A4) := by decide +kernel

theorem witness_writeStoresLines_inOrder :
    (LinkClear live ∧ (0x20000000 : Addr).toNat + 64 < 1099511627776 ∧
      WritePasses live 0x20000000 [header 8, 7] none ∧ WritePasses live 0x20000000 [header 8] none ∧
      (∃ t, exec (.write 0x20000000 [header 8] none) live = .next t ∧ t.monitor.resetPart = none ∧
        WritePasses t (0x20000000 + 64) [7] none)) ∧
    (let l := record 4 0x0D 1
     (0x1FC0 : Addr).toNat + 64 < 1099511627776 ∧ WritePasses live 0x1FC0 [l, 7] none ∧
     ∃ t, exec (.write 0x1FC0 [l] none) live = .next t ∧ t.monitor.resetPart ≠ none ∧
       WritePasses t (0x1FC0 + 64) [7] none ∧ t.classify (requestLine (0x1FC0 + 64) 0) = .readout 0 ∧
       Memory.wf live.dram) :=
  ⟨⟨by decide +kernel, by decide, by decide +kernel, by decide +kernel, _, rfl, by decide +kernel,
    by decide +kernel⟩, by decide, by decide +kernel, _, rfl, by decide +kernel, by decide +kernel,
    by decide +kernel, by decide +kernel⟩

theorem witness_writeFailsLinkCheck :
    LinkClear (checked filling) ∧ (checked filling).link.checkMode = true ∧
    linkCheckPasses 0x2003FFC0 [1, 2] none = false ∧ linkCheckPasses 0x2003FFC0 [1, 2] (some 0) = false ∧
    (checked filling).monitor.run = .running ∧
    (checked filling).classify (requestLine 0x2003FFC0 0) = .ingest 0 4095 ∧
    (checked filling).classify (requestLine 0x2003FFC0 1) = .ingest 1 0 ∧
    (checked filling).slot 0 = .filling 0 [1] 0 ∧ (checked filling).slot 1 = .empty ∧
    (checked idle).monitor.run ≠ .running := by decide +kernel

theorem witness_writeFailsLinkCheck_untouched (i : Nat) (h : i < 2) (j : Nat) :
    (checked filling).classify (requestLine 0x2003FFC0 i) ≠ .ingest 2 j := by
  have h2 : (checked filling).classify (requestLine 0x2003FFC0 i) = .ingest 0 4095 ∨
      (checked filling).classify (requestLine 0x2003FFC0 i) = .ingest 1 0 := by
    revert i
    decide +kernel
  rcases h2 with h2 | h2 <;> rw [h2] <;> intro h3 <;> cases h3

theorem witness_writeDropsLines :
    LinkClear (airing []) ∧ WritePasses (airing []) 0x2107FFC0 [1] none ∧
    (airing []).classify (requestLine 0x2107FFC0 0) = .egress .b 4095 ∧
    (let s : State := { live with monitor := { live.monitor with run := .stopping } }
     LinkClear s ∧ s.monitor.run = .stopping ∧ s.classify (requestLine 0x20000000 0) = .ingest 0 0) ∧
    (∀ i < [(1 : Line), 2].length, live.hostTop ≤ requestLine 0xFFC00000 i) ∧
    (LinkClear live ∧ Memory.wf live.dram ∧ WritePasses live 0xFFBFFFC0 [1, 2] none ∧
      live.classify (requestLine 0xFFBFFFC0 0) = .pass ∧ live.hostTop ≤ requestLine 0xFFBFFFC0 1) := by
  decide +kernel

theorem witness_payloadLineBySlotState :
    LinkClear live ∧ WritePasses live 0x20000040 [7] none ∧ live.monitor.run = .running ∧
    Memory.wf live.dram ∧ live.classify (requestLine 0x20000040 0) = .ingest 0 1 ∧
    (live.slot 0 = .empty ∧ live.pool.free = 0 :: (List.range 16).tail ∧ 0 < live.pool.records.length) ∧
    (let s : State := { live with pool := { live.pool with free := [] } }
     LinkClear s ∧ s.classify (requestLine 0x20000040 0) = .ingest 0 1 ∧ s.slot 0 = .empty ∧ s.pool.free = []) ∧
    (filling.classify (requestLine 0x20000040 0) = .ingest 0 1 ∧ filling.slot 0 = .filling 0 [1] 0) ∧
    ((slotted 0 (.discard 0 0)).slot 0 = .discard 0 0 ∧ (slotted 0 .overrun).slot 0 = .overrun ∧
      (slotted 0 .overrun).classify (requestLine 0x20000040 0) = .ingest 0 1) := by decide +kernel

/-- The part with a sequence register. -/
def registered (q : Seq) : State := { filling with ingest := { filling.ingest with lastSeq := some q } }

theorem witness_pictureRecordCommits :
    LinkClear filling ∧ WritePasses filling 0x20000000 [header 8] none ∧ filling.monitor.run = .running ∧
    Memory.wf filling.dram ∧ filling.classify (requestLine 0x20000000 0) = .ingest 0 0 ∧
    filling.slot 0 = .filling 0 [1] 0 ∧ recordGood (header 8) = true ∧
    guardFits (fieldAt (header 8) 4 32) filling.queue.entries = true ∧
    filling.ingest.lastSeq = none ∧ (registered 7).ingest.lastSeq = some (fieldAt (header 8) 4 32 - 1) ∧
    (live.slot 0 = .empty ∧ live.pool.free = 0 :: (List.range 16).tail) := by decide +kernel

theorem witness_pictureRecordCommits_gap :
    (registered 6).ingest.lastSeq = some 6 ∧ fieldAt (header 8) 4 32 - (6 + 1) ≠ (0 : Seq) ∧
    (fieldAt (header 8) 4 32 - (6 + 1) : Seq).toNat < 2147483648 ∧
    (1 : Byte) = BitVec.ofNat 8 (min 255 (fieldAt (header 8) 4 32 - (6 + 1) : Seq).toNat) ∧
    (fieldAt (header 2147483654) 4 32 - (6 + 1) : Seq).toNat < 2147483648 := by decide +kernel

theorem witness_pictureRecordRefusedOrDropped :
    (recordGood 1 = false ∧ filling.slot 0 = .filling 0 [1] 0) ∧
    (recordGood (header 2147483656) = true ∧ (registered 7).ingest.lastSeq = some 7 ∧
      2147483648 ≤ (fieldAt (header 2147483656) 4 32 - (7 + 1) : Seq).toNat) ∧
    ((slotted 0 (.discard 0 0)).slot 0 = .discard 0 0 ∧
      (slotted 0 (.discard 0 0)).classify (requestLine 0x20000000 0) = .ingest 0 0) ∧
    (slotted 0 .overrun).slot 0 = .overrun ∧
    (let s : State := { live with pool := { live.pool with free := [] } }
     LinkClear s ∧ s.classify (requestLine 0x20000000 0) = .ingest 0 0 ∧ s.slot 0 = .empty ∧
     s.pool.free = []) := by decide +kernel

theorem witness_orderGuard :
    guardRemoved 2147483648 [frame 0 0, frame 1 1] = ([] : List Entry) ++ frame 0 0 :: [] ∧
    (let e := frame 2147483648 2
     guardRemoved e.seq (queued [frame 0 0, frame 1 1]).queue.entries ≠ []) := by decide +kernel

/-- R65 at its boundaries, with one entry and with two. -/
theorem witness_guardFits :
    guardFits 1 [frame 0 0] = true ∧ guardFits 2147483647 [frame 0 0] = true ∧
    guardFits 2147483648 [frame 0 0] = false ∧ guardFits 0 [frame 0 0] = false ∧
    guardFits 5 [frame 0 0, frame 5 1] = false ∧ guardFits 6 [frame 0 0, frame 5 1] = true := by decide

theorem witness_orderGuard_holds :
    let s := withHolds [hold 1 .pending (some 0) (some 0) 1, hold 2 .opened (some 1) none 1]
      [frame 0 0 (some 1), frame 1 1 (some 2)]
    guardRemoved 2147483649 s.queue.entries = s.queue.entries ∧
    (s.append (frame 2147483649 2)).holds.table =
      [hold 2 .opened (some 2147483649) none 1] := by decide +kernel

theorem witness_orderGuard_ascending :
    (frame 5 2).seq = 5 ∧ Ascending [frame 0 0, frame 1 1] := by
  refine ⟨rfl, ?_, ?_⟩
  · decide
  · decide

theorem witness_commandRecordRunsItsRow :
    LinkClear live ∧ WritePasses live 0x1FC0 [record 4 0x0D 1] none ∧
    live.classify (requestLine 0x1FC0 0) = .control 63 ∧ fieldAt (record 4 0x0D 1) 0 8 = 0x10 ∧
    (recordGood (record 4 0x0D 1) = true ∧ commandOf (record 4 0x0D 1) = some (.resetPart 1)) ∧
    (recordGood (record 4 0x0E 0) = true ∧ commandOf (record 4 0x0E 0) = none ∧
      fieldAt (record 4 0x0E 0) 0 8 = 0x10) ∧
    (recordGood (0x10 : Line) = false ∧ fieldAt (0x10 : Line) 0 8 = 0x10) := by decide +kernel

theorem witness_readCompletionSends :
    (retiring 1 .running).link.ready = true ∧
    (retiring 1 .running).link.inFlight = .accepted 9 [.fill 0] [5] :: [] ∧
    (retiring 1 .running).link.waiting = [] ∧ (retiring 1 .running).monitor.run ≠ .stopping ∧
    ((inFlight 0).link.inFlight = .accepted 9 [.fill 0] [] :: [] ∧
      (InFlight.accepted 9 [.fill 0] []).blocks = []) ∧
    live.link.inFlight = [] := by decide +kernel

theorem witness_readCompletionSends_waiting :
    Takable live (.write 0 [0] none) ∧ Takable (inFlight 62) (.read 0 1 2) ∧
    ¬ Takable (inFlight 63) (.read 0 1 2) ∧ ¬ Takable State.reset (.write 0 [0] none) ∧
    requestsOf (.read 0 1 2) = [.read 0 1 2] ∧ live.link.waiting = [] := by
  refine ⟨⟨by decide +kernel, fun _ => by decide +kernel⟩, ⟨by decide +kernel, fun _ => by decide +kernel⟩,
    fun h => absurd (h.2 ⟨0, 1, 2, rfl⟩) (by decide +kernel), fun h => absurd h.1 (by decide +kernel), rfl,
    rfl⟩

theorem witness_readCompletionFreesBlocks :
    (∀ n ∈ [1, 2], ∀ run ∈ [RunState.running, .stopping],
      (retiring n run).link.ready = true ∧
      (retiring n run).link.inFlight = .accepted 9 [.fill 0] [5] :: [] ∧ (retiring n run).link.waiting = [] ∧
      5 < (retiring n run).pool.records.length ∧ ((retiring n run).pool.record 5).inFlight = some n ∧
      ((retiring n run).pool.record 5).state = .retiring ∧ 5 ∈ (retiring n run).pool.retire ∧
      (retiring n run).pool.retire = [5] ∧ (retiring n run).monitor.run = run) ∧
    (let s := after (.read 0x21040000 1 6) (airing [])
     s.link.inFlight.map (·.blocks) = [[3]] ∧ s.link.waiting = [] ∧ (s.pool.record 3).state = .air ∧
     (s.pool.record 3).inFlight = some 1) := by decide +kernel

/-- The blocks 5 and 6 RETIRING with one read each, taken by one READ, or with 6 held by another. -/
def retiringTwo (run : RunState) (reads : List InFlight) : State :=
  { retiring 1 run with
    link := { live.link with inFlight := reads }
    pool := { (retiring 1 run).pool.setRecord 6 { state := .retiring, inFlight := some 1, missing := none } with
              free := (live.pool.free.erase 5).erase 6, retire := [5, 6] } }

theorem witness_readCompletionFreesBlocks_two :
    (let s := retiringTwo .running [.accepted 9 [.fill 0, .fill 0] [5, 6]]
     s.link.ready = true ∧ s.link.inFlight = .accepted 9 [.fill 0, .fill 0] [5, 6] :: [] ∧ s.link.waiting = [] ∧
     (s.pool.record 5).state = .retiring ∧ (s.pool.record 6).state = .retiring ∧
     s.pool.readCount 5 = 1 ∧ s.pool.readCount 6 = 1 ∧ s.monitor.run ≠ .stopping) ∧
    (let s := retiringTwo .stopping [.accepted 9 [.fill 0] [5], .accepted 8 [.fill 0] [6]]
     s.link.ready = true ∧ s.link.inFlight = .accepted 9 [.fill 0] [5] :: [.accepted 8 [.fill 0] [6]] ∧
     s.link.waiting = [] ∧ 5 < s.pool.records.length ∧ (s.pool.record 5).inFlight = some 1 ∧
     (s.pool.record 5).state = .retiring ∧ s.monitor.run = .stopping ∧ s.pool.retire.erase 5 ≠ []) := by
  decide +kernel

/-- The live part in a run state. -/
def inState (run : RunState) : State := { live with monitor := { live.monitor with run := run } }

theorem witness_runStateTable :
    (LinkUp idle ∧ idle.monitor.run = .stopped) ∧ (LinkUp live ∧ live.monitor.run = .running) ∧
    (LinkUp (inState .stopping) ∧ (inState .stopping).monitor.run = .stopping) := by decide +kernel

theorem witness_runStateTable_commands :
    isHoldCommand (.dumpHold 1) ∧ isStoppedCommand (.start 0 0) ∧ isSettingCommand (.clearFaults 1) := by
  simp [isHoldCommand, isStoppedCommand, isSettingCommand]

theorem witness_configureTaken :
    LinkUp idle ∧ idle.monitor.run = .stopped ∧ idle.configureRate (config 0x20000000 4 16) = none ∧
    idle.configureRate (config 0x21000000 4 16) = some .rate5994 ∧
    idle.configureRate { config 0 128 480 with ingest := 0 } = some .rate5994 ∧
    idle.configureRate { config 0 128 481 with ingest := 0 } = none ∧
    idle.configureRate (config 0x21000000 3 16) = none := by decide +kernel

theorem witness_startTaken :
    LinkUp idle ∧ idle.monitor.run = .stopped ∧ idle.windows.ingest ≠ 0 ∧ idle.windows.egress ≠ 0 ∧
    ({ idle with windows := Windows.default } : State).windows.ingest = 0 ∧
    (1 : Byte).toNat ≤ 1 ∧ 1 < (2 : Byte).toNat := by decide +kernel

theorem witness_stopTaken :
    Running (airing [frame 1 0]) ∧ BlocksPlaced (airing [frame 1 0]) ∧
    (airing [frame 1 0]).pool.retire ++
      (egressBlocks (airing [frame 1 0])).filter (fun b => (airing [frame 1 0]).pool.readCount b ≠ 0) = [] ∧
    (let s := after (.read 0x21040000 1 6) (airing [frame 1 0])
     Running s ∧ BlocksPlaced s ∧
     s.pool.retire ++ (egressBlocks s).filter (fun b => s.pool.readCount b ≠ 0) ≠ []) := by decide +kernel

theorem witness_settingCommands :
    LinkUp live ∧ live.monitor.run ≠ .stopping ∧
    ((controls 2 0 2 0).change.getLsbD 1 = true ∧ 1 < (controls 2 0 2 0).eligibility.toNat) ∧
    ((controls 5 16 9 0).change.getLsbD 0 = true ∧ (controls 5 16 9 0).change.getLsbD 1 = false ∧
      15 < (controls 5 16 9 0).band.toNat ∧ (controls 5 16 9 0).buildRate = 0) ∧
    ((controls 5 15 9 500).change.getLsbD 2 = true ∧ ¬ 500 < (controls 5 15 9 500).buildRate.toNat) := by
  decide +kernel

theorem witness_dumpTaken :
    Running held ∧ held.monitor.inForce.dumpFloor < held.queue.entries.length ∧
    1 ≤ held.monitor.inForce.dumpLength ∧
    (let s : State := { held with monitor := { held.monitor with inForce := { held.monitor.inForce with dumpFloor := 2 } } }
     Running s ∧ s.queue.entries.length ≤ s.monitor.inForce.dumpFloor) := by decide +kernel

/-- A part in SEGMENT mode with a dump length. -/
def segments (len : Nat) (es : List Entry) : State :=
  let s := queued es
  { s with monitor := { s.monitor with inForce := { s.monitor.inForce with dumpMode := .segment, dumpLength := len } } }

theorem witness_dumpCounts :
    (held.monitor.inForce.dumpFloor < held.queue.entries.length ∧ held.monitor.inForce.dumpMode = .chunk ∧
      held.queue.entries.length - held.monitor.inForce.dumpFloor < held.monitor.inForce.dumpLength) ∧
    (let s := segments 2 [frame 1 0 none true, frame 2 1, frame 3 2]
     s.monitor.inForce.dumpFloor < s.queue.entries.length ∧ s.monitor.inForce.dumpMode = .segment ∧
     (∀ e ∈ s.queue.entries.drop (s.queue.entries.length - min 2 3), e.segment = false)) ∧
    (let s := segments 2 [frame 1 0, frame 2 1 none true, frame 3 2]
     (s.queue.entries[1]?.map (·.segment) = some true) ∧ (s.queue.entries[2]?.map (·.segment) = some false) ∧
     s.queue.entries.length - min 2 3 ≤ 1) ∧
    (let s := segments 2 [frame 1 0, frame 2 1, frame 3 2 none true]
     s.queue.entries.getLast? = some (frame 3 2 none true)) := by decide +kernel

theorem witness_holdOpenAndClose :
    (Running (withHolds [hold 1 .pending (some 1) (some 1) 1] [frame 1 0 (some 1)]) ∧
      ∀ h ∈ (withHolds [hold 1 .pending (some 1) (some 1) 1] []).holds.table, h.state ≠ .opened) ∧
    (held.openHold = some (hold 2 .opened none none 0) ∧ (hold 2 .opened none none 0).unaired = 0) ∧
    (let s := withHolds [hold 2 .opened (some 1) none 1] [frame 1 0 (some 2)]
     Running s ∧ s.openHold = some (hold 2 .opened (some 1) none 1) ∧
     (hold 2 .opened (some 1) none 1).unaired ≠ 0) ∧
    (let s := withHolds ([1, 2, 3, 4].map fun i => hold i .pending (some 1) (some 1) 1) []
     Running s ∧ (∀ h ∈ s.holds.table, h.state ≠ .opened) ∧ 4 ≤ s.holds.table.length) := by decide +kernel

theorem witness_holdOpen_refused : ∃ h ∈ held.holds.table, h.state = .opened :=
  ⟨hold 2 .opened none none 0, by decide⟩

theorem witness_holdIds :
    let s := withHolds ([255, 1, 2].map fun i => hold i .pending (some 1) (some 1) 1) []
    Running s ∧ (∀ h ∈ s.holds.table, h.state ≠ .opened) ∧ s.holds.table.length < 4 ∧ s.holds.nextId ≠ 0 ∧
    (after (.holdOpen 1) s).holds.nextId = 4 := by decide +kernel

theorem witness_releaseTaken :
    Running held ∧ held.holds.table.head? = some (hold 1 .pending (some 1) (some 1) 1) ∧
    held.holds.table.find? (fun r => r.id = 2) = some (hold 2 .opened none none 0) ∧
    held.holds.table.find? (fun r => r.id = 255) = none ∧ live.holds.table.head? = none := by decide +kernel

theorem witness_dumpHoldTaken :
    Running held ∧ held.holds.table.find? (fun r => r.id = 1) = some (hold 1 .pending (some 1) (some 1) 1) ∧
    held.holds.table.find? (fun r => r.id = 2) = some (hold 2 .opened none none 0) ∧
    (∀ r ∈ held.holds.table, r.id ≠ 255) ∧
    held.queue.entries.filter (fun e => decide (e.hold = some 1)) ≠ [] ∧
    held.queue.entries.filter (fun e => decide (e.hold = some 2)) = [] := by decide +kernel

theorem witness_clearFaultsTaken :
    LinkUp live ∧ live.monitor.run ≠ .stopping ∧ live.readout.first = none ∧
    (after (.read 0xFFC00000 1 0) live).readout.first.isSome = true := by decide +kernel

theorem witness_resetEngineTaken :
    LinkUp live ∧ live.monitor.run = .running ∧ LinkUp (inState .stopping) ∧
    (inState .stopping).monitor.run ≠ .running ∧ live.store.cal ≠ .failed := by decide +kernel

theorem witness_resetPartTaken :
    LinkUp live ∧ (1 : Byte).toNat ≤ 1 ∧ 1 < (2 : Byte).toNat ∧ leaving.monitor.resetPart ≠ none ∧
    requestsOf (.read 0 1 0) ≠ [] := by decide +kernel

/-- The live part in AWAIT. -/
def awaiting : State := { live with gen := { live.gen with mode := .await } }

theorem witness_refEdgeByMode :
    live.link.ready = true ∧ live.gen.osc ≤ 540000 ∧
    (awaiting.gen.mode = .await ∧ 1620000 ≤ awaiting.gen.reference + 3 * awaiting.period / 2) ∧
    (live.gen.mode = .locked ∧ 539999 < live.gen.reference + live.period / 2 ∧
      live.gen.reference + live.period / 2 ≤ 540000 ∧
      1620000 ≤ live.gen.reference + 3 * live.period / 2) ∧
    (lost.gen.mode = .lost ∧ 539999 < lost.gen.reference + lost.period / 2 ∧
      lost.gen.reference + lost.period / 2 ≤ 540000 ∧ 1080000 ≤ lost.gen.reference + lost.period) ∧
    (live.gen.mode ≠ .lost ∧ max live.gen.osc (live.gen.reference + 3 * live.period / 2) < 1620001) ∧
    max lost.gen.osc (lost.gen.reference + lost.period) < 1080001 ∧ idle.monitor.run ≠ .running := by
  decide +kernel

theorem witness_lossGeneratedTicksAndBlink :
    live.link.ready = true ∧ live.gen.mode ≠ .lost ∧ live.gen.restated = false ∧ live.readout.first = none ∧
    lost.link.ready = true ∧ lost.gen.mode = .lost ∧ lost.gen.restated = false ∧
    idle.monitor.run ≠ .running ∧ live.console.blinkCount < 15 ∧
    15 ≤ ({ live with console := { live.console with blinkCount := 15 } } : State).console.blinkCount := by
  decide +kernel

/-- A REF edge in LOCKED that is on time makes one tick. -/
theorem ticksOnce_locked {s : State} {n : Nat} (hr : s.link.ready = true) (hm : s.gen.mode = .locked)
    (h : s.gen.osc ≤ n ∧ s.gen.reference + s.period / 2 ≤ n ∧ n ≤ s.gen.reference + 3 * s.period / 2) :
    TicksOnce s (.refEdge ⟨n, 0⟩) := ⟨hr, .inr (.inr ⟨⟨n, 0⟩, rfl, h.1, .inr (.inl ⟨hm, h.2⟩)⟩)⟩

/-- One tick from an edge in each mode, at either end of its span, from the loss and from a generated tick. -/
theorem witness_ticksOnce :
    TicksOnce live (.refEdge ⟨540000, 0⟩) ∧ TicksOnce live (.refEdge ⟨1620000, 0⟩) ∧
    TicksOnce awaiting (.refEdge ⟨0, 0⟩) ∧ TicksOnce awaiting (.refEdge ⟨1620000, 0⟩) ∧
    TicksOnce lost (.refEdge ⟨540000, 0⟩) ∧ TicksOnce lost (.refEdge ⟨1080000, 0⟩) ∧
    TicksOnce live (.refLost ⟨0, 0⟩) ∧ TicksOnce lost (.generatedTick ⟨0, 0⟩) :=
  ⟨ticksOnce_locked rfl rfl (by decide), ticksOnce_locked rfl rfl (by decide),
    ⟨rfl, .inr (.inr ⟨⟨0, 0⟩, rfl, by decide, .inl ⟨rfl, by decide⟩⟩)⟩,
    ⟨rfl, .inr (.inr ⟨⟨1620000, 0⟩, rfl, by decide, .inl ⟨rfl, by decide⟩⟩)⟩,
    ⟨rfl, .inr (.inr ⟨⟨540000, 0⟩, rfl, by decide, .inr (.inr ⟨rfl, by decide, by decide⟩)⟩)⟩,
    ⟨rfl, .inr (.inr ⟨⟨1080000, 0⟩, rfl, by decide, .inr (.inr ⟨rfl, by decide, by decide⟩)⟩)⟩,
    ⟨rfl, .inr (.inl ⟨⟨0, 0⟩, rfl, by decide⟩)⟩, ⟨rfl, .inl ⟨⟨0, 0⟩, rfl, rfl⟩⟩⟩

/-- A PRIMING part with its queue one short of its staged target 4. -/
def priming : State :=
  let s := queued [frame 1 0, frame 2 1, frame 3 2]
  { s with air := { s.air with condition := .priming } }

theorem witness_primingAndStalledTicks :
    (priming.monitor.run = .running ∧ priming.air.condition = .priming ∧
      priming.queue.entries.length < priming.monitor.staged.target) ∧
    (held.monitor.run = .running ∧ PastPriming held ∧
      held.queue.entries = frame 1 0 (some 1) :: [frame 2 1]) := by decide +kernel

/-- What stands before the latch of a tick: nothing on time in LOCKED, and no change of queue or air else. -/
theorem witness_atTickStart :
    atTickStart held (.refEdge ⟨540000, 0⟩) = held ∧ atTickStart priming (.refEdge ⟨540000, 0⟩) = priming ∧
    (∀ c ∈ [Instr.refEdge ⟨540000, 0⟩, .generatedTick ⟨0, 0⟩], PastPriming (atTickStart lost c) ∧
      (atTickStart lost c).queue.entries = [] ∧ (atTickStart lost c).air.current = none) ∧
    (atTickStart lost (.refEdge ⟨540000, 0⟩)).readout.log.map (·.entry.kind) = [.refReturn] ∧
    (atTickStart live (.refLost ⟨0, 0⟩)).readout.log.map (·.entry.kind) = [.refLost] ∧
    PastPriming (atTickStart live (.refLost ⟨0, 0⟩)) :=
  ⟨rfl, rfl, by decide +kernel, by decide +kernel, by decide +kernel, by decide +kernel⟩

theorem witness_primingTick : TicksOnce priming (.refEdge ⟨540000, 0⟩) :=
  ticksOnce_locked rfl rfl (by decide)

theorem witness_stalledTick :
    TicksOnce held (.refEdge ⟨540000, 0⟩) ∧ ∃ t, exec (.refEdge ⟨540000, 0⟩) held = .next t ∧
      t.air.stallCount < held.monitor.staged.stallLimit :=
  ⟨ticksOnce_locked rfl rfl (by decide), _, rfl, by decide +kernel⟩

/-- The airing part with a freeze count. -/
def frozen (n : Nat) : State := { airing [] with air := { (airing []).air with freezeCount := n } }

theorem witness_emptyQueueTicks :
    (∀ n ∈ [99, 100], (frozen n).monitor.run = .running ∧ PastPriming (frozen n) ∧
      (frozen n).queue.entries = [] ∧ (frozen n).air.current = some (onAir 9 3 1)) ∧
    (frozen 99).air.freezeCount < (frozen 99).monitor.staged.freezeLimit ∧
    (frozen 100).monitor.staged.freezeLimit ≤ (frozen 100).air.freezeCount ∧
    (frozen 100).monitor.inForce.freezeLimit ≤ (frozen 100).air.freezeCount ∧
    (live.queue.entries = [] ∧ live.air.current = none ∧ PastPriming live) ∧
    held.queue.entries ≠ [] := by decide +kernel

theorem witness_emptyQueueTicks_command :
    TicksOnce (frozen 99) (.refEdge ⟨540000, 0⟩) ∧ TicksOnce (frozen 100) (.refEdge ⟨540000, 0⟩) :=
  ⟨ticksOnce_locked rfl rfl (by decide),
    ticksOnce_locked rfl rfl (by decide)⟩

/-- The airing part with two frames queued, a staged target, and the trim as given. -/
def trimming (target : Nat) (t : Trim) : State :=
  let s := airing [frame 10 0, frame 11 1]
  let c : Settings := { tableSettings target with buildRate := 500, catchRate := 500 }
  { s with monitor := { s.monitor with staged := c, inForce := c }, trim := t }

theorem witness_trimDecidedTicks :
    (let s := trimming 2 { state := .onDelay, credit := 0 }
     s.monitor.run = .running ∧ PastPriming s ∧ s.queue.entries = frame 10 0 :: [frame 11 1] ∧
     (frame 10 0).hold = none ∧ (latched s).trimAnswer = .none) ∧
    (latched (trimming 6 { state := .building, credit := 500 })).trimAnswer = .repeated ∧
    (latched (trimming 0 { state := .catching, credit := 500 })).trimAnswer = .skip ∧
    (latched (trimming 0 { state := .catching, credit := 499 })).trimAnswer = .none := by decide +kernel

/-- R99, R148: the latch evaluates the trim when it changes the target, and leaves it when it does not. -/
theorem witness_trimAtTick :
    let s := trimming 2 { state := .onDelay, credit := 7 }
    let staged : State := { s with monitor := { s.monitor with staged := tableSettings 6 } }
    trimAtTick s = { state := .onDelay, credit := 7 } ∧
    trimAtTick staged = { state := .building, credit := 0 } := by decide +kernel

/-- R13: a binding's block is freed with no read in flight on it, and retired otherwise. -/
theorem witness_leaveBlock :
    (airing []).pool.readCount 3 = 0 ∧
    (after (.read 0x21040000 1 6) (airing [])).pool.readCount 3 ≠ 0 := by decide +kernel

/-- A tick that would find the queue empty but for the commits of its own instant, and ticks that would not. -/
theorem witness_onlyThisInstant :
    let s := trimming 2 { state := .onDelay, credit := 0 }
    OnlyThisInstant s (.refEdge ⟨540000, 2⟩) ∧ ¬ OnlyThisInstant s (.refEdge ⟨540000, 1⟩) ∧
    (after (.refEdge ⟨540000, 2⟩) s).air.current.map (·.airDelay) = some 0 ∧
    (after (.refEdge ⟨540000, 2⟩) s).queue.entries.map (·.stamp) = [0] ∧
    (after (.refEdge ⟨540000, 1⟩) s).air.current.map (·.airDelay) = some 1 := by decide +kernel

theorem witness_releasedFramesCarryNoHold :
    (let s := trimming 0 { state := .catching, credit := 500 }
     s.monitor.run = .running ∧ (after (.refEdge ⟨540000, 0⟩) s).air.onAir ≠ s.air.onAir) ∧
    (live.link.ready = true ∧ live.gen.mode ≠ .lost ∧ live.monitor.run = .running) ∧
    (∀ e, held.queue.entries[0]? = some e → e.hold ≠ none) := by
  refine ⟨by decide +kernel, by decide +kernel, ?_⟩
  intro e h
  obtain rfl : frame 1 0 (some 1) = e := by simpa [held, queued] using h
  decide

theorem witness_trimDecidedTicks_command :
    TicksOnce (trimming 2 { state := .onDelay, credit := 0 }) (.refEdge ⟨540000, 0⟩) ∧
    TicksOnce (trimming 6 { state := .building, credit := 500 }) (.refEdge ⟨540000, 0⟩) ∧
    TicksOnce (trimming 0 { state := .catching, credit := 500 }) (.refEdge ⟨540000, 0⟩) :=
  ⟨ticksOnce_locked rfl rfl (by decide),
    ticksOnce_locked rfl rfl (by decide),
    ticksOnce_locked rfl rfl (by decide)⟩

/-- A tick that finds two slots of age 8, and the reports of both in slot order. -/
theorem witness_slotTimeoutAbandons_tick :
    let s : State := { (filling.setSlot 2 (.discard 1 0)) with air := { live.air with serve := 7 } }
    TicksOnce s (.refEdge ⟨540000, 0⟩) ∧ s.monitor.run = .running ∧
    (after (.refEdge ⟨540000, 0⟩) s).slot 0 = .empty ∧ (after (.refEdge ⟨540000, 0⟩) s).slot 2 = .empty ∧
    (after (.refEdge ⟨540000, 0⟩) s).readout.log.map (·.entry.cause) = [.timeout, .timeout] :=
  ⟨ticksOnce_locked rfl rfl (by decide), rfl, by decide +kernel, by decide +kernel, by decide +kernel⟩

theorem witness_slotTimeoutAbandons :
    (let s : State := { filling with air := { filling.air with serve := 8 } }
     s.link.ready = true ∧ s.monitor.run = .running ∧ s.slot 0 = .filling 0 [1] 0 ∧ s.air.serve - 0 = 8 ∧
     ∀ k, k ≠ 0 → s.slot k = .empty) ∧
    (let s : State := { filling with air := { filling.air with serve := 7 } }
     s.link.ready = true ∧ s.air.serve - 0 ≠ 8) ∧
    idle.monitor.run ≠ .running := by decide +kernel

/-- The held part stalled on hold 1 at a count. -/
def stalled (n : Nat) (policy : StallPolicy) : State :=
  { held with
    air := { held.air with stallCount := n, stalledHold := some 1 }
    monitor := { held.monitor with inForce := { held.monitor.inForce with stallPolicy := policy } } }

theorem witness_stallExpiredDecides :
    (∀ p ∈ [StallPolicy.release, .dump],
      Running (stalled 500 p) ∧ (stalled 500 p).queue.entries = frame 1 0 (some 1) :: [frame 2 1] ∧
      (stalled 500 p).air.stalledHold = some 1 ∧
      (stalled 500 p).monitor.inForce.stallLimit ≤ (stalled 500 p).air.stallCount ∧
      (stalled 500 p).holds.table.find? (fun h => h.id = 1) = some (hold 1 .pending (some 1) (some 1) 1) ∧
      (stalled 500 p).monitor.inForce.stallPolicy = p) ∧
    (stalled 499 .dump).air.stallCount < (stalled 499 .dump).monitor.inForce.stallLimit ∧
    live.queue.entries = [] := by decide +kernel

theorem witness_consolePresses :
    (live.console.sampler .dump).armed = false ∧
    (∀ l ∈ [ConsoleLine.dump, .hold, .release],
      (armed held).link.ready = true ∧ ((armed held).console.sampler l).armed = true) ∧
    (armed idle).monitor.run ≠ .running ∧ ((armed held).monitor.run = .running ∧
      (armed held).monitor.resetPart = none ∧
      (armed held).holds.table = hold 1 .pending (some 1) (some 1) 1 :: [hold 2 .opened none none 0] ∧
      (armed held).openHold = some (hold 2 .opened none none 0)) ∧
    ((armed live).holds.table = [] ∧ (armed live).queue.entries.length ≤ (armed live).monitor.inForce.dumpFloor) ∧
    ((armed (queued [frame 1 0])).holds.table = [] ∧
      (armed (queued [frame 1 0])).monitor.inForce.dumpFloor < (armed (queued [frame 1 0])).queue.entries.length) ∧
    (∀ h ∈ (armed live).holds.table, h.state ≠ .opened) := by decide +kernel

theorem witness_consoleSampleTaken :
    State.reset.link.ready = false ∧ live.link.ready = true ∧ (live.console.sampler .hold).armed = false ∧
    (let s : State := { armed live with
      console := (armed live).console.setSampler .hold
        { s0 := false, s1 := true, s2 := false, armed := true, inactiveRun := 1 } }
     (s.console.sampler .hold).armed = true ∧ (after (.consoleSample .hold false) s).holds.table ≠ [] ∧
     (after (.consoleSample .hold true) s).holds.table = []) := by decide +kernel

theorem witness_trimEvaluation :
    (let x : Trim := { state := .onDelay, credit := 0 }
     (x.evaluate 597 600 2).state = .building ∧ (x.evaluate 598 600 2).state = .onDelay ∧
     (x.evaluate 602 600 2).state = .onDelay ∧ (x.evaluate 603 600 2).state = .catching) ∧
    (let x : Trim := { state := .building, credit := 9 }
     (x.evaluate 599 600 2).state = .building ∧ (x.evaluate 600 600 2).state = .onDelay ∧
     (x.evaluate 603 600 2).state = .catching) ∧
    (let x : Trim := { state := .catching, credit := 9 }
     (x.evaluate 601 600 2).state = .catching ∧ (x.evaluate 600 600 2).state = .onDelay ∧
     (x.evaluate 597 600 2).state = .building) := by decide

theorem witness_trimAnswer :
    (trimming 6 { state := .building, credit := 500 }).trimAnswer = .repeated ∧
    (trimming 0 { state := .catching, credit := 500 }).trimAnswer = .skip ∧
    (trimming 2 { state := .onDelay, credit := 0 }).trimAnswer = .none := by decide +kernel

/-- R137, R138: each lamp in each of its drives, and all dark while LINK_READY is low. -/
theorem witness_lamps :
    (State.reset.link.ready = false ∧ State.reset.holdLamp = .dark) ∧
    (live.link.ready = true ∧ live.monitor.run = .running ∧ live.trim.state = .onDelay ∧ live.delayLamp = .lit ∧
      live.readyLamp = .dark ∧ live.holdLamp = .dark) ∧
    (trimming 6 { state := .building, credit := 0 }).delayLamp = .blinking ∧
    (segments 3 [frame 1 0, frame 2 1, frame 3 2]).readyLamp = .lit ∧
    (segments 4 [frame 1 0, frame 2 1, frame 3 2]).readyLamp = .dark ∧
    (held.holds.table ≠ [] ∧ held.air.condition ≠ .stalled ∧ held.holdLamp = .lit) ∧
    (let s : State := { held with air := { held.air with condition := .stalled } }
     s.air.condition = .stalled ∧ s.holdLamp = .blinking) := by decide +kernel

theorem witness_alertAndFaultFlags :
    live.readout.first = none ∧ ({ State.reset with store := { Store.start with cal := .failed } } : State).alert = true ∧
    (let s := live.report .seqGap (some 1) none
     s.readout.first = some { kind := .seqGap, serve := 0, seq := some 1, addr := none } ∧
     s.readout.flags.getLsbD 3 = true ∧ exec .slotTimeout s = .next s) := by
  refine ⟨by decide +kernel, by decide +kernel, by decide +kernel, by decide +kernel, rfl⟩

/-- The live part with `n` records in its edit log. -/
def logged (n : Nat) : State :=
  live.logEdits (List.replicate n
    { kind := .gap, first := none, last := none, count := none, hold := none, cause := .device })

theorem witness_alertAndFaultFlags_log :
    live.readout.log.length < 32 ∧ (logged 31).readout.log.length < 32 ∧
    (logged 32).readout.log.length = 32 ∧ (logged 33).readout.log.length = 32 ∧
    (logged 33).readout.log.head?.map (·.number) = some 1 := by decide +kernel

/-- A part with a read in flight, a frame on air, frames queued and a WRITE to come. -/
def busy : State :=
  (after (.read 0x21040000 1 6) (airing [frame 10 0, frame 11 1])).setPending [.write 0x20000040 [7] none]

theorem witness_invariants :
    BlocksPlaced busy ∧ RecordsSound busy ∧ ReadsCounted busy ∧ LimitsHeld busy ∧ OffOutsideRun busy ∧
    InFlightSound busy ∧ LogSound busy ∧ WindowsSound busy ∧ Memory.wf busy.dram :=
  ⟨by decide +kernel, by decide +kernel, by decide +kernel, by decide +kernel, by decide +kernel,
    by decide +kernel, by decide +kernel, by decide +kernel, by decide +kernel⟩

theorem witness_invariants_step : ∃ t, step busy = .next t := ⟨_, rfl⟩

theorem witness_queueOrderKept : Ascending busy.queue.entries :=
  ⟨by decide +kernel, by decide +kernel⟩

theorem witness_holdTableKept : HoldsSound { held with pending := [.dump 1] } := by decide +kernel

end Sys2Proof.Tests
end

