-- ==== Sys2Proof/Proofs/DelayTrim.lean ====
section
/-! The delay trim (R98, R103 to R105) and the conversion to milliseconds (R110): what each function of the
model answers, and the three statements of the family. -/

namespace Sys2Proof.Machine

open Sys2Proof

/-! ### The evaluation (R98) -/

@[simp] theorem Trim.evaluate_state (x : Trim) (d target band : Nat) :
    (x.evaluate d target band).state = x.state.next d target band := by
  unfold Trim.evaluate
  split
  next same => exact same.symm
  next => rfl

theorem Trim.evaluate_credit_of_change {x : Trim} {d target band : Nat}
    (change : x.state.next d target band ≠ x.state) : (x.evaluate d target band).credit = 0 := by
  rw [Trim.evaluate, if_neg change]

theorem Trim.evaluate_of_no_change {x : Trim} {d target band : Nat}
    (same : x.state.next d target band = x.state) : x.evaluate d target band = x := if_pos same

/-- The ON_DELAY row: the band's edges are still on delay. -/
theorem TrimState.next_onDelay (d target band : Nat) :
    (d < target - band → TrimState.onDelay.next d target band = .building) ∧
    (target + band < d → TrimState.onDelay.next d target band = .catching) ∧
    (target - band ≤ d → d ≤ target + band → TrimState.onDelay.next d target band = .onDelay) := by
  refine ⟨fun below => if_pos below, fun above => ?_, fun low high => ?_⟩
  · have notBelow : ¬ d < target - band := by omega
    exact (if_neg notBelow).trans (if_pos above)
  · exact (if_neg low.not_gt).trans (if_neg high.not_gt)

/-- The BUILDING row: the state is left at the target, not at the band's lower edge. -/
theorem TrimState.next_building (d target band : Nat) :
    (target + band < d → TrimState.building.next d target band = .catching) ∧
    (target ≤ d → d ≤ target + band → TrimState.building.next d target band = .onDelay) ∧
    (d < target → TrimState.building.next d target band = .building) := by
  refine ⟨fun above => if_pos above, fun reached high => ?_, fun short => ?_⟩
  · exact (if_neg high.not_gt).trans (if_pos reached)
  · have notAbove : ¬ target + band < d := by omega
    exact (if_neg notAbove).trans (if_neg short.not_ge)

/-- The CATCHING row: the state is left at the target, not at the band's upper edge. -/
theorem TrimState.next_catching (d target band : Nat) :
    (d < target - band → TrimState.catching.next d target band = .building) ∧
    (d ≤ target → target - band ≤ d → TrimState.catching.next d target band = .onDelay) ∧
    (target < d → TrimState.catching.next d target band = .catching) := by
  refine ⟨fun below => if_pos below, fun reached low => ?_, fun long => ?_⟩
  · exact (if_neg low.not_gt).trans (if_pos reached)
  · have notBelow : ¬ d < target - band := by omega
    exact (if_neg notBelow).trans (if_neg long.not_ge)

/-- Settles O49: a row of the table per state, and the credit by whether the state changes. -/
theorem trimEvaluation : Obligations.TrimEvaluation := by
  intro x d target band
  simp only [Trim.evaluate_state]
  refine ⟨fun st => ?_, fun st => ?_, fun st => ?_, Trim.evaluate_credit_of_change,
    fun same => congrArg Trim.credit (Trim.evaluate_of_no_change same)⟩
  · rw [st]; exact TrimState.next_onDelay d target band
  · rw [st]; exact TrimState.next_building d target band
  · rw [st]; exact TrimState.next_catching d target band

/-! ### Eligibility, credit and answer (R103 to R105) -/

theorem Settings.eligible_iff (c : Settings) (level : Byte) (isPartial : Bool) :
    c.eligible level isPartial = true ↔
      isPartial = false ∧ (c.eligibility = .quietOnly → c.silence ≤ level.toNat) := by
  cases mode : c.eligibility <;> simp [Settings.eligible, mode]

theorem State.advancedCredit_onDelay {s : State} (st : s.trim.state = .onDelay) :
    s.advancedCredit = s.trim.credit := by
  simp [State.advancedCredit, st]

theorem State.advancedCredit_building {s : State} (st : s.trim.state = .building) :
    s.advancedCredit = min 2000 (s.trim.credit + s.monitor.inForce.buildRate) := by
  simp [State.advancedCredit, st]

theorem State.advancedCredit_catching {s : State} (st : s.trim.state = .catching) :
    s.advancedCredit = min 2000 (s.trim.credit + s.monitor.inForce.catchRate) := by
  simp [State.advancedCredit, st]

theorem State.repeatAllowed_iff (s : State) :
    s.repeatAllowed = true ↔ s.trim.state = .building ∧
      ∃ b, s.air.current = some b ∧ s.monitor.inForce.eligible b.level b.isPartial = true := by
  cases air : s.air.current <;> simp [State.repeatAllowed, air]

theorem State.skipAllowed_iff (s : State) :
    s.skipAllowed = true ↔ s.trim.state = .catching ∧
      ∃ o n rest, s.queue.entries = o :: n :: rest ∧
        s.monitor.inForce.eligible o.level o.isPartial = true ∧ o.spliceIn = false ∧ n.hold = none := by
  unfold State.skipAllowed
  match s.queue.entries with
  | [] => simp
  | [_] => simp
  | o :: n :: rest => simp [and_assoc]

/-- No state allows both actions, so the order in which the answer tests them does not matter. -/
theorem State.repeatAllowed_eq_false_of_skipAllowed {s : State} (skip : s.skipAllowed = true) :
    s.repeatAllowed = false := by
  obtain ⟨catching, -⟩ := s.skipAllowed_iff.1 skip
  simp [State.repeatAllowed, catching]

theorem State.trimAnswer_eq_repeated_iff (s : State) :
    s.trimAnswer = .repeated ↔ 1000 ≤ s.advancedCredit ∧ s.repeatAllowed = true := by
  unfold State.trimAnswer
  split
  next low => simp [low.not_ge]
  next enough =>
    cases rep : s.repeatAllowed <;> cases skip : s.skipAllowed <;> simp [not_lt.1 enough]

theorem State.trimAnswer_eq_skip_iff (s : State) :
    s.trimAnswer = .skip ↔ 1000 ≤ s.advancedCredit ∧ s.skipAllowed = true := by
  unfold State.trimAnswer
  split
  next low => simp [low.not_ge]
  next enough =>
    cases skip : s.skipAllowed
    · cases rep : s.repeatAllowed <;> simp
    · simp [State.repeatAllowed_eq_false_of_skipAllowed skip, not_lt.1 enough]

theorem TrimAnswer.eq_none_iff (a : TrimAnswer) : a = .none ↔ ¬ a = .repeated ∧ ¬ a = .skip := by
  cases a <;> decide

theorem State.afterAsk_of_action {s : State} (acts : s.trimAnswer ≠ .none) :
    s.afterAsk = { s with trim := { s.trim with credit := s.advancedCredit - 1000 } } := by
  rw [State.afterAsk, if_neg acts, State.setTrim]

theorem State.afterAsk_of_none {s : State} (idle : s.trimAnswer = .none) :
    s.afterAsk = { s with trim := { s.trim with credit := s.advancedCredit } } := by
  rw [State.afterAsk, if_pos idle, State.setTrim]

/-- Settles O50: each answer by its condition, NONE as what is neither of the other two. -/
theorem trimAnswer : Obligations.TrimAnswer := by
  refine ⟨Settings.eligible_iff, fun s => ?_⟩
  intro c credit mayRepeat maySkip
  have repeats : s.trimAnswer = .repeated ↔ mayRepeat := by
    rw [s.trimAnswer_eq_repeated_iff, s.repeatAllowed_iff]
    exact and_left_comm
  have skips : s.trimAnswer = .skip ↔ maySkip := by
    rw [s.trimAnswer_eq_skip_iff, s.skipAllowed_iff]
    exact and_left_comm
  have idles : s.trimAnswer = .none ↔ ¬ mayRepeat ∧ ¬ maySkip := by
    rw [← repeats, ← skips]
    exact TrimAnswer.eq_none_iff s.trimAnswer
  exact ⟨State.advancedCredit_building, State.advancedCredit_catching, State.advancedCredit_onDelay,
    repeats, skips, idles, State.afterAsk_of_action, State.afterAsk_of_none⟩

/-! ### Milliseconds (R110) -/

/-- A count of frames in whole milliseconds, an exact half up, before the ceiling. -/
def RateCode.roundedMs (r : RateCode) (f : Nat) : Nat :=
  (2 * f * 1000 * r.pn + r.pd) / (2 * r.pd)

theorem RateCode.toMs_eq_roundedMs_or_ceiling (r : RateCode) (f : Nat) :
    r.toMs f = if r.roundedMs f ≤ 4294967295 then r.roundedMs f else 4294967295 := by
  rw [RateCode.toMs, ← Nat.mul_assoc, Nat.min_comm]
  exact Nat.min_def

theorem RateCode.pd_pos (r : RateCode) : 0 < r.pd := by
  cases r <;> decide

theorem RateCode.roundedMs_mul_le (r : RateCode) (f : Nat) :
    2 * r.roundedMs f * r.pd ≤ 2 * f * 1000 * r.pn + r.pd := by
  calc 2 * r.roundedMs f * r.pd = r.roundedMs f * (2 * r.pd) := by ring
    _ ≤ 2 * f * 1000 * r.pn + r.pd := Nat.div_mul_le_self _ _

theorem RateCode.lt_roundedMs_mul_add (r : RateCode) (f : Nat) :
    2 * f * 1000 * r.pn + r.pd < 2 * r.roundedMs f * r.pd + 2 * r.pd := by
  have pos : 0 < 2 * r.pd := Nat.mul_pos two_pos r.pd_pos
  calc 2 * f * 1000 * r.pn + r.pd < r.roundedMs f * (2 * r.pd) + 2 * r.pd := Nat.lt_div_mul_add pos
    _ = 2 * r.roundedMs f * r.pd + 2 * r.pd := by ring

theorem RateCode.roundedMs_rate25 (f : Nat) : RateCode.rate25.roundedMs f = 40 * f := by
  simp only [RateCode.roundedMs, RateCode.pn, RateCode.pd]; omega

theorem RateCode.roundedMs_rate50 (f : Nat) : RateCode.rate50.roundedMs f = 20 * f := by
  simp only [RateCode.roundedMs, RateCode.pn, RateCode.pd]; omega

/-- What R110 says of the conversion at every rate, in the model's own fraction of the frame period. -/
theorem RateCode.toMs_spec (r : RateCode) (f : Nat) :
    r.toMs f = (if r.roundedMs f ≤ 4294967295 then r.roundedMs f else 4294967295) ∧
    2 * r.roundedMs f * r.pd ≤ 2 * f * 1000 * r.pn + r.pd ∧
    2 * f * 1000 * r.pn + r.pd < 2 * r.roundedMs f * r.pd + 2 * r.pd ∧
    (r = .rate25 → r.roundedMs f = 40 * f) ∧ (r = .rate50 → r.roundedMs f = 20 * f) :=
  ⟨r.toMs_eq_roundedMs_or_ceiling f, r.roundedMs_mul_le f, r.lt_roundedMs_mul_add f,
    fun rate => rate ▸ RateCode.roundedMs_rate25 f, fun rate => rate ▸ RateCode.roundedMs_rate50 f⟩

/-- Settles O51: the four fractions the statement names are the model's Pn and Pd. -/
theorem millisecondConversion : Obligations.MillisecondConversion := by
  intro r f
  cases r with
  | rate25 => exact RateCode.toMs_spec .rate25 f
  | rate2997 => exact RateCode.toMs_spec .rate2997 f
  | rate50 => exact RateCode.toMs_spec .rate50 f
  | rate5994 => exact RateCode.toMs_spec .rate5994 f

end Sys2Proof.Machine
end

