-- ==== Sys2Proof/Proofs/DumpAndHold.lean ====
section
/-! The counts of a dump (R114, R115) and the ids of holds (R119): what each function of the dump and hold
unit answers, and the two statements of the family. -/

namespace Sys2Proof.Machine

open Sys2Proof

/-! ### The count of a dump (R114, R115) -/

/-- The first marked entry is counted itself; without one the whole list is counted. -/
theorem segmentCount_eq_findIdx (es : List Entry) :
    segmentCount es = min (es.findIdx (·.segment) + 1) es.length := by
  induction es with
  | nil => rfl
  | cons e rest ih =>
    rw [segmentCount, List.findIdx_cons, List.length_cons]
    cases e.segment with
    | true => simp
    | false => simp only [Bool.false_eq_true, if_false, cond_false, ih]; omega

theorem segmentCount_of_unmarked {es : List Entry} (unmarked : ∀ e ∈ es, e.segment = false) :
    segmentCount es = es.length := by
  rw [segmentCount_eq_findIdx, List.findIdx_eq_length_of_false unmarked]
  exact min_eq_right (Nat.le_succ _)

theorem segmentCount_of_first_marked {es : List Entry} {i : Nat} (h : i < es.length)
    (marked : es[i].segment = true) (unmarked : ∀ j (hji : j < i), es[j].segment = false) :
    segmentCount es = i + 1 := by
  have first : es.findIdx (·.segment) = i := (List.findIdx_eq h).2 ⟨marked, unmarked⟩
  rw [segmentCount_eq_findIdx, first]
  exact min_eq_left h

theorem State.dumpCount_chunk {s : State} (mode : s.monitor.inForce.dumpMode = .chunk) :
    s.dumpCount = s.dumpWindow := by
  rw [State.dumpCount, mode]

theorem State.dumpCount_segment {s : State} (mode : s.monitor.inForce.dumpMode = .segment) :
    s.dumpCount = segmentCount (s.queue.entries.reverse.take s.dumpWindow) := by
  rw [State.dumpCount, mode]

theorem State.dumpWindow_le_removable (s : State) :
    s.dumpWindow ≤ s.queue.entries.length - s.monitor.inForce.dumpFloor := min_le_right _ _

theorem State.dumpWindow_le_length (s : State) : s.dumpWindow ≤ s.queue.entries.length :=
  s.dumpWindow_le_removable.trans (Nat.sub_le _ _)

theorem State.dumpCount_of_window_unmarked {s : State} (mode : s.monitor.inForce.dumpMode = .segment)
    (unmarked : ∀ e ∈ s.queue.entries.drop (s.queue.entries.length - s.dumpWindow), e.segment = false) :
    s.dumpCount = s.dumpWindow := by
  rw [State.dumpCount_segment mode, List.take_reverse, segmentCount_of_unmarked]
  · rw [List.length_reverse, List.length_drop, Nat.sub_sub_self s.dumpWindow_le_length]
  · exact fun e he => unmarked e (List.mem_reverse.1 he)

/-- Entry `i` of the queue is entry `length - 1 - i` of the window read from the newest on. -/
theorem State.dumpCount_of_newest_marked {s : State} (mode : s.monitor.inForce.dumpMode = .segment)
    {i : Nat} (h : i < s.queue.entries.length) (inWindow : s.queue.entries.length - s.dumpWindow ≤ i)
    (marked : s.queue.entries[i].segment = true)
    (newest : ∀ j (h' : j < s.queue.entries.length), i < j → s.queue.entries[j].segment = false) :
    s.dumpCount = s.queue.entries.length - i := by
  have inTake : s.queue.entries.length - 1 - i < (s.queue.entries.reverse.take s.dumpWindow).length := by
    rw [List.length_take, List.length_reverse]; omega
  have back : s.queue.entries.length - 1 - (s.queue.entries.length - 1 - i) = i := by omega
  rw [State.dumpCount_segment mode, segmentCount_of_first_marked inTake]
  · omega
  · simpa only [List.getElem_take, List.getElem_reverse, back] using marked
  · intro j hj
    simp only [List.getElem_take, List.getElem_reverse]
    exact newest _ _ (by omega)

/-- What a CHUNK dump leaves (R114): its count never reaches into the floor, and a short queue is cut back to
exactly the floor. -/
theorem State.take_above_dumpWindow (s : State)
    (aboveFloor : s.monitor.inForce.dumpFloor < s.queue.entries.length) :
    (∀ i < s.monitor.inForce.dumpFloor,
      (s.queue.entries.take (s.queue.entries.length - s.dumpWindow))[i]? = s.queue.entries[i]?) ∧
    (s.queue.entries.length - s.monitor.inForce.dumpFloor < s.monitor.inForce.dumpLength →
      s.queue.entries.take (s.queue.entries.length - s.dumpWindow) =
        s.queue.entries.take s.monitor.inForce.dumpFloor) := by
  refine ⟨fun i hi => ?_, fun short => ?_⟩
  · have below := s.dumpWindow_le_removable
    exact List.getElem?_take_of_lt (by omega)
  · have window : s.dumpWindow = s.queue.entries.length - s.monitor.inForce.dumpFloor :=
      min_eq_right short.le
    rw [window, Nat.sub_sub_self aboveFloor.le]

/-- Settles O31: CHUNK by its window, SEGMENT by where the newest mark of the window stands. -/
theorem dumpCounts : Obligations.DumpCounts := by
  intro s aboveFloor es c w
  refine ⟨fun chunk => ?_, fun segment => ⟨State.dumpCount_of_window_unmarked segment,
    fun i h => State.dumpCount_of_newest_marked segment h, fun e last marked one => ?_⟩⟩
  · rw [State.dumpCount_chunk chunk]
    exact ⟨rfl, s.take_above_dumpWindow aboveFloor⟩
  · have nonempty : es.length - 1 < es.length :=
      Nat.sub_lt (Nat.zero_lt_of_lt aboveFloor) one_pos
    have lastMarked : es[es.length - 1].segment = true := by
      rw [List.getLast?_eq_getElem?, List.getElem?_eq_getElem nonempty] at last
      rwa [Option.some.inj last]
    have count : s.dumpCount = es.length - (es.length - 1) :=
      State.dumpCount_of_newest_marked segment nonempty (Nat.sub_le_sub_left one _) lastMarked
        fun j inQueue beyond => absurd beyond (Nat.le_pred_of_lt inQueue).not_gt
    omega

/-! ### The id of a new hold (R119) -/

/-- The cycle of ids as a count modulo 255, shifted by the id 0 it skips. -/
theorem toNat_nextHoldId {id : Byte} (nonzero : id ≠ 0) : (nextHoldId id).toNat = id.toNat % 255 + 1 := by
  have pos : id.toNat ≠ 0 := BitVec.toNat_ne.1 nonzero
  unfold nextHoldId
  split
  next last => rw [last]; rfl
  next notLast =>
    have ne : id.toNat ≠ 255 := BitVec.toNat_ne.1 notLast
    have lt := id.isLt
    rw [BitVec.toNat_add, show (1 : Byte).toNat = 1 from rfl]
    omega

theorem nextHoldId_ne_zero {id : Byte} (nonzero : id ≠ 0) : nextHoldId id ≠ 0 := by
  intro zero
  have := toNat_nextHoldId nonzero
  rw [zero] at this
  exact absurd this (Nat.succ_ne_zero _).symm

theorem iterate_nextHoldId_ne_zero {id : Byte} (nonzero : id ≠ 0) (k : Nat) : nextHoldId^[k] id ≠ 0 := by
  induction k with
  | zero => exact nonzero
  | succ k ih => rw [Function.iterate_succ_apply']; exact nextHoldId_ne_zero ih

theorem toNat_iterate_nextHoldId {id : Byte} (nonzero : id ≠ 0) (k : Nat) :
    (nextHoldId^[k] id).toNat = (id.toNat - 1 + k) % 255 + 1 := by
  induction k with
  | zero =>
    have pos : id.toNat ≠ 0 := BitVec.toNat_ne.1 nonzero
    have lt := id.isLt
    rw [Function.iterate_zero_apply]
    omega
  | succ k ih =>
    rw [Function.iterate_succ_apply', toNat_nextHoldId (iterate_nextHoldId_ne_zero nonzero k), ih]
    omega

/-- Any 255 consecutive ids differ. -/
theorem iterate_nextHoldId_inj {id : Byte} (nonzero : id ≠ 0) {j k : Nat} (hj : j < 255) (hk : k < 255)
    (same : nextHoldId^[j] id = nextHoldId^[k] id) : j = k := by
  have sameNat := congrArg BitVec.toNat same
  rw [toNat_iterate_nextHoldId nonzero, toNat_iterate_nextHoldId nonzero] at sameNat
  omega

/-- A table shorter than 255 leaves one of the next `length + 1` ids free. -/
theorem not_all_next_ids_held {id : Byte} (nonzero : id ≠ 0) {ids : List Byte} (short : ids.length < 255) :
    ¬ ∀ m ≤ ids.length, nextHoldId^[m] id ∈ ids := by
  intro held
  have inCycle : ∀ k ∈ List.range (ids.length + 1), k < 255 := fun k hk =>
    (List.mem_range.1 hk).trans_le short
  have nodup : ((List.range (ids.length + 1)).map fun k => nextHoldId^[k] id).Nodup :=
    List.nodup_range.map_on fun j hj k hk =>
      iterate_nextHoldId_inj nonzero (inCycle j hj) (inCycle k hk)
  have sub : ((List.range (ids.length + 1)).map fun k => nextHoldId^[k] id) ⊆ ids := by
    intro x hx
    obtain ⟨k, hk, rfl⟩ := List.mem_map.1 hx
    exact held k (Nat.lt_succ_iff.1 (List.mem_range.1 hk))
  have tooLong := (List.subperm_of_subset nodup sub).length_le
  rw [List.length_map, List.length_range] at tooLong
  exact tooLong.not_gt (Nat.lt_succ_self _)

theorem any_id_eq_true_iff (table : List HoldRecord) (id : Byte) :
    table.any (fun h => h.id == id) = true ↔ id ∈ table.map (·.id) := by
  simp [List.any_eq_true, List.mem_map]

/-- The search passes over held ids only, and stops short of its fuel only at a free one. -/
theorem freeHoldId_eq_iterate (table : List HoldRecord) (fuel : Nat) (id : Byte) :
    ∃ n ≤ fuel, freeHoldId table fuel id = nextHoldId^[n] id ∧
      (∀ m < n, nextHoldId^[m] id ∈ table.map (·.id)) ∧
      (n < fuel → nextHoldId^[n] id ∉ table.map (·.id)) := by
  induction fuel generalizing id with
  | zero => exact ⟨0, le_rfl, rfl, fun m hm => absurd hm m.not_lt_zero, fun h => absurd h (lt_irrefl 0)⟩
  | succ fuel ih =>
    rw [freeHoldId]
    split
    next held =>
      obtain ⟨n, le, eq, passed, free⟩ := ih (nextHoldId id)
      refine ⟨n + 1, Nat.succ_le_succ le, eq, fun m hm => ?_, fun lt => free (Nat.lt_of_succ_lt_succ lt)⟩
      cases m with
      | zero => exact (any_id_eq_true_iff table id).1 held
      | succ m => exact passed m (Nat.lt_of_succ_lt_succ hm)
    next unheld =>
      exact ⟨0, Nat.zero_le _, rfl, fun m hm => absurd hm m.not_lt_zero,
        fun _ => mt (any_id_eq_true_iff table id).2 unheld⟩

/-- R119's search: as many steps as the table has records reach a free id. -/
theorem Holds.openingId_eq_iterate {u : Holds} (nonzero : u.nextId ≠ 0) (short : u.table.length < 255) :
    ∃ n ≤ u.table.length, u.openingId = nextHoldId^[n] u.nextId ∧
      (∀ m < n, nextHoldId^[m] u.nextId ∈ u.table.map (·.id)) ∧
      nextHoldId^[n] u.nextId ∉ u.table.map (·.id) := by
  obtain ⟨n, le, eq, passed, free⟩ := freeHoldId_eq_iterate u.table u.table.length u.nextId
  refine ⟨n, le, eq, passed, fun held => ?_⟩
  have atFuel : n = u.table.length := le.eq_or_lt.resolve_right fun lt => free lt held
  refine not_all_next_ids_held (ids := u.table.map (·.id)) nonzero (by rwa [List.length_map]) fun m hm => ?_
  rw [List.length_map, ← atFuel] at hm
  exact hm.eq_or_lt.elim (fun last => last ▸ held) (passed m)

/-! ### HOLD_OPEN (R121) -/

@[simp] theorem State.openNewHold_holds (s : State) : s.openNewHold.holds = { s.holds with
    table := s.holds.table ++
      [{ id := s.holds.openingId, state := .opened, firstSeq := none, lastSeq := none, unaired := 0,
         openedAt := s.air.serve }]
    nextId := nextHoldId s.holds.openingId } := rfl

theorem State.readCommand_of_linkUp {s : State} (up : Safety.LinkUp s) (num : Byte) (c : Command) :
    s.readCommand num c = s.runCommand num c := by
  obtain ⟨ready, noReset⟩ := up
  simp [State.readCommand, State.listening, ready, noReset]

theorem State.openHold_eq_none {s : State} (noneOpen : ∀ h ∈ s.holds.table, h.state ≠ .opened) :
    s.openHold = none := by
  simpa [State.openHold, List.find?_eq_none] using noneOpen

theorem State.cmdHoldOpen_opens {s : State} (noneOpen : ∀ h ∈ s.holds.table, h.state ≠ .opened)
    (room : s.holds.table.length < 4) : s.cmdHoldOpen = (s.openNewHold, .accepted) := by
  rw [State.cmdHoldOpen, State.openHold_eq_none noneOpen, Option.isSome_none,
    if_neg Bool.false_ne_true, if_neg room.not_ge]

theorem exec_holdOpen_opens {s : State} (running : Safety.Running s)
    (noneOpen : ∀ h ∈ s.holds.table, h.state ≠ .opened) (room : s.holds.table.length < 4) (num : Byte) :
    exec (.holdOpen num) s = .next (s.openNewHold.enterResult num 0x07 .accepted) := by
  obtain ⟨up, run⟩ := running
  calc exec (.holdOpen num) s = .next (s.readCommand num .holdOpen) := rfl
    _ = .next (s.runCommand num .holdOpen) := by rw [State.readCommand_of_linkUp up]
    _ = .next (s.openNewHold.enterResult num 0x07 .accepted) := by
      simp only [State.runCommand, run, Command.judge, State.carryOut,
        State.cmdHoldOpen_opens noneOpen room, Command.code]

/-- Settles O33: the opened record is the table's last, under the id that R119's search finds. -/
theorem holdIds : Obligations.HoldIds := by
  intro num s running noneOpen room nonzero after
  obtain ⟨n, le, eq, passed, free⟩ :=
    Holds.openingId_eq_iterate nonzero (room.trans (by decide : 4 < 255))
  refine ⟨_, exec_holdOpen_opens running noneOpen room num, n, le.trans (Nat.le_of_lt_succ room), ?_,
    iterate_nextHoldId_ne_zero nonzero n, free, passed, ?_⟩
  · rw [State.enterResult_holds, State.openNewHold_holds, List.getLast?_concat, Option.map_some, eq]
    rfl
  · rw [State.enterResult_holds, State.openNewHold_holds, eq]
    rfl

end Sys2Proof.Machine
end

