-- ==== Sys2Proof/Proofs/StartUp.lean ====
section
/-! The default target of the straps (R160): the rounding, its table, and the clamp to the pool in force at
POWER_ON and at RESET_ENGINE. -/

namespace Sys2Proof.Machine

open Sys2Proof

/-! ### Seconds as frames (R160) -/

theorem RateCode.pn_pos (r : RateCode) : 0 < r.pn := by
  cases r <;> decide

/-- The count of frames is at most half a frame above the delay. -/
theorem RateCode.framesOfSeconds_mul_le (r : RateCode) (sec : Nat) :
    2 * r.framesOfSeconds sec * r.pn ≤ 2 * sec * r.pd + r.pn := by
  calc 2 * r.framesOfSeconds sec * r.pn = r.framesOfSeconds sec * (2 * r.pn) := by ring
    _ ≤ 2 * sec * r.pd + r.pn := Nat.div_mul_le_self _ _

/-- The count of frames is less than half a frame below the delay: an exact half was rounded up. -/
theorem RateCode.lt_framesOfSeconds_mul_add (r : RateCode) (sec : Nat) :
    2 * sec * r.pd < 2 * r.framesOfSeconds sec * r.pn + r.pn := by
  have pos : 0 < 2 * r.pn := Nat.mul_pos two_pos r.pn_pos
  have lt : 2 * sec * r.pd + r.pn < 2 * r.framesOfSeconds sec * r.pn + r.pn + r.pn :=
    calc 2 * sec * r.pd + r.pn < r.framesOfSeconds sec * (2 * r.pn) + 2 * r.pn := Nat.lt_div_mul_add pos
      _ = 2 * r.framesOfSeconds sec * r.pn + r.pn + r.pn := by ring
  exact Nat.lt_of_add_lt_add_right lt

/-- The 16 cells of R160's table are what the rounding gives. -/
theorem framesOfSeconds_eq_strapFrames (rate delay : Fin 4) :
    (RateCode.ofLevel rate).framesOfSeconds (delaySeconds delay) = Safety.strapFrames rate delay := by
  revert rate delay
  decide

theorem strapTarget_eq_strapFrames (p : Straps) : strapTarget p = Safety.strapFrames p.rate p.delay :=
  framesOfSeconds_eq_strapFrames p.rate p.delay

theorem strapFrames_nearest (rate delay : Fin 4) :
    2 * Safety.strapFrames rate delay * (RateCode.ofLevel rate).pn ≤
      2 * delaySeconds delay * (RateCode.ofLevel rate).pd + (RateCode.ofLevel rate).pn ∧
    2 * delaySeconds delay * (RateCode.ofLevel rate).pd <
      2 * Safety.strapFrames rate delay * (RateCode.ofLevel rate).pn + (RateCode.ofLevel rate).pn := by
  rw [← framesOfSeconds_eq_strapFrames]
  exact ⟨RateCode.framesOfSeconds_mul_le _ _, RateCode.lt_framesOfSeconds_mul_add _ _⟩

/-! ### The clamp (R96, R2) -/

theorem defaultBlocks_eq_tableBlocks (mem : Fin 4) : defaultBlocks mem = Safety.tableBlocks mem := by
  revert mem
  decide

theorem Pool.default_maxTarget (mem : Fin 4) : (Pool.default mem).maxTarget = Safety.tableBlocks mem - 8 :=
  congrArg (· - 8) (defaultBlocks_eq_tableBlocks mem)

theorem Settings.default_target (p : Straps) (q : Pool) :
    (Settings.default p q).target = min (Safety.strapFrames p.rate p.delay) q.maxTarget :=
  congrArg (min · q.maxTarget) (strapTarget_eq_strapFrames p)

@[simp] theorem State.resetBlocks_staged (s : State) (p : Straps) :
    (s.resetBlocks p).monitor.staged = Settings.default p (Pool.default p.mem) := rfl

@[simp] theorem State.resetBlocks_inForce (s : State) (p : Straps) :
    (s.resetBlocks p).monitor.inForce = Settings.default p (Pool.default p.mem) := rfl

/-! ### The end of a run keeps the size of the pool (R146) -/

@[simp] theorem Pool.freeBlocks_blocks (p : Pool) (is : List Nat) : (p.freeBlocks is).blocks = p.blocks := by
  obtain ⟨_, _, _, blocks, _⟩ := freeBlocks_lists is p
  exact blocks

@[simp] theorem Pool.leaveBlock_blocks (p : Pool) (i : Nat) : (p.leaveBlock i).blocks = p.blocks := by
  unfold Pool.leaveBlock
  split <;> rfl

@[simp] theorem State.clearQueue_pool_blocks (s : State) : s.clearQueue.pool.blocks = s.pool.blocks :=
  Pool.freeBlocks_blocks _ _

@[simp] theorem State.endSlots_pool_blocks (s : State) : s.endSlots.pool.blocks = s.pool.blocks :=
  Pool.freeBlocks_blocks _ _

@[simp] theorem State.leaveSlot_pool_blocks (s : State) (e : EgressSlot) :
    (s.leaveSlot e).pool.blocks = s.pool.blocks := by
  unfold State.leaveSlot
  split
  next => rfl
  next b _ => exact Pool.leaveBlock_blocks s.pool b.block

@[simp] theorem State.endDrain_pool_blocks (s : State) : s.endDrain.pool.blocks = s.pool.blocks := by
  unfold State.endDrain
  split <;> rfl

@[simp] theorem State.tearDown_pool_blocks (s : State) : s.tearDown.pool.blocks = s.pool.blocks := by
  simp [State.tearDown, State.leaveBoth]

@[simp] theorem State.stopRun_pool_blocks (s : State) : s.stopRun.pool.blocks = s.pool.blocks := by
  simp [State.stopRun]

/-! ### RESET_ENGINE (R150) -/

/-- The state RESET_ENGINE works on: a run that stands is stopped first. -/
def State.runEnded (s : State) : State := if s.monitor.run = .running then s.stopRun else s

theorem State.cmdResetEngine_eq (s : State) : s.cmdResetEngine = (s.runEnded.engineReset, .accepted) := rfl

@[simp] theorem State.runEnded_straps (s : State) : s.runEnded.straps = s.straps := by
  unfold State.runEnded
  split
  next => exact s.stopRun_straps
  next => rfl

@[simp] theorem State.runEnded_pool_blocks (s : State) : s.runEnded.pool.blocks = s.pool.blocks := by
  unfold State.runEnded
  split
  next => exact s.stopRun_pool_blocks
  next => rfl

@[simp] theorem State.engineReset_staged (s : State) :
    s.engineReset.monitor.staged = Settings.default s.straps s.pool := rfl

@[simp] theorem State.engineReset_inForce (s : State) :
    s.engineReset.monitor.inForce = Settings.default s.straps s.pool := rfl

@[simp] theorem State.enterResult_staged (s : State) (num code : Byte) (r : CmdResult) :
    (s.enterResult num code r).monitor.staged = s.monitor.staged := rfl

@[simp] theorem State.enterResult_inForce (s : State) (num code : Byte) (r : CmdResult) :
    (s.enterResult num code r).monitor.inForce = s.monitor.inForce := rfl

/-- RESET_ENGINE is taken in every run state (R143). -/
theorem exec_resetEngine_of_linkUp {s : State} (up : Safety.LinkUp s) (num : Byte) :
    exec (.resetEngine num) s = .next (s.runEnded.engineReset.enterResult num 0x0C .accepted) := by
  calc exec (.resetEngine num) s = .next (s.readCommand num .resetEngine) := rfl
    _ = .next (s.runCommand num .resetEngine) := by rw [State.readCommand_of_linkUp up]
    _ = .next (s.runEnded.engineReset.enterResult num 0x0C .accepted) := by
      simp only [State.runCommand, Command.judge, State.carryOut, State.cmdResetEngine_eq, Command.code]

/-- Settles O5: the rounding gives the table, and both resets take the default settings for their own pool. -/
theorem strapDefaultTarget : Obligations.StrapDefaultTarget := by
  refine ⟨strapTarget_eq_strapFrames, strapFrames_nearest, fun p s => ?_, fun num s up => ?_⟩
  · refine ⟨s.resetBlocks p, rfl, ?_, rfl⟩
    rw [State.resetBlocks_staged, Settings.default_target, Pool.default_maxTarget]
  · refine ⟨_, exec_resetEngine_of_linkUp up num, ?_, rfl⟩
    rw [State.enterResult_staged, State.engineReset_staged, Settings.default_target, State.runEnded_straps,
      Pool.maxTarget, State.runEnded_pool_blocks]

end Sys2Proof.Machine
end

