-- ==== Sys2Proof/Proofs/Events.lean ====
section
/-! What a command can do, said once: every command is a sequence of small events, each with the condition
under which it happens. An invariant that each event keeps is kept by every step. -/

namespace Sys2Proof.Machine

open Sys2Proof

/-! ### The events -/

/-- What the places of a block say of a binding: its block, and whether its frame is partial. -/
def Binding.key (b : Binding) : Nat × Bool := (b.block, b.isPartial)

/-- The removal of a run of entries without its records in the edit log (R112, R116, R117): the blocks are
freed, and the hold table and the dump total account for the run. -/
def State.cut (s : State) (removed kept : List Entry) (q : Queue) : State :=
  ((s.setQueue q).setPool (s.pool.freeBlocks (removed.map (·.block)))).setHolds
    { s.holds with
      table := (s.holds.table.filter (fun h => !h.emptiedBy removed)).map (fun h => h.account removed kept)
      dumpTotal := addSat32 s.holds.dumpTotal removed.length }

/-- The order guard's removals without their records in the edit log (R65). -/
def State.cutForGuard (s : State) (q : Seq) : State :=
  if guardRemoved q s.queue.entries = [] then s
  else s.cut (guardRemoved q s.queue.entries) (guardKept q s.queue.entries)
    { entries := markFirst (guardKept q s.queue.entries)
      splicePending := s.queue.splicePending || (guardKept q s.queue.entries).isEmpty }

/-- A frame leaves its slot: its block is QUEUED and its number is the last accepted (R48). -/
def State.leaveForQueue (s : State) (k : Fin 4) (block : Nat) (written : List Nat) (data : Line) : State :=
  (s.setPool (s.pool.commitBlock block (missingTiles s.pool.tiles written))).setIngest
    { slots := s.ingest.slots.set k .empty, lastSeq := some (recordSeq data) }

/-- The entry a frame of a slot becomes (R48). -/
def State.entryOf (s : State) (block : Nat) (written : List Nat) (data : Line) (gap : Byte) : Entry :=
  commitEntry s.air.serve block data (missingTiles s.pool.tiles written) gap

/-- A commit without its depth report and the edit-log records of the order guard (R48, R64). -/
def State.commitBare (s : State) (k : Fin 4) (block : Nat) (written : List Nat) (data : Line)
    (gap : Byte) : State :=
  ((s.leaveForQueue k block written data).cutForGuard (recordSeq data)).joinTail
    (s.entryOf block written data gap)

/-- The removal of a hold's entries and record, without its records in the edit log (R69, R124). -/
def State.cutHold (s : State) (h : Byte) (splice : Bool) : State :=
  ((s.setQueue { entries := beforeRun h s.queue.entries ++ markFirst (afterRun h s.queue.entries)
                 splicePending := splice }).setPool
    (s.pool.freeBlocks ((s.holdRun h).map (·.block)))).dropHold h

/-- The events of ticks, presses and holds. Those that move blocks or entries happen in RUNNING only. -/
inductive RunEvent : State → State → Prop
  | report (s : State) (k : FaultKind) (q : Option Seq) (a : Option Addr) : RunEvent s (s.report k q a)
  | log (s : State) (e : LogEntry) : RunEvent s (s.logEdit e)
  | gen (s : State) (g : TickGen) : RunEvent s (s.setGen g)
  | console (s : State) (c : Console) (blink : c.blinkCount ≤ max 15 s.console.blinkCount) :
      RunEvent s (s.setConsole c)
  | latch (s : State) : RunEvent s (s.setMonitor { s.monitor with inForce := s.monitor.staged })
  | trim (s : State) (x : Trim) (credit : x.credit ≤ max 2000 s.trim.credit) : RunEvent s (s.setTrim x)
  | air (s : State) (a : Air) (run : s.monitor.run = .running)
      (slotA : a.slotA.map Binding.key = s.air.slotA.map Binding.key)
      (slotB : a.slotB.map Binding.key = s.air.slotB.map Binding.key)
      (on : a.condition ≠ .off ∨ a.condition = s.air.condition)
      (freeze : a.freezeCount ≤ max s.air.freezeCount s.monitor.inForce.freezeLimit) :
      RunEvent s (s.setAir a)
  | leave (s : State) (slot : EgressSlot) (b : Binding) (run : s.monitor.run = .running)
      (bound : s.air.binding slot = some b) :
      RunEvent s ((s.setAir (s.air.setBinding slot none)).setPool (s.pool.leaveBlock b.block))
  | bind (s : State) (slot : EgressSlot) (e : Entry) (q : Queue) (b : Binding) (a : Air)
      (run : s.monitor.run = .running) (head : s.queue.entries = e :: q.entries) (free : e.hold = none)
      (unbound : s.air.binding slot = none) (key : b.key = (e.block, e.isPartial))
      (slotA : a.slotA = s.air.slotA) (slotB : a.slotB = s.air.slotB)
      (on : a.condition ≠ .off) (freeze : a.freezeCount = 0) :
      RunEvent s (((s.setQueue q).setAir (a.setBinding slot (some b))).setPool
        (s.pool.airBlock e.block))
  | dropHead (s : State) (e : Entry) (rest : List Entry) (run : s.monitor.run = .running)
      (head : s.queue.entries = e :: rest) (free : e.hold = none) :
      RunEvent s ((s.setQueue { s.queue with entries := rest }).freeBlock e.block)
  | discard (s : State) (slots : Vector IngestSlot 4)
      (each : ∀ k : Fin 4, slots[k] = s.slot k ∨ slots[k] = (s.slot k).discarded) :
      RunEvent s (s.setIngest { s.ingest with slots := slots })
  | freeSlot (s : State) (k : Fin 4) (b : Nat) (run : s.monitor.run = .running)
      (held : (s.slot k).block = some b) : RunEvent s ((s.setSlot k .empty).freeBlock b)
  | cut (s : State) (removed kept : List Entry) (q : Queue) (run : s.monitor.run = .running)
      (parts : s.queue.entries = removed ++ kept ∨ s.queue.entries = kept ++ removed)
      (stays : q.entries = kept ∨ q.entries = markFirst kept) : RunEvent s (s.cut removed kept q)
  | cutHold (s : State) (h : Byte) (splice : Bool) (run : s.monitor.run = .running) :
      RunEvent s (s.cutHold h splice)
  | releaseHold (s : State) (h : Byte) (run : s.monitor.run = .running) :
      RunEvent s ((s.setQueue { s.queue with entries := s.queue.entries.map (Entry.untag h) }).dropHold h)
  | openHold (s : State) (noneOpen : s.openHold = none) (room : s.holds.table.length < 4) :
      RunEvent s s.openNewHold
  | closeEmpty (s : State) (r : HoldRecord) (isOpen : s.openHold = some r) (empty : r.unaired = 0) :
      RunEvent s (s.dropHold r.id)
  | close (s : State) (r : HoldRecord) (isOpen : s.openHold = some r) (counted : r.unaired ≠ 0) :
      RunEvent s (s.setHolds { s.holds with
        table := s.holds.table.map (fun h =>
          if h.id = r.id then h.closed ((s.holdRun r.id).getLast?.map (·.seq)) else h) })
  | dumpTotal (s : State) (n : Nat) : RunEvent s (s.setHolds { s.holds with dumpTotal := n })

/-- The events of the link, the ingest tracker, the control monitor and the resets, and those of a run. -/
inductive Event : State → State → Prop
  | run {s t : State} (e : RunEvent s t) : Event s t
  | reset (s : State) (straps : Straps) : Event s (s.resetBlocks straps)
  | assertReset (s : State) : Event s s.assertReset
  | store (s : State) (c : Store) : Event s (s.setStore c)
  | ready (s : State) : Event s (s.setLink { s.link with ready := true })
  | wait (s : State) (rs : List Request) : Event s (s.setWaiting rs)
  | refuseRead (s : State) (tag : BitVec 6) (room : s.link.inFlight.length < 64) :
      Event s (s.pushInFlight (.refused tag))
  | acceptRead (s : State) (addrs : List Nat) (tag : BitVec 6) (results : List LineResult)
      (room : s.link.inFlight.length < 64) (new : s.tagInUse tag = false) :
      Event s ((s.pushInFlight (.accepted tag results (s.readBlocks addrs))).setPool
        (s.pool.takeReads (s.readBlocks addrs)))
  | complete (s : State) (e : InFlight) (rest : List InFlight) (sent : List Completion)
      (oldest : s.link.inFlight = e :: rest) :
      Event s ((s.setLink { s.link with inFlight := rest, sent := sent }).setPool
        (s.pool.completeReads e.blocks))
  | drained (s : State) (run : s.monitor.run = .stopping) (none : s.pool.retire = []) :
      Event s ((s.setPool s.pool.rebuild).setMonitor { s.monitor with run := .stopped })
  | line (s : State) (a : Nat) (l : Line) : Event s (s.setDram (writeLine s.dram a l))
  | bindSlot (s : State) (k : Fin 4) (i : Nat) (p : Pool) (written : List Nat)
      (run : s.monitor.run = .running) (empty : s.slot k = .empty) (given : s.pool.allocate = some (i, p)) :
      Event s ((s.setPool p).setSlot k (.filling i written s.air.serve))
  | overrun (s : State) (k : Fin 4) (empty : s.slot k = .empty) : Event s (s.setSlot k .overrun)
  | endOverrun (s : State) (k : Fin 4) (overrun : s.slot k = .overrun) : Event s (s.setSlot k .empty)
  | addLine (s : State) (k : Fin 4) (b : Nat) (w w' : List Nat) (first : Seq)
      (filling : s.slot k = .filling b w first) : Event s (s.setSlot k (.filling b w' first))
  | commit (s : State) (k : Fin 4) (b : Nat) (w w' : List Nat) (first : Seq) (data : Line) (gap : Byte)
      (run : s.monitor.run = .running) (filling : s.slot k = .filling b w first) :
      Event s (s.commitBare k b w' data gap)
  | configure (s : State) (a : ConfigureArgs) (rate : RateCode) (run : s.monitor.run = .stopped)
      (checked : s.configureRate a = some rate) : Event s (s.cmdConfigure a).1
  | start (s : State) (target : Nat) (cond : AirCond) (run : s.monitor.run = .stopped)
      (most : target ≤ s.pool.maxTarget) (on : cond ≠ .off) : Event s (s.startRun target cond)
  | tearDown (s : State) (run : s.monitor.run = .running) : Event s s.tearDown
  | setTarget (s : State) (target : Nat) (most : target ≤ s.pool.maxTarget) :
      Event s (s.setMonitor { s.monitor with staged := { s.monitor.staged with target := target } })
  | setControl (s : State) (a : ControlArgs) :
      Event s (s.setMonitor { s.monitor with staged := s.monitor.staged.change a })
  | clearFaults (s : State) (flags : BitVec 10) (first : Option FaultRecord) :
      Event s (s.setReadout { s.readout with flags := flags, first := first })
  | engineReset (s : State) (run : s.monitor.run ≠ .running) : Event s s.engineReset
  | resetPart (s : State) (resample : Option Bool) :
      Event s (s.setMonitor { s.monitor with resetPart := resample })
  | result (s : State) (num code : Byte) (r : CmdResult) : Event s (s.enterResult num code r)

/-- Any number of events of a run, one after the other. -/
abbrev RunEvents : State → State → Prop := Relation.ReflTransGen RunEvent

/-- Any number of events, one after the other. -/
abbrev Events : State → State → Prop := Relation.ReflTransGen Event

theorem RunEvent.events {s t : State} (e : RunEvent s t) : RunEvents s t := .single e

theorem Event.events {s t : State} (e : Event s t) : Events s t := .single e

theorem RunEvents.events {s t : State} (es : RunEvents s t) : Events s t :=
  es.lift id fun _ _ => Event.run

/-- A property that every event keeps is kept by any number of events. -/
theorem Events.keep {P : State → Prop} (each : ∀ s t, Event s t → P s → P t) {s t : State}
    (es : Events s t) (start : P s) : P t := by
  induction es with
  | refl => exact start
  | tail _ e ih => exact each _ _ e ih

theorem RunEvents.keep {P : State → Prop} (each : ∀ s t, RunEvent s t → P s → P t) {s t : State}
    (es : RunEvents s t) (start : P s) : P t := by
  induction es with
  | refl => exact start
  | tail _ e ih => exact each _ _ e ih

end Sys2Proof.Machine
end

