-- ==== Sys2Proof/Proofs/CommandEvents.lean ====
section
/-! Every command of the part as the events it is made of, and what this says of invariants. -/

namespace Sys2Proof.Machine

open Sys2Proof

/-! ### Updates of one block pass operations on another -/

theorem State.logEdits_events (s : State) (es : List LogEntry) : RunEvents s (s.logEdits es) := by
  induction es generalizing s with
  | nil => exact .refl
  | cons e rest ih => exact (RunEvent.log s e).events.trans (ih _)

theorem State.logEdits_joinTail (es : List LogEntry) (e : Entry) (s : State) :
    (s.logEdits es).joinTail e = (s.joinTail e).logEdits es := by
  induction es generalizing s with
  | nil => rfl
  | cons x rest ih => exact ih (s.logEdit x)

@[simp] theorem State.depthReport_setHolds (s : State) (v : Holds) :
    s.depthReport.setHolds v = (s.setHolds v).depthReport := by
  unfold State.depthReport
  rw [State.setHolds_monitor]
  split <;> rfl

@[simp] theorem State.discardIf_setHolds (s : State) (c : Bool) (v : Holds) :
    (s.discardIf c).setHolds v = (s.setHolds v).discardIf c := by
  unfold State.discardIf
  rw [State.setHolds_monitor]
  split <;> rfl

theorem State.depthReport_dropHold (s : State) (h : Byte) :
    s.depthReport.dropHold h = (s.dropHold h).depthReport := by
  simp [State.dropHold]

/-! ### The trim, the edit log and the ingest slots -/

theorem Trim.evaluate_credit_le (x : Trim) (d target band : Nat) :
    (x.evaluate d target band).credit ≤ x.credit := by
  unfold Trim.evaluate
  split
  next => exact le_rfl
  next => exact Nat.zero_le _

theorem State.evaluateTrim_event (s : State) : RunEvent s s.evaluateTrim :=
  .trim s _ (le_max_of_le_right (Trim.evaluate_credit_le _ _ _ _))

theorem State.depthReport_events (s : State) : RunEvents s s.depthReport := by
  unfold State.depthReport
  split
  next => exact s.evaluateTrim_event.events
  next => exact .refl

theorem State.advancedCredit_le (s : State) : s.advancedCredit ≤ max 2000 s.trim.credit := by
  unfold State.advancedCredit
  split <;> omega

theorem State.afterAsk_event (s : State) : RunEvent s s.afterAsk := by
  refine .trim s _ ?_
  have := s.advancedCredit_le
  dsimp only
  split <;> omega

theorem State.discardNotice_event (s : State) : RunEvent s s.discardNotice :=
  .discard s _ fun _ => .inr (Vector.getElem_map ..)

theorem State.discardIf_events (s : State) (c : Bool) : RunEvents s (s.discardIf c) := by
  unfold State.discardIf
  split
  next => exact s.discardNotice_event.events
  next => exact .refl

theorem State.timeoutSlot_events (s : State) (k : Fin 4) (run : s.monitor.run = .running) :
    RunEvents s (s.timeoutSlot k) := by
  unfold State.timeoutSlot
  split
  next => exact .refl
  next b old =>
    have held : (s.slot k).block = some b := by
      revert old
      unfold IngestSlot.timedOut IngestSlot.block
      cases s.slot k <;> simp
    exact (RunEvent.freeSlot s k b run held).events.trans
      ((RunEvent.report _ _ _ _).events.trans (RunEvent.log _ _).events)

theorem State.slotTimeouts_events (s : State) (run : s.monitor.run = .running) :
    RunEvents s s.slotTimeouts := by
  unfold State.slotTimeouts
  refine (s.timeoutSlot_events 0 run).trans ((State.timeoutSlot_events _ 1 ?_).trans
    ((State.timeoutSlot_events _ 2 ?_).trans (State.timeoutSlot_events _ 3 ?_))) <;> simpa

/-! ### Dumps and holds -/

theorem State.removeNewest_account (s : State) (k : Nat) (c : Bool) (run : s.monitor.run = .running) (v : Holds)
    (account : v = (s.cut (s.newestRun k) (s.queue.entries.take (s.depth - k)) s.queue).holds) :
    RunEvents s (((s.removeNewest k).discardIf c).setHolds v) := by
  have parts : s.queue.entries = s.queue.entries.take (s.depth - k) ++ s.newestRun k :=
    (List.take_append_drop _ _).symm
  rw [State.discardIf_setHolds]
  refine .trans ?_ (State.discardIf_events _ _)
  unfold State.removeNewest
  split
  next none =>
    have all : s.queue.entries.take (s.depth - k) = s.queue.entries := by
      rw [none, List.append_nil] at parts; exact parts.symm
    have same : s.setHolds v = s.cut (s.newestRun k) (s.queue.entries.take (s.depth - k)) s.queue := by
      rw [account, none]; rfl
    rw [same]
    exact (RunEvent.cut s _ _ _ run (.inr parts) (.inl all.symm)).events
  next =>
    rw [State.depthReport_setHolds, account]
    refine (RunEvent.cut s (s.newestRun k) _ { entries := s.queue.entries.take (s.depth - k), splicePending := true }
      run (.inr parts) (.inl rfl)).events.trans ?_
    exact State.depthReport_events _

theorem State.dumpNewest_events (s : State) (cause : Cause) (run : s.monitor.run = .running) :
    RunEvents s (s.dumpNewest cause) := by
  unfold State.dumpNewest State.accountRemoval
  refine .trans ?_ (State.logEdits_events _ _)
  refine .trans ?_ (RunEvent.log _ _).events
  refine s.removeNewest_account _ true run _ ?_
  rw [State.discardIf_holds, State.removeNewest_holds]
  rfl

theorem holdRun_eq_nil {s : State} {h : Byte} (none : s.holdRun h = []) :
    beforeRun h s.queue.entries = s.queue.entries ∧ afterRun h s.queue.entries = [] := by
  have untagged : ∀ e ∈ s.queue.entries, (!Entry.tagged h e) = true := by
    simpa [State.holdRun, List.filter_eq_nil_iff] using none
  constructor
  · exact List.takeWhile_eq_self_iff.2 untagged
  · rw [afterRun, List.dropWhile_eq_nil_iff.2 untagged]; rfl

theorem State.removeHoldRun_events (s : State) (h : Byte) (run : s.monitor.run = .running) :
    RunEvents s ((s.removeHoldRun h).dropHold h) := by
  unfold State.removeHoldRun
  split
  next none =>
    obtain ⟨before, after⟩ := holdRun_eq_nil none
    have same : s.dropHold h = s.cutHold h s.queue.splicePending := by
      rw [State.cutHold, before, after, none, markFirst, List.append_nil]; rfl
    rw [same]
    exact (RunEvent.cutHold s h _ run).events
  next =>
    rw [State.depthReport_dropHold]
    exact (RunEvent.cutHold s h _ run).events.trans (State.depthReport_events _)

theorem State.dumpHold_events (s : State) (r : HoldRecord) (cause : Cause) (run : s.monitor.run = .running) :
    RunEvents s (s.dumpHold r cause) :=
  (s.removeHoldRun_events r.id run).trans <| (State.discardIf_events _ _).trans <|
    (RunEvent.log _ _).events.trans (RunEvent.dumpTotal _ _).events

theorem State.releaseHold_events (s : State) (r : HoldRecord) (cause : Cause) (run : s.monitor.run = .running) :
    RunEvents s (s.releaseHold r cause) :=
  (RunEvent.releaseHold s r.id run).events.trans (RunEvent.log _ _).events

theorem State.closeHold_events (s : State) (r : HoldRecord) (cause : Cause) (isOpen : s.openHold = some r) :
    RunEvents s (s.closeHold r cause) := by
  unfold State.closeHold
  split
  next empty => exact (RunEvent.closeEmpty s r isOpen empty).events.trans (RunEvent.log _ _).events
  next counted => exact (RunEvent.close s r isOpen counted).events

theorem State.expireStall_events (s : State) (r : HoldRecord) (run : s.monitor.run = .running) :
    RunEvents s (s.expireStall r) := by
  have reported : RunEvents s ((s.report .stallExpired ((s.holdRun r.id).head?.map (·.seq)) none).logEdit
      (stallEntry r s.air.stallCount)) :=
    (RunEvent.report s _ _ _).events.trans (RunEvent.log _ _).events
  refine reported.trans ?_
  unfold State.expireStall
  split
  next => exact State.releaseHold_events _ r .policy (by simpa)
  next => exact State.dumpHold_events _ r .policy (by simpa)

theorem State.stallPolicyStep_events (s : State) (run : s.monitor.run = .running) :
    RunEvents s s.stallPolicyStep := by
  unfold State.stallPolicyStep
  split
  next => exact .refl
  next r _ => exact s.expireStall_events r run

/-! ### Presses -/

theorem State.handPress_events (s : State) (line : ConsoleLine) : RunEvents s (s.handPress line) := by
  unfold State.handPress
  split
  next run =>
    cases line with
    | dump =>
      dsimp only [State.pressDump]
      split
      next r _ _ => exact s.dumpHold_events r .console run
      next => split
              next => exact .refl
              next => exact s.dumpNewest_events .console run
    | hold =>
      dsimp only [State.pressHold]
      split
      next r isOpen => exact s.closeHold_events r .console isOpen
      next noneOpen => split
                       next => exact .refl
                       next room => exact (RunEvent.openHold s noneOpen (not_le.1 room)).events
    | release =>
      dsimp only [State.pressRelease]
      split
      next r _ _ => exact s.releaseHold_events r .console run
      next => exact .refl
  next => exact .refl

@[simp] theorem Console.setSampler_blinkCount (c : Console) (line : ConsoleLine) (p : LineSampler) :
    (c.setSampler line p).blinkCount = c.blinkCount := by
  cases line <;> rfl

theorem State.setSampler_event (s : State) (line : ConsoleLine) (p : LineSampler) :
    RunEvent s (s.setConsole (s.console.setSampler line p)) :=
  .console s _ (by rw [Console.setSampler_blinkCount]; exact le_max_right _ _)

theorem State.sample_events (s : State) (line : ConsoleLine) (active : Bool) :
    RunEvents s (s.sample line active) := by
  refine (s.setSampler_event line ((s.console.sampler line).sampled active)).events.trans ?_
  unfold State.sample
  dsimp only
  split
  next => exact State.handPress_events _ line
  next => exact .refl

theorem State.press_events (s : State) (line : ConsoleLine) : RunEvents s (s.press line) := by
  unfold State.press
  dsimp only
  split
  next => exact (s.setSampler_event line _).events.trans (State.handPress_events _ line)
  next => exact .refl

/-! ### Bindings -/

@[simp] theorem Air.binding_setBinding_same (a : Air) (slot : EgressSlot) (b : Option Binding) :
    (a.setBinding slot b).binding slot = b := by
  cases slot <;> rfl

/-- Rebinding a slot with a binding of the same block leaves the places as they are. -/
theorem Air.setBinding_keys (a : Air) (slot : EgressSlot) {b b' : Binding} (bound : a.binding slot = some b)
    (key : b'.key = b.key) :
    (a.setBinding slot (some b')).slotA.map Binding.key = a.slotA.map Binding.key ∧
    (a.setBinding slot (some b')).slotB.map Binding.key = a.slotB.map Binding.key := by
  cases slot <;> simp_all [Air.binding, Air.setBinding]

theorem Air.repeatCurrent_keys (a : Air) :
    a.repeatCurrent.slotA.map Binding.key = a.slotA.map Binding.key ∧
    a.repeatCurrent.slotB.map Binding.key = a.slotB.map Binding.key := by
  unfold Air.repeatCurrent
  split
  next => exact ⟨rfl, rfl⟩
  next b bound => exact a.setBinding_keys _ bound rfl

theorem Air.zeroDelay_keys (a : Air) :
    a.zeroDelay.slotA.map Binding.key = a.slotA.map Binding.key ∧
    a.zeroDelay.slotB.map Binding.key = a.slotB.map Binding.key := by
  unfold Air.zeroDelay
  split
  next => exact ⟨rfl, rfl⟩
  next b bound => exact a.setBinding_keys _ bound rfl

@[simp] theorem Air.setBinding_condition (a : Air) (slot : EgressSlot) (b : Option Binding) :
    (a.setBinding slot b).condition = a.condition := by cases slot <;> rfl
@[simp] theorem Air.setBinding_freezeCount (a : Air) (slot : EgressSlot) (b : Option Binding) :
    (a.setBinding slot b).freezeCount = a.freezeCount := by cases slot <;> rfl
@[simp] theorem Air.setBinding_serve (a : Air) (slot : EgressSlot) (b : Option Binding) :
    (a.setBinding slot b).serve = a.serve := by cases slot <;> rfl
@[simp] theorem Air.setBinding_onAir (a : Air) (slot : EgressSlot) (b : Option Binding) :
    (a.setBinding slot b).onAir = a.onAir := by cases slot <;> rfl

@[simp] theorem Air.zeroDelay_condition (a : Air) : a.zeroDelay.condition = a.condition := by
  unfold Air.zeroDelay
  split <;> simp
@[simp] theorem Air.zeroDelay_freezeCount (a : Air) : a.zeroDelay.freezeCount = a.freezeCount := by
  unfold Air.zeroDelay
  split <;> simp

/-- An air update that leaves the places and the freeze count, and does not turn air OFF. -/
theorem State.setAir_event (s : State) (a : Air) (run : s.monitor.run = .running)
    (keys : a.slotA.map Binding.key = s.air.slotA.map Binding.key ∧
      a.slotB.map Binding.key = s.air.slotB.map Binding.key := by exact ⟨rfl, rfl⟩)
    (on : a.condition ≠ .off ∨ a.condition = s.air.condition := by exact .inr rfl)
    (freeze : a.freezeCount = s.air.freezeCount := by rfl) :
    RunEvent s (s.setAir a) :=
  .air s a run keys.1 keys.2 on (freeze ▸ le_max_left _ _)

theorem State.leaveSlot_events (s : State) (slot : EgressSlot) (run : s.monitor.run = .running) :
    RunEvents s (s.leaveSlot slot) := by
  unfold State.leaveSlot
  split
  next => exact .refl
  next b bound => exact (RunEvent.leave s slot b run bound).events

theorem State.leaveSlot_binding (s : State) (slot : EgressSlot) : (s.leaveSlot slot).air.binding slot = none := by
  unfold State.leaveSlot
  split
  next unbound => exact unbound
  next => exact Air.binding_setBinding_same _ _ _

theorem State.leaveBoth_events (s : State) (run : s.monitor.run = .running) : RunEvents s s.leaveBoth :=
  (s.leaveSlot_events .a run).trans (State.leaveSlot_events _ .b (by simpa))

theorem State.leaveSlot_setQueue (s : State) (slot : EgressSlot) (q : Queue) :
    (s.setQueue q).leaveSlot slot = (s.leaveSlot slot).setQueue q := by
  unfold State.leaveSlot
  simp only [State.setQueue_air]
  split <;> rfl

theorem State.endFill_events (s : State) (q : Seq) (run : s.monitor.run = .running) : RunEvents s (s.endFill q) := by
  unfold State.endFill
  split
  next => exact .refl
  next =>
    exact (s.setAir_event { s.air with fillSince := none } run).events.trans
      (RunEvent.log _ _).events

/-- The oldest entry, which carries no hold id, leaves the queue for its egress slot. -/
theorem State.bindHead_events (s : State) (e : Entry) (rest : List Entry) (skipBefore : Byte)
    (run : s.monitor.run = .running) (head : s.queue.entries = e :: rest) (free : e.hold = none) :
    RunEvents s ((s.setQueue { s.queue with entries := rest }).bindEntry e skipBefore) := by
  unfold State.bindEntry
  simp only [State.leaveSlot_setQueue, State.setQueue_air, State.setQueue_pool]
  refine (s.leaveSlot_events (EgressSlot.ofOnAir (s.air.onAir + 1)) run).trans ?_
  refine .trans (Relation.ReflTransGen.single ?_) (State.endFill_events _ e.seq (by simpa))
  refine RunEvent.bind (s.leaveSlot _) _ e { s.queue with entries := rest } (e.binding _ s.air.serve skipBefore) _
    ?_ ?_ free (s.leaveSlot_binding _) rfl ?_ ?_ ?_ ?_
  all_goals simp [run, head]

theorem State.release_events (s : State) (skipBefore : Byte) (run : s.monitor.run = .running)
    (free : ∀ e rest, s.queue.entries = e :: rest → e.hold = none) : RunEvents s (s.release skipBefore) := by
  unfold State.release
  split
  next => exact .refl
  next e rest head =>
    exact (s.bindHead_events e rest skipBefore run head (free e rest head)).trans (State.depthReport_events _)

theorem State.skip_events (s : State) (run : s.monitor.run = .running)
    (free : ∀ e rest, s.queue.entries = e :: rest → e.hold = none)
    (freeNext : ∀ e o rest, s.queue.entries = e :: o :: rest → o.hold = none) : RunEvents s s.skip := by
  unfold State.skip
  split
  next => exact .refl
  next e rest head =>
    refine (RunEvent.dropHead s e rest run head (free e rest head)).events.trans ?_
    exact State.release_events _ _ (by simpa) fun o rest' next =>
      freeNext e o rest' (head.trans (congrArg (e :: ·) next))

/-! ### The tick -/

theorem State.latch_events (s : State) : RunEvents s s.latch := by
  unfold State.latch
  dsimp only
  split
  next => exact (RunEvent.latch s).events.trans (State.evaluateTrim_event _).events
  next => exact (RunEvent.latch s).events

theorem State.blinkTick_event (s : State) : RunEvent s s.blinkTick := by
  refine .console s _ ?_
  split
  next => exact Nat.zero_le _
  next low => exact le_max_of_le_left (by simp only; omega)

@[simp] theorem Air.repeatCurrent_freezeCount (a : Air) : a.repeatCurrent.freezeCount = a.freezeCount := by
  unfold Air.repeatCurrent
  split <;> simp

theorem State.stalledTick_events (s : State) (h : Byte) (run : s.monitor.run = .running) :
    RunEvents s (s.stalledTick h) :=
  (s.setAir_event _ run (by exact s.air.repeatCurrent_keys) (.inl (by exact AirCond.noConfusion)) (by simp)).events.trans
    (State.stallPolicyStep_events _ (by simpa))

theorem State.frozenTick_events (s : State) (cur : Binding) (run : s.monitor.run = .running)
    (below : s.air.freezeCount < s.monitor.inForce.freezeLimit) : RunEvents s (s.frozenTick cur) := by
  have frozen : RunEvents s (s.setAir { s.air.repeatCurrent with
      condition := .frozen, lastAction := .freeze, freezeCount := s.air.freezeCount + 1 }) :=
    (RunEvent.air s _ run (by exact s.air.repeatCurrent_keys.1) (by exact s.air.repeatCurrent_keys.2)
      (.inl (by exact AirCond.noConfusion)) (by exact le_max_of_le_right below)).events
  refine frozen.trans ?_
  unfold State.frozenTick
  dsimp only
  split
  next => exact .refl
  next => exact (RunEvent.log _ _).events

theorem State.freezeEnd_events (s : State) (cur : Binding) (run : s.monitor.run = .running) :
    RunEvents s (s.freezeEnd cur) :=
  (s.leaveBoth_events run).trans <|
    (State.setAir_event _ _ (by simpa) (on := .inl (by exact AirCond.noConfusion))).events.trans <|
    (RunEvent.report _ _ _ _).events.trans (RunEvent.log _ _).events

theorem State.emptyTick_events (s : State) (run : s.monitor.run = .running) : RunEvents s s.emptyTick := by
  unfold State.emptyTick
  split
  next cur _ =>
    split
    next below => exact s.frozenTick_events cur run below
    next => exact s.freezeEnd_events cur run
  next => exact (s.setAir_event _ run (on := .inl (by exact AirCond.noConfusion))).events

theorem State.trimTick_events (s : State) (run : s.monitor.run = .running)
    (free : ∀ e rest, s.queue.entries = e :: rest → e.hold = none) : RunEvents s s.trimTick := by
  unfold State.trimTick
  split
  next =>
    exact s.afterAsk_event.events.trans <| (State.release_events _ 0 (by simpa) (by simpa)).trans
      (State.setAir_event _ _ (by simpa)).events
  next =>
    exact s.afterAsk_event.events.trans
      (State.setAir_event _ _ (by simpa) (by exact s.afterAsk.air.repeatCurrent_keys)
        (.inl (by exact AirCond.noConfusion)) (by simp)).events
  next skips =>
    have freeNext : ∀ e o rest, s.queue.entries = e :: o :: rest → o.hold = none := by
      intro e o rest head
      obtain ⟨-, allowed⟩ := s.trimAnswer_eq_skip_iff.1 skips
      obtain ⟨-, o', n, rest', parts, -, -, free⟩ := s.skipAllowed_iff.1 allowed
      rw [parts] at head
      injection head with _ head
      injection head with head _
      exact head ▸ free
    exact s.afterAsk_event.events.trans <| (State.skip_events _ (by simpa) (by simpa) (by simpa)).trans
      (State.setAir_event _ _ (by simpa)).events

theorem State.clearStall_event (s : State) (run : s.monitor.run = .running) : RunEvent s s.clearStall :=
  s.setAir_event _ run ⟨rfl, rfl⟩ (.inr rfl) rfl

theorem State.select_events (s : State) (run : s.monitor.run = .running) : RunEvents s s.select := by
  unfold State.select
  split
  next => exact (s.setAir_event _ run).events
  next =>
    split
    next => exact (s.clearStall_event run).events.trans (State.emptyTick_events _ (by simpa))
    next e rest head =>
      split
      next h _ => exact s.stalledTick_events h run
      next free =>
        refine (s.clearStall_event run).events.trans (State.trimTick_events _ (by simpa) fun e' rest' head' => ?_)
        rw [State.clearStall_queue, head] at head'
        injection head' with same _
        exact same ▸ free

theorem State.selectTick_events (s : State) (joined : Nat) (run : s.monitor.run = .running) :
    RunEvents s (s.selectTick joined) := by
  have selected : RunEvents s s.raiseServe.select :=
    (s.setAir_event _ run).events.trans (s.raiseServe.select_events (by simpa))
  refine selected.trans ?_
  unfold State.selectTick
  dsimp only
  split
  next => exact (State.setAir_event _ _ (by simpa) (Air.zeroDelay_keys _) (.inr (by simp)) (by simp)).events
  next => exact .refl

theorem State.tick_events (s : State) (joined : Nat) : RunEvents s (s.tick joined) := by
  have latched : RunEvents s s.latch.blinkTick := s.latch_events.trans s.latch.blinkTick_event.events
  refine latched.trans ?_
  unfold State.tick
  dsimp only
  split
  next run =>
    have run' : s.latch.blinkTick.monitor.run = .running := by
      rw [State.blinkTick_monitor, s.latch_running run]; exact run
    exact (State.selectTick_events _ joined run').trans (State.slotTimeouts_events _ (by simpa))
  next => exact .refl

/-! ### The tick generator -/

theorem State.setReference_event (s : State) (mode : GenMode) (t generated : Nat) :
    RunEvent s (s.setReference mode t generated) := .gen s _

theorem State.loseRef_events (s : State) (t joined : Nat) : RunEvents s (s.loseRef t joined) :=
  (RunEvent.report s _ _ _).events.trans <| (RunEvent.log _ _).events.trans <|
    (State.setReference_event _ _ _ _).events.trans (State.tick_events _ joined)

theorem State.generateTick_events (s : State) (t joined : Nat) : RunEvents s (s.generateTick t joined) :=
  (s.setReference_event _ _ _).events.trans (State.tick_events _ joined)

theorem State.catchUp_events (s : State) (t fuel : Nat) : RunEvents s (s.catchUp t fuel) := by
  induction fuel generalizing s with
  | zero => exact .refl
  | succ n ih =>
    rw [State.catchUp]
    split
    next =>
      refine .trans ?_ (ih _)
      unfold State.ownEvent
      split
      next => exact s.loseRef_events _ 0
      next => exact s.loseRef_events _ 0
      next => exact s.generateTick_events _ 0
    next => exact .refl

theorem State.takeEdge_events (s : State) (t joined : Nat) : RunEvents s (s.takeEdge t joined) := by
  unfold State.takeEdge
  split
  next => exact (s.setReference_event _ _ _).events.trans (State.tick_events _ joined)
  next =>
    unfold State.edgeLocked
    split
    next => exact (RunEvent.gen s _).events
    next => exact (s.setReference_event _ _ _).events.trans (State.tick_events _ joined)
  next =>
    have returned : RunEvents s ((s.logEdit
        { kind := .refReturn, first := none, last := none, count := some (BitVec.ofNat 32 s.gen.generated),
          hold := none, cause := .device }).setReference .locked t 0) :=
      (RunEvent.log s _).events.trans (State.setReference_event _ _ _ _).events
    refine returned.trans ?_
    unfold State.edgeReturns
    dsimp only
    split
    next => exact .refl
    next => exact State.tick_events _ joined

theorem State.refEdgeAt_events (s : State) (count joined : Nat) : RunEvents s (s.refEdgeAt count joined) :=
  (s.catchUp_events _ _).trans (State.takeEdge_events _ _ joined)

/-- A command that ticks, presses or samples, or is a part of a tick. -/
def ofRun : Instr → Bool
  | .refEdge _ | .refLost _ | .generatedTick _ | .slotTimeout | .stallExpired | .freezeLimit | .blinkPhase
  | .dumpPress | .holdPress | .releasePress | .consoleSample _ _ => true
  | _ => false

theorem exec_runEvents {c : Instr} {s t : State} (isOfRun : ofRun c = true) (done : exec c s = .next t) :
    RunEvents s t := by
  have running : ∀ {s : State}, s.inRun = true → s.monitor.run = .running := by
    intro s h
    simp only [State.inRun, Bool.and_eq_true, beq_iff_eq] at h
    exact h.2
  cases c with
  | refEdge m =>
    simp only [exec, execRefEdge] at done
    split at done <;> cases done
    · exact s.refEdgeAt_events _ _
    · exact .refl
  | refLost m =>
    simp only [exec, execRefLost] at done
    split at done <;> cases done
    · exact s.loseRef_events _ _
    · exact .refl
  | generatedTick m =>
    simp only [exec, execGeneratedTick] at done
    split at done <;> cases done
    · exact s.generateTick_events _ _
    · exact .refl
  | slotTimeout =>
    simp only [exec, execSlotTimeout] at done
    split at done <;> cases done
    next inRun => exact s.slotTimeouts_events (running inRun)
    next => exact .refl
  | stallExpired =>
    simp only [exec, execStallExpired] at done
    split at done <;> cases done
    next inRun => exact s.stallPolicyStep_events (running inRun)
    next => exact .refl
  | freezeLimit =>
    simp only [exec, execFreezeLimit] at done
    split at done
    next => cases done; exact .refl
    next cur _ =>
      split at done <;> cases done
      next inRun =>
        exact (s.clearStall_event (running inRun)).events.trans
          (State.freezeEnd_events _ cur (by simpa using running inRun))
      next => exact .refl
  | blinkPhase =>
    simp only [exec, execBlinkPhase] at done
    split at done <;> cases done
    · exact (RunEvent.console s _ (Nat.zero_le _)).events
    · exact .refl
  | dumpPress => cases done; exact s.press_events .dump
  | holdPress => cases done; exact s.press_events .hold
  | releasePress => cases done; exact s.press_events .release
  | consoleSample line high =>
    simp only [exec, execConsoleSample] at done
    split at done <;> cases done
    · exact s.sample_events _ _
    · exact .refl
  | _ => cases isOfRun

/-! ### The link, the ingest tracker and the control monitor -/

theorem State.payloadLine_events (s : State) (k : Fin 4) (j : Nat) (data : Line)
    (run : s.monitor.run = .running) : Events s (s.payloadLine k j data) := by
  unfold State.payloadLine
  split
  next empty =>
    split
    next => exact (Event.overrun s k empty).events
    next i p given =>
      exact (Event.bindSlot s k i p [j] run empty given).events.trans (Event.line _ _ data).events
  next b w first filling =>
    exact (Event.addLine s k b w _ first filling).events.trans (Event.line _ _ data).events
  next => exact .refl
  next => exact .refl

theorem State.append_eq (s : State) (e : Entry) : ∃ es, s.append e =
    (((s.cutForGuard e.seq).joinTail e).logEdits es).depthReport := by
  unfold State.append State.applyGuard State.cutForGuard
  dsimp only
  split
  next => exact ⟨[], rfl⟩
  next =>
    refine ⟨dumpEntry (guardRemoved e.seq s.queue.entries) .device ::
      (s.holds.table.filter (fun h => h.emptiedBy (guardRemoved e.seq s.queue.entries))).map
        (fun h => h.dumpedEntry (guardRemoved e.seq s.queue.entries) .device), ?_⟩
    rw [← State.logEdits_joinTail]
    rfl

theorem State.commitFrame_events (s : State) (k : Fin 4) (b : Nat) (w w' : List Nat) (first : Seq) (data : Line)
    (gap : Byte) (run : s.monitor.run = .running) (filling : s.slot k = .filling b w first) :
    Events s (s.commitFrame k b w' data gap) := by
  obtain ⟨es, eq⟩ := (s.leaveForQueue k b w' data).append_eq (s.entryOf b w' data gap)
  have same : s.commitFrame k b w' data gap = ((s.commitBare k b w' data gap).logEdits es).depthReport := eq
  rw [same]
  exact (Event.commit s k b w w' first data gap run filling).events.trans
    (RunEvents.events ((State.logEdits_events _ es).trans (State.depthReport_events _)))

theorem State.refuseFrame_event (s : State) (k : Fin 4) (b : Nat) (w : List Nat) (first : Seq)
    (run : s.monitor.run = .running) (filling : s.slot k = .filling b w first) :
    Event s (s.refuseFrame k b) :=
  .run (.freeSlot s k b run (by rw [filling]; rfl))

theorem State.finishFrame_events (s : State) (k : Fin 4) (b : Nat) (w w' : List Nat) (first : Seq) (data : Line)
    (run : s.monitor.run = .running) (filling : s.slot k = .filling b w first) :
    Events s (s.finishFrame k b w' data) := by
  have stored : Event s (s.writeBlockLine b 0 data) := .line s _ data
  have run' : (s.writeBlockLine b 0 data).monitor.run = .running := run
  have filling' : (s.writeBlockLine b 0 data).slot k = .filling b w first := by
    simpa [State.slot] using filling
  refine stored.events.trans ?_
  unfold State.finishFrame
  dsimp only
  generalize s.writeBlockLine b 0 data = u at run' filling'
  split
  next =>
    split
    next => exact u.commitFrame_events k b w w' first data 0 run' filling'
    next e d _ =>
      have gap : RunEvents u ((u.report .seqGap (some (recordSeq data)) (some (s.slotFaultAddr k))).logEdit
          (gapEntry e d (recordSeq data))) := (RunEvent.report _ _ _ _).events.trans (RunEvent.log _ _).events
      exact (RunEvents.events gap).trans
        (State.commitFrame_events _ k b w w' first data _ (by simpa) (by simpa [State.slot] using filling'))
    next =>
      exact (u.refuseFrame_event k b w first run' filling').events.trans (RunEvent.report _ _ _ _).events.events
  next =>
    exact (u.refuseFrame_event k b w first run' filling').events.trans (RunEvent.report _ _ _ _).events.events

/-- A frame of a single line (R52) is one whose slot was FILLING with no line yet. -/
theorem State.finishFrame_setSlot (s : State) (k : Fin 4) (sl : IngestSlot) (b : Nat) (w : List Nat) (data : Line) :
    (s.setSlot k sl).finishFrame k b w data = s.finishFrame k b w data := by
  have slots : ∀ u : State, (u.setSlot k sl).ingest.slots.set k .empty = u.ingest.slots.set k .empty := by
    intro u
    exact Vector.set_set ..
  have leaves : ∀ u : State, (u.setSlot k sl).leaveForQueue k b w data = u.leaveForQueue k b w data := by
    intro u
    unfold State.leaveForQueue
    rw [slots]
    rfl
  have refuses : ∀ u : State, (u.setSlot k sl).refuseFrame k b = u.refuseFrame k b := by
    intro u
    have : (u.setSlot k sl).setSlot k .empty = u.setSlot k .empty := by
      unfold State.setSlot
      rw [State.setIngest_ingest, Vector.set_set]
      rfl
    rw [State.refuseFrame, this]
    rfl
  have commits : ∀ (u : State) (gap : Byte), (u.setSlot k sl).commitFrame k b w data gap =
      u.commitFrame k b w data gap := fun u gap =>
    congrArg (fun v => v.append (u.entryOf b w data gap)) (leaves u)
  have stored : (s.setSlot k sl).writeBlockLine b 0 data = (s.writeBlockLine b 0 data).setSlot k sl := by
    have addr : (s.setSlot k sl).blockLineAddr b 0 = s.blockLineAddr b 0 := by
      simp [State.blockLineAddr, State.hostTop]
    rw [State.writeBlockLine, State.writeBlockLine, addr, State.setSlot_dram]
    generalize writeLine s.dram (s.blockLineAddr b 0) data = m
    rfl
  have last : (s.setSlot k sl).ingest.lastSeq = s.ingest.lastSeq := rfl
  have addr : (s.setSlot k sl).slotFaultAddr k = s.slotFaultAddr k := rfl
  have reported : ∀ (u : State) q a e, ((u.setSlot k sl).report .seqGap q a).logEdit e =
      ((u.report .seqGap q a).logEdit e).setSlot k sl := fun _ _ _ _ => rfl
  simp only [State.finishFrame, stored, last, addr, reported, commits, refuses]

theorem State.pictureRecord_events (s : State) (k : Fin 4) (data : Line) (run : s.monitor.run = .running) :
    Events s (s.pictureRecord k data) := by
  have drop : ∀ (u : State) q cause, Events u (u.reportDrop k q cause) := fun u q cause =>
    RunEvents.events ((RunEvent.report _ _ _ _).events.trans (RunEvent.log _ _).events)
  unfold State.pictureRecord
  split
  next b w first filling => exact s.finishFrame_events k b w w first data run filling
  next b first held =>
    exact (Event.run (.freeSlot s k b run (by rw [held]; rfl))).events.trans (drop _ _ _)
  next overrun => exact (Event.endOverrun s k overrun).events.trans (drop _ _ _)
  next empty =>
    split
    next => exact drop _ _ _
    next i p given =>
      rw [← State.finishFrame_setSlot _ k (.filling i [] s.air.serve)]
      refine (Event.bindSlot s k i p [] run empty given).events.trans
        (State.finishFrame_events _ k i [] [] s.air.serve data run ?_)
      simp [State.slot, State.setSlot]

theorem State.ingestLine_events (s : State) (k : Fin 4) (j : Nat) (data : Line) (run : s.monitor.run = .running) :
    Events s (s.ingestLine k j data) := by
  unfold State.ingestLine
  split
  next => exact s.pictureRecord_events k data run
  next => exact s.payloadLine_events k j data run

/-! ### Commands -/

theorem State.tearDown_run (s : State) : s.tearDown.monitor.run = .stopping := rfl

theorem State.endDrain_events (s : State) (run : s.monitor.run = .stopping) : Events s s.endDrain := by
  unfold State.endDrain
  split
  next none => exact (Event.drained s run none).events
  next => exact .refl

theorem State.stopRun_events (s : State) (run : s.monitor.run = .running) : Events s s.stopRun :=
  (Event.tearDown s run).events.trans (State.endDrain_events _ s.tearDown_run)

theorem State.endDrain_run (s : State) (run : s.monitor.run = .stopping) :
    s.endDrain.monitor.run ≠ .running := by
  unfold State.endDrain
  split <;> simp [run]

/-- A command that is refused outside RUNNING is taken in RUNNING. -/
theorem running_of_judge {c : Command} {run : RunState} (taken : c.judge run = none)
    (stopped : c.judge .stopped ≠ none := by simp [Command.judge])
    (stopping : c.judge .stopping ≠ none := by simp [Command.judge]) : run = .running := by
  cases run with
  | stopped => exact absurd taken stopped
  | running => rfl
  | stopping => exact absurd taken stopping

/-- A command that is refused outside STOPPED is taken in STOPPED. -/
theorem stopped_of_judge {c : Command} {run : RunState} (taken : c.judge run = none)
    (running : c.judge .running ≠ none := by simp [Command.judge])
    (stopping : c.judge .stopping ≠ none := by simp [Command.judge]) : run = .stopped := by
  cases run with
  | stopped => rfl
  | running => exact absurd taken running
  | stopping => exact absurd taken stopping

theorem State.cmdStart_events (s : State) (target : Half) (mode : Byte) (run : s.monitor.run = .stopped) :
    Events s (s.cmdStart target mode).1 := by
  unfold State.cmdStart
  split
  next => exact .refl
  next =>
    split
    next => exact .refl
    next cond known =>
      refine (Event.start s _ cond run (min_le_right _ _) ?_).events
      rintro rfl
      unfold startCondition at known
      split at known <;> simp at known

theorem State.cmdConfigure_events (s : State) (a : ConfigureArgs) (run : s.monitor.run = .stopped) :
    Events s (s.cmdConfigure a).1 := by
  cases checked : s.configureRate a with
  | none => rw [State.cmdConfigure, checked]
  | some rate => exact (Event.configure s a rate run checked).events

theorem State.cmdHoldOpen_events (s : State) : Events s s.cmdHoldOpen.1 := by
  unfold State.cmdHoldOpen
  split
  next => exact .refl
  next noneOpen =>
    split
    next => exact .refl
    next room => exact (Event.run (.openHold s (by simpa using noneOpen) (not_le.1 room))).events

theorem State.cmdResetEngine_events (s : State) : Events s s.cmdResetEngine.1 := by
  have ended : Events s s.runEnded ∧ s.runEnded.monitor.run ≠ .running := by
    unfold State.runEnded
    split
    next run => exact ⟨s.stopRun_events run, s.tearDown.endDrain_run s.tearDown_run⟩
    next run => exact ⟨.refl, run⟩
  exact ended.1.trans (Event.engineReset _ ended.2).events

theorem State.carryOut_events (s : State) (c : Command) (taken : c.judge s.monitor.run = none) :
    Events s (s.carryOut c).1 := by
  cases c with
  | configure a => exact s.cmdConfigure_events a (stopped_of_judge taken)
  | start t m => exact s.cmdStart_events t m (stopped_of_judge taken)
  | stop => exact s.stopRun_events (running_of_judge taken)
  | setTarget t => exact (Event.setTarget s _ (min_le_right _ _)).events
  | setControl a =>
    dsimp only [State.carryOut, State.cmdSetControl]
    split
    next => exact (Event.setControl s a).events
    next => exact .refl
  | dump =>
    dsimp only [State.carryOut, State.cmdDump]
    split
    next => exact .refl
    next => exact RunEvents.events (s.dumpNewest_events .command (running_of_judge taken))
  | holdOpen => exact s.cmdHoldOpen_events
  | holdClose =>
    dsimp only [State.carryOut, State.cmdHoldClose]
    split
    next => exact .refl
    next r isOpen => exact RunEvents.events (s.closeHold_events r .command isOpen)
  | release h =>
    dsimp only [State.carryOut, State.cmdRelease]
    split
    next => exact .refl
    next r _ => exact RunEvents.events (s.releaseHold_events r .command (running_of_judge taken))
  | dumpHold h =>
    dsimp only [State.carryOut, State.cmdDumpHold]
    split
    next => exact .refl
    next r _ => exact RunEvents.events (s.dumpHold_events r .command (running_of_judge taken))
  | clearFaults k => exact (Event.clearFaults s _ _).events
  | resetEngine => exact s.cmdResetEngine_events
  | resetPart r =>
    dsimp only [State.carryOut, State.cmdResetPart]
    split
    next => exact (Event.resetPart s _).events
    next => exact .refl

theorem State.runCommand_events (s : State) (num : Byte) (c : Command) : Events s (s.runCommand num c) := by
  unfold State.runCommand
  split
  next => exact (Event.result s _ _ _).events
  next taken =>
    have carried := s.carryOut_events c taken
    split
    next t r eq =>
      rw [eq] at carried
      exact carried.trans (Event.result _ _ _ _).events
    next t eq =>
      rw [eq] at carried
      exact carried

theorem State.readCommand_events (s : State) (num : Byte) (c : Command) : Events s (s.readCommand num c) := by
  unfold State.readCommand
  split
  next => exact s.runCommand_events num c
  next => exact .refl

theorem State.monitorLine_events (s : State) (a : Nat) (l : Line) : Events s (s.monitorLine a l) := by
  unfold State.monitorLine
  split
  next =>
    split
    next =>
      split
      next => exact (Event.result s _ _ _).events
      next c _ => exact s.runCommand_events _ c
    next => exact (Event.run (.report s _ _ _)).events.trans (Event.result _ _ _ _).events
  next => exact .refl

/-! ### Requests and completions -/

theorem State.writeClassified_events (s : State) (a : Nat) (l : Line) (c : LineClass) :
    Events s (s.writeClassified a l c) := by
  have stored : Events s (s.writeHostLine a l) := (Event.line s a l).events
  cases c with
  | unclaimed => exact .refl
  | ingest k j =>
    dsimp only [State.writeClassified]
    split
    next run => exact s.ingestLine_events k j l run
    next => exact .refl
  | egress slot j => exact .refl
  | control p => exact stored.trans (State.monitorLine_events _ a l)
  | readout p => exact stored
  | pass => exact stored

theorem State.writeLines_events (s : State) (a : Nat) (data : List Line) (told : Bool) :
    Events s (s.writeLines a data told) := by
  induction data generalizing s a told with
  | nil => exact .refl
  | cons l rest ih =>
    rw [State.writeLines]
    split
    next =>
      refine .trans ?_ (ih _ _ _)
      split
      next => exact .refl
      next => exact (Event.run (.report s _ _ _)).events
    next c _ => exact (s.writeClassified_events a l _).trans (ih _ _ _)

theorem State.checkFailureNotice_event (s : State) (addrs : List Nat) :
    RunEvent s (s.checkFailureNotice addrs) := by
  refine .discard s _ fun k => ?_
  rw [Fin.getElem_fin, Vector.getElem_ofFn]
  split
  next => exact .inr rfl
  next => exact .inl rfl

theorem State.takeWrite_events (s : State) (addr : Addr) (data : List Line) (check : Option Half) :
    Events s (s.takeWrite addr data check) := by
  unfold State.takeWrite
  split
  next =>
    have reported := (Event.run (.report s .linkCheck none (some addr))).events
    unfold State.failedWrite
    dsimp only
    split
    next => exact reported.trans (Event.run (State.checkFailureNotice_event _ _)).events
    next => exact reported
  next => exact s.writeLines_events _ _ _

theorem State.reportUnclaimed_events (s : State) (addrs : List Nat) : Events s (s.reportUnclaimed addrs) := by
  unfold State.reportUnclaimed
  split
  next => exact .refl
  next => exact (Event.run (.report s _ _ _)).events

theorem State.takeRead_events (s : State) (addr : Addr) (lines : Nat) (tag : BitVec 6)
    (room : s.link.inFlight.length < 64) : Events s (s.takeRead addr lines tag) := by
  unfold State.takeRead
  split
  next => exact (Event.refuseRead s tag room).events
  next new =>
    exact (Event.acceptRead s _ tag _ room (by simpa using new)).events.trans (State.reportUnclaimed_events _ _)

theorem State.takeRequest_events (s : State) (r : Request) (taken : s.canTake r = true) :
    Events s (s.takeRequest r) := by
  cases r with
  | read addr lines tag =>
    refine s.takeRead_events addr lines tag ?_
    simp only [State.canTake, Bool.and_eq_true, decide_eq_true_iff] at taken
    exact taken.2
  | write addr data check => exact s.takeWrite_events addr data check

theorem State.takeRequests_events (s : State) (rs : List Request) : Events s (s.takeRequests rs) := by
  induction rs generalizing s with
  | nil => exact (Event.wait s _).events
  | cons r rest ih =>
    rw [State.takeRequests]
    split
    next taken => exact (s.takeRequest_events r taken).trans (ih _)
    next => exact (Event.wait s _).events

theorem State.completeOldest_events (s : State) (e : InFlight) (rest : List InFlight)
    (oldest : s.link.inFlight = e :: rest) : Events s (s.completeOldest e rest) := by
  refine (Event.complete s e rest (s.link.sent ++ [s.completionOf e]) oldest).events.trans ?_
  unfold State.completeOldest State.drainStep
  split
  next run => exact State.endDrain_events _ run
  next => exact .refl

/-! ### Every command -/

/-- The row of a command is one of those the link, the monitor or a reset acts on. -/
theorem exec_events {c : Instr} {s t : State} (done : exec c s = .next t) : Events s t := by
  cases c with
  | read addr lines tag => cases done; exact s.takeRequests_events _
  | write addr data check => cases done; exact s.takeRequests_events _
  | readCompletion =>
    simp only [exec, execReadCompletion] at done
    split at done
    next => cases done; exact .refl
    next e rest oldest =>
      split at done <;> cases done
      · exact (s.completeOldest_events e rest oldest).trans (State.takeRequests_events _ _)
      · exact .refl
  | configure num a => cases done; exact s.readCommand_events _ _
  | start num target mode => cases done; exact s.readCommand_events _ _
  | stop num => cases done; exact s.readCommand_events _ _
  | setTarget num target => cases done; exact s.readCommand_events _ _
  | setControl num a => cases done; exact s.readCommand_events _ _
  | dump num => cases done; exact s.readCommand_events _ _
  | holdOpen num => cases done; exact s.readCommand_events _ _
  | holdClose num => cases done; exact s.readCommand_events _ _
  | release num h => cases done; exact s.readCommand_events _ _
  | dumpHold num h => cases done; exact s.readCommand_events _ _
  | clearFaults num kinds => cases done; exact s.readCommand_events _ _
  | resetEngine num => cases done; exact s.readCommand_events _ _
  | resetPart num resample => cases done; exact s.readCommand_events _ _
  | resetProper pins =>
    simp only [exec, execResetProper] at done
    split at done
    next => cases done; exact .refl
    next =>
      split at done <;> cases done
      · exact (Event.reset s _).events
      · exact .refl
  | powerOn pins => cases done; exact (Event.reset s pins).events
  | resetPin edge =>
    cases edge with
    | asserted => cases done; exact (Event.assertReset s).events
    | released pins => cases done; exact (Event.reset s pins).events
  | calibrationAttempt passed count =>
    simp only [exec, execCalibrationAttempt] at done
    split at done <;> cases done
    · have ended : Events s ((s.setStore (s.store.afterAttempt passed)).reachCount (max s.gen.osc count)) :=
        (Event.store s _).events.trans (Event.run (.gen _ _)).events
      refine ended.trans ?_
      unfold State.attempt
      dsimp only
      split
      · exact (Event.ready _).events.trans <| (Event.run (.console _ Console.start (Nat.zero_le _))).events.trans <|
          (Event.run (.gen _ _)).events.trans (State.takeRequests_events _ _)
      · exact .refl
    · exact .refl
  | _ => exact RunEvents.events (exec_runEvents rfl done)

/-- Taking a command off the front of the queue changes no block of the part, so what every event keeps, every
step keeps. -/
theorem kept_of_events {P : State → Prop} (pending : ∀ s rest, P s → P (s.setPending rest))
    (each : ∀ s t, Event s t → P s → P t) : Safety.KeptByEveryStep P := by
  intro s t start done
  unfold step at done
  split at done
  next => cases done; exact start
  next c rest _ => exact (exec_events done).keep each (pending s rest start)

end Sys2Proof.Machine
end

