-- ==== Sys2Proof/Proofs/Invariants.lean ====
section
/-! Invariants that rest on few blocks of the state: the waiting commands, the in-flight read list, the edit
log, the windows and DRAM, and the limits of settings and counts. -/

namespace Sys2Proof.Machine

open Sys2Proof Sys2Proof.Safety

/-! ### What the compound events leave unchanged -/

theorem State.cutForGuard_frame (s : State) (q : Seq) :
    ∃ p x h, s.cutForGuard q = ((s.setQueue x).setPool p).setHolds h := by
  unfold State.cutForGuard
  split
  next => exact ⟨s.pool, s.queue, s.holds, rfl⟩
  next => exact ⟨_, _, _, rfl⟩

theorem State.commitBare_frame (s : State) (k : Fin 4) (b : Nat) (w : List Nat) (data : Line) (gap : Byte) :
    ∃ p i x h, s.commitBare k b w data gap = (((s.setPool p).setIngest i).setQueue x).setHolds h := by
  obtain ⟨p, x, h, eq⟩ := (s.leaveForQueue k b w data).cutForGuard_frame (recordSeq data)
  unfold State.commitBare
  rw [eq]
  exact ⟨p, _, _, _, rfl⟩

theorem State.cmdConfigure_frame (s : State) (a : ConfigureArgs) (rate : RateCode)
    (checked : s.configureRate a = some rate) : (s.cmdConfigure a).1 =
      ((((s.setPool (s.pool.configured a.tiles.toNat a.blocks.toNat)).setWindows
        { ingest := a.ingest, egress := a.egress, control := a.control, readout := a.readout }).setLink
        { s.link with checkMode := a.linkCheck == 1 }).setGen
        { s.gen with restated := s.gen.restated || s.monitor.rateCode != rate }).setMonitor
        { s.monitor with
          rateCode := rate
          staged := { s.monitor.staged with
            target := min s.monitor.staged.target (s.pool.configured a.tiles.toNat a.blocks.toNat).maxTarget }
          inForce := { s.monitor.inForce with
            target := min s.monitor.inForce.target (s.pool.configured a.tiles.toNat a.blocks.toNat).maxTarget } } := by
  rw [State.cmdConfigure, checked]

section
variable (s : State) (target : Nat) (cond : AirCond)

@[simp] theorem State.startRun_pool : (s.startRun target cond).pool = s.pool.rebuild := by simp [State.startRun]
@[simp] theorem State.startRun_ingest : (s.startRun target cond).ingest = Ingest.start := by simp [State.startRun]
@[simp] theorem State.startRun_queue : (s.startRun target cond).queue = Queue.start := by simp [State.startRun]
@[simp] theorem State.startRun_air : (s.startRun target cond).air = { Air.start with condition := cond } := by
  simp [State.startRun]
@[simp] theorem State.startRun_trim : (s.startRun target cond).trim =
    Trim.start.evaluate 0 target s.monitor.staged.band := by simp [State.startRun]
@[simp] theorem State.startRun_holds : (s.startRun target cond).holds =
    { s.holds with table := [], dumpTotal := 0 } := by simp [State.startRun]
@[simp] theorem State.startRun_monitor : (s.startRun target cond).monitor = { s.monitor with
    run := .running
    staged := { s.monitor.staged with target := target }
    inForce := { s.monitor.staged with target := target } } := by simp [State.startRun]
@[simp] theorem State.startRun_link : (s.startRun target cond).link = s.link := by simp [State.startRun]
@[simp] theorem State.startRun_console : (s.startRun target cond).console = s.console := by simp [State.startRun]
@[simp] theorem State.startRun_resetHeld : (s.startRun target cond).resetHeld = s.resetHeld := by
  simp [State.startRun]

@[simp] theorem State.engineReset_ingest : s.engineReset.ingest = Ingest.start := by simp [State.engineReset]
@[simp] theorem State.engineReset_queue : s.engineReset.queue = Queue.start := by simp [State.engineReset]
@[simp] theorem State.engineReset_trim : s.engineReset.trim = Trim.start := by simp [State.engineReset]
@[simp] theorem State.engineReset_holds : s.engineReset.holds = Holds.start := by simp [State.engineReset]
@[simp] theorem State.engineReset_air : s.engineReset.air = { s.air with
    slotA := none, slotB := none, condition := .off, stallCount := 0, stalledHold := none, freezeCount := 0
    repeatTotal := 0, skipTotal := 0, fillSince := none } := by simp [State.engineReset]
@[simp] theorem State.engineReset_monitor : s.engineReset.monitor = { s.monitor with
    staged := Settings.default s.straps s.pool, inForce := Settings.default s.straps s.pool } := by
  simp [State.engineReset]

end

/-! ### The waiting commands -/

theorem RunEvent.pending_eq {s t : State} (e : RunEvent s t) : t.pending = s.pending := by
  cases e <;> rfl

theorem Event.pending_eq {s t : State} (e : Event s t) : t.pending = s.pending := by
  cases e with
  | run e => exact e.pending_eq
  | commit k b w w' first data gap =>
    obtain ⟨p, i, x, h, eq⟩ := s.commitBare_frame k b w' data gap
    rw [eq]; rfl
  | configure a rate _ checked => rw [s.cmdConfigure_frame a rate checked]; rfl
  | tearDown => exact s.tearDown_pending
  | line a l => exact s.setDram_pending _
  | start target cond => simp [State.startRun]
  | engineReset => exact s.engineReset_pending
  | _ => rfl

theorem Events.pending_eq {s t : State} (es : Events s t) : t.pending = s.pending :=
  es.keep (P := fun u => u.pending = s.pending) (fun _ _ e same => e.pending_eq.trans same) rfl

/-- No command stops the part (log 26). -/
theorem exec_next (c : Instr) (s : State) : ∃ t, exec c s = .next t := by
  cases c with
  | readCompletion =>
    simp only [exec, execReadCompletion]
    split
    · exact ⟨_, rfl⟩
    · split <;> exact ⟨_, rfl⟩
  | resetProper pins =>
    simp only [exec, execResetProper]
    split
    · exact ⟨_, rfl⟩
    · split <;> exact ⟨_, rfl⟩
  | resetPin edge => cases edge <;> exact ⟨_, rfl⟩
  | calibrationAttempt passed count => simp only [exec, execCalibrationAttempt]; split <;> exact ⟨_, rfl⟩
  | refEdge m => simp only [exec, execRefEdge]; split <;> exact ⟨_, rfl⟩
  | refLost m => simp only [exec, execRefLost]; split <;> exact ⟨_, rfl⟩
  | generatedTick m => simp only [exec, execGeneratedTick]; split <;> exact ⟨_, rfl⟩
  | slotTimeout => simp only [exec, execSlotTimeout]; split <;> exact ⟨_, rfl⟩
  | stallExpired => simp only [exec, execStallExpired]; split <;> exact ⟨_, rfl⟩
  | freezeLimit =>
    simp only [exec, execFreezeLimit]
    split
    · exact ⟨_, rfl⟩
    · split <;> exact ⟨_, rfl⟩
  | blinkPhase => simp only [exec, execBlinkPhase]; split <;> exact ⟨_, rfl⟩
  | consoleSample line high => simp only [exec, execConsoleSample]; split <;> exact ⟨_, rfl⟩
  | _ => exact ⟨_, rfl⟩

/-- Settles O2: every arm answers a next state, and no event touches the commands that wait. -/
theorem commandsAnswerAndKeepQueue : Obligations.CommandsAnswerAndKeepQueue := by
  intro c s
  obtain ⟨t, done⟩ := exec_next c s
  exact ⟨t, done, (exec_events done).pending_eq⟩

/-! ### The in-flight read list (R22) -/

theorem RunEvent.link_eq {s t : State} (e : RunEvent s t) : t.link = s.link := by
  cases e <;> rfl

/-- An event changes the in-flight list only by taking a read, completing one, or emptying it. -/
theorem Event.inFlight_cases {s t : State} (e : Event s t) :
    t.link.inFlight = s.link.inFlight ∨ t.link.inFlight = [] ∨
    (∃ x, s.link.inFlight = x :: t.link.inFlight) ∨
    (s.link.inFlight.length < 64 ∧ ∃ x, t.link.inFlight = s.link.inFlight ++ [x] ∧
      ∀ tag, x.acceptedTag = some tag → s.tagInUse tag = false) := by
  cases e with
  | run e => rw [e.link_eq]; exact .inl rfl
  | commit k b w w' first data gap =>
    obtain ⟨p, i, x, h, eq⟩ := s.commitBare_frame k b w' data gap
    rw [eq]; exact .inl rfl
  | configure a rate _ checked => rw [s.cmdConfigure_frame a rate checked]; exact .inl rfl
  | tearDown => rw [s.tearDown_link]; exact .inl rfl
  | reset => exact .inr (.inl rfl)
  | assertReset => exact .inr (.inl rfl)
  | complete e rest sent oldest => exact .inr (.inr (.inl ⟨e, oldest⟩))
  | refuseRead tag room => exact .inr (.inr (.inr ⟨room, _, rfl, by simp [InFlight.acceptedTag]⟩))
  | acceptRead addrs tag results room new =>
    refine .inr (.inr (.inr ⟨room, _, rfl, ?_⟩))
    rintro _ ⟨⟩
    exact new
  | _ => exact .inl rfl

theorem tagInUse_eq_false_iff (s : State) (tag : BitVec 6) :
    s.tagInUse tag = false ↔ tag ∉ s.link.inFlight.filterMap InFlight.acceptedTag := by
  simp [State.tagInUse, List.mem_filterMap]

theorem Event.keeps_inFlightSound {s t : State} (e : Event s t) (sound : InFlightSound s) : InFlightSound t := by
  obtain ⟨room, nodup⟩ := sound
  unfold InFlightSound
  rcases e.inFlight_cases with same | none | ⟨x, oldest⟩ | ⟨short, x, pushed, new⟩
  · rw [same]; exact ⟨room, nodup⟩
  · rw [none]; exact ⟨Nat.zero_le _, List.nodup_nil⟩
  · rw [oldest] at room nodup
    exact ⟨(Nat.le_succ _).trans room,
      nodup.sublist ((List.sublist_cons_self x _).filterMap InFlight.acceptedTag)⟩
  · rw [pushed, List.length_append, List.filterMap_append, List.nodup_append]
    refine ⟨short, nodup, ?_, ?_⟩
    · cases h : x.acceptedTag <;> simp [h]
    · intro tag old tag' mem
      have isTag : x.acceptedTag = some tag' := by simpa using mem
      exact fun same => (tagInUse_eq_false_iff s tag').1 (new tag' isTag) (same ▸ old)

/-! ### The edit log (R154) -/

theorem RunEvent.log_cases {s t : State} (e : RunEvent s t) :
    (t.readout.log = s.readout.log ∧ t.readout.nextNumber = s.readout.nextNumber) ∨ ∃ x, t = s.logEdit x := by
  cases e with
  | log x => exact .inr ⟨x, rfl⟩
  | _ => exact .inl ⟨rfl, rfl⟩

theorem Event.log_cases {s t : State} (e : Event s t) :
    (t.readout.log = s.readout.log ∧ t.readout.nextNumber = s.readout.nextNumber) ∨
    (∃ x, t = s.logEdit x) ∨ t.readout.log = [] := by
  cases e with
  | run e => exact e.log_cases.imp id .inl
  | commit k b w w' first data gap =>
    obtain ⟨p, i, x, h, eq⟩ := s.commitBare_frame k b w' data gap
    rw [eq]; exact .inl ⟨rfl, rfl⟩
  | configure a rate _ checked => rw [s.cmdConfigure_frame a rate checked]; exact .inl ⟨rfl, rfl⟩
  | tearDown => rw [s.tearDown_readout]; exact .inl ⟨rfl, rfl⟩
  | reset => exact .inr (.inr rfl)
  | engineReset => exact .inr (.inr rfl)
  | _ => exact .inl ⟨rfl, rfl⟩

/-- A log whose running numbers are consecutive up to the next one keeps them so with a new record. -/
theorem logEdit_keeps_logSound {s : State} (sound : LogSound s) (x : LogEntry) : LogSound (s.logEdit x) := by
  obtain ⟨room, numbers⟩ := sound
  have next : (s.logEdit x).readout.nextNumber = s.readout.nextNumber + 1 := rfl
  have log : (s.logEdit x).readout.log =
      (s.readout.log ++ [s.logRecord x]).drop (s.readout.log.length - 31) := rfl
  have len : (s.logEdit x).readout.log.length = min 32 (s.readout.log.length + 1) := by
    rw [log]; simp; omega
  refine ⟨len ▸ min_le_left _ _, fun i hi => ?_⟩
  have hi' : i < min 32 (s.readout.log.length + 1) := len ▸ hi
  have shift : s.readout.nextNumber + 1 - BitVec.ofNat 16 ((s.logEdit x).readout.log.length - i) =
      s.readout.nextNumber - BitVec.ofNat 16 (min 32 (s.readout.log.length + 1) - i - 1) := by
    have split : (s.logEdit x).readout.log.length - i = min 32 (s.readout.log.length + 1) - i - 1 + 1 := by
      rw [len]; omega
    rw [split, BitVec.ofNat_add]
    bv_omega
  unfold numberBefore
  rw [next, shift]
  simp only [log, List.getElem_drop]
  by_cases last : s.readout.log.length - 31 + i < s.readout.log.length
  · rw [List.getElem_append_left last, numbers _ last, numberBefore]
    congr 2
    omega
  · have zero : min 32 (s.readout.log.length + 1) - i - 1 = 0 := by omega
    rw [List.getElem_append_right (not_lt.1 last), zero]
    simp [State.logRecord]

theorem Event.keeps_logSound {s t : State} (e : Event s t) (sound : LogSound s) : LogSound t := by
  rcases e.log_cases with ⟨log, next⟩ | ⟨x, rfl⟩ | none
  · unfold LogSound numberBefore
    rw [next]
    simp only [log]
    exact sound
  · exact logEdit_keeps_logSound sound x
  · unfold LogSound
    simp [none]

/-- Settles O58: by the ways in which an event can change the in-flight list and the edit log. -/
theorem readListAndLogKept : Obligations.ReadListAndLogKept :=
  kept_of_events (fun _ _ sound => sound) fun _ _ e sound =>
    ⟨e.keeps_inFlightSound sound.1, e.keeps_logSound sound.2⟩

/-! ### The size of the pool -/

theorem Pool.freeBlocks_tiles (p : Pool) (is : List Nat) : (p.freeBlocks is).tiles = p.tiles := by
  obtain ⟨_, _, tiles, _, _⟩ := freeBlocks_lists is p
  exact tiles

/-- What the size of the store region rests on (R1). -/
def Pool.dims (p : Pool) : Nat × Nat := (p.tiles, p.blocks)

@[simp] theorem Pool.freeBlocks_dims (p : Pool) (is : List Nat) : (p.freeBlocks is).dims = p.dims := by
  rw [Pool.dims, p.freeBlocks_tiles, p.freeBlocks_blocks]; rfl

@[simp] theorem Pool.leaveBlock_dims (p : Pool) (i : Nat) : (p.leaveBlock i).dims = p.dims := by
  unfold Pool.leaveBlock
  split <;> rfl

@[simp] theorem Pool.completeRead_dims (p : Pool) (i : Nat) : (p.completeRead i).dims = p.dims := by
  unfold Pool.completeRead
  split
  next => rfl
  next => split <;> rfl
  all_goals rfl

@[simp] theorem Pool.completeReads_dims (p : Pool) (is : List Nat) : (p.completeReads is).dims = p.dims := by
  induction is generalizing p with
  | nil => rfl
  | cons i rest ih => exact (ih _).trans (p.completeRead_dims i)

@[simp] theorem Pool.takeReads_dims (p : Pool) (is : List Nat) : (p.takeReads is).dims = p.dims := by
  induction is generalizing p with
  | nil => rfl
  | cons i rest ih => exact (ih (p.takeRead i)).trans rfl

theorem allocate_dims {p q : Pool} {i : Nat} (given : p.allocate = some (i, q)) : q.dims = p.dims := by
  obtain ⟨-, eq⟩ := allocate_eq_some given
  rw [eq]; rfl

theorem State.leaveSlot_dims (s : State) (slot : EgressSlot) : (s.leaveSlot slot).pool.dims = s.pool.dims := by
  unfold State.leaveSlot
  split
  next => rfl
  next b _ => exact s.pool.leaveBlock_dims b.block

theorem State.tearDown_dims (s : State) : s.tearDown.pool.dims = s.pool.dims := by
  have left : s.tearDown.pool = s.clearQueue.endSlots.leaveBoth.pool := by simp [State.tearDown]
  rw [left, State.leaveBoth, State.leaveSlot_dims, State.leaveSlot_dims]
  exact (Pool.freeBlocks_dims _ _).trans (Pool.freeBlocks_dims _ _)

theorem State.cutForGuard_dims (s : State) (q : Seq) : (s.cutForGuard q).pool.dims = s.pool.dims := by
  unfold State.cutForGuard
  split
  next => rfl
  next => exact Pool.freeBlocks_dims _ _

theorem RunEvent.dims_eq {s t : State} (e : RunEvent s t) : t.pool.dims = s.pool.dims := by
  cases e with
  | leave slot b => exact s.pool.leaveBlock_dims b.block
  | cut removed => exact Pool.freeBlocks_dims _ _
  | cutHold => exact Pool.freeBlocks_dims _ _
  | _ => rfl

/-- Only a reset and CONFIGURE change the size of the pool, the windows or the straps. -/
theorem Event.dims_cases {s t : State} (e : Event s t) :
    (∃ straps, t = s.resetBlocks straps) ∨
    (∃ a rate, s.configureRate a = some rate ∧ t = (s.cmdConfigure a).1) ∨
    (t.pool.dims = s.pool.dims ∧ t.windows = s.windows ∧ t.straps = s.straps) := by
  cases e with
  | run e => exact .inr (.inr ⟨e.dims_eq, by cases e <;> rfl, by cases e <;> rfl⟩)
  | reset straps => exact .inl ⟨straps, rfl⟩
  | configure a rate _ checked => exact .inr (.inl ⟨a, rate, checked, rfl⟩)
  | acceptRead addrs => exact .inr (.inr ⟨Pool.takeReads_dims _ _, rfl, rfl⟩)
  | complete e => exact .inr (.inr ⟨Pool.completeReads_dims _ _, rfl, rfl⟩)
  | bindSlot k i p w _ _ given => exact .inr (.inr ⟨allocate_dims given, rfl, rfl⟩)
  | commit k b w w' first data gap =>
    obtain ⟨p, i, x, h, eq⟩ := s.commitBare_frame k b w' data gap
    refine .inr (.inr ⟨State.cutForGuard_dims _ _, ?_, ?_⟩) <;> (rw [eq]; rfl)
  | tearDown => exact .inr (.inr ⟨s.tearDown_dims, s.tearDown_windows, s.tearDown_straps⟩)
  | line a l => exact .inr (.inr ⟨congrArg Pool.dims (s.setDram_pool _), s.setDram_windows _, s.setDram_straps _⟩)
  | start target cond =>
    refine .inr (.inr ?_)
    simp [State.startRun, Pool.rebuild, Pool.fresh, Pool.dims]
  | engineReset =>
    exact .inr (.inr ⟨congrArg Pool.dims s.engineReset_pool, s.engineReset_windows, s.engineReset_straps⟩)
  | _ => exact .inr (.inr ⟨rfl, rfl, rfl⟩)

/-! ### The windows (R31) and DRAM (log 2) -/

theorem windowsSound_congr {s t : State} (dims : t.pool.dims = s.pool.dims) (windows : t.windows = s.windows)
    (straps : t.straps = s.straps) (sound : WindowsSound s) : WindowsSound t := by
  obtain ⟨tiles, blocks⟩ := Prod.mk.inj dims
  have inForce : windowsInForce t = windowsInForce s := by simp only [windowsInForce, windows, tiles]
  have top : t.hostTop = s.hostTop := by simp only [State.hostTop, straps, tiles, blocks]
  unfold WindowsSound
  rw [windows, inForce, top]
  exact sound

theorem windowsSound_resetBlocks (s : State) (straps : Straps) : WindowsSound (s.resetBlocks straps) := by
  have top : 12288 ≤ (s.resetBlocks straps).hostTop := by
    change 12288 ≤ hostTopOf straps.mem defaultTiles (defaultBlocks straps.mem)
    generalize straps.mem = mem
    revert mem
    decide
  have default : (s.resetBlocks straps).windows = Windows.default := rfl
  have windows : windowsInForce (s.resetBlocks straps) = [(4096, 4096), (8192, 4096)] := rfl
  unfold WindowsSound
  rw [default, windows]
  refine ⟨by decide, by decide, by decide, by decide, by decide, ?_⟩
  simpa using ⟨by omega, top⟩

theorem allApart_iff (ws : List (Nat × Nat)) :
    allApart ws = true ↔ ws.Pairwise (fun v w => v.1 + v.2 ≤ w.1 ∨ w.1 + w.2 ≤ v.1) := by
  induction ws with
  | nil => simp [allApart]
  | cons w rest ih => simp [allApart, ih, windowsApart, List.all_eq_true]

/-- The window decoder's part of the CONFIGURE check (R31). -/
theorem configWindowsOk_iff (a : ConfigureArgs) (top : Nat) : configWindowsOk a top = true ↔
    a.ingest.toNat % 1048576 = 0 ∧ a.egress.toNat % 1048576 = 0 ∧ a.control.toNat % 4096 = 0 ∧
    a.readout.toNat % 4096 = 0 ∧
    (configWindows a).Pairwise (fun v w => v.1 + v.2 ≤ w.1 ∨ w.1 + w.2 ≤ v.1) ∧
    ∀ w ∈ configWindows a, w.1 + w.2 ≤ top := by
  rw [← allApart_iff]
  simp only [configWindowsOk, Config.mib, pageBytes, Bool.and_eq_true, beq_iff_eq, List.all_eq_true,
    decide_eq_true_iff, and_assoc]

/-- Every check of CONFIGURE (R144). -/
theorem configureRate_eq_some {s : State} {a : ConfigureArgs} {rate : RateCode} :
    s.configureRate a = some rate ↔
    configTilesOk a s.store.rate = true ∧ configPoolOk a s.straps.mem = true ∧
    configWindowsOk a (hostTopOf s.straps.mem a.tiles.toNat a.blocks.toNat) = true ∧ a.linkCheck.toNat ≤ 1 ∧
    RateCode.ofCode a.rateCode = some rate := by
  unfold State.configureRate
  split
  next ok => simp only [Bool.and_eq_true, decide_eq_true_iff] at ok; tauto
  next bad =>
    simp only [Bool.and_eq_true, decide_eq_true_iff] at bad
    simp only [reduceCtorEq, false_iff]
    tauto

theorem Pool.configured_dims (p : Pool) (tiles blocks : Nat) : (p.configured tiles blocks).dims = (tiles, blocks) := by
  unfold Pool.configured
  split
  next same => rw [Pool.dims, same.1, same.2]
  next => rfl

theorem windowsSound_cmdConfigure {s : State} {a : ConfigureArgs} {rate : RateCode}
    (checked : s.configureRate a = some rate) : WindowsSound (s.cmdConfigure a).1 := by
  obtain ⟨-, -, windows, -, -⟩ := configureRate_eq_some.1 checked
  obtain ⟨ingest, egress, control, readout, apart, below⟩ := (configWindowsOk_iff a _).1 windows
  obtain ⟨tiles, blocks⟩ := Prod.mk.inj (s.pool.configured_dims a.tiles.toNat a.blocks.toNat)
  have inForce : windowsInForce (s.cmdConfigure a).1 = configWindows a := by
    rw [s.cmdConfigure_frame a rate checked]
    simp [windowsInForce, configWindows, tiles, Config.tileBytes, pageBytes]
  have top : (s.cmdConfigure a).1.hostTop = hostTopOf s.straps.mem a.tiles.toNat a.blocks.toNat := by
    rw [s.cmdConfigure_frame a rate checked]
    simp [State.hostTop, tiles, blocks]
  unfold WindowsSound
  rw [inForce, top, s.cmdConfigure_frame a rate checked]
  exact ⟨ingest, egress, control, readout, apart, below⟩

theorem Event.keeps_windowsSound {s t : State} (e : Event s t) (sound : WindowsSound s) : WindowsSound t := by
  rcases e.dims_cases with ⟨straps, rfl⟩ | ⟨a, rate, checked, rfl⟩ | ⟨dims, windows, straps⟩
  · exact windowsSound_resetBlocks s straps
  · exact windowsSound_cmdConfigure checked
  · exact windowsSound_congr dims windows straps sound

theorem Event.keeps_wf {s t : State} (e : Event s t) (wf : Memory.wf s.dram) : Memory.wf t.dram := by
  cases e with
  | run e =>
    have : t.dram = s.dram := by cases e <;> rfl
    rw [this]; exact wf
  | line a l => rw [State.setDram_dram]; exact writeLine_wf wf
  | commit k b w w' first data gap =>
    obtain ⟨p, i, x, h, eq⟩ := s.commitBare_frame k b w' data gap
    rw [eq]; exact wf
  | configure a rate _ checked => rw [s.cmdConfigure_frame a rate checked]; exact wf
  | tearDown => rw [s.tearDown_dram]; exact wf
  | start target cond => simpa [State.startRun] using wf
  | engineReset => rw [s.engineReset_dram]; exact wf
  | _ => exact wf

/-- Settles O59: a reset and CONFIGURE re-make sound windows, and a line write keeps DRAM's canonical form. -/
theorem windowsAndDramKept : Obligations.WindowsAndDramKept :=
  kept_of_events (fun _ _ sound => sound) fun _ _ e sound =>
    ⟨e.keeps_windowsSound sound.1, e.keeps_wf sound.2⟩

end Sys2Proof.Machine
end

