-- ==== Sys2Proof/Proofs/Limits.lean ====
section
/-! The limits of settings, targets, credit and counts, and the air condition OFF exactly outside RUNNING. -/

namespace Sys2Proof.Machine

open Sys2Proof Sys2Proof.Safety

/-- What the limits and the air condition rest on. -/
structure SameLimits (s t : State) : Prop where
  dims : t.pool.dims = s.pool.dims := by rfl
  staged : t.monitor.staged = s.monitor.staged := by rfl
  inForce : t.monitor.inForce = s.monitor.inForce := by rfl
  run : t.monitor.run = s.monitor.run := by rfl
  results : t.monitor.results = s.monitor.results := by rfl
  credit : t.trim.credit = s.trim.credit := by rfl
  freeze : t.air.freezeCount = s.air.freezeCount := by rfl
  blink : t.console.blinkCount = s.console.blinkCount := by rfl
  condition : t.air.condition = s.air.condition := by rfl

theorem maxTarget_eq_of_dims {p q : Pool} (dims : p.dims = q.dims) : p.maxTarget = q.maxTarget :=
  congrArg (· - 8) (congrArg Prod.snd dims)

theorem SameLimits.limits {s t : State} (same : SameLimits s t) (held : LimitsHeld s) : LimitsHeld t := by
  obtain ⟨dims, staged, inForce, -, results, credit, freeze, blink, -⟩ := same
  unfold LimitsHeld TargetsLimited CreditLimited
  rw [staged, inForce, maxTarget_eq_of_dims dims, credit, freeze, blink, results]
  exact held

theorem SameLimits.off {s t : State} (same : SameLimits s t) (off : OffOutsideRun s) : OffOutsideRun t := by
  unfold OffOutsideRun
  rw [same.condition, same.run]
  exact off

theorem SameLimits.both {s t : State} (same : SameLimits s t) (held : LimitsHeld s ∧ OffOutsideRun s) :
    LimitsHeld t ∧ OffOutsideRun t := ⟨same.limits held.1, same.off held.2⟩

theorem clampTo_bounds {lo hi : Nat} (le : lo ≤ hi) (v : Nat) : lo ≤ clampTo lo hi v ∧ clampTo lo hi v ≤ hi := by
  unfold clampTo
  omega

theorem settingsInRange_change {c : Settings} (inRange : SettingsInRange c) (a : ControlArgs) :
    SettingsInRange (c.change a) := by
  obtain ⟨band, buildRate, catchRate, silence, dumpLength, dumpFloor, stallLimit, freezeLimit⟩ := inRange
  have named : ∀ {P : Nat → Prop} (i : Nat) {new old : Nat}, P new → P old →
      P (if namesSetting a i then new else old) := by
    intro P i new old hn ho
    split
    · exact hn
    · exact ho
  refine ⟨named (P := (· ≤ 15)) 0 (clampTo_bounds (by decide) _).2 band,
    named (P := fun v => 1 ≤ v ∧ v ≤ 500) 2 (clampTo_bounds (by decide) _) buildRate,
    named (P := fun v => 1 ≤ v ∧ v ≤ 500) 3 (clampTo_bounds (by decide) _) catchRate,
    named (P := (· ≤ 255)) 4 (Nat.le_of_lt_succ a.silence.isLt) silence,
    named (P := fun v => 1 ≤ v ∧ v ≤ 1024) 6 (clampTo_bounds (by decide) _) dumpLength,
    named (P := (· ≤ 64)) 7 (clampTo_bounds (by decide) _).2 dumpFloor,
    named (P := fun v => 1 ≤ v ∧ v ≤ 3000) 9 (clampTo_bounds (by decide) _) stallLimit,
    named (P := fun v => 1 ≤ v ∧ v ≤ 1000) 11 (clampTo_bounds (by decide) _) freezeLimit⟩

theorem settingsInRange_default (straps : Straps) (p : Pool) : SettingsInRange (Settings.default straps p) := by
  unfold SettingsInRange Settings.default
  simp

theorem RunEvent.keeps_limits {s t : State} (e : RunEvent s t) (held : LimitsHeld s ∧ OffOutsideRun s) :
    LimitsHeld t ∧ OffOutsideRun t := by
  obtain ⟨⟨targets, stagedOk, inForceOk, credit, freeze, blink, results⟩, off⟩ := held
  cases e with
  | console c le => exact ⟨⟨targets, stagedOk, inForceOk, credit, freeze, le.trans (max_le le_rfl blink), results⟩, off⟩
  | latch => exact ⟨⟨⟨targets.1, targets.1⟩, stagedOk, stagedOk, credit, freeze, blink, results⟩, off⟩
  | trim x le => exact ⟨⟨targets, stagedOk, inForceOk, le.trans (max_le le_rfl credit), freeze, blink, results⟩, off⟩
  | air a run slotA slotB on le =>
    have limit : s.monitor.inForce.freezeLimit ≤ 1000 := inForceOk.2.2.2.2.2.2.2.2
    refine ⟨⟨targets, stagedOk, inForceOk, credit, le.trans (max_le freeze limit), blink, results⟩, ?_⟩
    rcases on with on | same
    · exact ⟨fun isOff => absurd isOff on, fun notRun => absurd run notRun⟩
    · unfold OffOutsideRun
      rw [State.setAir_air, same]
      exact off
  | bind slot e q b a run head free unbound key slotA slotB on zero =>
    have condition : (a.setBinding slot (some b)).condition ≠ .off := by simpa using on
    have freeze : (a.setBinding slot (some b)).freezeCount ≤ 1000 := by simp [zero]
    exact ⟨⟨targets, stagedOk, inForceOk, credit, freeze, blink, results⟩,
      ⟨fun isOff => absurd isOff condition, fun notRun => absurd run notRun⟩⟩
  | leave slot b run bound =>
    exact SameLimits.both (s := s)
      { dims := s.pool.leaveBlock_dims b.block, freeze := by simp, condition := by simp }
      ⟨⟨targets, stagedOk, inForceOk, credit, freeze, blink, results⟩, off⟩
  | cut removed kept q =>
    exact SameLimits.both (s := s) { dims := Pool.freeBlocks_dims _ _ }
      ⟨⟨targets, stagedOk, inForceOk, credit, freeze, blink, results⟩, off⟩
  | cutHold h splice =>
    exact SameLimits.both (s := s) { dims := Pool.freeBlocks_dims _ _ }
      ⟨⟨targets, stagedOk, inForceOk, credit, freeze, blink, results⟩, off⟩
  | _ => exact SameLimits.both (s := s) {} ⟨⟨targets, stagedOk, inForceOk, credit, freeze, blink, results⟩, off⟩

theorem Event.keeps_limits {s t : State} (e : Event s t) (held : LimitsHeld s ∧ OffOutsideRun s) :
    LimitsHeld t ∧ OffOutsideRun t := by
  have dims := e.dims_cases
  cases e with
  | run e => exact e.keeps_limits held
  | reset straps =>
    have default := settingsInRange_default straps (Pool.default straps.mem)
    have target : (Settings.default straps (Pool.default straps.mem)).target ≤ (Pool.default straps.mem).maxTarget :=
      min_le_right _ _
    exact ⟨⟨⟨target, target⟩, default, default, Nat.zero_le _, Nat.zero_le _, Nat.zero_le _, Nat.zero_le _⟩,
      ⟨fun _ => RunState.noConfusion, fun _ => rfl⟩⟩
  | acceptRead addrs => exact SameLimits.both (s := s) { dims := Pool.takeReads_dims _ _ } held
  | complete e => exact SameLimits.both (s := s) { dims := Pool.completeReads_dims _ _ } held
  | bindSlot k i p w _ _ given => exact SameLimits.both (s := s) { dims := allocate_dims given } held
  | line a l =>
    refine SameLimits.both (s := s) ⟨?_, ?_, ?_, ?_, ?_, ?_, ?_, ?_, ?_⟩ held <;> simp
  | drained run none =>
    obtain ⟨⟨targets, stagedOk, inForceOk, credit, freeze, blink, results⟩, off⟩ := held
    refine ⟨⟨targets, stagedOk, inForceOk, credit, freeze, blink, results⟩, ⟨fun _ => RunState.noConfusion, fun _ => ?_⟩⟩
    exact off.2 (by simp [run])
  | commit k b w w' first data gap =>
    have dims : (s.commitBare k b w' data gap).pool.dims = s.pool.dims := State.cutForGuard_dims _ _
    obtain ⟨p, i, x, h, eq⟩ := s.commitBare_frame k b w' data gap
    rw [eq] at dims ⊢
    exact SameLimits.both (s := s) { dims := dims } held
  | configure a rate run checked =>
    obtain ⟨⟨-, stagedOk, inForceOk, credit, freeze, blink, results⟩, off⟩ := held
    rw [s.cmdConfigure_frame a rate checked]
    exact ⟨⟨⟨min_le_right _ _, min_le_right _ _⟩, stagedOk, inForceOk, credit, freeze, blink, results⟩, off⟩
  | start target cond run most on =>
    obtain ⟨⟨-, stagedOk, -, -, -, blink, results⟩, -⟩ := held
    have credit : (Trim.start.evaluate 0 target s.monitor.staged.band).credit ≤ 2000 :=
      (Trim.evaluate_credit_le _ _ _ _).trans (Nat.zero_le _)
    unfold LimitsHeld TargetsLimited CreditLimited OffOutsideRun
    rw [State.startRun_monitor, State.startRun_trim, State.startRun_air, State.startRun_console, State.startRun_pool]
    exact ⟨⟨⟨most, most⟩, stagedOk, stagedOk, credit, Nat.zero_le _, blink, results⟩,
      ⟨fun isOff => absurd isOff on, fun notRun => absurd rfl notRun⟩⟩
  | tearDown run =>
    obtain ⟨⟨targets, stagedOk, inForceOk, -, -, blink, results⟩, -⟩ := held
    have monitor : s.tearDown.monitor = { s.monitor with run := .stopping } := by simp [State.tearDown]
    have same : s.tearDown.pool.maxTarget = s.pool.maxTarget := maxTarget_eq_of_dims s.tearDown_dims
    unfold LimitsHeld TargetsLimited CreditLimited OffOutsideRun
    rw [monitor, same, s.tearDown_console]
    exact ⟨⟨targets, stagedOk, inForceOk, Nat.zero_le _, Nat.zero_le _, blink, results⟩,
      ⟨fun _ => RunState.noConfusion, fun _ => rfl⟩⟩
  | setTarget target most =>
    obtain ⟨⟨targets, stagedOk, rest⟩, off⟩ := held
    exact ⟨⟨⟨most, targets.2⟩, stagedOk, rest⟩, off⟩
  | setControl a =>
    obtain ⟨⟨targets, stagedOk, rest⟩, off⟩ := held
    exact ⟨⟨targets, settingsInRange_change stagedOk a, rest⟩, off⟩
  | engineReset run =>
    obtain ⟨⟨-, -, -, -, -, blink, results⟩, -⟩ := held
    have default := settingsInRange_default s.straps s.pool
    have target : (Settings.default s.straps s.pool).target ≤ s.pool.maxTarget := min_le_right _ _
    unfold LimitsHeld TargetsLimited CreditLimited OffOutsideRun
    rw [State.engineReset_monitor, State.engineReset_trim, State.engineReset_air, State.engineReset_console,
      State.engineReset_pool]
    exact ⟨⟨⟨target, target⟩, default, default, Nat.zero_le _, Nat.zero_le _, blink, results⟩,
      ⟨fun _ => run, fun _ => rfl⟩⟩
  | result num code r =>
    obtain ⟨⟨targets, stagedOk, inForceOk, credit, freeze, blink, -⟩, off⟩ := held
    exact ⟨⟨targets, stagedOk, inForceOk, credit, freeze, blink, List.length_take_le _ _⟩, off⟩
  | _ => exact SameLimits.both (s := s) {} held

/-- Settles O57: every event that sets a setting clamps it, and only START, STOP and the resets cross RUNNING. -/
theorem limitsKept : Obligations.LimitsKept :=
  kept_of_events (fun _ _ held => held) fun _ _ e held => e.keeps_limits held

end Sys2Proof.Machine
end

