-- ==== Sys2Proof/Proofs/QueueOrder.lean ====
section
/-! The order of the program queue (R61) and the order guard (R65). -/

namespace Sys2Proof.Machine

open Sys2Proof Sys2Proof.Safety

/-! ### Ascending lists -/

/-- Distances from an earlier origin differ as the numbers themselves do. -/
theorem offsetFrom_sub {o x q : Seq} (le : offsetFrom o x ≤ offsetFrom o q) :
    offsetFrom x q = offsetFrom o q - offsetFrom o x := by
  unfold offsetFrom at *
  bv_omega

theorem offsetFrom_self (o : Seq) : offsetFrom o o = 0 := by
  unfold offsetFrom
  rw [BitVec.sub_self]; rfl

/-- A list is ascending exactly when some origin orders it within half the range of sequence numbers. -/
theorem ascending_iff (es : List Entry) : Ascending es ↔ ∃ o : Seq,
    es.Pairwise (fun e f => offsetFrom o e.seq < offsetFrom o f.seq) ∧
    ∀ e ∈ es, offsetFrom o e.seq < 2147483648 := by
  cases es with
  | nil => simp [Ascending]
  | cons x rest =>
    constructor
    · rintro ⟨near, sorted⟩
      refine ⟨x.seq, List.pairwise_cons.2 ⟨fun e he => ?_, sorted⟩, fun e he => ?_⟩
      · rw [offsetFrom_self]; exact (near e he).1
      · rcases List.mem_cons.1 he with rfl | he
        · rw [offsetFrom_self]; decide
        · exact (near e he).2
    · rintro ⟨o, sorted, near⟩
      obtain ⟨first, sorted⟩ := List.pairwise_cons.1 sorted
      have shift : ∀ e ∈ rest, offsetFrom x.seq e.seq = offsetFrom o e.seq - offsetFrom o x.seq :=
        fun e he => offsetFrom_sub (first e he).le
      refine ⟨fun e he => ?_, sorted.imp_of_mem fun {e f} he hf lt => ?_⟩
      · have lt := first e he
        have lt' := near e (List.mem_cons_of_mem _ he)
        rw [shift e he]
        omega
      · have le := first e he
        rw [shift e he, shift f hf]
        omega

theorem ascending_sublist {es fs : List Entry} (sub : fs.Sublist es) (h : Ascending es) : Ascending fs := by
  obtain ⟨o, sorted, near⟩ := (ascending_iff es).1 h
  exact (ascending_iff fs).2 ⟨o, sorted.sublist sub, fun e he => near e (sub.subset he)⟩

/-- Only the sequence numbers of the entries matter. -/
theorem ascending_of_seqs {es fs : List Entry} (same : fs.map (·.seq) = es.map (·.seq)) (h : Ascending es) :
    Ascending fs := by
  obtain ⟨o, sorted, near⟩ := (ascending_iff es).1 h
  have sorted' : (fs.map (·.seq)).Pairwise (fun p q => offsetFrom o p < offsetFrom o q) :=
    same ▸ List.pairwise_map.2 sorted
  refine (ascending_iff fs).2 ⟨o, (List.pairwise_map (f := Entry.seq)).1 sorted', fun e he => ?_⟩
  have mem : e.seq ∈ es.map (·.seq) := same ▸ List.mem_map_of_mem he
  obtain ⟨f, hf, eq⟩ := List.mem_map.1 mem
  exact eq ▸ near f hf

theorem markFirst_seqs (es : List Entry) : (markFirst es).map (·.seq) = es.map (·.seq) := by
  cases es <;> rfl

theorem untag_seqs (h : Byte) (es : List Entry) : (es.map (Entry.untag h)).map (·.seq) = es.map (·.seq) := by
  rw [List.map_map]
  refine List.map_congr_left fun e _ => ?_
  simp only [Function.comp, Entry.untag]
  split <;> rfl

/-! ### The order guard (R65) -/

theorem guardFits_iff (q : Seq) (es : List Entry) : guardFits q es = true ↔ es = [] ∨
    ∃ o n, es.head? = some o ∧ es.getLast? = some n ∧
      1 ≤ (q - o.seq).toNat ∧ (q - o.seq).toNat < 2147483648 ∧ (n.seq - o.seq).toNat < (q - o.seq).toNat := by
  cases es with
  | nil => simp [guardFits]
  | cons o rest => simp [guardFits, Seq.after, List.getLast?_cons, and_assoc]

theorem guardRemoved_append_guardKept (q : Seq) (es : List Entry) :
    guardRemoved q es ++ guardKept q es = es := by
  induction es with
  | nil => rfl
  | cons o rest ih =>
    rw [guardRemoved, guardKept]
    split
    next => rfl
    next => rw [List.cons_append, ih]

theorem guardFits_guardKept (q : Seq) (es : List Entry) : guardFits q (guardKept q es) = true := by
  induction es with
  | nil => rfl
  | cons o rest ih =>
    rw [guardKept]
    split
    next fits => exact fits
    next => exact ih

theorem guardRemoved_of_fits {q : Seq} {es : List Entry} (fits : guardFits q es = true) : guardRemoved q es = [] := by
  cases es with
  | nil => rfl
  | cons o rest => rw [guardRemoved, if_pos fits]

theorem guardKept_of_none_removed {q : Seq} {es : List Entry} (none : guardRemoved q es = []) :
    guardKept q es = es := by
  have parts := guardRemoved_append_guardKept q es
  rwa [none] at parts

/-- As few entries leave as make the frame fit: it fits behind no longer tail of the list. -/
theorem not_guardFits_of_removed (q : Seq) (es pre suf : List Entry) (x : Entry)
    (removed : guardRemoved q es = pre ++ x :: suf) : guardFits q (x :: suf ++ guardKept q es) = false := by
  induction es generalizing pre with
  | nil => simp [guardRemoved] at removed
  | cons o rest ih =>
    by_cases fits : guardFits q (o :: rest) = true
    · rw [guardRemoved_of_fits fits] at removed
      simp at removed
    · rw [guardRemoved, if_neg fits] at removed
      rw [guardKept, if_neg fits]
      cases pre with
      | nil =>
        obtain ⟨rfl, rfl⟩ := List.cons.inj removed
        rw [List.cons_append, guardRemoved_append_guardKept]
        simpa using fits
      | cons p pre => exact ih pre (List.cons.inj removed).2

/-- A frame that fits keeps the list ascending (R61, R65). -/
theorem ascending_append_of_fits {es : List Entry} {e : Entry} (fits : guardFits e.seq es = true)
    (h : Ascending es) : Ascending (es ++ [e]) := by
  cases es with
  | nil => simp [Ascending]
  | cons o rest =>
    obtain ⟨near, sorted⟩ := h
    obtain ⟨o', n, ho, hn, after, before, beyond⟩ := ((guardFits_iff _ _).1 fits).resolve_left (by simp)
    cases Option.some.inj ho
    have newest : ∀ f ∈ rest, offsetFrom o.seq f.seq ≤ offsetFrom o.seq n.seq := by
      intro f hf
      obtain ⟨init, last, parts⟩ : ∃ init last, rest = init ++ [last] :=
        (List.eq_nil_or_concat' rest).resolve_left fun none => by simp [none] at hf
      have eq : last = n := by
        rw [parts, ← List.cons_append, List.getLast?_concat] at hn
        exact Option.some.inj hn
      rw [parts, List.mem_append, List.mem_singleton] at hf
      rw [parts, List.pairwise_append] at sorted
      rcases hf with hf | rfl
      · exact eq ▸ (sorted.2.2 f hf last (by simp)).le
      · rw [eq]
    refine ⟨fun f hf => ?_, List.pairwise_append.2 ⟨sorted, List.pairwise_singleton _ _, fun f hf g hg => ?_⟩⟩
    · rcases List.mem_append.1 hf with hf | hf
      · exact near f hf
      · rw [List.mem_singleton.1 hf]
        exact ⟨after, before⟩
    · rw [List.mem_singleton.1 hg]
      exact (newest f hf).trans_lt beyond

theorem guardKept_sublist (q : Seq) (es : List Entry) : (guardKept q es).Sublist es := by
  conv_rhs => rw [← guardRemoved_append_guardKept q es]
  exact List.sublist_append_right _ _

/-! ### The queue after each event -/

theorem State.cutForGuard_entries_seqs (s : State) (q : Seq) :
    (s.cutForGuard q).queue.entries.map (·.seq) = (guardKept q s.queue.entries).map (·.seq) := by
  unfold State.cutForGuard
  split
  next none => rw [guardKept_of_none_removed none]
  next => exact markFirst_seqs _

theorem State.commitBare_entries (s : State) (k : Fin 4) (b : Nat) (w : List Nat) (data : Line) (gap : Byte) :
    ∃ e, e.seq = recordSeq data ∧ (s.commitBare k b w data gap).queue.entries =
      ((s.leaveForQueue k b w data).cutForGuard (recordSeq data)).queue.entries ++ [e] :=
  ⟨_, rfl, rfl⟩

theorem cutHold_entries_seqs (h : Byte) (es : List Entry) :
    ((beforeRun h es ++ markFirst (afterRun h es)).map (·.seq)).Sublist (es.map (·.seq)) := by
  rw [List.map_append, markFirst_seqs, ← List.map_append]
  refine List.Sublist.map _ ?_
  conv_rhs => rw [← List.takeWhile_append_dropWhile (p := fun e => !Entry.tagged h e) (l := es)]
  exact List.Sublist.append (List.Sublist.refl _) List.filter_sublist

theorem ascending_of_seqs_sublist {es fs : List Entry} (sub : (fs.map (·.seq)).Sublist (es.map (·.seq)))
    (h : Ascending es) : Ascending fs := by
  obtain ⟨gs, hgs, eq⟩ := List.sublist_map_iff.1 sub
  exact ascending_of_seqs eq (ascending_sublist hgs h)

theorem RunEvent.keeps_ascending {s t : State} (e : RunEvent s t) (h : Ascending s.queue.entries) :
    Ascending t.queue.entries := by
  cases e with
  | bind slot e q b a run head =>
    rw [head] at h
    exact ascending_sublist (List.sublist_cons_self _ _) h
  | dropHead e rest run head =>
    rw [head] at h
    exact ascending_sublist (List.sublist_cons_self _ _) h
  | cut removed kept q run parts stays =>
    have sub : kept.Sublist s.queue.entries := by
      rcases parts with parts | parts <;> rw [parts]
      · exact List.sublist_append_right _ _
      · exact List.sublist_append_left _ _
    change Ascending q.entries
    rcases stays with stays | stays <;> rw [stays]
    · exact ascending_sublist sub h
    · exact ascending_of_seqs (markFirst_seqs _) (ascending_sublist sub h)
  | cutHold i splice => exact ascending_of_seqs_sublist (cutHold_entries_seqs i _) h
  | releaseHold i => exact ascending_of_seqs (untag_seqs i _) h
  | _ => exact h

theorem Event.keeps_ascending {s t : State} (e : Event s t) (h : Ascending s.queue.entries) :
    Ascending t.queue.entries := by
  cases e with
  | run e => exact e.keeps_ascending h
  | commit k b w w' first data gap =>
    obtain ⟨x, seq, entries⟩ := s.commitBare_entries k b w' data gap
    have kept : Ascending (guardKept (recordSeq data) s.queue.entries ++ [x]) :=
      ascending_append_of_fits (seq ▸ guardFits_guardKept _ _) (ascending_sublist (guardKept_sublist _ _) h)
    rw [entries]
    refine ascending_of_seqs ?_ kept
    rw [List.map_append, List.map_append, State.cutForGuard_entries_seqs]
    rfl
  | configure a rate _ checked => rw [s.cmdConfigure_frame a rate checked]; exact h
  | tearDown => simp [State.tearDown, State.clearQueue, Queue.start, Ascending]
  | start => rw [State.startRun_queue]; exact trivial
  | engineReset => rw [State.engineReset_queue]; exact trivial
  | line a l => rw [State.setDram_queue]; exact h
  | reset => exact trivial
  | _ => exact h

/-- Settles O55: an event takes entries from the queue, or appends a frame that the order guard lets fit. -/
theorem queueOrderKept : Obligations.QueueOrderKept :=
  kept_of_events (fun _ _ h => h) fun _ _ e h => e.keeps_ascending h

/-! ### The account of removed entries in the terms of the statements (R117) -/

theorem Entry.tagged_eq (h : Byte) : Entry.tagged h = fun e => decide (e.hold = some h) := by
  funext e
  exact beq_eq_decide _ _

theorem HoldRecord.lost_eq (h : HoldRecord) (removed : List Entry) :
    h.lost removed = (removed.filter fun e => decide (e.hold = some h.id)).length := by
  rw [HoldRecord.lost, Entry.tagged_eq]

theorem HoldRecord.emptiedBy_eq (h : HoldRecord) (removed : List Entry) :
    h.emptiedBy removed = decide (h.lost removed ≠ 0 ∧ h.unaired ≤ h.lost removed ∧ h.state = .pending) := by
  rw [Bool.eq_iff_iff]
  simp [HoldRecord.emptiedBy, and_assoc, Nat.sub_eq_zero_iff_le]

theorem HoldRecord.account_eq (h : HoldRecord) (removed kept : List Entry) :
    h.account removed kept =
      if h.lost removed = 0 then h
      else { h with
        unaired := h.unaired - h.lost removed
        firstSeq := (kept.filter fun e => decide (e.hold = some h.id)).head?.map (·.seq)
        lastSeq := if h.lastSeq = none then none
          else (kept.filter fun e => decide (e.hold = some h.id)).getLast?.map (·.seq) } := by
  unfold HoldRecord.account
  rw [List.head?_filter, Entry.tagged_eq]
  cases h.lastSeq <;> rfl

theorem State.logEdit_readout_congr {s t : State} (readout : s.readout = t.readout) (serve : s.air.serve = t.air.serve)
    (e : LogEntry) : (s.logEdit e).readout = (t.logEdit e).readout := by
  simp only [State.logEdit, State.logRecord, State.setReadout_readout, readout, serve]

theorem State.logEdits_readout_congr {s t : State} (readout : s.readout = t.readout)
    (serve : s.air.serve = t.air.serve) (es : List LogEntry) : (s.logEdits es).readout = (t.logEdits es).readout := by
  induction es generalizing s t with
  | nil => exact readout
  | cons e rest ih =>
    refine ih (State.logEdit_readout_congr readout serve e) ?_
    rw [State.logEdit_air, State.logEdit_air, serve]

theorem State.accountRemoval_holds (s : State) (removed kept : List Entry) (cause : Cause) :
    (s.accountRemoval removed kept cause).holds = { s.holds with
      table := (s.holds.table.filter (fun h => !h.emptiedBy removed)).map (fun h => h.account removed kept)
      dumpTotal := addSat32 s.holds.dumpTotal removed.length } := by
  simp [State.accountRemoval]

theorem State.accountRemoval_readout (s : State) (removed kept : List Entry) (cause : Cause) :
    (s.accountRemoval removed kept cause).readout = ((s.logEdit (dumpEntry removed cause)).logEdits
      ((s.holds.table.filter (fun h => h.emptiedBy removed)).map (fun h => h.dumpedEntry removed cause))).readout :=
  State.logEdits_readout_congr (s := (s.setHolds _).logEdit _) (t := s.logEdit _) (by rfl) (by rfl) _

/-- What an append that removes entries leaves of the hold table, the queue, the pool and the edit log. -/
theorem State.append_of_removed {s : State} {e : Entry} (some : guardRemoved e.seq s.queue.entries ≠ []) :
    (s.append e).holds = { s.holds with
      table := ((s.holds.table.filter fun h => !h.emptiedBy (guardRemoved e.seq s.queue.entries)).map
        fun h => h.account (guardRemoved e.seq s.queue.entries) (guardKept e.seq s.queue.entries)).map
          (fun h => h.tag e.seq)
      dumpTotal := addSat32 s.holds.dumpTotal (guardRemoved e.seq s.queue.entries).length } ∧
    (s.append e).queue.splicePending = false ∧
    (∃ h, (s.append e).queue.entries = markFirst (guardKept e.seq s.queue.entries) ++
      [{ e with spliceIn := s.queue.splicePending || (guardKept e.seq s.queue.entries).isEmpty, hold := h }]) ∧
    (s.append e).pool.free = s.pool.free ++ (guardRemoved e.seq s.queue.entries).map (·.block) ∧
    (s.append e).readout = ((s.logEdit (dumpEntry (guardRemoved e.seq s.queue.entries) .device)).logEdits
      ((s.holds.table.filter fun h => h.emptiedBy (guardRemoved e.seq s.queue.entries)).map
        fun h => h.dumpedEntry (guardRemoved e.seq s.queue.entries) .device)).readout := by
  refine ⟨?_, ?_, ⟨(s.applyGuard e.seq).openHold.map (·.id), ?_⟩, ?_, ?_⟩
  · simp [State.append, State.joinTail, State.applyGuard, some, State.accountRemoval_holds]
  · simp [State.append, State.joinTail]
  · simp [State.append, State.joinTail, State.applyGuard, some]
  · simp only [State.append, State.depthReport_pool, State.joinTail_pool, State.applyGuard, if_neg some,
      State.accountRemoval_pool, State.setPool_pool]
    exact (freeBlocks_lists _ _).1
  · simp only [State.append, State.depthReport_readout, State.joinTail_readout, State.applyGuard, if_neg some,
      State.accountRemoval_readout, State.setPool_holds, State.setQueue_holds]
    exact State.logEdits_readout_congr (s := ((s.setQueue _).setPool _).logEdit _) (t := s.logEdit _) (by rfl) (by rfl) _

/-- Settles O21: when a frame fits, what the guard removes and keeps, and the account of an append that removes. -/
theorem orderGuard : Obligations.OrderGuard := by
  refine ⟨guardFits_iff, fun q es => ⟨guardRemoved_append_guardKept q es, guardFits_guardKept q es,
    fun pre x suf => not_guardFits_of_removed q es pre suf x, fun e seq h => ?_⟩, fun s e some => ?_⟩
  · exact ascending_append_of_fits (seq ▸ guardFits_guardKept q es) (ascending_sublist (guardKept_sublist q es) h)
  · obtain ⟨holds, splice, ⟨h, entries⟩, free, readout⟩ := State.append_of_removed some
    intro gone kept mine lost emptied cut tagged
    have emptied_eq : (fun h => HoldRecord.emptiedBy h gone) = emptied := by
      funext h; rw [HoldRecord.emptiedBy_eq, HoldRecord.lost_eq]
    have cut_eq : (fun h => HoldRecord.account h gone kept) = cut := by
      funext h; rw [HoldRecord.account_eq, HoldRecord.lost_eq]
    have kept_eq : (fun h => !HoldRecord.emptiedBy h gone) = fun h => !emptied h :=
      funext fun h => congrArg not (congrFun emptied_eq h)
    have entry_eq : (fun h => HoldRecord.dumpedEntry h gone .device) = fun h =>
        { kind := .holdDumped, first := h.firstSeq, last := h.lastSeq,
          count := Option.some (BitVec.ofNat 32 (lost h)), hold := Option.some h.id, cause := .device } := by
      funext h; rw [HoldRecord.dumpedEntry, HoldRecord.lost_eq]
    refine ⟨?_, splice, ⟨{ e with spliceIn := s.queue.splicePending || kept.isEmpty, hold := h },
      entries.trans ?_, rfl, rfl, rfl⟩, free, ?_⟩
    · rw [holds, kept_eq, cut_eq]; rfl
    · refine congrArg (· ++ _) ?_
      change markFirst kept = _
      generalize kept = es
      cases es <;> rfl
    · rw [readout, emptied_eq, entry_eq]; rfl

end Sys2Proof.Machine
end

