-- ==== Sys2Proof/Proofs/HoldTable.lean ====
section
/-! The hold table stays true of the queue (R118, R119). -/

namespace Sys2Proof.Machine

open Sys2Proof Sys2Proof.Safety

/-! ### The table and the queue it speaks of -/

/-- The sequence numbers of the entries that carry a hold id, oldest first. -/
def seqsOf (es : List Entry) (h : Byte) : List Seq := (es.filter (Entry.tagged h)).map (·.seq)

/-- What R118 says of a record, from the numbers of its entries. -/
structure Carries (r : HoldRecord) (qs : List Seq) : Prop where
  nonzero : r.id ≠ 0
  unaired : r.unaired = qs.length
  first : r.firstSeq = qs.head?
  opened : r.state = .opened → r.lastSeq = none
  pending : r.state = .pending → qs ≠ [] ∧ r.lastSeq = qs.getLast?

/-- What R118 and R119 say of a table and the queue's entries. -/
structure TableSound (table : List HoldRecord) (nextId : Byte) (es : List Entry) : Prop where
  few : table.length ≤ 4
  oneOpen : (table.filter (fun h => h.state == .opened)).length ≤ 1
  ids : (table.map (·.id)).Nodup
  next : nextId ≠ 0
  carry : ∀ r ∈ table, Carries r (seqsOf es r.id)
  tags : ∀ e ∈ es, ∀ h, e.hold = some h → h ∈ table.map (·.id)

theorem holdTrue_iff (s : State) (r : HoldRecord) : HoldTrue s r ↔ Carries r (seqsOf s.queue.entries r.id) := by
  have view : entriesOf s r.id = s.queue.entries.filter (Entry.tagged r.id) := by
    rw [Entry.tagged_eq]; rfl
  unfold HoldTrue seqsOf
  rw [view]
  generalize s.queue.entries.filter (Entry.tagged r.id) = es
  constructor
  · rintro ⟨nonzero, unaired, first, opened, pending⟩
    refine ⟨nonzero, by simpa using unaired, by simpa using first, opened, fun st => ?_⟩
    obtain ⟨pos, last⟩ := pending st
    refine ⟨fun none => ?_, by simpa using last⟩
    rw [List.map_eq_nil_iff.1 none] at unaired
    simp [unaired] at pos
  · rintro ⟨nonzero, unaired, first, opened, pending⟩
    refine ⟨nonzero, by simpa using unaired, by simpa using first, opened, fun st => ?_⟩
    obtain ⟨some, last⟩ := pending st
    exact ⟨unaired ▸ List.length_pos_iff.2 some, by simpa using last⟩

theorem holdsSound_iff (s : State) :
    HoldsSound s ↔ TableSound s.holds.table s.holds.nextId s.queue.entries := by
  constructor
  · rintro ⟨few, oneOpen, ids, next, carry, tags⟩
    exact ⟨few, oneOpen, ids, next, fun r hr => (holdTrue_iff s r).1 (carry r hr), tags⟩
  · rintro ⟨few, oneOpen, ids, next, carry, tags⟩
    exact ⟨few, oneOpen, ids, next, fun r hr => (holdTrue_iff s r).2 (carry r hr), tags⟩

theorem mem_seqsOf_of_tag {es : List Entry} {e : Entry} {h : Byte} (mem : e ∈ es) (tag : e.hold = some h) :
    e.seq ∈ seqsOf es h :=
  List.mem_map_of_mem (List.mem_filter.2 ⟨mem, by simp [Entry.tagged, tag]⟩)

theorem seqsOf_append (es fs : List Entry) (h : Byte) : seqsOf (es ++ fs) h = seqsOf es h ++ seqsOf fs h := by
  simp [seqsOf]

theorem seqsOf_cons_of_untagged {e : Entry} (free : e.hold = none) (rest : List Entry) (h : Byte) :
    seqsOf (e :: rest) h = seqsOf rest h := by
  simp [seqsOf, Entry.tagged, free]

theorem seqsOf_markFirst (es : List Entry) (h : Byte) : seqsOf (markFirst es) h = seqsOf es h := by
  cases es with
  | nil => rfl
  | cons e rest =>
    have tagged : Entry.tagged h { e with spliceIn := true } = Entry.tagged h e := rfl
    simp only [markFirst, seqsOf, List.filter_cons, tagged]
    split <;> rfl

theorem mem_markFirst_hold {es : List Entry} {e : Entry} (mem : e ∈ markFirst es) : ∃ f ∈ es, f.hold = e.hold := by
  cases es with
  | nil => simp [markFirst] at mem
  | cons x rest =>
    rcases List.mem_cons.1 mem with rfl | mem
    · exact ⟨x, List.mem_cons_self, rfl⟩
    · exact ⟨e, List.mem_cons_of_mem _ mem, rfl⟩

section
variable {table : List HoldRecord} {nextId : Byte} {es : List Entry}

/-- Entries may change in what the table does not speak of. -/
theorem TableSound.change {fs : List Entry} (sound : TableSound table nextId es)
    (seqs : ∀ h, seqsOf fs h = seqsOf es h) (tags : ∀ f ∈ fs, ∃ e ∈ es, e.hold = f.hold) :
    TableSound table nextId fs :=
  { sound with
    carry := fun r hr => (seqs r.id).symm ▸ sound.carry r hr
    tags := fun f hf h tag => by
      obtain ⟨e, he, same⟩ := tags f hf
      exact sound.tags e he h (same.trans tag) }

theorem TableSound.markFirst (sound : TableSound table nextId es) : TableSound table nextId (markFirst es) :=
  sound.change (seqsOf_markFirst es) fun _ => mem_markFirst_hold

/-- An entry without a hold id may leave. -/
theorem TableSound.tail {e : Entry} (sound : TableSound table nextId (e :: es)) (free : e.hold = none) :
    TableSound table nextId es :=
  sound.change (fun h => (seqsOf_cons_of_untagged free es h).symm) fun f hf => ⟨f, List.mem_cons_of_mem _ hf, rfl⟩

theorem TableSound.eq_of_opened (sound : TableSound table nextId es) {r r' : HoldRecord} (hr : r ∈ table)
    (hr' : r' ∈ table) (st : r.state = .opened) (st' : r'.state = .opened) : r = r' := by
  have mem : r ∈ table.filter (fun h => h.state == .opened) := List.mem_filter.2 ⟨hr, by simp [st]⟩
  have mem' : r' ∈ table.filter (fun h => h.state == .opened) := List.mem_filter.2 ⟨hr', by simp [st']⟩
  have one := sound.oneOpen
  generalize table.filter (fun h => h.state == .opened) = os at mem mem' one
  match os, one with
  | [x], _ => rw [List.mem_singleton.1 mem, List.mem_singleton.1 mem']

theorem TableSound.eq_of_id (sound : TableSound table nextId es) {r r' : HoldRecord} (hr : r ∈ table)
    (hr' : r' ∈ table) (same : r.id = r'.id) : r = r' :=
  List.inj_on_of_nodup_map sound.ids hr hr' same

theorem TableSound.empty {n : Byte} (next : n ≠ 0) : TableSound [] n [] :=
  ⟨by simp, by simp, by simp, next, by simp, by simp⟩

/-! ### Removals with their account (R117) -/

theorem HoldRecord.account_id (r : HoldRecord) (removed kept : List Entry) : (r.account removed kept).id = r.id := by
  unfold HoldRecord.account
  split <;> rfl

theorem HoldRecord.account_state (r : HoldRecord) (removed kept : List Entry) :
    (r.account removed kept).state = r.state := by
  unfold HoldRecord.account
  split <;> rfl

theorem lost_eq_length (r : HoldRecord) (removed : List Entry) : r.lost removed = (seqsOf removed r.id).length := by
  simp [HoldRecord.lost, seqsOf]

theorem Carries.account {r : HoldRecord} {removed kept : List Entry} (carries : Carries r (seqsOf es r.id))
    (parts : es = removed ++ kept ∨ es = kept ++ removed) (stays : r.emptiedBy removed = false) :
    Carries (r.account removed kept) (seqsOf kept r.id) := by
  have total : r.unaired = r.lost removed + (seqsOf kept r.id).length := by
    rw [carries.unaired, lost_eq_length]
    rcases parts with rfl | rfl <;> rw [seqsOf_append, List.length_append]
    exact Nat.add_comm _ _
  by_cases lost : r.lost removed = 0
  · have none : seqsOf removed r.id = [] := List.length_eq_zero_iff.1 (lost_eq_length r removed ▸ lost)
    have same : seqsOf es r.id = seqsOf kept r.id := by
      rcases parts with rfl | rfl <;> simp [seqsOf_append, none]
    rw [HoldRecord.account, if_pos lost, ← same]
    exact carries
  · have first : (kept.find? (Entry.tagged r.id)).map (·.seq) = (seqsOf kept r.id).head? := by
      rw [seqsOf, List.head?_map, List.head?_filter]
    have last : ((kept.filter (Entry.tagged r.id)).getLast?).map (·.seq) = (seqsOf kept r.id).getLast? := by
      rw [seqsOf, List.getLast?_map]
    rw [HoldRecord.account, if_neg lost, first, last]
    refine ⟨carries.nonzero, by simp only; omega, rfl, fun st => ?_, fun st => ?_⟩
    · simp [carries.opened st]
    · have some : seqsOf kept r.id ≠ [] := by
        intro none
        rw [none, List.length_nil] at total
        have : r.emptiedBy removed = true := by
          have state : r.state = .pending := st
          simp [HoldRecord.emptiedBy, state, lost, total]
        exact absurd this (by simp [stays])
      have had : r.lastSeq.isSome = true := by
        obtain ⟨some', lastSeq⟩ := carries.pending st
        rw [lastSeq, List.getLast?_isSome]
        exact some'
      exact ⟨some, by simp [had]⟩

theorem TableSound.account {removed kept : List Entry} (sound : TableSound table nextId es)
    (parts : es = removed ++ kept ∨ es = kept ++ removed) :
    TableSound ((table.filter (fun h => !h.emptiedBy removed)).map (fun h => h.account removed kept)) nextId kept := by
  have sub : (table.filter (fun h => !h.emptiedBy removed)).Sublist table := List.filter_sublist
  have mem : ∀ e ∈ kept, e ∈ es := by
    rcases parts with rfl | rfl <;> simp +contextual
  have ids : ((table.filter (fun h => !h.emptiedBy removed)).map (fun h => h.account removed kept)).map (·.id) =
      (table.filter (fun h => !h.emptiedBy removed)).map (·.id) := by
    rw [List.map_map]
    exact List.map_congr_left fun r _ => r.account_id removed kept
  refine ⟨?_, ?_, ?_, sound.next, fun r' hr' => ?_, fun e he h tag => ?_⟩
  · rw [List.length_map]
    exact sub.length_le.trans sound.few
  · have states : (fun h : HoldRecord => h.state == .opened) ∘ (fun h : HoldRecord => h.account removed kept) =
        fun h : HoldRecord => h.state == .opened := by
      funext r
      simp only [Function.comp, r.account_state removed kept]
    rw [List.filter_map, List.length_map, states]
    exact (sub.filter _).length_le.trans sound.oneOpen
  · rw [ids]
    exact sound.ids.sublist (sub.map _)
  · obtain ⟨r, hr, rfl⟩ := List.mem_map.1 hr'
    obtain ⟨old, stays⟩ := List.mem_filter.1 hr
    rw [r.account_id]
    exact (sound.carry r old).account parts (by simpa using stays)
  · rw [ids]
    obtain ⟨r, hr, rfl⟩ := List.mem_map.1 (sound.tags e (mem e he) h tag)
    refine List.mem_map_of_mem (List.mem_filter.2 ⟨hr, ?_⟩)
    have pos : 0 < (seqsOf kept r.id).length := List.length_pos_of_mem (mem_seqsOf_of_tag he tag)
    have total : r.unaired = r.lost removed + (seqsOf kept r.id).length := by
      rw [(sound.carry r hr).unaired, lost_eq_length]
      rcases parts with rfl | rfl <;> rw [seqsOf_append, List.length_append]
      exact Nat.add_comm _ _
    have left : r.unaired - r.lost removed ≠ 0 := by omega
    simp [HoldRecord.emptiedBy, left]

/-! ### A hold's own operations (R119 to R124) -/

/-- A record may leave with its id gone from the queue. -/
theorem TableSound.drop {fs : List Entry} {h : Byte} (sound : TableSound table nextId es)
    (seqs : ∀ i, i ≠ h → seqsOf fs i = seqsOf es i) (gone : ∀ f ∈ fs, f.hold ≠ some h)
    (tags : ∀ f ∈ fs, f.hold = none ∨ ∃ e ∈ es, e.hold = f.hold) :
    TableSound (table.filter (fun r => r.id != h)) nextId fs := by
  have sub : (table.filter (fun r => r.id != h)).Sublist table := List.filter_sublist
  refine ⟨sub.length_le.trans sound.few, (sub.filter _).length_le.trans sound.oneOpen,
    sound.ids.sublist (sub.map _), sound.next, fun r hr => ?_, fun f hf i tag => ?_⟩
  · obtain ⟨old, other⟩ := List.mem_filter.1 hr
    rw [seqs r.id (by simpa using other)]
    exact sound.carry r old
  · rcases tags f hf with free | ⟨e, he, same⟩
    · rw [free] at tag; cases tag
    · obtain ⟨r, hr, rfl⟩ := List.mem_map.1 (sound.tags e he i (same.trans tag))
      refine List.mem_map_of_mem (List.mem_filter.2 ⟨hr, ?_⟩)
      have other : r.id ≠ h := fun eq => gone f hf (eq ▸ tag)
      simpa using other

theorem beforeRun_append_afterRun (h : Byte) (es : List Entry) :
    beforeRun h es ++ afterRun h es = es.filter (fun e => !Entry.tagged h e) := by
  have before : (beforeRun h es).filter (fun e => !Entry.tagged h e) = beforeRun h es :=
    List.filter_eq_self.2 fun e he =>
      List.mem_takeWhile_imp (p := fun e => !Entry.tagged h e) he
  conv_rhs => rw [← List.takeWhile_append_dropWhile (p := fun e => !Entry.tagged h e) (l := es), List.filter_append]
  exact congrArg (· ++ afterRun h es) before.symm

theorem seqsOf_untagged_filter {h i : Byte} (other : i ≠ h) (es : List Entry) :
    seqsOf (es.filter (fun e => !Entry.tagged h e)) i = seqsOf es i := by
  rw [seqsOf, List.filter_filter]
  refine congrArg (List.map _) (List.filter_congr fun e _ => ?_)
  by_cases tag : e.hold = some i
  · simp [Entry.tagged, tag, other]
  · simp [Entry.tagged, tag]

theorem TableSound.cutHold (sound : TableSound table nextId es) (h : Byte) :
    TableSound (table.filter (fun r => r.id != h)) nextId (beforeRun h es ++ Machine.markFirst (afterRun h es)) := by
  have view : ∀ i, seqsOf (beforeRun h es ++ Machine.markFirst (afterRun h es)) i =
      seqsOf (es.filter (fun e => !Entry.tagged h e)) i := by
    intro i
    rw [seqsOf_append, seqsOf_markFirst, ← seqsOf_append, beforeRun_append_afterRun]
  have mem : ∀ f ∈ beforeRun h es ++ Machine.markFirst (afterRun h es), ∃ e ∈ es,
      e.hold = f.hold ∧ Entry.tagged h e = false := by
    intro f hf
    have split : ∀ e ∈ beforeRun h es ++ afterRun h es, e ∈ es ∧ Entry.tagged h e = false := by
      intro e he
      rw [beforeRun_append_afterRun, List.mem_filter] at he
      exact ⟨he.1, by simpa using he.2⟩
    rcases List.mem_append.1 hf with hf | hf
    · obtain ⟨old, free⟩ := split f (List.mem_append_left _ hf)
      exact ⟨f, old, rfl, free⟩
    · obtain ⟨e, he, same⟩ := mem_markFirst_hold hf
      obtain ⟨old, free⟩ := split e (List.mem_append_right _ he)
      exact ⟨e, old, same, free⟩
  refine sound.drop (fun i other => (view i).trans (seqsOf_untagged_filter other es)) (fun f hf tag => ?_)
    fun f hf => .inr ?_
  · obtain ⟨e, -, same, free⟩ := mem f hf
    simp [Entry.tagged, same, tag] at free
  · obtain ⟨e, he, same, -⟩ := mem f hf
    exact ⟨e, he, same⟩

theorem TableSound.untag (sound : TableSound table nextId es) (h : Byte) :
    TableSound (table.filter (fun r => r.id != h)) nextId (es.map (Entry.untag h)) := by
  have hold : ∀ e : Entry, (Entry.untag h e).hold = if e.hold = some h then none else e.hold := by
    intro e
    by_cases tag : e.hold = some h <;> simp [Entry.untag, Entry.tagged, tag]
  refine sound.drop (fun i other => ?_) (fun f hf => ?_) fun f hf => ?_
  · have tags : Entry.tagged i ∘ Entry.untag h = Entry.tagged i := by
      funext e
      simp only [Function.comp, Entry.tagged, hold]
      split
      next tag => simp [tag, other.symm]
      next => rfl
    have seqs : (fun e : Entry => e.seq) ∘ Entry.untag h = fun e => e.seq := by
      funext e
      simp only [Function.comp, Entry.untag]
      split <;> rfl
    rw [seqsOf, List.filter_map, tags, List.map_map, seqs]
    rfl
  · obtain ⟨e, -, rfl⟩ := List.mem_map.1 hf
    rw [hold]
    split
    next => simp
    next other => exact other
  · obtain ⟨e, he, rfl⟩ := List.mem_map.1 hf
    rw [hold]
    split
    next => exact .inl rfl
    next => exact .inr ⟨e, he, rfl⟩

/-- A record that counts no entry may leave (R122). -/
theorem TableSound.dropEmpty (sound : TableSound table nextId es) {r : HoldRecord} (hr : r ∈ table)
    (empty : r.unaired = 0) : TableSound (table.filter (fun x => x.id != r.id)) nextId es := by
  refine sound.drop (fun _ _ => rfl) (fun f hf tag => ?_) fun f hf => .inr ⟨f, hf, rfl⟩
  have pos : 0 < (seqsOf es r.id).length := List.length_pos_of_mem (mem_seqsOf_of_tag hf tag)
  have total := (sound.carry r hr).unaired
  omega

/-- HOLD_CLOSE of a hold that counts entries (R122). -/
theorem TableSound.close (sound : TableSound table nextId es) {r : HoldRecord} (hr : r ∈ table)
    (counted : r.unaired ≠ 0) :
    TableSound (table.map fun h => if h.id = r.id then h.closed ((es.filter (Entry.tagged r.id)).getLast?.map (·.seq))
      else h) nextId es := by
  have id_eq : ∀ h : HoldRecord, (if h.id = r.id then
      h.closed ((es.filter (Entry.tagged r.id)).getLast?.map (·.seq)) else h).id = h.id := by
    intro h
    split <;> rfl
  have ids : (table.map fun h => if h.id = r.id then
      h.closed ((es.filter (Entry.tagged r.id)).getLast?.map (·.seq)) else h).map (·.id) = table.map (·.id) := by
    rw [List.map_map]
    exact List.map_congr_left fun h _ => id_eq h
  refine ⟨by rw [List.length_map]; exact sound.few, ?_, ids ▸ sound.ids, sound.next, fun x hx => ?_, ?_⟩
  · rw [List.filter_map, List.length_map]
    refine (List.Sublist.length_le (List.monotone_filter_right table ?_)).trans sound.oneOpen
    intro h
    simp only [Function.comp]
    split
    · simp [HoldRecord.closed]
    · exact id
  · obtain ⟨h, hh, rfl⟩ := List.mem_map.1 hx
    rw [id_eq]
    split
    next same =>
      obtain rfl := sound.eq_of_id hh hr same
      have carries := sound.carry h hh
      refine ⟨carries.nonzero, carries.unaired, carries.first, fun st => (by cases st), fun _ => ⟨?_, ?_⟩⟩
      · intro none
        exact counted (carries.unaired.trans (by rw [none]; rfl))
      · rw [seqsOf, List.getLast?_map]; rfl
    next => exact sound.carry h hh
  · rw [ids]; exact sound.tags

/-- HOLD_OPEN with no hold OPEN and a free place (R121). -/
theorem TableSound.openNew (sound : TableSound table nextId es) {id : Byte} {serve : Seq}
    (noneOpen : ∀ h ∈ table, h.state ≠ .opened) (room : table.length < 4) (nonzero : id ≠ 0)
    (new : id ∉ table.map (·.id)) : TableSound (table ++
      [{ id := id, state := .opened, firstSeq := none, lastSeq := none, unaired := 0, openedAt := serve }])
      (nextHoldId id) es := by
  have unused : seqsOf es id = [] := by
    refine List.map_eq_nil_iff.2 (List.filter_eq_nil_iff.2 fun e he tag => new (sound.tags e he id ?_))
    simpa [Entry.tagged] using tag
  have none : table.filter (fun h => h.state == .opened) = [] :=
    List.filter_eq_nil_iff.2 fun h hh => by simpa using noneOpen h hh
  refine ⟨by rw [List.length_append]; exact room, ?_, ?_, nextHoldId_ne_zero nonzero, fun r hr => ?_,
    fun e he h tag => ?_⟩
  · rw [List.filter_append, none]; simp
  · rw [List.map_append, List.map_cons, List.map_nil, List.nodup_append]
    refine ⟨sound.ids, List.nodup_singleton _, fun a ha b hb same => ?_⟩
    have same : a = id := same.trans (List.mem_singleton.1 hb)
    exact new (same ▸ ha)
  · rcases List.mem_append.1 hr with hr | hr
    · exact sound.carry r hr
    · rw [List.mem_singleton.1 hr]
      exact ⟨nonzero, by rw [unused]; rfl, by rw [unused]; rfl, fun _ => rfl, fun st => by cases st⟩
  · rw [List.map_append]
    exact List.mem_append_left _ (sound.tags e he h tag)

theorem HoldRecord.tag_id (r : HoldRecord) (q : Seq) : (r.tag q).id = r.id := by
  unfold HoldRecord.tag
  split <;> rfl

theorem HoldRecord.tag_state (r : HoldRecord) (q : Seq) : (r.tag q).state = r.state := by
  unfold HoldRecord.tag
  split <;> rfl

/-- A frame joins the tail under the id of the OPEN hold, when there is one (R64, R120). -/
theorem TableSound.join (sound : TableSound table nextId es) (e : Entry)
    (hold : e.hold = (table.find? (fun h => h.state == .opened)).map (·.id)) :
    TableSound (table.map fun h => h.tag e.seq) nextId (es ++ [e]) := by
  have ids : (table.map fun h => h.tag e.seq).map (·.id) = table.map (·.id) := by
    rw [List.map_map]
    exact List.map_congr_left fun r _ => r.tag_id e.seq
  refine ⟨by rw [List.length_map]; exact sound.few, ?_, ids ▸ sound.ids, sound.next, fun x hx => ?_,
    fun f hf h tag => ?_⟩
  · have states : (fun h : HoldRecord => h.state == .opened) ∘ (fun h : HoldRecord => h.tag e.seq) =
        fun h : HoldRecord => h.state == .opened := by
      funext r
      simp only [Function.comp, r.tag_state]
    rw [List.filter_map, List.length_map, states]
    exact sound.oneOpen
  · obtain ⟨r, hr, rfl⟩ := List.mem_map.1 hx
    have carries := sound.carry r hr
    rw [r.tag_id, seqsOf_append]
    cases st : r.state with
    | opened =>
      have found : table.find? (fun h => h.state == .opened) = some r := by
        cases found : table.find? (fun h => h.state == .opened) with
        | none => exact absurd st (by simpa using List.find?_eq_none.1 found r hr)
        | some r' =>
          have st' : r'.state = .opened := by simpa using List.find?_some found
          rw [sound.eq_of_opened hr (List.mem_of_find?_eq_some found) st st']
      have own : seqsOf [e] r.id = [e.seq] := by simp [seqsOf, Entry.tagged, hold, found]
      rw [HoldRecord.tag, if_pos st, own]
      refine ⟨carries.nonzero, ?_, ?_, fun _ => carries.opened st, fun st' => ?_⟩
      · simp [carries.unaired]
      · cases qs : seqsOf es r.id <;> simp [carries.first, qs]
      · exact absurd (st.symm.trans st') (by decide)
    | pending =>
      have other : seqsOf [e] r.id = [] := by
        have : e.hold ≠ some r.id := by
          rw [hold]
          intro same
          obtain ⟨r', found, same⟩ := Option.map_eq_some_iff.1 same
          have st' : r'.state = .opened := by simpa using List.find?_some found
          rw [sound.eq_of_id (List.mem_of_find?_eq_some found) hr same, st] at st'
          cases st'
        simp [seqsOf, Entry.tagged, this]
      rw [HoldRecord.tag, if_neg (by simp [st]), other, List.append_nil]
      exact carries
  · rw [ids]
    rcases List.mem_append.1 hf with hf | hf
    · exact sound.tags f hf h tag
    · rw [List.mem_singleton.1 hf, hold] at tag
      obtain ⟨r, found, rfl⟩ := Option.map_eq_some_iff.1 tag
      exact List.mem_map_of_mem (List.mem_of_find?_eq_some found)

end

/-! ### The table after each event -/

/-- The hold table is true of the queue. -/
def HoldTableTrue (s : State) : Prop := TableSound s.holds.table s.holds.nextId s.queue.entries

theorem HoldTableTrue.cut {s : State} {removed kept : List Entry} {q : Queue} (sound : HoldTableTrue s)
    (parts : s.queue.entries = removed ++ kept ∨ s.queue.entries = kept ++ removed)
    (stays : q.entries = kept ∨ q.entries = markFirst kept) : HoldTableTrue (s.cut removed kept q) := by
  have account := TableSound.account sound parts
  change TableSound _ _ q.entries
  rcases stays with stays | stays <;> rw [stays]
  · exact account
  · exact account.markFirst

theorem HoldTableTrue.cutForGuard {s : State} (sound : HoldTableTrue s) (q : Seq) :
    HoldTableTrue (s.cutForGuard q) := by
  unfold State.cutForGuard
  split
  next => exact sound
  next => exact sound.cut (.inl (guardRemoved_append_guardKept q _).symm) (.inr rfl)

theorem openHold_mem {s : State} {r : HoldRecord} (isOpen : s.openHold = some r) : r ∈ s.holds.table :=
  List.mem_of_find?_eq_some isOpen

theorem RunEvent.keeps_holds {s t : State} (e : RunEvent s t) (sound : HoldTableTrue s) : HoldTableTrue t := by
  cases e with
  | bind slot e q b a run head free =>
    have sound : TableSound s.holds.table s.holds.nextId s.queue.entries := sound
    rw [head] at sound
    exact sound.tail free
  | dropHead e rest run head free =>
    have sound : TableSound s.holds.table s.holds.nextId s.queue.entries := sound
    rw [head] at sound
    exact sound.tail free
  | cut removed kept q run parts stays => exact sound.cut parts stays
  | cutHold h splice => exact TableSound.cutHold sound h
  | releaseHold h => exact TableSound.untag sound h
  | openHold noneOpen room =>
    have short : s.holds.table.length < 255 := room.trans (by decide)
    obtain ⟨n, -, eq, -, new⟩ := Holds.openingId_eq_iterate sound.next short
    refine TableSound.openNew sound (fun h hh st => ?_) room ?_ (eq ▸ new)
    · exact absurd st (by simpa using List.find?_eq_none.1 noneOpen h hh)
    · exact eq ▸ iterate_nextHoldId_ne_zero sound.next n
  | closeEmpty r isOpen empty => exact TableSound.dropEmpty sound (openHold_mem isOpen) empty
  | close r isOpen counted => exact TableSound.close sound (openHold_mem isOpen) counted
  | _ => exact sound

theorem Event.keeps_holds {s t : State} (e : Event s t) (sound : HoldTableTrue s) : HoldTableTrue t := by
  cases e with
  | run e => exact e.keeps_holds sound
  | reset => exact TableSound.empty (n := 1) (by decide)
  | commit k b w w' first data gap =>
    have guarded : HoldTableTrue ((s.leaveForQueue k b w' data).cutForGuard (recordSeq data)) :=
      HoldTableTrue.cutForGuard (s := s.leaveForQueue k b w' data) sound (recordSeq data)
    exact TableSound.join guarded
      { s.entryOf b w' data gap with
        spliceIn := ((s.leaveForQueue k b w' data).cutForGuard (recordSeq data)).queue.splicePending
        hold := ((s.leaveForQueue k b w' data).cutForGuard (recordSeq data)).openHold.map (·.id) } rfl
  | configure a rate _ checked => rw [s.cmdConfigure_frame a rate checked]; exact sound
  | start target cond =>
    unfold HoldTableTrue
    rw [State.startRun_holds, State.startRun_queue]
    exact TableSound.empty sound.next
  | tearDown =>
    have holds : s.tearDown.holds = { s.holds with table := [] } := by simp [State.tearDown]
    have queue : s.tearDown.queue = Queue.start := by simp [State.tearDown, State.clearQueue]
    unfold HoldTableTrue
    rw [holds, queue]
    exact TableSound.empty sound.next
  | engineReset =>
    unfold HoldTableTrue
    rw [State.engineReset_holds, State.engineReset_queue]
    exact TableSound.empty (by decide)
  | line a l =>
    unfold HoldTableTrue
    rw [State.setDram_holds, State.setDram_queue]
    exact sound
  | _ => exact sound

/-- Settles O56: each operation of the dump and hold unit, the guard and a commit keep the table true. -/
theorem holdTableKept : Obligations.HoldTableKept :=
  kept_of_events (fun _ _ sound => sound) fun s t e sound =>
    (holdsSound_iff t).2 (e.keeps_holds ((holdsSound_iff s).1 sound))

end Sys2Proof.Machine
end

