-- ==== Sys2Proof/Proofs/Placing.lean ====
section
/-! The blocks, each with the place that holds it, and what each operation of the pool does to them
(R3 to R14). -/

namespace Sys2Proof.Machine

open Sys2Proof Sys2Proof.Safety

/-- The places that hold a block, with the partial field of the entry or binding (R4, R60, R79). -/
inductive Place where
  | free
  | ingest
  | queued (isPartial : Bool)
  | air (isPartial : Bool)
  | retiring
  deriving DecidableEq

/-- The state of a block at a place (R4). -/
def Place.state (pl : Place) : BlockState :=
  match pl with
  | .free => .free
  | .ingest => .ingest
  | .queued _ => .queued
  | .air _ => .air
  | .retiring => .retiring

/-- Whether a block at a place has an in-flight read count (R3). -/
def Place.counted (pl : Place) : Bool :=
  match pl with
  | .air _ => true
  | .retiring => true
  | .free => false
  | .ingest => false
  | .queued _ => false

/-- Whether a block at a place has a missing-tile set, where the place says so (R3). -/
def Place.missing? (pl : Place) : Option Bool :=
  match pl with
  | .free => some false
  | .ingest => some false
  | .queued p => some p
  | .air p => some p
  | .retiring => none

/-- The count and the missing-tile set of a block record fit its place; `C` says which counts fit a block. -/
structure Details (C : Nat → Nat → Prop) (i : Nat) (pl : Place) (r : BlockRecord) : Prop where
  counted : r.inFlight.isSome = pl.counted
  count : C i (r.inFlight.getD 0)
  busy : pl = .retiring → 1 ≤ r.inFlight.getD 0
  missing : ∀ b, pl.missing? = some b → r.missing.isSome = b

/-- A block record fits its place: in its state alone, or `strict`ly with its count and missing-tile set. -/
def Fits (strict : Prop) (C : Nat → Nat → Prop) (i : Nat) (pl : Place) (r : BlockRecord) : Prop :=
  r.state = pl.state ∧ (strict → Details C i pl r)

/-- Every block of a pool is in exactly one place of a list, and its record fits that place. -/
structure Placed (R : Nat → Place → BlockRecord → Prop) (p : Pool) (ps : List (Nat × Place)) : Prop where
  once : (ps.map Prod.fst).Perm (List.range p.blocks)
  length : p.records.length = p.blocks
  each : ∀ x ∈ ps, R x.1 x.2 (p.record x.1)

section
variable {R R' : Nat → Place → BlockRecord → Prop} {p p' : Pool} {ps qs : List (Nat × Place)} {i : Nat} {pl pl' : Place}

theorem Placed.perm (placed : Placed R p ps) (perm : ps.Perm qs) : Placed R p qs :=
  ⟨(perm.map _).symm.trans placed.once, placed.length, fun x hx => placed.each x (perm.mem_iff.2 hx)⟩

theorem Placed.lt (placed : Placed R p ps) {x : Nat × Place} (hx : x ∈ ps) : x.1 < p.blocks :=
  List.mem_range.1 (placed.once.mem_iff.1 (List.mem_map_of_mem hx))

theorem Placed.exists_place (placed : Placed R p ps) (lt : i < p.blocks) : ∃ pl, (i, pl) ∈ ps := by
  obtain ⟨⟨j, pl⟩, mem, rfl⟩ := List.mem_map.1 (placed.once.mem_iff.2 (List.mem_range.2 lt))
  exact ⟨pl, mem⟩

/-- One block changes its place and its record; the others keep theirs. -/
theorem Placed.move {r : BlockRecord} (placed : Placed R p ((i, pl) :: ps)) (blocks : p'.blocks = p.blocks)
    (records : p'.records = p.records.set i r) (own : R' i pl' r)
    (others : ∀ j pl r, j ≠ i → R j pl r → R' j pl r) : Placed R' p' ((i, pl') :: ps) := by
  have range : i < p.records.length := placed.length ▸ placed.lt List.mem_cons_self
  have record : ∀ j, p'.record j = (p.setRecord i r).record j := fun j => by
    rw [Pool.record, records]; rfl
  have nodup : (i :: ps.map Prod.fst).Nodup := placed.once.nodup_iff.2 List.nodup_range
  refine ⟨blocks ▸ placed.once, by rw [records, List.length_set, blocks, placed.length], fun x hx => ?_⟩
  rcases List.mem_cons.1 hx with rfl | hx
  · rw [record, record_setRecord_self p i r range]
    exact own
  · have other : x.1 ≠ i := fun same => (List.nodup_cons.1 nodup).1 (same ▸ List.mem_map_of_mem hx)
    rw [record, record_setRecord_ne p i x.1 r other]
    exact others _ _ _ other (placed.each x (List.mem_cons_of_mem _ hx))

/-- One block changes its record where it is; the others keep theirs. -/
theorem Placed.update {r : BlockRecord} (placed : Placed R p ps) (mem : (i, pl) ∈ ps) (blocks : p'.blocks = p.blocks)
    (records : p'.records = p.records.set i r) (own : R' i pl r)
    (others : ∀ j pl r, j ≠ i → R j pl r → R' j pl r) : Placed R' p' ps :=
  ((placed.perm (List.perm_cons_erase mem)).move blocks records own others).perm (List.perm_cons_erase mem).symm

end

/-! ### A pool with its two lists -/

/-- The places of a pool's blocks: its free list, what slots, queue and air hold, its retire list (R4). -/
def placing (free : List Nat) (mid : List (Nat × Place)) (retire : List Nat) : List (Nat × Place) :=
  free.map (·, .free) ++ (mid ++ retire.map (·, .retiring))

theorem placing_hold (free retire : List Nat) (mid : List (Nat × Place)) (x : Nat × Place) :
    (placing free (x :: mid) retire).Perm (x :: placing free mid retire) := by
  simp [placing]

theorem placing_free (free retire : List Nat) (mid : List (Nat × Place)) (i : Nat) :
    (placing (free ++ [i]) mid retire).Perm ((i, .free) :: placing free mid retire) := by
  simp [placing]

theorem placing_retire (free retire : List Nat) (mid : List (Nat × Place)) (i : Nat) :
    (placing free mid (retire ++ [i])).Perm ((i, .retiring) :: placing free mid retire) := by
  rw [List.perm_iff_count]
  intro x
  simp only [placing, List.map_append, List.map_cons, List.map_nil, List.count_append, List.count_cons,
    List.count_nil]
  omega

theorem placing_erase {retire : List Nat} {i : Nat} (mem : i ∈ retire) (free : List Nat) (mid : List (Nat × Place)) :
    (placing free mid retire).Perm ((i, .retiring) :: placing free mid (retire.erase i)) := by
  have perm : (retire.map (·, Place.retiring)).Perm ((i, .retiring) :: (retire.erase i).map (·, .retiring)) :=
    (List.perm_cons_erase mem).map _
  refine ((perm.append_left mid).append_left _).trans ?_
  rw [placing, ← List.append_assoc, ← List.append_assoc]
  exact List.perm_middle

theorem placing_perm {mid mid' : List (Nat × Place)} (perm : mid.Perm mid') (free retire : List Nat) :
    (placing free mid retire).Perm (placing free mid' retire) :=
  (perm.append_right _).append_left _

/-- Every block of a pool is on one of its lists or held by one of `mid`, and fits that place. -/
def PoolSound (strict : Prop) (C : Nat → Nat → Prop) (p : Pool) (mid : List (Nat × Place)) : Prop :=
  Placed (Fits strict C) p (placing p.free mid p.retire)

section
variable {strict : Prop} {C C' : Nat → Nat → Prop} {p p' : Pool} {mid mid' : List (Nat × Place)} {i : Nat}
  {pl : Place} {r : BlockRecord}

theorem Fits.readCount_eq_zero (fits : Fits strict C i pl r) (uncounted : pl.counted = false) (h : strict) :
    r.inFlight.getD 0 = 0 := by
  have none := (fits.2 h).counted
  rw [uncounted] at none
  cases count : r.inFlight with
  | none => rfl
  | some _ => rw [count] at none; cases none

theorem Fits.zero (fits : Fits strict C i pl r) (uncounted : pl.counted = false) (h : strict) : C i 0 :=
  fits.readCount_eq_zero uncounted h ▸ (fits.2 h).count

theorem Fits.mono (imp : strict → ∀ c, C i c → C' i c) (fits : Fits strict C i pl r) : Fits strict C' i pl r :=
  ⟨fits.1, fun h => { fits.2 h with count := imp h _ (fits.2 h).count }⟩

theorem fits_fresh (zero : strict → C i 0) : Fits strict C i .free BlockRecord.fresh :=
  ⟨rfl, fun h => ⟨rfl, zero h, nofun, fun _ b => by cases b; rfl⟩⟩

theorem PoolSound.perm (sound : PoolSound strict C p mid) (perm : mid.Perm mid') : PoolSound strict C p mid' :=
  Placed.perm sound (placing_perm perm _ _)

theorem PoolSound.mono (imp : strict → ∀ i c, C i c → C' i c) (sound : PoolSound strict C p mid) :
    PoolSound strict C' p mid :=
  ⟨sound.once, sound.length, fun x hx => (sound.each x hx).mono fun h => imp h x.1⟩

theorem PoolSound.lt (sound : PoolSound strict C p mid) {x : Nat × Place} (hx : x ∈ mid) : x.1 < p.blocks :=
  Placed.lt sound (List.mem_append_right _ (List.mem_append_left _ hx))

theorem PoolSound.fits (sound : PoolSound strict C p mid) {x : Nat × Place} (hx : x ∈ mid) :
    Fits strict C x.1 x.2 (p.record x.1) :=
  sound.each x (List.mem_append_right _ (List.mem_append_left _ hx))

/-- A held block takes another record and another holder. -/
theorem PoolSound.hold {pl' : Place} (sound : PoolSound strict C p ((i, pl) :: mid)) (own : Fits strict C i pl' r) :
    PoolSound strict C (p.setRecord i r) ((i, pl') :: mid) := by
  have front := Placed.perm sound (placing_hold ..)
  have moved := front.move (p' := p.setRecord i r) rfl rfl own fun _ _ _ _ fits => fits
  exact moved.perm (placing_hold ..).symm

/-- A held block without a read in flight becomes FREE (R8, R9, R13). -/
theorem PoolSound.free (sound : PoolSound strict C p ((i, pl) :: mid)) (zero : strict → C i 0) :
    PoolSound strict C (p.freeBlock i) mid := by
  have front := Placed.perm sound (placing_hold ..)
  have moved := front.move (p' := p.freeBlock i) rfl rfl (fits_fresh zero) fun _ _ _ _ fits => fits
  exact moved.perm (placing_free ..).symm

/-- Several held blocks without a read count become FREE, in order (R9, R15). -/
theorem PoolSound.freeBlocks {held : List (Nat × Place)} (sound : PoolSound strict C p (held ++ mid))
    (uncounted : ∀ x ∈ held, x.2.counted = false) : PoolSound strict C (p.freeBlocks (held.map Prod.fst)) mid := by
  induction held generalizing p with
  | nil => exact sound
  | cons x rest ih =>
    have zero : strict → C x.1 0 := (sound.fits List.mem_cons_self).zero (uncounted x List.mem_cons_self)
    exact ih (sound.free zero) fun y hy => uncounted y (List.mem_cons_of_mem _ hy)

/-- Allocation (R7). -/
theorem PoolSound.allocate (sound : PoolSound strict C p mid) (given : p.allocate = some (i, p')) :
    PoolSound strict C p' ((i, .ingest) :: mid) := by
  obtain ⟨free, eq⟩ := allocate_eq_some given
  rw [PoolSound, free] at sound
  have fits := sound.each _ List.mem_cons_self
  have own : Fits strict C i .ingest { p.record i with state := .ingest } :=
    ⟨rfl, fun h => ⟨(fits.2 h).counted, (fits.2 h).count, nofun, (fits.2 h).missing⟩⟩
  have moved := Placed.move (p' := p') sound (by rw [eq]; rfl) (by rw [eq]; rfl) own fun _ _ _ _ fits => fits
  have retire : p'.retire = p.retire := by rw [eq]; rfl
  rw [PoolSound, retire]
  exact moved.perm (placing_hold ..).symm

/-- Commit (R8). -/
theorem PoolSound.commitBlock (sound : PoolSound strict C p ((i, .ingest) :: mid)) (missing : List Nat) :
    PoolSound strict C (p.commitBlock i missing) ((i, .queued (missing != [])) :: mid) := by
  refine sound.hold ⟨rfl, fun h => ⟨rfl, (sound.fits List.mem_cons_self).zero rfl h, nofun, fun b eq => ?_⟩⟩
  cases eq
  cases missing <;> rfl

/-- Release to air (R10). -/
theorem PoolSound.airBlock {b : Bool} (sound : PoolSound strict C p ((i, .queued b) :: mid)) :
    PoolSound strict C (p.airBlock i) ((i, .air b) :: mid) := by
  have fits := sound.fits List.mem_cons_self
  exact sound.hold ⟨rfl, fun h => ⟨rfl, fits.zero rfl h, nofun, (fits.2 h).missing⟩⟩

/-- A binding ends (R13). -/
theorem PoolSound.leaveBlock {b : Bool} (sound : PoolSound strict C p ((i, .air b) :: mid)) :
    PoolSound strict C (p.leaveBlock i) mid := by
  have fits := sound.fits List.mem_cons_self
  unfold Pool.leaveBlock
  split
  next zero =>
    refine sound.free fun h => ?_
    have count := (fits.2 h).count
    rwa [show (p.record i).inFlight.getD 0 = 0 from zero] at count
  next some =>
    have own : Fits strict C i .retiring { p.record i with state := .retiring } :=
      ⟨rfl, fun h => ⟨(fits.2 h).counted, (fits.2 h).count, fun _ => Nat.one_le_iff_ne_zero.2 some, nofun⟩⟩
    have front := Placed.perm sound (placing_hold ..)
    have moved := front.move (R' := Fits strict C) (p' := { p.setRecord i { p.record i with state := .retiring } with
      retire := p.retire ++ [i] }) rfl rfl own fun _ _ _ _ fits => fits
    exact moved.perm (placing_retire ..).symm

/-- A read is taken on a block on air (R11). -/
theorem PoolSound.takeRead {b : Bool} (sound : PoolSound strict C p mid) (bound : (i, .air b) ∈ mid)
    (rise : ∀ c, C i c → C' i (c + 1)) (others : ∀ j c, j ≠ i → C j c → C' j c) :
    PoolSound strict C' (p.takeRead i) mid := by
  have fits := sound.fits bound
  have own : Fits strict C' i (.air b) { p.record i with inFlight := some (p.readCount i + 1) } :=
    ⟨fits.1, fun h => ⟨rfl, rise _ (fits.2 h).count, nofun, (fits.2 h).missing⟩⟩
  have mem : (i, Place.air b) ∈ placing p.free mid p.retire := List.mem_append_right _ (List.mem_append_left _ bound)
  exact Placed.update sound mem rfl rfl own fun _ _ _ other fits => fits.mono fun _ c => others _ c other

theorem PoolSound.exists_fits (sound : PoolSound strict C p mid) (some : (p.record i).state ≠ .free) :
    ∃ pl, (i, pl) ∈ placing p.free mid p.retire ∧ Fits strict C i pl (p.record i) := by
  have lt : i < p.blocks := by
    by_contra out
    have out : p.records.length ≤ i := sound.length ▸ not_lt.1 out
    rw [Pool.record, List.getD_eq_default _ _ out] at some
    exact some rfl
  obtain ⟨pl, mem⟩ := Placed.exists_place sound lt
  exact ⟨pl, mem, sound.each _ mem⟩

/-- A block without a read count keeps its record when a read is completed. -/
theorem PoolSound.uncounted (sound : PoolSound strict C p mid) (air : (p.record i).state ≠ .air)
    (retiring : (p.record i).state ≠ .retiring) (fall : ∀ c, C i c → C' i (c - 1))
    (others : ∀ j c, j ≠ i → C j c → C' j c) : PoolSound strict C' p mid := by
  refine ⟨sound.once, sound.length, fun x hx => ?_⟩
  have fits := sound.each x hx
  by_cases same : x.1 = i
  · subst same
    have uncounted : x.2.counted = false := by
      rw [fits.1] at air retiring
      cases pl : x.2 <;> simp_all [Place.state, Place.counted]
    refine ⟨fits.1, fun h => ⟨(fits.2 h).counted, ?_, (fits.2 h).busy, (fits.2 h).missing⟩⟩
    rw [fits.readCount_eq_zero uncounted h]
    exact fall 0 (fits.zero uncounted h)
  · exact fits.mono fun _ c => others _ c same

/-- A read taken on a block is completed (R12). -/
theorem PoolSound.completeRead (sound : PoolSound strict C p mid) (held : ∀ x ∈ mid, x.2 ≠ .retiring)
    (fall : ∀ c, C i c → C' i (c - 1)) (others : ∀ j c, j ≠ i → C j c → C' j c) :
    PoolSound strict C' (p.completeRead i) mid := by
  have same : ∀ j pl r, j ≠ i → Fits strict C j pl r → Fits strict C' j pl r :=
    fun _ _ _ other fits => fits.mono fun _ c => others _ c other
  unfold Pool.completeRead
  split
  next state =>
    obtain ⟨pl, mem, fits⟩ := sound.exists_fits (i := i) (by simp [state])
    refine Placed.update sound mem rfl rfl ⟨fits.1, fun h => ?_⟩ same
    refine ⟨?_, fall _ (fits.2 h).count, fun retiring => ?_, (fits.2 h).missing⟩
    · rw [fits.1] at state
      cases pl <;> simp_all [Place.state, Place.counted]
    · rw [fits.1, retiring] at state
      cases state
  next state =>
    obtain ⟨pl, mem, fits⟩ := sound.exists_fits (i := i) (by simp [state])
    obtain rfl : pl = .retiring := by
      rw [fits.1] at state
      cases pl <;> simp_all [Place.state]
    split
    next last =>
      have retired : i ∈ p.retire := by
        rcases List.mem_append.1 mem with mem | mem
        · obtain ⟨_, _, eq⟩ := List.mem_map.1 mem
          cases eq
        · rcases List.mem_append.1 mem with mem | mem
          · exact absurd rfl (held _ mem)
          · simpa using mem
      have zero : strict → C' i 0 := fun h => by
        have count := fall _ (fits.2 h).count
        rwa [Nat.sub_eq_zero_of_le (show (p.record i).inFlight.getD 0 ≤ 1 from last)] at count
      have front := Placed.perm sound (placing_erase retired _ _)
      have moved := front.move (p' := { p.freeBlock i with retire := p.retire.erase i }) rfl rfl (fits_fresh zero) same
      exact moved.perm (placing_free ..).symm
    next more =>
      refine Placed.update sound mem rfl rfl ⟨fits.1, fun h => ?_⟩ same
      refine ⟨rfl, fall _ (fits.2 h).count, fun _ => ?_, (fits.2 h).missing⟩
      have : 1 ≤ p.readCount i - 1 := by omega
      exact this
  next state => exact sound.uncounted (by simp [state]) (by simp [state]) fall others
  next state => exact sound.uncounted (by simp [state]) (by simp [state]) fall others
  next state => exact sound.uncounted (by simp [state]) (by simp [state]) fall others

theorem Pool.takeReads_retire (p : Pool) (is : List Nat) : (p.takeReads is).retire = p.retire := by
  induction is generalizing p with
  | nil => rfl
  | cons i rest ih => exact ih (p.takeRead i)

theorem Pool.completeReads_retire {p : Pool} (empty : p.retire = []) (is : List Nat) :
    (p.completeReads is).retire = [] := by
  induction is generalizing p with
  | nil => exact empty
  | cons i rest ih =>
    refine ih ?_
    unfold Pool.completeRead
    split
    next => exact empty
    next =>
      split
      next => simp [empty]
      next => exact empty
    all_goals exact empty

/-- A read is taken on a set of blocks on air (R11). -/
theorem PoolSound.takeReads {is : List Nat} (sound : PoolSound strict C p mid) (nodup : is.Nodup)
    (bound : ∀ i ∈ is, ∃ b, (i, .air b) ∈ mid) (rise : ∀ i ∈ is, ∀ c, C i c → C' i (c + 1))
    (others : ∀ i c, i ∉ is → C i c → C' i c) : PoolSound strict C' (p.takeReads is) mid := by
  induction is generalizing p C with
  | nil => exact sound.mono fun _ i c => others i c (List.not_mem_nil)
  | cons i rest ih =>
    obtain ⟨new, nodup⟩ := List.nodup_cons.1 nodup
    obtain ⟨b, bound'⟩ := bound i List.mem_cons_self
    have first := sound.takeRead (C' := fun j c => if j = i then C' j c else C j c) bound'
      (fun c fits => by rw [if_pos rfl]; exact rise i List.mem_cons_self c fits)
      (fun j c other fits => by rw [if_neg other]; exact fits)
    refine ih first nodup (fun j hj => bound j (List.mem_cons_of_mem _ hj)) (fun j hj c fits => ?_)
      fun j c hj fits => ?_
    · have other : j ≠ i := fun same => new (same ▸ hj)
      rw [if_neg other] at fits
      exact rise j (List.mem_cons_of_mem _ hj) c fits
    · by_cases same : j = i
      · rwa [if_pos same] at fits
      · rw [if_neg same] at fits
        exact others j c (by simp [same, hj]) fits

/-- A read taken on a set of blocks is completed (R12). -/
theorem PoolSound.completeReads {is : List Nat} (sound : PoolSound strict C p mid) (held : ∀ x ∈ mid, x.2 ≠ .retiring)
    (nodup : is.Nodup) (fall : ∀ i ∈ is, ∀ c, C i c → C' i (c - 1)) (others : ∀ i c, i ∉ is → C i c → C' i c) :
    PoolSound strict C' (p.completeReads is) mid := by
  induction is generalizing p C with
  | nil => exact sound.mono fun _ i c => others i c (List.not_mem_nil)
  | cons i rest ih =>
    obtain ⟨new, nodup⟩ := List.nodup_cons.1 nodup
    have first := sound.completeRead (i := i) (C' := fun j c => if j = i then C' j c else C j c) held
      (fun c fits => by rw [if_pos rfl]; exact fall i List.mem_cons_self c fits)
      (fun j c other fits => by rw [if_neg other]; exact fits)
    refine ih first nodup (fun j hj c fits => ?_) fun j c hj fits => ?_
    · have other : j ≠ i := fun same => new (same ▸ hj)
      rw [if_neg other] at fits
      exact fall j (List.mem_cons_of_mem _ hj) c fits
    · by_cases same : j = i
      · rwa [if_pos same] at fits
      · rw [if_neg same] at fits
        exact others j c (by simp [same, hj]) fits

/-- Where every count fits, a completion may name any blocks. -/
theorem PoolSound.completeReads_of_all {is : List Nat} (sound : PoolSound strict C p mid)
    (held : ∀ x ∈ mid, x.2 ≠ .retiring) (all : ∀ i c, C i c) : PoolSound strict C (p.completeReads is) mid := by
  induction is generalizing p with
  | nil => exact sound
  | cons i rest ih => exact ih (sound.completeRead held (fun _ _ => all _ _) fun _ _ _ fits => fits)

/-- A pool of new records (R5, R6). -/
theorem poolSound_fresh (tiles blocks : Nat) (zero : strict → ∀ i < blocks, C i 0) :
    PoolSound strict C (Pool.fresh tiles blocks) [] := by
  have record : ∀ i, (Pool.fresh tiles blocks).record i = BlockRecord.fresh := fun i => by
    simp [Pool.record, Pool.fresh, List.getD_eq_getElem?_getD, List.getElem?_replicate]
    split <;> rfl
  refine ⟨?_, by simp [Pool.fresh], fun x hx => ?_⟩
  · simp [placing, Pool.fresh, List.map_map, Function.comp_def]
  · obtain ⟨i, lt, rfl⟩ : ∃ i < blocks, (i, Place.free) = x := by simpa [placing, Pool.fresh] using hx
    rw [record]
    exact fits_fresh fun h => zero h i lt

/-- With every block FREE no block has a read count (R3). -/
theorem PoolSound.zero_of_idle (sound : PoolSound strict C p []) (retire : p.retire = []) (h : strict) {i : Nat}
    (lt : i < p.blocks) : C i 0 := by
  obtain ⟨pl, mem⟩ := Placed.exists_place sound lt
  have free : pl = .free := by
    rw [retire] at mem
    simp only [placing, List.map_nil, List.append_nil, List.mem_map] at mem
    obtain ⟨_, -, eq⟩ := mem
    exact (Prod.mk.inj eq).2.symm
  exact (sound.each _ mem).zero (free ▸ rfl) h

end
end Sys2Proof.Machine
end

