-- ==== Sys2Proof/Proofs/Places.lean ====
section
/-! The whereabouts of every block and the in-flight read counts, at every event (R4, R11 to R15). -/

namespace Sys2Proof.Machine

open Sys2Proof Sys2Proof.Safety

/-! ### What slots, queue and bindings hold -/

def slotPlaces (slots : Vector IngestSlot 4) : List (Nat × Place) :=
  (slots.toList.filterMap IngestSlot.block).map (·, .ingest)

def queuePlaces (es : List Entry) : List (Nat × Place) := es.map fun e => (e.block, .queued e.isPartial)

def airPlaces (a : Air) : List (Nat × Place) :=
  ((a.slotA.map Binding.key).toList ++ (a.slotB.map Binding.key).toList).map fun k => (k.1, .air k.2)

/-- The blocks that ingest, queue and air hold (R4). -/
def State.mid (s : State) : List (Nat × Place) :=
  slotPlaces s.ingest.slots ++ (queuePlaces s.queue.entries ++ airPlaces s.air)

/-- The counts that fit a block: while the RESET pin is not held, the number of reads in flight taken on it. -/
def Counted (held : Bool) (reads : List InFlight) (i c : Nat) : Prop :=
  held = false → c = (reads.filter fun e => e.blocks.contains i).length

/-- Every block is in exactly one place and fits it; and `strict`ly, the reads in flight name blocks once. -/
structure Sound (strict : Prop) (s : State) : Prop where
  pool : PoolSound strict (Counted s.resetHeld s.link.inFlight) s.pool s.mid
  idle : s.monitor.run ≠ .running → s.mid = []
  drained : s.monitor.run = .stopped → s.pool.retire = []
  reads : strict → s.resetHeld = false → ∀ e ∈ s.link.inFlight, e.blocks.Nodup ∧ ∀ i ∈ e.blocks, i < s.pool.blocks

theorem airPlaces_eq (a : Air) :
    airPlaces a = (a.slotA.toList ++ a.slotB.toList).map fun b => (b.block, .air b.isPartial) := by
  rw [airPlaces, Option.toList_map, Option.toList_map, ← List.map_append, List.map_map]
  rfl

theorem placing_mid_blocks (s : State) : (placing s.pool.free s.mid s.pool.retire).map Prod.fst = places s := by
  simp [placing, State.mid, slotPlaces, queuePlaces, airPlaces_eq, places, slotBlocks, queueBlocks, egressBlocks,
    Function.comp_def, Option.toList_map]

theorem forall_placing_mid (s : State) (P : Nat → Place → Prop) :
    (∀ x ∈ placing s.pool.free s.mid s.pool.retire, P x.1 x.2) ↔
      (∀ i ∈ s.pool.free, P i .free) ∧ (∀ i ∈ slotBlocks s, P i .ingest) ∧
      (∀ e ∈ s.queue.entries, P e.block (.queued e.isPartial)) ∧
      (∀ b ∈ s.air.slotA.toList ++ s.air.slotB.toList, P b.block (.air b.isPartial)) ∧
      ∀ i ∈ s.pool.retire, P i .retiring := by
  simp only [placing, State.mid, slotPlaces, queuePlaces, airPlaces_eq, List.forall_mem_append, List.forall_mem_map,
    slotBlocks, and_assoc]

theorem mid_eq_nil (s : State) :
    s.mid = [] ↔ slotBlocks s = [] ∧ s.queue.entries = [] ∧ egressBlocks s = [] := by
  simp [State.mid, slotPlaces, queuePlaces, airPlaces_eq, slotBlocks, egressBlocks]

theorem haveState_egressBlocks (s : State) : HaveState s (egressBlocks s) .air ↔
    ∀ b ∈ s.air.slotA.toList ++ s.air.slotB.toList, (s.pool.record b.block).state = .air := by
  rw [HaveState, egressBlocks, Option.toList_map, Option.toList_map, ← List.map_append, List.forall_mem_map]

theorem blocksPlaced_iff (s : State) : BlocksPlaced s ↔ Sound False s := by
  have idle := mid_eq_nil s
  have fits := forall_placing_mid s fun i pl => (s.pool.record i).state = pl.state
  constructor
  · rintro ⟨once, ⟨length, free, ingest, queued, air, retire⟩, outside, stopped⟩
    have each := fits.2 ⟨free, ingest, List.forall_mem_map.1 queued, (haveState_egressBlocks s).1 air, retire⟩
    exact ⟨⟨placing_mid_blocks s ▸ once, length, fun x hx => ⟨each x hx, nofun⟩⟩,
      fun run => idle.2 (outside run), stopped, nofun⟩
  · rintro ⟨⟨once, length, each⟩, outside, stopped, -⟩
    obtain ⟨free, ingest, queued, air, retire⟩ := fits.1 fun x hx => (each x hx).1
    exact ⟨by rwa [EachBlockOnce, ← placing_mid_blocks], ⟨length, free, ingest, List.forall_mem_map.2 queued,
      (haveState_egressBlocks s).2 air, retire⟩, fun run => idle.1 (outside run), stopped⟩

theorem Place.counted_iff (pl : Place) : pl.counted = true ↔ pl.state = .air ∨ pl.state = .retiring := by
  cases pl <;> simp [Place.counted, Place.state]

theorem readsSound_iff (s : State) : (BlocksPlaced s ∧ RecordsSound s ∧ ReadsCounted s) ↔ Sound True s := by
  rw [blocksPlaced_iff]
  have parts := forall_placing_mid s
  constructor
  · rintro ⟨placed, ⟨counted, busy, none, queued, air⟩, reads⟩
    have counted' : ∀ x ∈ placing s.pool.free s.mid s.pool.retire,
        (s.pool.record x.1).inFlight.isSome = x.2.counted := fun x hx => by
      rw [Bool.eq_iff_iff, counted x.1 (Placed.lt placed.pool hx), (placed.pool.each x hx).1, Place.counted_iff]
    have busy' := (parts fun i pl => pl = .retiring → 1 ≤ (s.pool.record i).inFlight.getD 0).2
      ⟨nofun, nofun, nofun, nofun, fun i hi _ => busy i hi⟩
    have missing := (parts fun i pl => ∀ b, pl.missing? = some b → (s.pool.record i).missing.isSome = b).2
      ⟨fun i hi b eq => by cases eq; rw [none i (List.mem_append_left _ hi)]; rfl,
       fun i hi b eq => by cases eq; rw [none i (List.mem_append_right _ hi)]; rfl,
       fun e he b eq => by cases eq; exact queued e he, fun x hx b eq => by cases eq; exact air x hx, nofun⟩
    exact ⟨⟨placed.pool.once, placed.pool.length, fun x hx => ⟨(placed.pool.each x hx).1, fun _ =>
      ⟨counted' x hx, fun held => (reads held).1 x.1 (Placed.lt placed.pool hx), busy' x hx, missing x hx⟩⟩⟩,
      placed.idle, placed.drained, fun _ held => (reads held).2⟩
  · intro sound
    have details : ∀ x ∈ placing s.pool.free s.mid s.pool.retire,
        Details (Counted s.resetHeld s.link.inFlight) x.1 x.2 (s.pool.record x.1) :=
      fun x hx => (sound.pool.each x hx).2 trivial
    have busy := (parts fun i pl => pl = .retiring → 1 ≤ (s.pool.record i).inFlight.getD 0).1
      fun x hx => (details x hx).busy
    have missing := (parts fun i pl => ∀ b, pl.missing? = some b → (s.pool.record i).missing.isSome = b).1
      fun x hx => (details x hx).missing
    obtain ⟨free, ingest, queued, air, -⟩ := missing
    refine ⟨⟨⟨sound.pool.once, sound.pool.length, fun x hx => ⟨(sound.pool.each x hx).1, nofun⟩⟩, sound.idle,
      sound.drained, nofun⟩, ⟨fun i lt => ?_, fun i hi => busy.2.2.2.2 i hi rfl, fun i hi => ?_,
      fun e he => queued e he _ rfl, fun b hb => air b hb _ rfl⟩, fun held => ⟨fun i lt => ?_, sound.reads trivial held⟩⟩
    · obtain ⟨pl, mem⟩ := Placed.exists_place sound.pool lt
      rw [(details _ mem).counted, (sound.pool.each _ mem).1, Place.counted_iff]
    · refine Option.not_isSome_iff_eq_none.1 (Bool.not_eq_true _ ▸ ?_)
      rcases List.mem_append.1 hi with hi | hi
      · exact free i hi false rfl
      · exact ingest i hi false rfl
    · obtain ⟨pl, mem⟩ := Placed.exists_place sound.pool lt
      exact (details _ mem).count held

/-! ### What the parts hold, after each operation -/

theorem slotPlaces_set (slots : Vector IngestSlot 4) (k : Fin 4) : ∃ rest, ∀ sl : IngestSlot,
    (slotPlaces (slots.set k sl)).Perm (sl.block.toList.map (·, .ingest) ++ rest) := by
  refine ⟨((slots.toList.take k).filterMap IngestSlot.block ++ (slots.toList.drop (k + 1)).filterMap
    IngestSlot.block).map (·, .ingest), fun sl => ?_⟩
  have lt : (k : Nat) < slots.toList.length := by simp
  rw [slotPlaces, Vector.toList_set, List.set_eq_take_append_cons_drop, if_pos lt, List.filterMap_append,
    List.filterMap_cons, ← List.map_append]
  refine List.Perm.map _ ?_
  cases sl.block with
  | none => exact .refl _
  | some b => exact List.perm_middle

theorem slotPlaces_slot (s : State) (k : Fin 4) : s.ingest.slots.set k (s.slot k) = s.ingest.slots :=
  Vector.set_getElem_self _

theorem slotPlaces_eq_of_blocks {v w : Vector IngestSlot 4} (blocks : ∀ k : Fin 4, v[k].block = w[k].block) :
    slotPlaces v = slotPlaces w := by
  have same : v.map IngestSlot.block = w.map IngestSlot.block := by
    refine Vector.ext fun i lt => ?_
    rw [Vector.getElem_map, Vector.getElem_map]
    exact blocks ⟨i, lt⟩
  have lists : v.toList.map IngestSlot.block = w.toList.map IngestSlot.block := by
    rw [← Vector.toList_map, same, Vector.toList_map]
  have view : ∀ l : List IngestSlot, l.filterMap IngestSlot.block = (l.map IngestSlot.block).filterMap id := fun l => by
    rw [List.filterMap_map]; rfl
  rw [slotPlaces, slotPlaces, view, view, lists]

theorem block_discarded (sl : IngestSlot) : sl.discarded.block = sl.block := by cases sl <;> rfl

/-- A slot that names the same block as before holds what it held. -/
theorem slotPlaces_setSlot (s : State) (k : Fin 4) {sl : IngestSlot} (block : sl.block = (s.slot k).block) :
    slotPlaces (s.ingest.slots.set k sl) = slotPlaces s.ingest.slots := by
  refine slotPlaces_eq_of_blocks fun j => ?_
  by_cases same : (k : Nat) = j
  · have eq : k = j := Fin.ext same
    subst eq
    simp [block, State.slot]
  · simp [same]

/-- The block of a slot, in front of what the slots hold without it. -/
theorem slotPlaces_held (s : State) {k : Fin 4} {b : Nat} (held : (s.slot k).block = some b) {sl : IngestSlot}
    (none : sl.block = none) :
    (slotPlaces s.ingest.slots).Perm ((b, .ingest) :: slotPlaces (s.ingest.slots.set k sl)) := by
  obtain ⟨rest, perm⟩ := slotPlaces_set s.ingest.slots k
  have full := perm (s.slot k)
  have empty := perm sl
  rw [slotPlaces_slot, held] at full
  rw [none] at empty
  exact full.trans (empty.symm.cons _)

theorem queuePlaces_append (es fs : List Entry) : queuePlaces (es ++ fs) = queuePlaces es ++ queuePlaces fs :=
  List.map_append

theorem queuePlaces_blocks (es : List Entry) : (queuePlaces es).map Prod.fst = es.map (·.block) := by
  simp [queuePlaces, Function.comp_def]

theorem uncounted_queuePlaces {es : List Entry} {x : Nat × Place} (hx : x ∈ queuePlaces es) : x.2.counted = false := by
  obtain ⟨_, -, rfl⟩ := List.mem_map.1 hx
  rfl

theorem uncounted_slotPlaces {v : Vector IngestSlot 4} {x : Nat × Place} (hx : x ∈ slotPlaces v) :
    x.2.counted = false := by
  obtain ⟨_, -, rfl⟩ := List.mem_map.1 hx
  rfl

theorem slotPlaces_blocks (v : Vector IngestSlot 4) :
    (slotPlaces v).map Prod.fst = v.toList.filterMap IngestSlot.block := by
  simp [slotPlaces, Function.comp_def]

theorem queuePlaces_markFirst (es : List Entry) : queuePlaces (markFirst es) = queuePlaces es := by
  cases es <;> rfl

theorem queuePlaces_untag (h : Byte) (es : List Entry) : queuePlaces (es.map (Entry.untag h)) = queuePlaces es := by
  rw [queuePlaces, List.map_map]
  refine List.map_congr_left fun e _ => ?_
  simp only [Function.comp, Entry.untag]
  split <;> rfl

theorem airPlaces_congr {a a' : Air} (slotA : a'.slotA.map Binding.key = a.slotA.map Binding.key)
    (slotB : a'.slotB.map Binding.key = a.slotB.map Binding.key) : airPlaces a' = airPlaces a := by
  rw [airPlaces, slotA, slotB, airPlaces]

theorem airPlaces_setBinding (a : Air) (slot : EgressSlot) (b : Binding) :
    (airPlaces (a.setBinding slot (some b))).Perm ((b.block, .air b.isPartial) :: airPlaces (a.setBinding slot none)) := by
  cases slot with
  | a => exact .refl _
  | b =>
    rw [airPlaces, airPlaces, List.map_append, List.map_append]
    simp [Air.setBinding, Binding.key]

theorem Air.setBinding_of_binding {a : Air} {slot : EgressSlot} {b : Option Binding} (bound : a.binding slot = b) :
    a.setBinding slot b = a := by
  subst bound
  cases slot <;> rfl

theorem not_retiring_mid (s : State) : ∀ x ∈ s.mid, x.2 ≠ .retiring := by
  have none : ∀ {α : Type} (l : List α) (f : α → Nat × Place), (∀ a, (f a).2 ≠ .retiring) → ∀ x ∈ l.map f, x.2 ≠ .retiring :=
    fun l f each x hx => by
      obtain ⟨a, -, rfl⟩ := List.mem_map.1 hx
      exact each a
  intro x hx
  rcases List.mem_append.1 hx with hx | hx
  · exact none _ _ (fun _ => by simp) x hx
  · rcases List.mem_append.1 hx with hx | hx
    · exact none _ _ (fun _ => by simp) x hx
    · exact none _ _ (fun _ => by simp) x hx

/-! ### Each event of a run -/

section
variable {strict : Prop} {s t : State}

/-- An event that moves no block and takes or completes no read. -/
theorem Sound.same (sound : Sound strict s) (pool : t.pool = s.pool) (mid : t.mid = s.mid)
    (run : t.monitor.run = s.monitor.run) (reads : t.link.inFlight = s.link.inFlight)
    (held : t.resetHeld = s.resetHeld) : Sound strict t := by
  refine ⟨?_, fun h => mid.trans (sound.idle (run ▸ h)), fun h => ?_, fun h => ?_⟩
  · rw [pool, mid, reads, held]; exact sound.pool
  · rw [pool]; exact sound.drained (run ▸ h)
  · rw [pool, reads, held]; exact sound.reads h

/-- An event in RUNNING that takes or completes no read. -/
theorem Sound.running (sound : Sound strict s)
    (pool : PoolSound strict (Counted s.resetHeld s.link.inFlight) t.pool t.mid) (run : t.monitor.run = .running)
    (reads : t.link.inFlight = s.link.inFlight) (held : t.resetHeld = s.resetHeld)
    (blocks : t.pool.blocks = s.pool.blocks) : Sound strict t := by
  refine ⟨by rw [reads, held]; exact pool, fun h => absurd run h, fun h => ?_, fun h => ?_⟩
  · rw [run] at h; cases h
  · rw [reads, held, blocks]; exact sound.reads h

theorem mid_congr (slots : slotPlaces t.ingest.slots = slotPlaces s.ingest.slots := by rfl)
    (queue : queuePlaces t.queue.entries = queuePlaces s.queue.entries := by rfl)
    (air : airPlaces t.air = airPlaces s.air := by rfl) : t.mid = s.mid := by
  rw [State.mid, slots, queue, air, State.mid]

theorem perm_front₂ {α : Type} (a b c : List α) (x : α) : (a ++ (b ++ x :: c)).Perm (x :: (a ++ (b ++ c))) := by
  rw [← List.append_assoc, ← List.append_assoc]
  exact List.perm_middle

theorem mid_perm_of_air {a : List (Nat × Place)} {x : Nat × Place} (air : (airPlaces s.air).Perm (x :: a)) :
    s.mid.Perm (x :: (slotPlaces s.ingest.slots ++ (queuePlaces s.queue.entries ++ a))) :=
  ((air.append_left _).append_left _).trans (perm_front₂ ..)

theorem mid_perm_of_head {e : Entry} {rest : List Entry} (head : s.queue.entries = e :: rest) :
    s.mid.Perm ((e.block, .queued e.isPartial) ::
      (slotPlaces s.ingest.slots ++ (queuePlaces rest ++ airPlaces s.air))) := by
  rw [State.mid, head]
  exact List.perm_middle

theorem mid_perm_of_parts {removed kept : List Entry}
    (parts : s.queue.entries.Perm (removed ++ kept)) :
    s.mid.Perm (queuePlaces removed ++ (slotPlaces s.ingest.slots ++ (queuePlaces kept ++ airPlaces s.air))) := by
  have queue : (queuePlaces s.queue.entries).Perm (queuePlaces removed ++ queuePlaces kept) :=
    queuePlaces_append removed kept ▸ parts.map _
  refine ((queue.append_right _).append_left _).trans ?_
  rw [List.perm_iff_count]
  intro x
  simp only [List.count_append]
  omega

/-- A run of entries leaves and its blocks are freed, what stands before the held blocks apart. -/
theorem PoolSound.cut {C : Nat → Nat → Prop} {limbo : List (Nat × Place)} {removed kept : List Entry} {q : Queue}
    (sound : PoolSound strict C s.pool (limbo ++ s.mid))
    (parts : s.queue.entries = removed ++ kept ∨ s.queue.entries = kept ++ removed)
    (stays : q.entries = kept ∨ q.entries = markFirst kept) :
    PoolSound strict C (s.cut removed kept q).pool (limbo ++ (s.cut removed kept q).mid) := by
  have perm : s.queue.entries.Perm (removed ++ kept) := by
    rcases parts with parts | parts <;> rw [parts]
    exact List.perm_append_comm
  have left : queuePlaces q.entries = queuePlaces kept := by
    rcases stays with stays | stays <;> rw [stays]
    exact queuePlaces_markFirst kept
  have front := (sound.perm ((mid_perm_of_parts perm).append_left limbo)).perm
    (List.perm_append_comm_assoc ..)
  have freed := front.freeBlocks fun _ => uncounted_queuePlaces
  rw [queuePlaces_blocks] at freed
  have mid : (s.cut removed kept q).mid =
      slotPlaces s.ingest.slots ++ (queuePlaces kept ++ airPlaces s.air) := by
    rw [← left]; rfl
  rw [mid]
  exact freed

theorem RunEvent.keeps_sound (e : RunEvent s t) (sound : Sound strict s) : Sound strict t := by
  cases e with
  | air a run slotA slotB =>
    exact sound.same rfl (mid_congr (air := airPlaces_congr slotA slotB)) rfl rfl rfl
  | leave slot b run bound =>
    have air := airPlaces_setBinding s.air slot b
    rw [Air.setBinding_of_binding bound] at air
    exact sound.running (sound.pool.perm (mid_perm_of_air air)).leaveBlock run rfl rfl
      (congrArg Prod.snd (s.pool.leaveBlock_dims b.block))
  | bind slot e q b a run head free unbound key slotA slotB =>
    have air := airPlaces_setBinding a slot b
    have before : airPlaces (a.setBinding slot none) = airPlaces s.air := by
      rw [← Air.setBinding_of_binding unbound]
      cases slot <;> exact airPlaces_congr (by simp [Air.setBinding, slotA]) (by simp [Air.setBinding, slotB])
    obtain ⟨block, part⟩ := Prod.mk.inj key
    rw [before, block, part] at air
    have pool := (sound.pool.perm (mid_perm_of_head head)).airBlock
    exact sound.running (pool.perm (mid_perm_of_air (s := (((s.setQueue q).setAir
      (a.setBinding slot (some b))).setPool (s.pool.airBlock e.block))) air).symm) run rfl rfl rfl
  | dropHead e rest run head free =>
    have pool := sound.pool.perm (mid_perm_of_head head)
    exact sound.running (pool.free ((pool.fits List.mem_cons_self).zero rfl)) run rfl rfl rfl
  | discard slots each =>
    refine sound.same rfl (mid_congr (slots := slotPlaces_eq_of_blocks fun k => ?_)) rfl rfl rfl
    rcases each k with eq | eq
    · exact congrArg IngestSlot.block eq
    · exact (congrArg IngestSlot.block eq).trans (block_discarded _)
  | freeSlot k b run held =>
    have pool := sound.pool.perm ((slotPlaces_held s held (sl := .empty) rfl).append_right _)
    exact sound.running (pool.free ((pool.fits List.mem_cons_self).zero rfl)) run rfl rfl rfl
  | cut removed kept q run parts stays =>
    exact sound.running (PoolSound.cut (limbo := []) sound.pool parts stays) run rfl rfl
      (Pool.freeBlocks_blocks _ _)
  | cutHold h splice run =>
    have parts : s.queue.entries.Perm (s.holdRun h ++ (beforeRun h s.queue.entries ++ afterRun h s.queue.entries)) := by
      rw [beforeRun_append_afterRun]
      exact (List.filter_append_perm (Entry.tagged h) s.queue.entries).symm
    have freed := (sound.pool.perm (mid_perm_of_parts parts)).freeBlocks fun _ => uncounted_queuePlaces
    rw [queuePlaces_blocks] at freed
    have mid : (s.cutHold h splice).mid = slotPlaces s.ingest.slots ++
        (queuePlaces (beforeRun h s.queue.entries ++ afterRun h s.queue.entries) ++ airPlaces s.air) := by
      rw [queuePlaces_append, ← queuePlaces_markFirst (afterRun h s.queue.entries), ← queuePlaces_append]
      rfl
    exact sound.running (mid ▸ freed) run rfl rfl (Pool.freeBlocks_blocks _ _)
  | releaseHold h =>
    exact sound.same rfl (mid_congr (queue := queuePlaces_untag h _)) rfl rfl rfl
  | _ => exact sound.same rfl rfl rfl rfl rfl

/-! ### Reads in flight -/

theorem mem_foldl_addBlock {is set : List Nat} {i : Nat} : i ∈ is.foldl addBlock set ↔ i ∈ set ∨ i ∈ is := by
  induction is generalizing set with
  | nil => simp
  | cons j rest ih =>
    rw [List.foldl_cons, ih, addBlock, List.mem_cons]
    split
    next known =>
      have known : j ∈ set := by simpa using known
      exact ⟨fun h => h.imp_right .inr, fun h => h.elim .inl fun h => h.elim (fun same => .inl (same ▸ known)) .inr⟩
    next => simp [or_assoc]

theorem nodup_foldl_addBlock {is set : List Nat} (nodup : set.Nodup) : (is.foldl addBlock set).Nodup := by
  induction is generalizing set with
  | nil => exact nodup
  | cons j rest ih =>
    refine ih ?_
    unfold addBlock
    split
    next => exact nodup
    next new => exact List.nodup_append.2 ⟨nodup, List.nodup_singleton j, fun a ha b hb same => new (by simp_all)⟩

theorem mem_readBlocks {addrs : List Nat} {i : Nat} :
    i ∈ s.readBlocks addrs ↔ ∃ a ∈ addrs, s.readBlock a = some i := by
  simp [State.readBlocks, mem_foldl_addBlock]

theorem nodup_readBlocks (addrs : List Nat) : (s.readBlocks addrs).Nodup := nodup_foldl_addBlock List.nodup_nil

/-- A READ is taken on bound blocks only. -/
theorem bound_of_mem_readBlocks {addrs : List Nat} {i : Nat} (mem : i ∈ s.readBlocks addrs) :
    ∃ b, (i, .air b) ∈ s.mid := by
  obtain ⟨a, -, block⟩ := mem_readBlocks.1 mem
  unfold State.readBlock at block
  split at block
  next slot _ _ =>
    obtain ⟨b, bound, rfl⟩ := Option.map_eq_some_iff.1 block
    refine ⟨b.isPartial, List.mem_append_right _ (List.mem_append_right _ ?_)⟩
    rw [airPlaces_eq]
    refine List.mem_map_of_mem (f := fun b : Binding => (b.block, Place.air b.isPartial)) ?_
    cases slot with
    | a => exact List.mem_append_left _ (Option.mem_toList.2 bound)
    | b => exact List.mem_append_right _ (Option.mem_toList.2 bound)
  next => cases block

/-- Outside RUNNING, with nothing retired, every count is 0. -/
theorem Sound.counted_zero (sound : Sound strict s) (run : s.monitor.run ≠ .running) (retire : s.pool.retire = [])
    (h : strict) {i : Nat} (lt : i < s.pool.blocks) : Counted s.resetHeld s.link.inFlight i 0 :=
  PoolSound.zero_of_idle (sound.idle run ▸ sound.pool) retire h lt

/-- Outside RUNNING, with nothing retired, no read in flight was taken on a block. -/
theorem Sound.blocks_eq_nil (sound : Sound strict s) (run : s.monitor.run ≠ .running) (retire : s.pool.retire = [])
    (h : strict) (held : s.resetHeld = false) {e : InFlight} (he : e ∈ s.link.inFlight) : e.blocks = [] := by
  refine List.eq_nil_iff_forall_not_mem.2 fun i hi => ?_
  have zero := sound.counted_zero run retire h ((sound.reads h held e he).2 i hi) held
  have mem : e ∈ s.link.inFlight.filter fun e => e.blocks.contains i := List.mem_filter.2 ⟨he, by simpa using hi⟩
  rw [List.length_eq_zero_iff.1 zero.symm] at mem
  cases mem

/-- A pool made anew outside RUNNING, with nothing retired. -/
theorem Sound.fresh (sound : Sound strict s) (run : s.monitor.run ≠ .running) (retire : s.pool.retire = [])
    (tiles blocks : Nat) : PoolSound strict (Counted s.resetHeld s.link.inFlight) (Pool.fresh tiles blocks) [] := by
  refine poolSound_fresh tiles blocks fun h i _ held => ?_
  have none : (s.link.inFlight.filter fun e => e.blocks.contains i) = [] :=
    List.filter_eq_nil_iff.2 fun e he => by simp [sound.blocks_eq_nil run retire h held he]
  rw [none]
  rfl

theorem counted_append {held : Bool} {reads : List InFlight} {e : InFlight} {i c : Nat}
    (counted : Counted held reads i c) : Counted held (reads ++ [e]) i (c + if i ∈ e.blocks then 1 else 0) := by
  intro live
  rw [counted live, List.filter_append, List.length_append]
  by_cases mem : i ∈ e.blocks <;> simp [mem]

theorem Sound.acceptRead (sound : Sound strict s) (addrs : List Nat) (tag : BitVec 6) (results : List LineResult) :
    Sound strict ((s.pushInFlight (.accepted tag results (s.readBlocks addrs))).setPool
      (s.pool.takeReads (s.readBlocks addrs))) := by
  have blocks : (s.pool.takeReads (s.readBlocks addrs)).blocks = s.pool.blocks :=
    congrArg Prod.snd (s.pool.takeReads_dims (s.readBlocks addrs))
  have counts : ∀ i c, Counted s.resetHeld s.link.inFlight i c →
      Counted s.resetHeld (s.link.inFlight ++ [.accepted tag results (s.readBlocks addrs)]) i
        (c + if i ∈ s.readBlocks addrs then 1 else 0) := fun _ _ => counted_append
  refine ⟨?_, sound.idle, fun h => (s.pool.takeReads_retire _).trans (sound.drained h), fun h held e he => ?_⟩
  · refine sound.pool.takeReads (nodup_readBlocks addrs) (fun i => bound_of_mem_readBlocks) (fun i hi c counted => ?_)
      fun i c hi counted => ?_
    · have := counts i c counted
      rwa [if_pos hi] at this
    · have := counts i c counted
      rwa [if_neg hi] at this
  · change e ∈ s.link.inFlight ++ _ at he
    change _ ∧ ∀ i ∈ e.blocks, i < (s.pool.takeReads (s.readBlocks addrs)).blocks
    rw [blocks]
    rcases List.mem_append.1 he with he | he
    · exact sound.reads h held e he
    · rw [List.mem_singleton.1 he]
      refine ⟨nodup_readBlocks addrs, fun i hi => ?_⟩
      obtain ⟨b, mem⟩ := bound_of_mem_readBlocks hi
      exact sound.pool.lt mem

theorem Sound.complete (sound : Sound strict s) {e : InFlight} {rest : List InFlight} (sent : List Completion)
    (oldest : s.link.inFlight = e :: rest) :
    Sound strict ((s.setLink { s.link with inFlight := rest, sent := sent }).setPool (s.pool.completeReads e.blocks)) := by
  have blocks : (s.pool.completeReads e.blocks).blocks = s.pool.blocks :=
    congrArg Prod.snd (s.pool.completeReads_dims e.blocks)
  have mid : ((s.setLink { s.link with inFlight := rest, sent := sent }).setPool
      (s.pool.completeReads e.blocks)).mid = s.mid := rfl
  refine ⟨?_, sound.idle, fun h => Pool.completeReads_retire (sound.drained h) _, fun h held f hf => ?_⟩
  · have pool := sound.pool
    rw [oldest] at pool
    rw [mid]
    change PoolSound strict (Counted s.resetHeld rest) (s.pool.completeReads e.blocks) s.mid
    by_cases live : strict ∧ s.resetHeld = false
    · obtain ⟨nodup, -⟩ := sound.reads live.1 live.2 e (oldest ▸ List.mem_cons_self)
      have count : ∀ i, ((e :: rest).filter fun e => e.blocks.contains i).length =
          (rest.filter fun e => e.blocks.contains i).length + if i ∈ e.blocks then 1 else 0 := fun i => by
        by_cases mem : i ∈ e.blocks <;> simp [mem]
      refine pool.completeReads (not_retiring_mid s) nodup (fun i hi c counted held => ?_) fun i c hi counted held => ?_
      · rw [counted held, count, if_pos hi, Nat.add_sub_cancel]
      · rw [counted held, count, if_neg hi, Nat.add_zero]
    · have all : PoolSound strict (fun _ _ => True) s.pool s.mid := pool.mono fun _ _ _ _ => trivial
      exact (all.completeReads_of_all (not_retiring_mid s) fun _ _ => trivial).mono
        fun h _ _ _ held => absurd ⟨h, held⟩ live
  · change _ ∧ ∀ i ∈ f.blocks, i < (s.pool.completeReads e.blocks).blocks
    rw [blocks]
    exact sound.reads h held f (oldest ▸ List.mem_cons_of_mem _ hf)

/-! ### The events of the other parts -/

theorem slotPlaces_allocated (s : State) {k : Fin 4} {b : Nat} (empty : s.slot k = .empty) {sl : IngestSlot}
    (block : sl.block = some b) :
    (slotPlaces (s.ingest.slots.set k sl)).Perm ((b, .ingest) :: slotPlaces s.ingest.slots) := by
  obtain ⟨rest, perm⟩ := slotPlaces_set s.ingest.slots k
  have full := perm sl
  have none := perm (s.slot k)
  rw [slotPlaces_slot, empty] at none
  rw [block] at full
  exact full.trans (none.symm.cons _)

theorem PoolSound.cutForGuard {C : Nat → Nat → Prop} {limbo : List (Nat × Place)} (q : Seq)
    (sound : PoolSound strict C s.pool (limbo ++ s.mid)) :
    PoolSound strict C (s.cutForGuard q).pool (limbo ++ (s.cutForGuard q).mid) := by
  unfold State.cutForGuard
  split
  next => exact sound
  next => exact sound.cut (.inl (guardRemoved_append_guardKept q _).symm) (.inr rfl)

theorem Sound.commit (sound : Sound strict s) {k : Fin 4} {b : Nat} {w : List Nat} {first : Seq}
    (run : s.monitor.run = .running) (filling : s.slot k = .filling b w first) (w' : List Nat) (data : Line)
    (gap : Byte) : Sound strict (s.commitBare k b w' data gap) := by
  have held : (s.slot k).block = some b := by rw [filling]; rfl
  have slot := (slotPlaces_held s held (sl := .empty) rfl).append_right (queuePlaces s.queue.entries ++ airPlaces s.air)
  have limbo := (sound.pool.perm slot).commitBlock (missingTiles s.pool.tiles w')
  have guarded := PoolSound.cutForGuard (s := s.leaveForQueue k b w' data) (limbo := [_]) (recordSeq data) limbo
  have joined : ∀ (u : State) (e : Entry), (u.joinTail e).mid.Perm ((e.block, .queued e.isPartial) :: u.mid) := by
    intro u e
    have mid : (u.joinTail e).mid = slotPlaces u.ingest.slots ++
        ((queuePlaces u.queue.entries ++ [(e.block, .queued e.isPartial)]) ++ airPlaces u.air) := by
      rw [← show queuePlaces [{ e with spliceIn := u.queue.splicePending, hold := u.openHold.map (·.id) }] =
        [(e.block, Place.queued e.isPartial)] from rfl, ← queuePlaces_append]
      rfl
    rw [mid, List.append_assoc]
    exact perm_front₂ ..
  obtain ⟨p, i, x, h, eq⟩ := s.commitBare_frame k b w' data gap
  have perm := joined ((s.leaveForQueue k b w' data).cutForGuard (recordSeq data)) (s.entryOf b w' data gap)
  refine sound.running (guarded.perm perm.symm) ?_ ?_ ?_ (congrArg Prod.snd (State.cutForGuard_dims _ _))
  all_goals rw [eq]
  · exact run
  · rfl
  · rfl

theorem Sound.configure (sound : Sound strict s) {a : ConfigureArgs} {rate : RateCode}
    (run : s.monitor.run = .stopped) (checked : s.configureRate a = some rate) :
    Sound strict (s.cmdConfigure a).1 := by
  have idle : s.monitor.run ≠ .running := by rw [run]; decide
  have retire := sound.drained run
  have empty := sound.idle idle
  rw [s.cmdConfigure_frame a rate checked]
  refine ⟨?_, fun _ => empty, fun _ => ?_, fun h held e he => ?_⟩
  · change PoolSound strict (Counted s.resetHeld s.link.inFlight) (s.pool.configured _ _) s.mid
    unfold Pool.configured
    split
    next => exact sound.pool
    next => rw [empty]; exact sound.fresh idle retire _ _
  · change (s.pool.configured _ _).retire = []
    unfold Pool.configured
    split
    next => exact retire
    next => rfl
  · rw [sound.blocks_eq_nil idle retire h held he]
    exact ⟨List.nodup_nil, nofun⟩

theorem PoolSound.leaveSlot {C : Nat → Nat → Prop} (sound : PoolSound strict C s.pool (airPlaces s.air))
    (slot : EgressSlot) : PoolSound strict C (s.leaveSlot slot).pool (airPlaces (s.leaveSlot slot).air) := by
  unfold State.leaveSlot
  split
  next => exact sound
  next b bound =>
    have air := airPlaces_setBinding s.air slot b
    rw [Air.setBinding_of_binding bound] at air
    exact (sound.perm air).leaveBlock

theorem leaveBoth_unbound (s : State) : s.leaveBoth.air.slotA = none ∧ s.leaveBoth.air.slotB = none := by
  refine ⟨?_, State.leaveSlot_binding _ .b⟩
  have left : (s.leaveSlot .a).air.binding .a = none := s.leaveSlot_binding .a
  unfold State.leaveBoth State.leaveSlot
  split
  next => exact left
  next => exact left

theorem Sound.tearDown (sound : Sound strict s) : Sound strict s.tearDown := by
  obtain ⟨slotA, slotB⟩ := leaveBoth_unbound s.clearQueue.endSlots
  have run : s.tearDown.monitor.run = .stopping := by simp [State.tearDown]
  have mid : s.tearDown.mid = [] := by
    have slots : slotPlaces s.tearDown.ingest.slots = [] := by
      rw [show s.tearDown.ingest.slots = Vector.replicate 4 .empty by simp [State.tearDown, State.endSlots]]; rfl
    have queue : queuePlaces s.tearDown.queue.entries = [] := by
      rw [show s.tearDown.queue = Queue.start by simp [State.tearDown, State.clearQueue]]; rfl
    have air : airPlaces s.tearDown.air = [] := by
      simp [State.tearDown, airPlaces, slotA, slotB]
    rw [State.mid, slots, queue, air]; rfl
  have cleared : PoolSound strict (Counted s.resetHeld s.link.inFlight) s.clearQueue.pool
      (slotPlaces s.ingest.slots ++ airPlaces s.air) := by
    have front := sound.pool.perm (mid_perm_of_parts (s := s) (kept := []) (by rw [List.append_nil]))
    have freed := front.freeBlocks fun _ => uncounted_queuePlaces
    rwa [queuePlaces_blocks] at freed
  have ended : PoolSound strict (Counted s.resetHeld s.link.inFlight) s.clearQueue.endSlots.pool
      (airPlaces s.clearQueue.endSlots.air) := by
    have freed := cleared.freeBlocks fun _ => uncounted_slotPlaces
    rwa [slotPlaces_blocks] at freed
  have left : PoolSound strict (Counted s.resetHeld s.link.inFlight) s.tearDown.pool s.tearDown.mid := by
    have both := (ended.leaveSlot .a).leaveSlot .b
    have none : airPlaces ((s.clearQueue.endSlots.leaveSlot .a).leaveSlot .b).air = [] := by
      change airPlaces s.clearQueue.endSlots.leaveBoth.air = []
      rw [airPlaces, slotA, slotB]; rfl
    have pool : s.tearDown.pool = ((s.clearQueue.endSlots.leaveSlot .a).leaveSlot .b).pool := by
      simp [State.tearDown, State.leaveBoth]
    rw [mid, pool]
    exact none ▸ both
  refine ⟨?_, fun _ => mid, fun stopped => ?_, fun h => ?_⟩
  · rw [State.tearDown_resetHeld, State.tearDown_link]; exact left
  · rw [run] at stopped; cases stopped
  · rw [State.tearDown_resetHeld, State.tearDown_link, State.tearDown_pool_blocks]; exact sound.reads h

theorem Sound.reset (s : State) (straps : Straps) : Sound strict (s.resetBlocks straps) :=
  ⟨poolSound_fresh _ _ fun _ _ _ _ => rfl, fun _ => rfl, fun _ => rfl, fun _ _ _ he => by cases he⟩

theorem Sound.start (sound : Sound strict s) (run : s.monitor.run = .stopped) (target : Nat) (cond : AirCond) :
    Sound strict (s.startRun target cond) := by
  have idle : s.monitor.run ≠ .running := by rw [run]; decide
  refine sound.running ?_ ?_ ?_ ?_ ?_
  · rw [State.startRun_pool, show (s.startRun target cond).mid = [] by
      rw [State.mid, State.startRun_ingest, State.startRun_queue, State.startRun_air]; rfl]
    exact sound.fresh idle (sound.drained run) _ _
  · rw [State.startRun_monitor]
  · rw [State.startRun_link]
  · rw [State.startRun_resetHeld]
  · rw [State.startRun_pool]; rfl

theorem Sound.engineReset (sound : Sound strict s) (run : s.monitor.run ≠ .running) : Sound strict s.engineReset := by
  refine sound.same s.engineReset_pool ?_ ?_ ?_ s.engineReset_resetHeld
  · rw [sound.idle run, State.mid, State.engineReset_ingest, State.engineReset_queue, State.engineReset_air]; rfl
  · rw [State.engineReset_monitor]
  · rw [State.engineReset_link]

theorem Event.keeps_sound (e : Event s t) (sound : Sound strict s) : Sound strict t := by
  cases e with
  | run e => exact e.keeps_sound sound
  | reset straps => exact Sound.reset s straps
  | assertReset =>
    exact ⟨sound.pool.mono fun _ _ _ _ => nofun, sound.idle, sound.drained, fun _ => nofun⟩
  | refuseRead tag =>
    refine ⟨sound.pool.mono fun _ i c counted => ?_, sound.idle, sound.drained, fun h held e he => ?_⟩
    · have := counted_append (e := .refused tag) counted
      rwa [if_neg (show i ∉ (InFlight.refused tag).blocks from List.not_mem_nil)] at this
    · rcases List.mem_append.1 he with he | he
      · exact sound.reads h held e he
      · rw [List.mem_singleton.1 he]
        exact ⟨List.nodup_nil, nofun⟩
  | acceptRead addrs tag results => exact sound.acceptRead addrs tag results
  | complete e rest sent oldest => exact sound.complete sent oldest
  | drained run retire =>
    have idle : s.monitor.run ≠ .running := by rw [run]; decide
    have empty := sound.idle idle
    refine ⟨?_, fun _ => empty, fun _ => rfl, sound.reads⟩
    change PoolSound strict (Counted s.resetHeld s.link.inFlight) s.pool.rebuild s.mid
    rw [empty]
    exact sound.fresh idle retire _ _
  | line a l =>
    refine sound.same (s.setDram_pool _) (mid_congr ?_ ?_ ?_) ?_ ?_ (s.setDram_resetHeld _)
    · rw [State.setDram_ingest]
    · rw [State.setDram_queue]
    · rw [State.setDram_air]
    · rw [State.setDram_monitor]
    · rw [State.setDram_link]
  | bindSlot k i p w run empty given =>
    have perm := (slotPlaces_allocated s empty (sl := .filling i w s.air.serve) rfl).append_right
      (queuePlaces s.queue.entries ++ airPlaces s.air)
    exact sound.running ((sound.pool.allocate given).perm perm.symm) run rfl rfl (congrArg Prod.snd (allocate_dims given))
  | overrun k empty => exact sound.same rfl (mid_congr (slots := slotPlaces_setSlot s k (by rw [empty]; rfl))) rfl rfl rfl
  | endOverrun k overrun =>
    exact sound.same rfl (mid_congr (slots := slotPlaces_setSlot s k (by rw [overrun]; rfl))) rfl rfl rfl
  | addLine k b w w' first filling =>
    exact sound.same rfl (mid_congr (slots := slotPlaces_setSlot s k (by rw [filling]; rfl))) rfl rfl rfl
  | commit k b w w' first data gap run filling => exact sound.commit run filling w' data gap
  | configure a rate run checked => exact sound.configure run checked
  | start target cond run => exact sound.start run target cond
  | tearDown => exact sound.tearDown
  | engineReset run => exact sound.engineReset run
  | _ => exact sound.same rfl rfl rfl rfl rfl

end

/-- Settles O53: by the events, in the terms of `Sound` without the counts. -/
theorem blocksPlacedKept : Obligations.BlocksPlacedKept :=
  kept_of_events (fun _ _ placed => placed) fun s t e placed =>
    (blocksPlaced_iff t).2 (e.keeps_sound ((blocksPlaced_iff s).1 placed))

/-- Settles O54: by the events, in the terms of `Sound` with the counts. -/
theorem readCountsKept : Obligations.ReadCountsKept :=
  kept_of_events (fun _ _ sound => sound) fun s t e sound =>
    (readsSound_iff t).2 (e.keeps_sound ((readsSound_iff s).1 sound))

end Sys2Proof.Machine
end

