-- ==== Sys2Proof/Proofs/Resets.lean ====
section
/-! The step, the reset kinds and calibration (R159 to R165), and the silence while LINK_READY is low. -/

namespace Sys2Proof.Machine

open Sys2Proof Sys2Proof.Safety

/-- Settles O1: both by the step's own cases on the queue. -/
theorem stepRunsFrontCommand : Obligations.StepRunsFrontCommand := by
  refine ⟨fun c rest s => rfl, fun s empty => ?_⟩
  rw [step, empty]

/-! ### The link while it takes nothing (R18, R36) -/

theorem exec_rowOf (num : Byte) (c : Command) (s : State) : exec (rowOf num c) s = .next (s.readCommand num c) := by
  cases c <;> rfl

theorem State.readCommand_of_not_listening {s : State} (deaf : s.listening = false) (num : Byte) (c : Command) :
    s.readCommand num c = s := by
  rw [State.readCommand, deaf, if_neg Bool.false_ne_true]

theorem State.canTake_eq_false {s : State} (closed : s.takesRequests = false) (r : Request) : s.canTake r = false := by
  cases r <;> simp [State.canTake, closed]

/-- Requests that cannot be taken wait, in their order. -/
theorem State.takeRequests_of_blocked {s : State} {r : Request} {rest : List Request} (blocked : s.canTake r = false) :
    s.takeRequests (r :: rest) = s.setWaiting (r :: rest) := by
  rw [State.takeRequests, blocked, if_neg Bool.false_ne_true]

theorem State.arrive_of_closed {s : State} (closed : s.takesRequests = false) (r : Request) :
    s.arrive r = s.setWaiting (s.link.waiting ++ [r]) := by
  unfold State.arrive
  cases s.link.waiting with
  | nil => exact State.takeRequests_of_blocked (State.canTake_eq_false closed r)
  | cons w rest => exact State.takeRequests_of_blocked (State.canTake_eq_false closed w)

/-- Settles O3: row by row; every row but those excepted asks for LINK_READY. -/
theorem linkDownCommandsOnlyWait : Obligations.LinkDownCommandsOnlyWait := by
  intro c s down notPowerOn notPin attempt
  have closed : s.takesRequests = false := by simp [State.takesRequests, down]
  have deaf : s.listening = false := by simp [State.listening, down]
  have idle : s = { s with link := { s.link with waiting := s.link.waiting ++ [] } } := by rw [List.append_nil]
  have command : ∀ num d, exec (rowOf num d) s =
      .next { s with link := { s.link with waiting := s.link.waiting ++ [] } } := fun num d => by
    rw [exec_rowOf, State.readCommand_of_not_listening deaf]
    exact congrArg _ idle
  have press : ∀ line, s.press line = s := fun line => by simp [State.press, down]
  have halted : s.inRun = false := by simp [State.inRun, down]
  cases c with
  | read a n tag => exact congrArg _ (State.arrive_of_closed closed _)
  | write a data check => exact congrArg _ (State.arrive_of_closed closed _)
  | readCompletion =>
    refine Eq.trans ?_ (congrArg _ idle)
    change execReadCompletion s = _
    unfold execReadCompletion
    split
    next => rfl
    next => rw [down, if_neg Bool.false_ne_true]
  | configure num a => exact command num (.configure a)
  | start num t m => exact command num (.start t m)
  | stop num => exact command num .stop
  | setTarget num t => exact command num (.setTarget t)
  | setControl num a => exact command num (.setControl a)
  | dump num => exact command num .dump
  | holdOpen num => exact command num .holdOpen
  | holdClose num => exact command num .holdClose
  | release num h => exact command num (.release h)
  | dumpHold num h => exact command num (.dumpHold h)
  | clearFaults num k => exact command num (.clearFaults k)
  | resetEngine num => exact command num .resetEngine
  | resetPart num r => exact command num (.resetPart r)
  | resetProper pins =>
    refine Eq.trans ?_ (congrArg _ idle)
    change execResetProper pins s = _
    unfold execResetProper
    split
    next => rfl
    next => rw [if_neg (by simp [down])]
  | powerOn pins => exact absurd rfl (notPowerOn pins)
  | resetPin edge => exact absurd rfl (notPin edge)
  | calibrationAttempt passed n =>
    refine Eq.trans (if_neg ?_) (congrArg _ idle)
    rintro ⟨cal, free⟩
    rcases attempt with other | done | held
    · exact other passed n rfl
    · exact done cal
    · simp [held] at free
  | refEdge m => exact (if_neg (by simp [down])).trans (congrArg _ idle)
  | refLost m => exact (if_neg (by simp [down])).trans (congrArg _ idle)
  | generatedTick m => exact (if_neg (by simp [down])).trans (congrArg _ idle)
  | slotTimeout => exact (if_neg (by simp [halted])).trans (congrArg _ idle)
  | stallExpired => exact (if_neg (by simp [halted])).trans (congrArg _ idle)
  | freezeLimit =>
    refine Eq.trans ?_ (congrArg _ idle)
    change execFreezeLimit s = _
    unfold execFreezeLimit
    split
    next => rfl
    next => rw [halted, if_neg Bool.false_ne_true]
  | blinkPhase => exact (if_neg (by simp [down])).trans (congrArg _ idle)
  | dumpPress => exact congrArg _ ((press .dump).trans idle)
  | holdPress => exact congrArg _ ((press .hold).trans idle)
  | releasePress => exact congrArg _ ((press .release).trans idle)
  | consoleSample line high => exact (if_neg (by simp [down])).trans (congrArg _ idle)

/-! ### The reset values (R165) -/

theorem RateCode.code_ofLevel (level : Fin 4) : (RateCode.ofLevel level).code = BitVec.ofNat 8 level.val := by
  revert level
  decide

theorem Settings.default_eq_tableSettings (pins : Straps) : Settings.default pins (Pool.default pins.mem) =
    tableSettings (min (strapFrames pins.rate pins.delay) (tableBlocks pins.mem - 8)) := by
  rw [← Pool.default_maxTarget, ← Settings.default_target]
  rfl

theorem atReset_resetBlocks (s : State) (pins : Straps) : AtReset (s.resetBlocks pins) pins := by
  have blocks := defaultBlocks_eq_tableBlocks pins.mem
  have pool : (s.resetBlocks pins).pool = Pool.fresh 64 (tableBlocks pins.mem) := by rw [← blocks]; rfl
  unfold AtReset
  rw [pool]
  exact ⟨rfl, rfl, rfl, rfl, rfl, rfl, rfl, rfl, rfl, rfl, rfl, rfl, rfl, rfl, rfl, rfl, rfl, rfl, rfl, rfl,
    RateCode.code_ofLevel pins.rate, Settings.default_eq_tableSettings pins, rfl, rfl⟩

theorem State.alert_eq_false {s : State} (flags : s.readout.flags = 0) (live : s.store.cal ≠ .failed) :
    s.alert = false := by
  simp [State.alert, flags, live]

/-- Settles O4: both resets set every block at once; the assertion is the five updates it names. -/
theorem powerOnAndResetPin : Obligations.PowerOnAndResetPin :=
  ⟨fun pins s => ⟨⟨s.resetBlocks pins, rfl, atReset_resetBlocks s pins, rfl, rfl, rfl, rfl⟩,
    ⟨s.resetBlocks pins, rfl, atReset_resetBlocks s pins, rfl, rfl, rfl, rfl⟩⟩,
   fun s => ⟨s.assertReset, rfl, rfl, State.alert_eq_false rfl CalState.noConfusion⟩⟩

theorem exec_resetProper_of_drained {s : State} {resample : Bool} (ready : s.link.ready = true)
    (asked : s.monitor.resetPart = some resample) (drained : s.link.inFlight = []) (pins : Straps) :
    exec (.resetProper pins) s = .next (s.resetBlocks (if resample then pins else s.straps)) := by
  change execResetProper pins s = _
  simp only [execResetProper, asked, ready, drained, and_self, if_true]
  rfl

/-- Settles O6: the drain's end and the request decide. -/
theorem resetProperResets : Obligations.ResetProperResets := by
  refine ⟨fun pins resample s ready asked drained => ⟨_, exec_resetProper_of_drained ready asked drained pins,
    atReset_resetBlocks s _, rfl, rfl, rfl⟩, fun pins s undrained => ?_⟩
  change execResetProper pins s = _
  unfold execResetProper
  split
  next => rfl
  next asked =>
    refine if_neg fun ⟨_, drained⟩ => ?_
    rcases undrained with none | reads
    · rw [none] at asked; cases asked
    · exact reads drained

/-! ### Calibration (R161) -/

theorem exec_calibrationAttempt_of_calibrating {s : State} (cal : s.store.cal = .calibrating)
    (free : s.resetHeld = false) (passed : Bool) (n : Nat) :
    exec (.calibrationAttempt passed n) s = .next (s.attempt passed (max s.gen.osc n)) :=
  if_pos ⟨cal, by simp [free]⟩

theorem Store.afterAttempt_attempts (c : Store) (passed : Bool) : (c.afterAttempt passed).attempts = c.attempts + 1 := by
  unfold Store.afterAttempt
  dsimp only
  split
  next => rfl
  next => split <;> rfl

theorem Store.afterAttempt_failed_full {c : Store} (rate : c.rate = .full) : c.afterAttempt false =
    { c with rate := if c.attempts + 1 < 3 then .full else .half, attempts := c.attempts + 1 } := by
  simp [Store.afterAttempt, rate]

theorem Store.afterAttempt_failed_half {c : Store} (rate : c.rate = .half) : c.afterAttempt false =
    { c with cal := if c.attempts + 1 < 6 then .calibrating else .failed, attempts := c.attempts + 1 } := by
  simp [Store.afterAttempt, rate]

/-- Settles O7: a pass opens the link, a fail counts the attempt at its rate. -/
theorem calibrationAttemptOutcome : Obligations.CalibrationAttemptOutcome := by
  intro n s cal free
  have ends := exec_calibrationAttempt_of_calibrating cal free
  refine ⟨?_, ⟨_, ends false n, rfl, Store.afterAttempt_attempts _ _, fun full => ?_, fun half => ?_, fun failed => ?_⟩⟩
  · intro quiet opened
    have passed : s.attempt true (max s.gen.osc n) = opened.takeRequests s.link.waiting := rfl
    refine ⟨(ends true n).trans (congrArg _ passed), fun none => (ends true n).trans (congrArg _ ?_)⟩
    have waiting : opened.link.waiting = [] := none
    rw [passed, none]
    change opened.setWaiting [] = opened
    rw [← waiting]
    rfl
  · change (s.store.afterAttempt false).cal = .calibrating ∧ (s.store.afterAttempt false).rate = _
    rw [Store.afterAttempt_failed_full full]
    exact ⟨cal, rfl⟩
  · change (s.store.afterAttempt false).rate = .half ∧ (s.store.afterAttempt false).cal = _
    rw [Store.afterAttempt_failed_half half]
    exact ⟨half, rfl⟩
  · rw [State.alert, failed]
    simp

/-! ### The state after reset -/

/-- Settles O60: the state after reset is a reset state, and a reset makes every invariant hold. -/
theorem resetStateSound : Obligations.ResetStateSound := by
  have table := atReset_resetBlocks State.reset Config.resetStraps
  have placed := (readsSound_iff _).2 (Sound.reset State.reset Config.resetStraps)
  have settings := settingsInRange_default Config.resetStraps (Pool.default Config.resetStraps.mem)
  have target : (Settings.default Config.resetStraps (Pool.default Config.resetStraps.mem)).target ≤
      (Pool.default Config.resetStraps.mem).maxTarget := min_le_right _ _
  obtain ⟨blocks, records, reads⟩ := placed
  refine ⟨table, rfl, rfl, rfl, rfl, rfl, blocks, records, reads, trivial,
    (holdsSound_iff _).2 (TableSound.empty (n := 1) (by decide)), ?_, ?_, ?_, ?_,
    windowsSound_resetBlocks State.reset Config.resetStraps, ?_⟩
  · exact ⟨⟨target, target⟩, settings, settings, Nat.zero_le _, Nat.zero_le _, Nat.zero_le _, Nat.zero_le _⟩
  · exact ⟨fun _ => RunState.noConfusion, fun _ => rfl⟩
  · exact ⟨Nat.zero_le _, List.nodup_nil⟩
  · exact ⟨Nat.zero_le _, fun i lt => absurd lt (Nat.not_lt_zero i)⟩
  · exact ⟨List.Pairwise.nil, nofun⟩

end Sys2Proof.Machine
end

