-- ==== Sys2Proof/Proofs/Classes.lean ====
section
/-! The classes of line addresses (R26) and the results of READ lines (R29). -/

namespace Sys2Proof.Machine

open Sys2Proof Sys2Proof.Safety

/-! ### Addresses (R1, R17, R38) -/

theorem requestLine_eq (a : Addr) (i : Nat) : requestLine a i = a.toNat - a.toNat % 64 + 64 * i := by
  unfold requestLine
  omega

theorem requestLine_mod (a : Addr) (i : Nat) : requestLine a i % 64 = 0 := by
  unfold requestLine
  omega

theorem dramBytes_eq_tableDram (mem : Fin 4) : dramBytes mem = tableDram mem := by
  revert mem
  decide

theorem State.hostTop_eq (s : State) :
    s.hostTop = tableDram s.straps.mem - s.pool.blocks * (s.pool.tiles * 65536) := by
  rw [← dramBytes_eq_tableDram]; rfl

/-- A line of DRAM as read holds the bytes that stand there. -/
theorem lineAt_readLine (m : List Host.Cell) (a : Nat) : LineAt m a (readLine m a) := by
  intro i lt
  refine BitVec.eq_of_getLsbD_eq fun j hj => ?_
  have bit : 8 * i + j < 512 := by omega
  have byte : (8 * i + j) / 8 = i := by omega
  have off : (8 * i + j) % 8 = j := by omega
  rw [fieldAt, BitVec.getLsbD_extractLsb', readLine, lineOfBytes_getLsbD _ _ bit, byte, off,
    List.getD_eq_getElem _ _ (by simpa [Config.lineBytes] using lt)]
  simp [hj]

/-! ### Classes (R26) -/

theorem inRange_iff {base size x : Nat} : inRange base size x = true ↔ base ≤ x ∧ x < base + size := by
  simp [inRange]

/-- The ingest window takes an address: it is enabled, the part is not STOPPED, and the address lies in it. -/
def State.inIngest (s : State) (x : Nat) : Prop :=
  s.monitor.run ≠ .stopped ∧ s.windows.ingest.toNat ≠ 0 ∧ s.windows.ingest.toNat ≤ x ∧
    x < s.windows.ingest.toNat + 4 * (s.pool.tiles * 65536)

/-- The egress window takes an address. -/
def State.inEgress (s : State) (x : Nat) : Prop :=
  s.monitor.run ≠ .stopped ∧ s.windows.egress.toNat ≠ 0 ∧ s.windows.egress.toNat ≤ x ∧
    x < s.windows.egress.toNat + 2 * (s.pool.tiles * 65536)

/-- An address lies in the 4 KiB page from a base. -/
def inPage (base x : Nat) : Prop := base ≤ x ∧ x < base + 4096

section
variable {s : State} {x : Nat}

theorem ingestTest_iff : (s.monitor.run != .stopped && s.windows.ingest.toNat != 0 &&
    inRange s.windows.ingest.toNat s.pool.ingestBytes x) = true ↔ s.inIngest x := by
  simp only [Bool.and_eq_true, bne_iff_ne, inRange_iff, and_assoc]
  rfl

theorem egressTest_iff : (s.monitor.run != .stopped && s.windows.egress.toNat != 0 &&
    inRange s.windows.egress.toNat s.pool.egressBytes x) = true ↔ s.inEgress x := by
  simp only [Bool.and_eq_true, bne_iff_ne, inRange_iff, and_assoc]
  rfl

theorem classify_of_top (top : s.hostTop ≤ x) : s.classify x = .unclaimed := if_pos top

theorem classify_of_ingest (below : x < s.hostTop) (taken : s.inIngest x) : s.classify x =
    .ingest (Fin.ofNat 4 ((x - s.windows.ingest.toNat) / (s.pool.tiles * 65536)))
      ((x - s.windows.ingest.toNat) % (s.pool.tiles * 65536) / 64) :=
  (if_neg (not_le.2 below)).trans (if_pos (ingestTest_iff.2 taken))

theorem classify_of_egress (below : x < s.hostTop) (ingest : ¬ s.inIngest x) (taken : s.inEgress x) :
    s.classify x = .egress (if (x - s.windows.egress.toNat) / (s.pool.tiles * 65536) = 0 then .a else .b)
      ((x - s.windows.egress.toNat) % (s.pool.tiles * 65536) / 64) :=
  ((if_neg (not_le.2 below)).trans (if_neg (mt ingestTest_iff.1 ingest))).trans (if_pos (egressTest_iff.2 taken))

/-- What an address of neither ring window is below the top. -/
theorem classify_of_pages (below : x < s.hostTop) (ingest : ¬ s.inIngest x) (egress : ¬ s.inEgress x) :
    s.classify x = if inRange s.windows.control.toNat pageBytes x then
        .control ((x - s.windows.control.toNat) / 64)
      else if inRange s.windows.readout.toNat pageBytes x then .readout ((x - s.windows.readout.toNat) / 64)
      else .pass :=
  ((if_neg (not_le.2 below)).trans (if_neg (mt ingestTest_iff.1 ingest))).trans (if_neg (mt egressTest_iff.1 egress))

/-- How an INGEST address stands in the ingest window. -/
theorem ingest_of_classify {k : Fin 4} {j : Nat} (class_eq : s.classify x = .ingest k j) :
    s.inIngest x ∧ k = Fin.ofNat 4 ((x - s.windows.ingest.toNat) / (s.pool.tiles * 65536)) ∧
      j = (x - s.windows.ingest.toNat) % (s.pool.tiles * 65536) / 64 := by
  by_cases below : x < s.hostTop
  · by_cases ingest : s.inIngest x
    · rw [classify_of_ingest below ingest] at class_eq
      injection class_eq with slot line
      exact ⟨ingest, slot.symm, line.symm⟩
    · by_cases egress : s.inEgress x
      · rw [classify_of_egress below ingest egress] at class_eq
        cases class_eq
      · rw [classify_of_pages below ingest egress] at class_eq
        split at class_eq
        next => cases class_eq
        next => split at class_eq <;> cases class_eq
  · rw [classify_of_top (not_lt.1 below)] at class_eq
    cases class_eq

/-- The windows in force, apart from each other and below the top, in the form the classes need. -/
theorem WindowsSound.apart (sound : WindowsSound s) :
    s.windows.control.toNat + 4096 ≤ s.hostTop ∧ s.windows.readout.toNat + 4096 ≤ s.hostTop ∧
    (∀ x, inPage s.windows.control.toNat x → ¬ inPage s.windows.readout.toNat x) ∧
    (∀ x, s.inIngest x → x < s.hostTop ∧ ¬ s.inEgress x ∧ ¬ inPage s.windows.control.toNat x ∧
      ¬ inPage s.windows.readout.toNat x) ∧
    (∀ x, s.inEgress x → x < s.hostTop ∧ ¬ inPage s.windows.control.toNat x ∧
      ¬ inPage s.windows.readout.toNat x) := by
  obtain ⟨-, -, -, -, apart, top⟩ := sound
  have ingest : s.windows.ingest = 0 ↔ s.windows.ingest.toNat = 0 := by rw [← BitVec.toNat_inj]; rfl
  have egress : s.windows.egress = 0 ↔ s.windows.egress.toNat = 0 := by rw [← BitVec.toNat_inj]; rfl
  unfold windowsInForce at apart top
  simp only [ingest, egress] at apart top
  unfold State.inIngest State.inEgress inPage
  generalize s.pool.tiles * 65536 = bs at *
  by_cases noIngest : s.windows.ingest.toNat = 0 <;> by_cases noEgress : s.windows.egress.toNat = 0 <;>
    simp only [noIngest, noEgress, if_true, if_false, List.nil_append, List.cons_append, List.pairwise_cons,
      List.forall_mem_cons, List.not_mem_nil, false_imp_iff, implies_true, and_true, List.Pairwise.nil] at apart top ⊢
  · exact ⟨by omega, by omega, fun x => by omega, fun x => by omega, fun x => by omega⟩
  · exact ⟨by omega, by omega, fun x => by omega, fun x => by omega, fun x => by omega⟩
  · exact ⟨by omega, by omega, fun x => by omega, fun x => by omega, fun x => by omega⟩
  · exact ⟨by omega, by omega, fun x => by omega, fun x => by omega, fun x => by omega⟩

end

/-- Settles O13: sound windows do not overlap, so the order in which the classes are tested does not matter. -/
theorem windowClasses : Obligations.WindowClasses := by
  intro s x sound bs ib eb cb rb inIngest inEgress
  obtain ⟨controlTop, readoutTop, pages, ingest, egress⟩ := WindowsSound.apart sound
  have size : ∀ {y n : Nat}, y < n * bs → 0 < bs := fun lt => Nat.pos_of_ne_zero fun zero => by simp [zero] at lt
  refine ⟨classify_of_top, fun run window => ?_, fun run window => ?_, fun low high => ?_, fun low high => ?_,
    fun below neither control readout => ?_⟩
  · have taken : s.inIngest x := ⟨run, window⟩
    have lt : x - ib < 4 * bs := by omega
    have slot : (x - ib) / bs < 4 := Nat.div_lt_of_lt_mul (by rwa [Nat.mul_comm])
    exact ⟨Fin.ofNat 4 ((x - ib) / bs), Nat.mod_eq_of_lt slot, classify_of_ingest (ingest x taken).1 taken⟩
  · have taken : s.inEgress x := ⟨run, window⟩
    have lt : x - eb < 2 * bs := by omega
    have half : (x - eb) / bs = 0 ↔ x < eb + bs := by
      rw [Nat.div_eq_zero_iff_lt (size lt)]
      omega
    rw [classify_of_egress (egress x taken).1 (fun ingest' => (ingest x ingest').2.1 taken) taken]
    exact congrArg (LineClass.egress · _) (if_congr half rfl rfl)
  · have page : inPage cb x := ⟨low, high⟩
    rw [classify_of_pages (by omega) (fun i => (ingest x i).2.2.1 page) (fun e => (egress x e).2.1 page)]
    exact if_pos (inRange_iff.2 page)
  · have page : inPage rb x := ⟨low, high⟩
    rw [classify_of_pages (by omega) (fun i => (ingest x i).2.2.2 page) (fun e => (egress x e).2.2 page)]
    exact (if_neg fun control => pages x (inRange_iff.1 control) page).trans (if_pos (inRange_iff.2 page))
  · have noIngest : ¬ s.inIngest x := fun ⟨run, window⟩ => neither.elim run fun out => out.1 window
    have noEgress : ¬ s.inEgress x := fun ⟨run, window⟩ => neither.elim run fun out => out.2 window
    rw [classify_of_pages below noIngest noEgress]
    exact (if_neg (mt inRange_iff.1 control)).trans (if_neg (mt inRange_iff.1 readout))

/-! ### READ lines (R29) -/

/-- Line 0 of slot `k` stands at the slot's first address. -/
theorem slotLineAddr_of_classify {s : State} {a : Addr} {k : Fin 4} (sound : WindowsSound s)
    (first : s.classify (requestLine a 0) = .ingest k 0) : s.slotLineAddr k 0 = requestLine a 0 := by
  obtain ⟨aligned, -⟩ := sound
  obtain ⟨⟨-, -, low, high⟩, slot, line⟩ := ingest_of_classify first
  have mod := requestLine_mod a 0
  generalize requestLine a 0 = x at *
  have lt : (x - s.windows.ingest.toNat) / (s.pool.tiles * 65536) < 4 := Nat.div_lt_of_lt_mul (by omega)
  have num : k.val = (x - s.windows.ingest.toNat) / (s.pool.tiles * 65536) := by
    rw [slot]
    exact Nat.mod_eq_of_lt lt
  have offset : (x - s.windows.ingest.toNat) % (s.pool.tiles * 65536) = 0 := by
    have whole : (x - s.windows.ingest.toNat) % (s.pool.tiles * 65536) % 64 = 0 := by
      rw [Nat.mod_mod_of_dvd _ (Dvd.dvd.mul_left (by decide) _)]
      omega
    omega
  have split := Nat.div_add_mod (x - s.windows.ingest.toNat) (s.pool.tiles * 65536)
  rw [offset, ← num, Nat.mul_comm] at split
  change s.windows.ingest.toNat + k.val * (s.pool.tiles * 65536) + 0 * 64 = x
  omega

theorem readResult_of_dram {s : State} {x : Nat} (dram : s.classify x = .pass ∨ ∃ p, s.classify x = .control p) :
    s.readResult x = .ok (readLine s.dram x) := by
  rcases dram with pass | ⟨p, control⟩
  · simp only [State.readResult, pass]
  · simp only [State.readResult, control]

theorem readResult_of_ingest {s : State} {x : Nat} {k : Fin 4} {j : Nat} (class_eq : s.classify x = .ingest k j) :
    s.readResult x = s.readIngest k j := by
  simp only [State.readResult, class_eq]

theorem readResult_of_egress {s : State} {x : Nat} {slot : EgressSlot} {j : Nat}
    (class_eq : s.classify x = .egress slot j) : s.readResult x = s.readEgress slot j := by
  simp only [State.readResult, class_eq]

theorem readIngest_of_filling {s : State} {k : Fin 4} {b : Nat} {w : List Nat} {first : Seq}
    (filling : s.slot k = .filling b w first) (run : s.monitor.run = .running) (j : Nat) :
    s.readIngest k j = .ok (s.readBlockLine b j) := by
  simp only [State.readIngest, filling, run, if_true]

theorem readIngest_of_other {s : State} {k : Fin 4}
    (other : s.monitor.run ≠ .running ∨ ∀ b w first, s.slot k ≠ .filling b w first) (j : Nat) :
    s.readIngest k j = .fill fillLine := by
  unfold State.readIngest
  split
  next b w first filling =>
    exact if_neg (other.resolve_right fun none => none b w first filling)
  all_goals rfl

theorem readEgress_of_unbound {s : State} {slot : EgressSlot} (unbound : s.air.binding slot = none) (j : Nat) :
    s.readEgress slot j = .fill (if j = 0 then s.fillRecord slot else fillLine) := by
  rw [State.readEgress, unbound]

theorem readEgress_of_bound {s : State} {slot : EgressSlot} {b : Binding} (bound : s.air.binding slot = some b)
    {j : Nat} (later : j ≠ 0) : s.readEgress slot j =
      if (s.pool.missingTiles b.block).contains (j / Config.tileLines) then .fill fillLine
      else .ok (s.readBlockLine b.block j) := by
  rw [State.readEgress, bound]
  exact if_neg later

theorem readEgress_record {s : State} {slot : EgressSlot} {b : Binding} (bound : s.air.binding slot = some b) :
    s.readEgress slot 0 = .ok (s.airedRecord slot b (s.readBlockLine b.block 0)) := by
  rw [State.readEgress, bound]
  exact if_pos rfl

/-- Settles O10: the class decides, then what is bound. -/
theorem readLineResults : Obligations.ReadLineResults := by
  refine ⟨fun s i j => ⟨s.hostTop_eq, rfl, lineAt_readLine _ _, rfl⟩, fun s k j => rfl,
    fun s a k => slotLineAddr_of_classify, requestLine_eq, fun s x => ⟨fun top => ?_, fun dram => ?_,
    fun k j class_eq => ?_, fun slot j class_eq later => ?_⟩⟩
  · simp only [State.readResult, classify_of_top top]
  · exact ⟨_, readResult_of_dram dram, lineAt_readLine _ _⟩
  · rw [readResult_of_ingest class_eq]
    exact ⟨fun b w first filling run => ⟨_, readIngest_of_filling filling run j, lineAt_readLine _ _⟩,
      fun other => readIngest_of_other other j⟩
  · rw [readResult_of_egress class_eq]
    refine ⟨fun unbound => ?_, fun b bound missing => ?_, fun b bound present => ⟨s.readBlockLine b.block j, ?_,
      lineAt_readLine _ _⟩⟩
    · rw [readEgress_of_unbound unbound, if_neg later]; rfl
    · exact (readEgress_of_bound bound later).trans (if_pos (List.contains_iff_mem.2 missing))
    · exact (readEgress_of_bound bound later).trans (if_neg (mt List.contains_iff_mem.1 present))

end Sys2Proof.Machine
end

