-- ==== Sys2Proof/Proofs/Records.lean ====
section
/-! The records the part composes: picture records on egress (R90, R91) and the readout page (R155, R158). -/

namespace Sys2Proof.Machine

open Sys2Proof Sys2Proof.Safety

/-! ### Fields of composed records (09 section 9.9) -/

@[simp] theorem fieldAt_zero (o n : Nat) : fieldAt (0 : Line) o n = 0 := by
  simp [fieldAt]

theorem flagByte_eq (b : Bool) : flagByte b = if b then 1 else 0 := rfl

theorem flagBytes_two (a b : Bool) : (flagByte a ||| (flagByte b <<< 1)) =
    (if a then (1 : Byte) else 0) + (if b then 2 else 0) := by
  revert a b
  decide

theorem flagBytes_four (a b c d : Bool) :
    (flagByte a ||| (flagByte b <<< 1) ||| (flagByte c <<< 2) ||| (flagByte d <<< 3)) =
    (if a then (1 : Byte) else 0) + (if b then 2 else 0) + (if c then 4 else 0) + (if d then 8 else 0) := by
  revert a b c d
  decide

/-! ### Picture records on egress (R89 to R91) -/

theorem EgressSlot.ofOnAir_eq (n : Seq) : EgressSlot.ofOnAir n = if n.toNat % 2 = 0 then .a else .b := by
  have bit : n.getLsbD 0 = decide (n.toNat % 2 = 1) := by simp [BitVec.getLsbD, Nat.testBit_zero]
  unfold EgressSlot.ofOnAir
  rw [bit]
  rcases Nat.mod_two_eq_zero_or_one n.toNat with even | odd
  · simp [even]
  · simp [odd]

theorem Air.current_eq (a : Air) : a.current = if a.onAir.toNat % 2 = 0 then a.slotA else a.slotB := by
  rw [Air.current, EgressSlot.ofOnAir_eq]
  split <;> rfl

/-- The bytes the host wrote stand in an aired record. -/
theorem fieldAt_airedRecord_host (s : State) (slot : EgressSlot) (b : Binding) (stored : Line) {i : Nat}
    (host : (1 ≤ i ∧ i < 16) ∨ (48 ≤ i ∧ i < 62)) :
    fieldAt (s.airedRecord slot b stored) i 8 = fieldAt stored i 8 := by
  simp (disch := omega) only [State.airedRecord, fieldAt_sealRecord, fieldAt_putField_disjoint]

/-- The bytes no field of a FILL record names are zero. -/
theorem fieldAt_fillRecord_zero (s : State) (slot : EgressSlot) {i : Nat}
    (spare : (1 ≤ i ∧ i < 16) ∨ (20 ≤ i ∧ i < 24) ∨ (28 ≤ i ∧ i < 43) ∨ (45 ≤ i ∧ i < 62)) :
    fieldAt (s.fillRecord slot) i 8 = 0 := by
  simp (disch := omega) only [State.fillRecord, fieldAt_sealRecord, fieldAt_putField_disjoint, fieldAt_zero]

/-- Settles O11: the records are the composed ones, whose fields do not overlap. -/
theorem pictureRecordsOnEgress : Obligations.PictureRecordsOnEgress := by
  refine ⟨EgressSlot.ofOnAir_eq, fun a => ⟨rfl, rfl, a.current_eq⟩, fun s x slot b line0 bound => ?_,
    fun s x slot line0 unbound => ?_⟩
  · refine ⟨_, (readResult_of_egress line0).trans (readEgress_record bound), recordGood_sealRecord _, ?_,
      fun i => fieldAt_airedRecord_host s slot b _, ?_⟩
    all_goals simp (disch := omega) only [State.airedRecord, fieldAt_sealRecord, fieldAt_putField_same,
      fieldAt_putField_disjoint, flagByte_eq, and_self]
  · refine ⟨_, (readResult_of_egress line0).trans (readEgress_of_unbound unbound 0), recordGood_sealRecord _, ?_, ?_,
      ?_, ?_, ?_, fun i => fieldAt_fillRecord_zero s slot⟩
    all_goals simp (disch := omega) only [if_true, State.fillRecord, fieldAt_sealRecord, fieldAt_putField_same,
      fieldAt_putField_disjoint]

/-! ### The readout page (R155) -/

theorem readoutLine_of_fields {s : State} {p : Nat} {l : Line} (fields : s.readoutFields p = some l) :
    s.readoutLine p = sealRecord (putField l 0 (BitVec.ofNat 8 p)) := by
  rw [State.readoutLine, fields]

theorem readoutLine_of_none {s : State} {p : Nat} (fields : s.readoutFields p = none) : s.readoutLine p = 0 := by
  rw [State.readoutLine, fields]

/-- A field of a page line behind byte 0 is the layout's. -/
theorem fieldAt_readoutLine {s : State} {p : Nat} {l : Line} (fields : s.readoutFields p = some l) {o n : Nat}
    (behind : 1 ≤ o) (fits : 8 * o + n ≤ 496) : fieldAt (s.readoutLine p) o n = fieldAt l o n := by
  rw [readoutLine_of_fields fields, fieldAt_sealRecord _ _ _ fits, fieldAt_putField_disjoint _ _ _ _ _ (.inr (by omega))]

theorem fieldAt_readoutLine_number {s : State} {p : Nat} {l : Line} (fields : s.readoutFields p = some l) :
    fieldAt (s.readoutLine p) 0 8 = BitVec.ofNat 8 p := by
  rw [readoutLine_of_fields fields, fieldAt_sealRecord _ _ _ (by omega), fieldAt_putField_same _ _ _ (by omega)]

theorem recordGood_readoutLine (s : State) (p : Nat) : recordGood (s.readoutLine p) = true := by
  cases fields : s.readoutFields p with
  | none => 
    rw [readoutLine_of_none fields, recordGood_iff]
    simp only [fieldAt_zero]
    rfl
  | some l => rw [readoutLine_of_fields fields]; exact recordGood_sealRecord _

/-- A page line's bytes that its layout does not list are zero. -/
theorem zeroFrom_readoutLine {s : State} {p : Nat} {l : Line} (fields : s.readoutFields p = some l) {n : Nat}
    (from_one : 1 ≤ n) (zero : ∀ i, i = 1 ∨ n ≤ i → i < 62 → fieldAt l i 8 = 0) : ZeroFrom (s.readoutLine p) n := by
  intro i spare
  have lt : i < 62 := by omega
  rw [fieldAt_readoutLine fields (by omega) (by omega)]
  exact zero i (spare.imp_right And.left) lt

theorem readoutFields_of_log (s : State) (i : Nat) : s.readoutFields (32 + i) = (s.readout.log[i]?).map readoutLog := by
  have after : State.readoutFields s (32 + i) = if 32 ≤ 32 + i then (s.readout.log[32 + i - 32]?).map readoutLog else none := by
    unfold State.readoutFields
    split <;> first | rfl | omega
  rw [after, if_pos (by omega), Nat.add_sub_cancel_left]

/-! ### The layouts (R158) -/

theorem settingsAt_putSettings (l : Line) (c : Settings) (spare : fieldAt l 49 8 = 0) : SettingsAt (putSettings l c) c := by
  refine ⟨?_, ?_, ?_, ?_, ?_, ?_, ?_, ?_, ?_, ?_, ?_, ?_, ?_, ?_⟩
  all_goals simp (disch := omega) only [putSettings, fieldAt_putField_same, fieldAt_putField_disjoint, flagByte_eq,
    spare]

theorem fieldAt_putSettings_outside (l : Line) (c : Settings) {o n : Nat} (outside : 8 * o + n ≤ 256 ∨ 52 ≤ o) :
    fieldAt (putSettings l c) o n = fieldAt l o n := by
  simp (disch := omega) only [putSettings, fieldAt_putField_disjoint]

theorem SettingsAt.congr {l m : Line} {c : Settings} (same : ∀ o n, 1 ≤ o → 8 * o + n ≤ 496 → fieldAt m o n = fieldAt l o n)
    (settings : SettingsAt l c) : SettingsAt m c := by
  unfold SettingsAt
  simp (disch := omega) only [same]
  exact settings

theorem fieldAt_putResults_outside (l : Line) (off : Nat) (rs : List ResultEntry) {o n : Nat}
    (outside : 8 * o + n ≤ 8 * off ∨ off + 3 * rs.length ≤ o) : fieldAt (putResults l off rs) o n = fieldAt l o n := by
  induction rs generalizing l off with
  | nil => rfl
  | cons r rest ih =>
    rw [List.length_cons] at outside
    rw [putResults, ih _ _ (by omega)]
    simp (disch := omega) only [fieldAt_putField_disjoint]

theorem fieldAt_putResults (l : Line) (off : Nat) (rs : List ResultEntry) {i : Nat} {r : ResultEntry}
    (entry : rs[i]? = some r) (fits : off + 3 * rs.length ≤ 64) :
    fieldAt (putResults l off rs) (off + 3 * i) 8 = r.num ∧
    fieldAt (putResults l off rs) (off + 1 + 3 * i) 8 = r.code ∧
    fieldAt (putResults l off rs) (off + 2 + 3 * i) 8 = r.result.code := by
  induction rs generalizing l off i with
  | nil => simp at entry
  | cons x rest ih =>
    rw [List.length_cons] at fits
    cases i with
    | zero =>
      obtain rfl : x = r := by simpa using entry
      rw [putResults]
      simp (disch := omega) only [fieldAt_putResults_outside, fieldAt_putField_same, fieldAt_putField_disjoint,
        Nat.mul_zero, Nat.add_zero, and_self]
    | succ i =>
      have next := ih (putField (putField (putField l off x.num) (off + 1) x.code) (off + 2) x.result.code) (off + 3)
        (i := i) (by simpa using entry) (by omega)
      rw [putResults, show off + 3 * (i + 1) = off + 3 + 3 * i by omega,
        show off + 1 + 3 * (i + 1) = off + 3 + 1 + 3 * i by omega,
        show off + 2 + 3 * (i + 1) = off + 3 + 2 + 3 * i by omega]
      exact next

theorem readoutFields_of_hold (s : State) {i : Nat} (lt : i < 4) :
    s.readoutFields (7 + i) = (s.holds.table[i]?).map readoutHold := by
  match i, lt with
  | 0, _ => rfl
  | 1, _ => rfl
  | 2, _ => rfl
  | 3, _ => rfl

theorem readoutFields_of_spare (s : State) {p : Nat} (low : 12 ≤ p) (high : p < 32) : s.readoutFields p = none := by
  unfold State.readoutFields
  split <;> first | omega | exact if_neg (by omega)

theorem Air.currentSlotCode_eq (a : Air) :
    a.currentSlotCode = if a.current = none then 2 else (EgressSlot.ofOnAir a.onAir).code := by
  unfold Air.currentSlotCode
  split
  next none => rw [if_pos none]
  next some => rw [if_neg (by simp [some])]

/-- Settles O12: each line's layout is a chain of fields that do not overlap, behind the line number. -/
theorem readoutLinesComposed : Obligations.ReadoutLinesComposed := by
  refine ⟨fun s x p class_eq => by simp only [State.readResult, class_eq], recordGood_readoutLine, fun s p content => ?_,
    fun s p low high => readoutLine_of_none (readoutFields_of_spare s low high), fun s => ?_, fun s => ?_,
    fun s => ?_, fun s => ?_, fun s => ?_, fun s => ?_, fun s => ?_, fun s i lt none => ?_,
    fun s i h lt found => ?_, fun s => ?_, fun s i none => ?_, fun s i r found => ?_, ?_⟩
  · have some : ∃ l, s.readoutFields p = some l := by
      match p, content with
      | 0, _ => exact ⟨_, rfl⟩
      | 1, _ => exact ⟨_, rfl⟩
      | 2, _ => exact ⟨_, rfl⟩
      | 3, _ => exact ⟨_, rfl⟩
      | 4, _ => exact ⟨_, rfl⟩
      | 5, _ => exact ⟨_, rfl⟩
      | 6, _ => exact ⟨_, rfl⟩
      | 11, _ => exact ⟨_, rfl⟩
    obtain ⟨l, fields⟩ := some
    exact fieldAt_readoutLine_number fields
  · intro l
    have fields : s.readoutFields 0 = some s.readout0 := rfl
    refine ⟨?_, ?_, ?_, ?_, ?_, ?_, ?_, ?_, ?_, ?_, zeroFrom_readoutLine fields (by omega) fun i spare lt => ?_⟩
    all_goals simp (disch := omega) only [l, fieldAt_readoutLine fields, State.readout0, fieldAt_putField_same,
      fieldAt_putField_disjoint, fieldAt_zero]
  · intro l
    have fields : s.readoutFields 1 = some s.readout1 := rfl
    refine ⟨?_, ?_, ?_, ?_, ?_, ?_, ?_, ?_, zeroFrom_readoutLine fields (by omega) fun i spare lt => ?_⟩
    all_goals simp (disch := omega) only [l, fieldAt_readoutLine fields, State.readout1, fieldAt_putField_same,
      fieldAt_putField_disjoint, fieldAt_zero, flagBytes_two, Air.currentSlotCode_eq]
  · intro l ms
    have fields : s.readoutFields 2 = some s.readout2 := rfl
    refine ⟨?_, ?_, ?_, ?_, ?_, ?_, fun none => ⟨?_, ?_, ?_⟩, fun d some => ⟨?_, ?_, ?_⟩, ?_, ?_, ?_,
      zeroFrom_readoutLine fields (by omega) fun i spare lt => ?_⟩
    case refine_7 | refine_8 | refine_9 =>
      simp (disch := omega) only [l, fieldAt_readoutLine fields, State.readout2, fieldAt_putField_same,
        fieldAt_putField_disjoint, none]
      rfl
    case refine_10 | refine_11 | refine_12 =>
      simp (disch := omega) only [l, fieldAt_readoutLine fields, State.readout2, fieldAt_putField_same,
        fieldAt_putField_disjoint, some]
      rfl
    all_goals simp (disch := omega) only [l, ms, fieldAt_readoutLine fields, State.readout2, State.depth,
      fieldAt_putField_same, fieldAt_putField_disjoint, fieldAt_zero]
  · intro l
    have fields : s.readoutFields 3 = some s.readout3 := rfl
    refine ⟨?_, ?_, ?_, ?_, ?_, ?_, ?_, ?_, ?_, ?_, zeroFrom_readoutLine fields (by omega) fun i spare lt => ?_⟩
    case refine_10 =>
      refine SettingsAt.congr (fun o n => fieldAt_readoutLine fields) (settingsAt_putSettings _ _ ?_)
      simp (disch := omega) only [fieldAt_putField_disjoint, fieldAt_zero]
    all_goals simp (disch := omega) only [l, fieldAt_readoutLine fields, State.readout3, fieldAt_putSettings_outside,
      fieldAt_putField_same, fieldAt_putField_disjoint, fieldAt_zero, flagByte_eq]
  · intro l
    have fields : s.readoutFields 4 = some s.readout4 := rfl
    refine ⟨SettingsAt.congr (fun o n => fieldAt_readoutLine fields) (settingsAt_putSettings _ _ (fieldAt_zero _ _)),
      zeroFrom_readoutLine fields (by omega) fun i spare lt => ?_, fun i low high => ?_⟩
    all_goals simp (disch := omega) only [l, fieldAt_readoutLine fields, State.readout4, fieldAt_putSettings_outside,
      fieldAt_zero]
  · intro l
    have fields : s.readoutFields 5 = some s.readout5 := rfl
    have few : (s.monitor.results.take 8).length ≤ 8 := List.length_take_le 8 _
    refine ⟨?_, fun i lt none => ?_, fun i r lt found => ?_, zeroFrom_readoutLine fields (by omega) fun i spare lt => ?_⟩
    · simp (disch := omega) only [l, fieldAt_readoutLine fields, State.readout5, fieldAt_putResults_outside,
        fieldAt_putField_same]
    · have short : (s.monitor.results.take 8).length ≤ i := by
        rw [List.length_take]
        exact (min_le_right _ _).trans (List.getElem?_eq_none_iff.1 none)
      simp (disch := omega) only [l, fieldAt_readoutLine fields, State.readout5, fieldAt_putResults_outside,
        fieldAt_putField_disjoint, fieldAt_zero]
    · have entry : (s.monitor.results.take 8)[i]? = some r := by rw [List.getElem?_take_of_lt lt, found]
      simp (disch := omega) only [l, fieldAt_readoutLine fields]
      exact fieldAt_putResults _ 4 _ entry (by omega)
    · simp (disch := omega) only [State.readout5, fieldAt_putResults_outside, fieldAt_putField_disjoint, fieldAt_zero]
  · intro l
    have fields : s.readoutFields 6 = some s.readout6 := rfl
    cases first : s.readout.first with
    | none =>
      refine ⟨?_, fun _ => ?_, nofun, zeroFrom_readoutLine fields (by omega) fun i spare lt => ?_⟩
      all_goals simp (disch := omega) only [l, fieldAt_readoutLine fields, State.readout6, first, fieldAt_putField_same,
        fieldAt_putField_disjoint, fieldAt_zero]
    | some f =>
      refine ⟨?_, nofun, fun g eq => ?_, zeroFrom_readoutLine fields (by omega) fun i spare lt => ?_⟩
      case refine_2 =>
        obtain rfl : f = g := Option.some.inj eq
        refine ⟨?_, ?_, ?_, ?_, ?_, ?_, ?_⟩
        all_goals simp (disch := omega) only [l, fieldAt_readoutLine fields, State.readout6, first,
          fieldAt_putField_same, fieldAt_putField_disjoint, flagByte_eq, optField]
      all_goals simp (disch := omega) only [l, fieldAt_readoutLine fields, State.readout6, first, fieldAt_putField_same,
        fieldAt_putField_disjoint, fieldAt_zero]
  · refine readoutLine_of_none ?_
    rw [readoutFields_of_hold s lt, none]; rfl
  · intro l
    have fields : s.readoutFields (7 + i) = some (readoutHold h) := by rw [readoutFields_of_hold s lt, found]; rfl
    refine ⟨fieldAt_readoutLine_number fields, ?_, ?_, ?_, ?_, ?_, ?_, ?_, ?_,
      zeroFrom_readoutLine fields (by omega) fun i spare lt => ?_⟩
    all_goals simp (disch := omega) only [l, fieldAt_readoutLine fields, readoutHold, fieldAt_putField_same,
      fieldAt_putField_disjoint, fieldAt_zero, flagByte_eq, optField]
  · intro l
    have fields : s.readoutFields 11 = some s.readout11 := rfl
    refine ⟨?_, ?_, fun k => ?_, ?_, ?_, zeroFrom_readoutLine fields (by omega) fun i spare lt => ?_⟩
    case refine_3 =>
      match k with
      | 0 | 1 | 2 | 3 =>
        simp (disch := omega) only [l, fieldAt_readoutLine fields, State.readout11, fieldAt_putField_disjoint]
        exact fieldAt_putField_same _ _ _ (by omega)
    all_goals simp (disch := omega) only [l, fieldAt_readoutLine fields, State.readout11, fieldAt_putField_same,
      fieldAt_putField_disjoint, fieldAt_zero]
  · refine readoutLine_of_none ?_
    rw [readoutFields_of_log s i, none]; rfl
  · intro l e
    have fields : s.readoutFields (32 + i) = some (readoutLog r) := by rw [readoutFields_of_log s i, found]; rfl
    refine ⟨fieldAt_readoutLine_number fields, ?_, ?_, ?_, ?_, ?_, ?_, ?_, ?_, ?_,
      zeroFrom_readoutLine fields (by omega) fun i spare lt => ?_⟩
    all_goals simp (disch := omega) only [l, e, fieldAt_readoutLine fields, readoutLog, fieldAt_putField_same,
      fieldAt_putField_disjoint, fieldAt_zero, flagBytes_four, optField]
  · exact ⟨rfl, rfl, rfl, rfl, rfl, rfl, rfl, rfl, rfl, rfl, rfl, fun _ _ _ => rfl, rfl, rfl, rfl, rfl, rfl⟩

end Sys2Proof.Machine
end

