-- ==== Sys2Proof/Proofs/Reads.lean ====
section
/-! READ and READ_COMPLETION: requests that arrive and wait (R18), reads taken (R23) and completed (R12, R21). -/

namespace Sys2Proof.Machine

open Sys2Proof Sys2Proof.Safety

/-! ### Requests (R18) -/

theorem exec_of_request {c : Instr} {r : Request} (request : requestsOf c = [r]) (s : State) :
    exec c s = .next (s.arrive r) := by
  cases c with
  | read a n tag => obtain rfl : Request.read a n tag = r := List.singleton_inj.1 request; rfl
  | write a data check => obtain rfl : Request.write a data check = r := List.singleton_inj.1 request; rfl
  | _ => cases request

theorem State.setWaiting_of_same {s : State} {rs : List Request} (same : s.link.waiting = rs) : s.setWaiting rs = s := by
  subst same
  rfl

theorem State.takeRequests_nil {s : State} (clear : s.link.waiting = []) : s.takeRequests [] = s :=
  State.setWaiting_of_same clear

theorem State.takeRequests_of_takable {s : State} {r : Request} (takable : Takable s r) (rest : List Request) :
    s.takeRequests (r :: rest) = (s.takeRequest r).takeRequests rest := by
  rw [State.takeRequests, if_pos ((s.canTake_iff r).2 takable)]

theorem State.takeRequests_of_not_takable {s : State} {r : Request} (blocked : ¬ Takable s r) (rest : List Request) :
    s.takeRequests (r :: rest) = s.setWaiting (r :: rest) :=
  State.takeRequests_of_blocked (Bool.eq_false_iff.2 (mt (s.canTake_iff r).1 blocked))

theorem State.arrive_of_takable {s : State} {r : Request} (clear : s.link.waiting = []) (takable : Takable s r) :
    s.arrive r = (s.takeRequest r).takeRequests [] := by
  rw [State.arrive, clear]
  exact State.takeRequests_of_takable takable []

/-- A request taken on arrival, where nothing comes to wait. -/
theorem exec_request_taken {c : Instr} {r : Request} {s : State} (request : requestsOf c = [r])
    (clear : s.link.waiting = []) (takable : Takable s r) (after : (s.takeRequest r).link.waiting = []) :
    exec c s = .next (s.takeRequest r) := by
  rw [exec_of_request request, State.arrive_of_takable clear takable, State.takeRequests_nil after]

theorem takable_read {s : State} (up : LinkUp s) (room : s.link.inFlight.length < 64) (a : Addr) (n : Nat)
    (tag : BitVec 6) : Takable s (.read a n tag) := ⟨up, fun _ => room⟩

theorem takable_write {s : State} (up : LinkUp s) (a : Addr) (data : List Line) (check : Option Half) :
    Takable s (.write a data check) := ⟨up, fun ⟨_, _, _, eq⟩ => by cases eq⟩

theorem not_takable_read {s : State} (full : 64 ≤ s.link.inFlight.length) (a : Addr) (n : Nat) (tag : BitVec 6) :
    ¬ Takable s (.read a n tag) := fun takable => (takable.2 ⟨a, n, tag, rfl⟩).not_ge full

/-! ### Reads taken (R11, R23) -/

theorem tagInUse_iff {s : State} {tag : BitVec 6} :
    s.tagInUse tag = true ↔ ∃ e ∈ s.link.inFlight, e.acceptedTag = some tag := by
  simp [State.tagInUse]

theorem exec_read_taken {s : State} {a : Addr} {n : Nat} {tag : BitVec 6} (clear : LinkClear s)
    (room : s.link.inFlight.length < 64) : exec (.read a n tag) s = .next (s.takeRead a n tag) := by
  refine exec_request_taken rfl clear.2 (takable_read clear.1 room a n tag) ?_
  change (s.takeRead a n tag).link.waiting = []
  unfold State.takeRead
  split
  next => exact clear.2
  next =>
    unfold State.acceptRead State.reportUnclaimed
    split <;> exact clear.2

/-- Settles O9: the tag decides, then the places, then what waits. -/
theorem readRefusedOrWaiting : Obligations.ReadRefusedOrWaiting := by
  refine ⟨fun a n tag s e clear room mem same => ?_, fun a n tag s clear full => ?_,
    fun c s a n tag rest presents full waiting => ?_⟩
  · rw [exec_read_taken clear room, State.takeRead, if_pos (tagInUse_iff.2 ⟨e, mem, same⟩)]
    rfl
  · change Host.Outcome.next (s.takeRequests (s.link.waiting ++ [.read a n tag])) = _
    rw [clear.2]
    exact congrArg _ (State.takeRequests_of_not_takable (not_takable_read full a n tag) [])
  · obtain ⟨r, request⟩ : ∃ r, requestsOf c = [r] := by
      cases c with
      | read a n tag => exact ⟨_, rfl⟩
      | write a data check => exact ⟨_, rfl⟩
      | _ => exact absurd rfl presents
    rw [exec_of_request request, request, State.arrive, waiting]
    exact congrArg _ (State.takeRequests_of_not_takable (not_takable_read full a n tag) (rest ++ [r]))

theorem Pool.takeReads_eq (p : Pool) (is : List Nat) : p.takeReads is = { p with records := (p.takeReads is).records } := by
  induction is generalizing p with
  | nil => rfl
  | cons i rest ih => exact ih (p.takeRead i)

/-- The record of a block after a read is taken on another or the same block. -/
theorem record_takeRead (p : Pool) (i j : Nat) :
    ((p.takeRead i).record j).state = (p.record j).state ∧ ((p.takeRead i).record j).missing = (p.record j).missing ∧
    (j < p.records.length → (p.takeRead i).readCount j = p.readCount j + if j = i then 1 else 0) := by
  unfold Pool.readCount Pool.takeRead
  by_cases same : j = i
  · subst same
    by_cases lt : j < p.records.length
    · rw [record_setRecord_self p j _ lt, if_pos rfl]
      exact ⟨rfl, rfl, fun _ => rfl⟩
    · have kept : p.records.set j { p.record j with inFlight := some (p.readCount j + 1) } = p.records :=
        List.set_eq_of_length_le (not_lt.1 lt)
      rw [Pool.setRecord, kept]
      exact ⟨rfl, rfl, fun h => absurd h lt⟩
  · rw [record_setRecord_ne p i j _ same, if_neg same]
    exact ⟨rfl, rfl, fun _ => rfl⟩

theorem takeRead_records_length (p : Pool) (i : Nat) : (p.takeRead i).records.length = p.records.length :=
  setRecord_records_length p i _

theorem record_takeReads (p : Pool) {is : List Nat} (nodup : is.Nodup) (j : Nat) :
    ((p.takeReads is).record j).state = (p.record j).state ∧
    ((p.takeReads is).record j).missing = (p.record j).missing ∧
    (j < p.records.length → (p.takeReads is).readCount j = p.readCount j + if j ∈ is then 1 else 0) := by
  induction is generalizing p with
  | nil => exact ⟨rfl, rfl, fun _ => rfl⟩
  | cons i rest ih =>
    obtain ⟨new, nodup⟩ := List.nodup_cons.1 nodup
    obtain ⟨state, missing, count⟩ := ih (p.takeRead i) nodup
    obtain ⟨state', missing', count'⟩ := record_takeRead p i j
    refine ⟨state.trans state', missing.trans missing', fun lt => ?_⟩
    refine (count (takeRead_records_length p i ▸ lt)).trans ?_
    rw [count' lt]
    by_cases same : j = i
    · subst same
      simp [new]
    · simp [same]

theorem readBlock_iff (s : State) (x b : Nat) : s.readBlock x = some b ↔
    ∃ slot j bd, s.classify x = .egress slot j ∧ s.air.binding slot = some bd ∧ bd.block = b := by
  unfold State.readBlock
  split
  next slot j class_eq =>
    constructor
    · intro bound
      obtain ⟨bd, bound, block⟩ := Option.map_eq_some_iff.1 bound
      exact ⟨slot, j, bd, class_eq, bound, block⟩
    · rintro ⟨slot', j', bd, class_eq', bound, block⟩
      rw [class_eq] at class_eq'
      cases class_eq'
      rw [bound, ← block]; rfl
  next other => exact ⟨nofun, fun ⟨slot, j, _, class_eq, _⟩ => absurd class_eq (other slot j)⟩

theorem classify_eq_unclaimed_iff {s : State} {x : Nat} : s.classify x = .unclaimed ↔ s.hostTop ≤ x := by
  refine ⟨fun class_eq => ?_, classify_of_top⟩
  by_contra below
  unfold State.classify at class_eq
  dsimp only at class_eq
  rw [if_neg below] at class_eq
  split at class_eq
  next => cases class_eq
  next =>
    split at class_eq
    next => cases class_eq
    next =>
      split at class_eq
      next => cases class_eq
      next => split at class_eq <;> cases class_eq

/-- The first UNCLAIMED line of a READ. -/
theorem find_unclaimed {s : State} {a : Addr} {n k : Nat} (lt : k < n) (top : s.hostTop ≤ requestLine a k)
    (below : ∀ j < k, requestLine a j < s.hostTop) :
    ((List.range n).map (requestLine a)).find? (fun x => s.classify x == .unclaimed) = some (requestLine a k) := by
  rw [List.find?_map, Option.map_eq_some_iff]
  refine ⟨k, List.find?_range_eq_some.2 ⟨?_, List.mem_range.2 lt, fun j hj => ?_⟩, rfl⟩
  · simpa using classify_eq_unclaimed_iff.2 top
  · simpa [classify_eq_unclaimed_iff] using below j hj

theorem State.reportUnclaimed_eq (s : State) (addrs : List Nat) :
    s.reportUnclaimed addrs = s.setReadout (s.reportUnclaimed addrs).readout := by
  unfold State.reportUnclaimed
  split <;> rfl

/-- An accepted READ before its UNCLAIMED fault. -/
def State.joinRead (s : State) (addrs : List Nat) (tag : BitVec 6) : State :=
  (s.pushInFlight (.accepted tag (addrs.map s.readResult) (s.readBlocks addrs))).setPool
    (s.pool.takeReads (s.readBlocks addrs))

theorem State.acceptRead_eq (s : State) (addrs : List Nat) (tag : BitVec 6) : s.acceptRead addrs tag =
    (s.joinRead addrs tag).setReadout ((s.joinRead addrs tag).reportUnclaimed addrs).readout :=
  (s.joinRead addrs tag).reportUnclaimed_eq addrs

theorem State.joinRead_hostTop (s : State) (addrs : List Nat) (tag : BitVec 6) :
    (s.joinRead addrs tag).hostTop = s.hostTop := by
  change hostTopOf _ (s.pool.takeReads (s.readBlocks addrs)).tiles (s.pool.takeReads (s.readBlocks addrs)).blocks = _
  rw [s.pool.takeReads_eq]; rfl

/-- Settles O8: a read whose tag is free is accepted on the blocks its lines are bound to. -/
theorem readAccepted : Obligations.ReadAccepted := by
  refine ⟨readBlock_iff, fun a n tag s clear room free => ?_⟩
  intro addrs blocks
  have fresh : ¬ s.tagInUse tag = true := fun used => by
    obtain ⟨e, mem, same⟩ := tagInUse_iff.1 used
    exact free e mem same
  have taken : exec (.read a n tag) s = .next (s.acceptRead addrs tag) := by
    rw [exec_read_taken clear room, State.takeRead, if_neg fresh]
  have nodup : blocks.Nodup := nodup_readBlocks addrs
  have top := s.joinRead_hostTop addrs tag
  rw [s.acceptRead_eq] at taken
  refine ⟨_, taken, ?_, nodup, fun b => mem_readBlocks, fun i => ?_, fun i => ?_, fun below => ?_,
    fun k lt high low => ?_⟩
  · rw [State.joinRead, s.pool.takeReads_eq]; rfl
  · obtain ⟨state, missing, -⟩ := record_takeReads s.pool nodup i
    exact ⟨state, missing⟩
  · exact (record_takeReads s.pool nodup i).2.2
  · have none : addrs.find? (fun x => (s.joinRead addrs tag).classify x == .unclaimed) = none := by
      rw [List.find?_eq_none]
      intro x hx
      simpa [classify_eq_unclaimed_iff, top] using below x hx
    rw [State.setReadout_readout, State.reportUnclaimed, none]
    rfl
  · rw [← top] at high low
    rw [State.setReadout_readout, State.reportUnclaimed, find_unclaimed lt high low]
    rfl

/-! ### Reads completed (R12, R21) -/

theorem exec_readCompletion {s : State} {e : InFlight} {rest : List InFlight} (ready : s.link.ready = true)
    (oldest : s.link.inFlight = e :: rest) :
    exec .readCompletion s = .next (s.completeOldest e rest).serveLink := by
  change execReadCompletion s = _
  unfold execReadCompletion
  rw [oldest]
  exact if_pos ready

/-- The pool after the part of a completion that may end a drain (R15). -/
def drainedPool (run : RunState) (p : Pool) : Pool := if run = .stopping ∧ p.retire = [] then p.rebuild else p

/-- The run state after the part of a completion that may end a drain (R15, R143). -/
def drainedRun (run : RunState) (p : Pool) : RunState := if run = .stopping ∧ p.retire = [] then .stopped else run

theorem drained_of_not_stopping {run : RunState} (going : run ≠ .stopping) (p : Pool) :
    drainedPool run p = p ∧ drainedRun run p = run :=
  ⟨if_neg fun h => going h.1, if_neg fun h => going h.1⟩

theorem drained_of_going {run : RunState} {p : Pool} (going : run ≠ .stopping ∨ p.retire ≠ []) :
    drainedPool run p = p ∧ drainedRun run p = run := by
  have keep : ¬ (run = .stopping ∧ p.retire = []) := fun h => going.elim (fun run => run h.1) fun retire => retire h.2
  exact ⟨if_neg keep, if_neg keep⟩

theorem drained_of_empty {p : Pool} (retire : p.retire = []) :
    drainedPool .stopping p = p.rebuild ∧ drainedRun .stopping p = .stopped :=
  ⟨if_pos ⟨rfl, retire⟩, if_pos ⟨rfl, retire⟩⟩

theorem State.drainStep_eq (s : State) : s.drainStep = (s.setPool (drainedPool s.monitor.run s.pool)).setMonitor
    { s.monitor with run := drainedRun s.monitor.run s.pool } := by
  unfold State.drainStep State.endDrain drainedPool drainedRun
  by_cases run : s.monitor.run = .stopping
  · by_cases retire : s.pool.retire = []
    · rw [if_pos run, if_pos retire, if_pos ⟨run, retire⟩, if_pos ⟨run, retire⟩]
    · rw [if_pos run, if_neg retire, if_neg (mt And.right retire), if_neg (mt And.right retire)]; rfl
  · rw [if_neg run, if_neg (mt And.left run), if_neg (mt And.left run)]; rfl

/-- A completion writes the list, the record of completions, the pool and the run state. -/
theorem State.completeOldest_eq (s : State) (e : InFlight) (rest : List InFlight) :
    s.completeOldest e rest = { s with
      link := { s.link with inFlight := rest, sent := s.link.sent ++ [s.completionOf e] }
      pool := drainedPool s.monitor.run (s.pool.completeReads e.blocks)
      monitor := { s.monitor with run := drainedRun s.monitor.run (s.pool.completeReads e.blocks) } } := by
  rw [State.completeOldest, State.drainStep_eq]
  rfl

/-- A completion, where nothing waits. -/
theorem exec_readCompletion_of_clear {s : State} {e : InFlight} {rest : List InFlight} (ready : s.link.ready = true)
    (oldest : s.link.inFlight = e :: rest) (clear : s.link.waiting = []) :
    exec .readCompletion s = .next (s.completeOldest e rest) := by
  have waiting : (s.completeOldest e rest).link.waiting = [] := by rw [State.completeOldest_eq]; exact clear
  rw [exec_readCompletion ready oldest, State.serveLink, waiting, State.takeRequests_nil waiting]

theorem State.completionOf_accepted (s : State) (tag : BitVec 6) (results : List LineResult) (blocks : List Nat) :
    s.completionOf (.accepted tag results blocks) =
      .lines tag (if s.monitor.resetPart = none then results else results.map fun _ => .fill 0) := by
  unfold State.completionOf State.completionResults
  cases s.monitor.resetPart <;> rfl

/-- Settles O23: the completion is sent, the drain may end, and what waits is taken. -/
theorem readCompletionSends : Obligations.ReadCompletionSends := by
  refine ⟨fun e rest s ready oldest clear => ⟨_, exec_readCompletion_of_clear ready oldest clear, ?_, ?_, ?_⟩,
    fun e rest s ready oldest => ⟨?_, ?_⟩, fun s r rest => ⟨rfl, fun blocked =>
      State.takeRequests_of_not_takable blocked rest, fun takable => State.takeRequests_of_takable takable rest⟩,
    fun c s r request clear takable => ?_, fun s none => ?_⟩
  · rw [s.completeOldest_eq]
    cases e with
    | refused tag => rfl
    | accepted tag results blocks => rw [s.completionOf_accepted]
  · intro run
    rw [s.completeOldest_eq]
    exact (drained_of_not_stopping run _).2
  · intro run blocks
    rw [s.completeOldest_eq, blocks]
    exact (drained_of_not_stopping run _).1
  · rw [exec_readCompletion ready oldest, State.serveLink, State.completeOldest_eq]
  · refine ⟨_, exec_readCompletion_of_clear (s := s.setWaiting []) ready oldest rfl, ?_⟩
    rw [State.completeOldest_eq, State.completeOldest_eq]
    rfl
  · rw [exec_of_request request, State.arrive_of_takable clear takable]
  · change execReadCompletion s = _
    unfold execReadCompletion
    rw [none]

/-! ### The blocks of a completion (R12, R13, R15) -/

theorem completeRead_of_more {p : Pool} {i c : Nat} (count : (p.record i).inFlight = some c)
    (more : (p.record i).state = .air ∨ ((p.record i).state = .retiring ∧ 2 ≤ c)) :
    p.completeRead i = p.setRecord i { p.record i with inFlight := some (c - 1) } := by
  have read : p.readCount i = c := by rw [Pool.readCount, count]; rfl
  rcases more with air | ⟨retiring, two⟩
  · simp only [Pool.completeRead, air, read]
  · simp only [Pool.completeRead, retiring, read, if_neg (show ¬ c ≤ 1 by omega)]

theorem completeRead_of_last {p : Pool} {i : Nat} (retiring : (p.record i).state = .retiring)
    (last : p.readCount i ≤ 1) : p.completeRead i = { p.freeBlock i with retire := p.retire.erase i } := by
  simp only [Pool.completeRead, retiring, if_pos last]

theorem completeRead_of_free {p : Pool} {i : Nat} (free : (p.record i).state = .free) : p.completeRead i = p := by
  simp only [Pool.completeRead, free]

theorem record_fresh (tiles blocks i : Nat) : (Pool.fresh tiles blocks).record i = BlockRecord.fresh := by
  simp only [Pool.record, Pool.fresh, List.getD_eq_getElem?_getD, List.getElem?_replicate]
  split <;> rfl

theorem completeReads_one (p : Pool) (b : Nat) : p.completeReads [b] = p.completeRead b := rfl

/-- Two completions of one block each drain as one completion of two. -/
theorem drained_twice (run : RunState) (p : Pool) (b b' : Nat) :
    drainedPool (drainedRun run (p.completeRead b)) ((drainedPool run (p.completeRead b)).completeRead b') =
      drainedPool run ((p.completeRead b).completeRead b') ∧
    drainedRun (drainedRun run (p.completeRead b)) ((drainedPool run (p.completeRead b)).completeRead b') =
      drainedRun run ((p.completeRead b).completeRead b') := by
  by_cases going : run ≠ .stopping ∨ (p.completeRead b).retire ≠ []
  · obtain ⟨pool, run'⟩ := drained_of_going going
    rw [pool, run']
    exact ⟨rfl, rfl⟩
  · obtain ⟨stopping, empty⟩ := not_or.1 going
    obtain rfl : run = .stopping := not_not.1 stopping
    have empty : (p.completeRead b).retire = [] := not_not.1 empty
    have dims := (p.completeRead b).completeRead_dims b'
    obtain ⟨tiles, blocks⟩ := Prod.mk.inj dims
    obtain ⟨pool, run'⟩ := drained_of_empty empty
    obtain ⟨pool', run''⟩ := drained_of_empty (Pool.completeReads_retire empty [b'])
    rw [completeReads_one] at pool' run''
    have free : ((p.completeRead b).rebuild.record b').state = .free := by rw [Pool.rebuild, record_fresh]; rfl
    rw [pool, run', pool', run'', completeRead_of_free free, Pool.rebuild, Pool.rebuild, tiles, blocks]
    exact drained_of_not_stopping (by decide) _

/-- Settles O24: the block's state and count decide, and the retire list whether a drain ends. -/
theorem readCompletionFreesBlocks : Obligations.ReadCompletionFreesBlocks := by
  refine ⟨fun tag results b c rest s ready oldest clear lt count one => ⟨fun more going => ?_,
    fun retiring last going => ?_, fun retiring last run only => ?_⟩,
    fun tag results b b' rest s ready oldest clear => ?_⟩
  · have done := exec_readCompletion_of_clear ready oldest clear
    have pool : s.pool.completeReads [b] = _ := completeRead_of_more count more
    obtain ⟨pool', run'⟩ := drained_of_going (run := s.monitor.run) (p := s.pool.completeReads [b]) (by rwa [pool])
    rw [s.completeOldest_eq, InFlight.blocks, pool', run', pool] at done
    exact ⟨_, done, rfl, rfl, record_setRecord_self _ _ _ lt, fun i other => record_setRecord_ne _ _ _ _ other⟩
  · have done := exec_readCompletion_of_clear ready oldest clear
    have read : s.pool.readCount b ≤ 1 := by rw [Pool.readCount, count, last]; exact le_rfl
    have pool : s.pool.completeReads [b] = _ := completeRead_of_last retiring read
    obtain ⟨pool', run'⟩ := drained_of_going (run := s.monitor.run) (p := s.pool.completeReads [b]) (by rwa [pool])
    rw [s.completeOldest_eq, InFlight.blocks, pool', run', pool] at done
    exact ⟨_, done, rfl, record_freeBlock_self _ _, fun i other => record_freeBlock_ne _ _ _ other, rfl⟩
  · have done := exec_readCompletion_of_clear ready oldest clear
    have read : s.pool.readCount b ≤ 1 := by rw [Pool.readCount, count, last]; exact le_rfl
    have pool : s.pool.completeReads [b] = _ := completeRead_of_last retiring read
    obtain ⟨pool', run'⟩ := drained_of_empty (p := s.pool.completeReads [b]) (by rw [pool]; simp [only])
    rw [s.completeOldest_eq, InFlight.blocks, run, pool', run', pool] at done
    exact ⟨_, done, rfl, rfl, rfl, rfl, rfl, rfl⟩
  · intro apart
    have done := exec_readCompletion_of_clear ready oldest clear
    rw [s.completeOldest_eq] at done
    refine ⟨⟨_, done, ?_⟩, fun other retiring retiring' one one' run => ⟨_, done, ?_⟩⟩
    · have first := exec_readCompletion_of_clear (s := apart) ready rfl clear
      rw [apart.completeOldest_eq] at first
      have second := exec_readCompletion_of_clear (s := { apart with
        link := { apart.link with
          inFlight := .accepted tag results [b'] :: rest, sent := apart.link.sent ++ [apart.completionOf (.accepted tag results [b])] }
        pool := drainedPool s.monitor.run (s.pool.completeRead b)
        monitor := { s.monitor with run := drainedRun s.monitor.run (s.pool.completeRead b) } }) ready rfl clear
      rw [State.completeOldest_eq] at second
      obtain ⟨pool, run⟩ := drained_twice s.monitor.run s.pool b b'
      refine ⟨_, first, _, second, pool.symm, ?_⟩
      exact congrArg (fun r => { s.monitor with run := r }) run.symm
    · obtain ⟨pool, -⟩ := drained_of_not_stopping run (s.pool.completeReads [b, b'])
      have frees : s.pool.completeRead b = _ := completeRead_of_last retiring one.le
      have record : (s.pool.completeRead b).record b' = s.pool.record b' := by
        rw [frees]; exact record_freeBlock_ne _ _ _ other.symm
      have frees' : (s.pool.completeRead b).completeRead b' = _ :=
        completeRead_of_last (by rw [record, retiring']) (by rw [Pool.readCount, record]; exact one'.le)
      dsimp only
      rw [InFlight.blocks, pool, completeReads_cons, completeReads_one, frees']
      refine ⟨?_, ?_, ?_, record_freeBlock_self _ _, fun i first second => ?_⟩
      · rw [frees]; simp
      · rw [frees]
      · refine (record_freeBlock_ne _ _ _ other).trans ?_
        rw [frees]; exact record_freeBlock_self _ _
      · refine (record_freeBlock_ne _ _ _ second).trans ?_
        rw [frees]; exact record_freeBlock_ne _ _ _ first

end Sys2Proof.Machine
end

