-- ==== Sys2Proof/Proofs/Writes.lean ====
section
/-! WRITE (R27, R33 to R35): the link write check, the lines stored and the lines dropped. -/

namespace Sys2Proof.Machine

open Sys2Proof Sys2Proof.Safety

/-! ### DRAM after lines are stored (R20) -/

theorem lineAt_writeLine {m : List Host.Cell} (wf : Memory.wf m) (a : Nat) (l : Line) : LineAt (writeLine m a l) a l :=
  fun _ lt => readByte_writeLine_inside wf lt

theorem sameOutside_writeLine (m : List Host.Cell) (a : Nat) (l : Line) : SameOutside m (writeLine m a l) a 64 :=
  fun _ outside => readByte_writeLine_outside outside

/-- DRAM after consecutive lines are stored from an address. -/
def storeLines (m : List Host.Cell) (a : Nat) (data : List Line) : List Host.Cell :=
  match data with
  | [] => m
  | l :: rest => storeLines (writeLine m a l) (a + 64) rest

theorem storeLines_cons (m : List Host.Cell) (a : Nat) (l : Line) (rest : List Line) :
    storeLines m a (l :: rest) = storeLines (writeLine m a l) (a + 64) rest := by
  rw [storeLines]

theorem storeLines_wf {m : List Host.Cell} (wf : Memory.wf m) (a : Nat) (data : List Line) :
    Memory.wf (storeLines m a data) := by
  induction data generalizing m a with
  | nil => exact wf
  | cons l rest ih =>
    rw [storeLines_cons]
    exact ih (writeLine_wf wf) (a + 64)

theorem sameOutside_storeLines (m : List Host.Cell) (a : Nat) (data : List Line) :
    SameOutside m (storeLines m a data) a (64 * data.length) := by
  induction data generalizing m a with
  | nil => exact fun _ _ => rfl
  | cons l rest ih =>
    intro x outside
    rw [List.length_cons] at outside
    rw [storeLines_cons, ih (writeLine m a l) (a + 64) x (by omega)]
    exact sameOutside_writeLine m a l x (by omega)

theorem lineAt_storeLines {m : List Host.Cell} (wf : Memory.wf m) (a : Nat) (data : List Line) {i : Nat}
    (lt : i < data.length) : LineAt (storeLines m a data) (a + 64 * i) data[i] := by
  induction data generalizing m a i with
  | nil => exact absurd lt (Nat.not_lt_zero i)
  | cons l rest ih =>
    rw [storeLines_cons]
    cases i with
    | zero =>
      intro j hj
      rw [sameOutside_storeLines (writeLine m a l) (a + 64) rest _ (by omega)]
      exact lineAt_writeLine wf a l j hj
    | succ i =>
      have next := ih (writeLine_wf wf (a := a) (l := l)) (a + 64) (Nat.lt_of_succ_lt_succ lt)
      rw [show a + 64 * (i + 1) = a + 64 + 64 * i by omega]
      exact next

theorem requestLine_add (a : Addr) (i : Nat) : requestLine a i = requestLine a 0 + 64 * i := by
  unfold requestLine
  omega

theorem requestLine_next {a : Addr} (lt : a.toNat + 64 < 1099511627776) : requestLine (a + 64) 0 = requestLine a 0 + 64 := by
  have sum : (a + 64).toNat = a.toNat + 64 := by
    rw [BitVec.toNat_add]
    exact Nat.mod_eq_of_lt lt
  unfold requestLine
  rw [sum]
  omega

/-! ### What a WRITE leaves of the link -/

/-- What decides whether a request is taken on arrival, beside an accepted RESET_PART (R18). -/
def State.gate (s : State) : Bool × List Request := (s.link.ready, s.link.waiting)

theorem gate_of_link {s t : State} (link : t.link = s.link) : t.gate = s.gate := by
  rw [State.gate, link]; rfl

theorem carryOut_gate (s : State) (d : Command) : (s.carryOut d).1.gate = s.gate := by
  cases d with
  | configure args =>
    change (s.cmdConfigure args).1.gate = _
    unfold State.cmdConfigure
    split <;> rfl
  | start t m => exact gate_of_link (by simp only [State.carryOut, State.cmdStart]; (repeat' split) <;> simp)
  | stop => exact gate_of_link (by simp [State.carryOut, State.cmdStop])
  | setTarget t => rfl
  | setControl args => exact gate_of_link (by simp only [State.carryOut, State.cmdSetControl]; split <;> rfl)
  | dump => exact gate_of_link (by simp only [State.carryOut, State.cmdDump]; split <;> simp)
  | holdOpen => exact gate_of_link (by simp only [State.carryOut, State.cmdHoldOpen]; (repeat' split) <;> rfl)
  | holdClose => exact gate_of_link (by simp only [State.carryOut, State.cmdHoldClose]; split <;> simp)
  | release h => exact gate_of_link (by simp only [State.carryOut, State.cmdRelease]; split <;> simp)
  | dumpHold h => exact gate_of_link (by simp only [State.carryOut, State.cmdDumpHold]; split <;> simp)
  | clearFaults k => rfl
  | resetEngine => exact gate_of_link (by simp only [State.carryOut, State.cmdResetEngine]; split <;> simp)
  | resetPart r => exact gate_of_link (by simp only [State.carryOut, State.cmdResetPart]; split <;> rfl)

theorem runCommand_gate (s : State) (num : Byte) (d : Command) : (s.runCommand num d).gate = s.gate := by
  unfold State.runCommand
  split
  next => rfl
  next =>
    split
    next t r out => rw [gate_of_link (t.enterResult_link num d.code r), ← carryOut_gate s d, out]
    next t out => rw [← carryOut_gate s d, out]

theorem monitorLine_gate (s : State) (a : Nat) (l : Line) : (s.monitorLine a l).gate = s.gate := by
  unfold State.monitorLine
  split
  next =>
    split
    next =>
      split
      next => rfl
      next => exact runCommand_gate s _ _
    next => rfl
  next => rfl

theorem writeClassified_gate (s : State) (a : Nat) (l : Line) (c : LineClass) :
    (s.writeClassified a l c).gate = s.gate := by
  have stored : (s.writeHostLine a l).gate = s.gate := gate_of_link (s.writeHostLine_link a l)
  cases c with
  | unclaimed => rfl
  | ingest k j =>
    simp only [State.writeClassified]
    split
    next => exact gate_of_link (s.ingestLine_link k j l)
    next => rfl
  | egress slot j => rfl
  | control p => exact (monitorLine_gate _ a l).trans stored
  | readout p => exact stored
  | pass => exact stored

/-! ### The lines of a WRITE, one after the other (R35) -/

theorem writeLines_cons_claimed {s : State} {a : Nat} (claimed : s.classify a ≠ .unclaimed) (l : Line)
    (rest : List Line) (told : Bool) :
    s.writeLines a (l :: rest) told = (s.writeClassified a l (s.classify a)).writeLines (a + 64) rest told := by
  rw [State.writeLines]
  split
  next unclaimed => exact absurd unclaimed claimed
  next => rfl

theorem writeLines_cons_unclaimed {s : State} {a : Nat} (top : s.hostTop ≤ a) (l : Line) (rest : List Line)
    (told : Bool) : s.writeLines a (l :: rest) told =
      (if told then s else s.report .unclaimed none (some (BitVec.ofNat 40 a))).writeLines (a + 64) rest true := by
  rw [State.writeLines, classify_of_top top]

theorem writeLines_gate (s : State) (a : Nat) (data : List Line) (told : Bool) :
    (s.writeLines a data told).gate = s.gate := by
  induction data generalizing s a told with
  | nil => rfl
  | cons l rest ih =>
    by_cases top : s.hostTop ≤ a
    · rw [writeLines_cons_unclaimed top, ih]
      split <;> rfl
    · rw [writeLines_cons_claimed (mt classify_eq_unclaimed_iff.1 top), ih, writeClassified_gate]

theorem writeLines_told_of_top {s : State} {a : Nat} (top : s.hostTop ≤ a) (data : List Line) :
    s.writeLines a data true = s := by
  induction data generalizing a with
  | nil => rfl
  | cons l rest ih =>
    rw [writeLines_cons_unclaimed top]
    exact ih (by omega)

/-- Lines from the host-visible top on are dropped with one fault (R28). -/
theorem writeLines_of_top {s : State} {a : Nat} (top : s.hostTop ≤ a) (l : Line) (rest : List Line) :
    s.writeLines a (l :: rest) false = s.report .unclaimed none (some (BitVec.ofNat 40 a)) := by
  rw [writeLines_cons_unclaimed top]
  exact writeLines_told_of_top (by exact Nat.le_add_right_of_le top) rest

/-- A fault already reported is not reported again. -/
theorem report_report (s : State) (k : FaultKind) (q q' : Option Seq) (a a' : Option Addr) :
    (s.report k q a).report k q' a' = s.report k q a := by
  unfold State.report
  simp only [State.setReadout_readout, State.setReadout_air, BitVec.or_assoc, BitVec.or_self]
  cases s.readout.first <;> rfl

/-- A WRITE's first line, then the rest: a fault the first line raises is not raised again. -/
theorem writeLines_cons (s : State) (a : Nat) (l : Line) (rest : List Line) :
    s.writeLines a (l :: rest) false = (s.writeLines a [l] false).writeLines (a + 64) rest false := by
  by_cases top : s.hostTop ≤ a
  · rw [writeLines_of_top top, writeLines_of_top top]
    cases rest with
    | nil => rfl
    | cons l' rest =>
      rw [writeLines_of_top (by exact Nat.le_add_right_of_le top), report_report]
  · have claimed := mt classify_eq_unclaimed_iff.1 top
    rw [writeLines_cons_claimed claimed, writeLines_cons_claimed claimed]
    rfl

/-! ### A WRITE taken on arrival (R18) -/

theorem takeWrite_of_passes {s : State} {a : Addr} {data : List Line} {check : Option Half}
    (passes : WritePasses s a data check) : s.takeWrite a data check = s.writeLines (requestLine a 0) data false := by
  refine if_neg ?_
  rcases passes with off | good
  · simp [off]
  · simp [good]

/-- A WRITE that passes is its lines in order. -/
theorem exec_write_passed {s : State} {a : Addr} {data : List Line} {check : Option Half} (clear : LinkClear s)
    (passes : WritePasses s a data check) :
    exec (.write a data check) s = .next (s.writeLines (requestLine a 0) data false) := by
  have taken : s.takeRequest (.write a data check) = s.writeLines (requestLine a 0) data false :=
    takeWrite_of_passes passes
  rw [exec_request_taken rfl clear.2 (takable_write clear.1 a data check), taken]
  rw [taken]
  exact (congrArg Prod.snd (writeLines_gate s _ data false)).trans clear.2

theorem linkClear_writeLines {s : State} (clear : LinkClear s) {a : Nat} {data : List Line} {told : Bool}
    (noReset : (s.writeLines a data told).monitor.resetPart = none) : LinkClear (s.writeLines a data told) := by
  obtain ⟨ready, waiting⟩ := Prod.mk.inj (writeLines_gate s a data told)
  exact ⟨⟨ready.trans clear.1.1, noReset⟩, waiting.trans clear.2⟩

/-! ### Lines stored (R20, R27) -/

/-- A line that is stored and does nothing else: PASS, READOUT, or CONTROL and not read as a command. -/
def State.Stores (s : State) (x : Nat) (l : Line) : Prop :=
  s.classify x = .pass ∨ (∃ p, s.classify x = .readout p) ∨
    ∃ p, s.classify x = .control p ∧ (fieldAt l 0 8 ≠ 0x10 ∨ s.monitor.resetPart ≠ none)

theorem monitorLine_of_silent {s : State} {l : Line} (silent : fieldAt l 0 8 ≠ 0x10 ∨ s.monitor.resetPart ≠ none)
    (a : Nat) : s.monitorLine a l = s := by
  refine if_neg fun ⟨kind, listens⟩ => ?_
  rcases silent with other | asked
  · exact other kind
  · exact asked (Option.isNone_iff_eq_none.1 listens)

theorem writeClassified_of_stores {s : State} {x : Nat} {l : Line} (stores : s.Stores x l) :
    s.classify x ≠ .unclaimed ∧ s.writeClassified x l (s.classify x) = s.setDram (writeLine s.dram x l) := by
  rcases stores with pass | ⟨p, readout⟩ | ⟨p, control, silent⟩
  · rw [pass]; exact ⟨nofun, by rw [State.writeClassified, State.writeHostLine]⟩
  · rw [readout]; exact ⟨nofun, by rw [State.writeClassified, State.writeHostLine]⟩
  · rw [control]
    refine ⟨nofun, ?_⟩
    rw [State.writeClassified, State.writeHostLine]
    refine monitorLine_of_silent ?_ x
    rwa [State.setDram_monitor]

theorem setDram_setDram (s : State) (m m' : List Host.Cell) : (s.setDram m).setDram m' = s.setDram m' := rfl

theorem stores_setDram {s : State} {x : Nat} {l : Line} (m : List Host.Cell) (stores : s.Stores x l) :
    (s.setDram m).Stores x l := stores

/-- Lines that are only stored, in front of others. -/
theorem writeLines_of_stores {s : State} {a : Nat} {data : List Line}
    (stores : ∀ i, (h : i < data.length) → s.Stores (a + 64 * i) data[i]) (more : List Line) (told : Bool) :
    s.writeLines a (data ++ more) told =
      (s.setDram (storeLines s.dram a data)).writeLines (a + 64 * data.length) more told := by
  induction data generalizing s a with
  | nil => rfl
  | cons l rest ih =>
    have first : s.Stores a l := stores 0 (Nat.succ_pos _)
    obtain ⟨claimed, written⟩ := writeClassified_of_stores first
    have others : ∀ i, (h : i < rest.length) →
        (s.setDram (writeLine s.dram a l)).Stores (a + 64 + 64 * i) rest[i] := fun i h => by
      have next := stores (i + 1) (Nat.succ_lt_succ h)
      rw [show a + 64 * (i + 1) = a + 64 + 64 * i by omega] at next
      exact stores_setDram _ next
    rw [List.cons_append, writeLines_cons_claimed claimed, written, ih others, setDram_setDram, storeLines_cons,
      State.setDram_dram, List.length_cons, show a + 64 * (rest.length + 1) = a + 64 + 64 * rest.length by omega]

theorem writeLines_of_all_stores {s : State} {a : Nat} {data : List Line}
    (stores : ∀ i, (h : i < data.length) → s.Stores (a + 64 * i) data[i]) (told : Bool) :
    s.writeLines a data told = s.setDram (storeLines s.dram a data) := by
  have all := writeLines_of_stores stores [] told
  rw [List.append_nil] at all
  exact all

theorem stores_of_requestLines {s : State} {a : Addr} {data : List Line}
    (stores : ∀ i, (h : i < data.length) → s.Stores (requestLine a i) data[i]) :
    ∀ i, (h : i < data.length) → s.Stores (requestLine a 0 + 64 * i) data[i] := fun i h => by
  rw [← requestLine_add]
  exact stores i h

/-! ### Lines dropped (R27, R28) -/

theorem writeClassified_dropped {s : State} {x : Nat} {l : Line}
    (dropped : (∃ slot j, s.classify x = .egress slot j) ∨ (s.monitor.run = .stopping ∧ ∃ k j, s.classify x = .ingest k j)) :
    s.classify x ≠ .unclaimed ∧ s.writeClassified x l (s.classify x) = s := by
  rcases dropped with ⟨slot, j, egress⟩ | ⟨run, k, j, ingest⟩
  · rw [egress]; exact ⟨nofun, rfl⟩
  · rw [ingest]; exact ⟨nofun, if_neg (by rw [run]; decide)⟩

theorem writeLines_dropped {s : State} {a : Nat} {data : List Line} (told : Bool)
    (dropped : ∀ i < data.length, (∃ slot j, s.classify (a + 64 * i) = .egress slot j) ∨
      (s.monitor.run = .stopping ∧ ∃ k j, s.classify (a + 64 * i) = .ingest k j)) :
    s.writeLines a data told = s := by
  induction data generalizing a with
  | nil => rfl
  | cons l rest ih =>
    obtain ⟨claimed, same⟩ := writeClassified_dropped (x := a) (l := l) (dropped 0 (Nat.succ_pos _))
    rw [writeLines_cons_claimed claimed, same]
    refine ih fun i h => ?_
    have next := dropped (i + 1) (Nat.succ_lt_succ h)
    rwa [show a + 64 * (i + 1) = a + 64 + 64 * i by omega] at next

theorem report_setDram (s : State) (m : List Host.Cell) (k : FaultKind) (q : Option Seq) (a : Option Addr) :
    (s.setDram m).report k q a = { s with dram := m, readout := (s.report k q a).readout } := rfl

/-- Settles O16: each line's class drops it, and the first UNCLAIMED line tells of all. -/
theorem writeDropsLines : Obligations.WriteDropsLines := by
  refine ⟨fun a data check s clear passes dropped => ?_, fun a data check s clear passes some top => ?_,
    fun a data check s k clear wf passes lt top below => ?_⟩
  · rw [exec_write_passed clear passes, writeLines_dropped false fun i h => ?_]
    rw [← requestLine_add]
    exact dropped i h
  · obtain ⟨l, rest, rfl⟩ := List.exists_cons_of_ne_nil some
    rw [exec_write_passed clear passes, writeLines_of_top (top 0 (Nat.succ_pos _))]
    rfl
  · have stores : ∀ i, (h : i < (data.take k).length) → s.Stores (requestLine a i) (data.take k)[i] := fun i h => by
      have lt' : i < k := by rw [List.length_take] at h; omega
      exact (below i lt').imp_right .inl
    have length : (data.take k).length = k := by rw [List.length_take]; omega
    have split : data = data.take k ++ data[k] :: data.drop (k + 1) := by
      rw [← List.drop_eq_getElem_cons lt, List.take_append_drop]
    have done := exec_write_passed clear passes
    have stored := writeLines_of_stores (stores_of_requestLines stores) (data[k] :: data.drop (k + 1)) false
    have top' : (s.setDram (storeLines s.dram (requestLine a 0) (data.take k))).hostTop ≤ requestLine a k := top
    rw [← split, length, ← requestLine_add, writeLines_of_top top', report_setDram] at stored
    rw [stored] at done
    refine ⟨_, done, rfl, fun i h lt' => ?_, ?_⟩
    · have line := lineAt_storeLines wf (requestLine a 0) (data.take k) (i := i) (by omega)
      rw [List.getElem_take, ← requestLine_add] at line
      exact line
    · have outside := sameOutside_storeLines s.dram (requestLine a 0) (data.take k)
      rw [length] at outside
      exact outside

/-! ### The link write check (R33, R34) -/

theorem addressSum_toNat (a : Addr) : (addressSum a).toNat =
    (a.toNat % 65536 + a.toNat / 65536 % 65536 + a.toNat / 4294967296) % 65536 := by
  have lt : a.toNat < 1099511627776 := a.isLt
  unfold addressSum
  simp only [BitVec.toNat_add, BitVec.extractLsb'_toNat, Nat.shiftRight_eq_div_pow]
  omega

theorem foldl_wordSum_toNat (data : List Line) (acc : Half) :
    (data.foldl (fun acc l => acc + wordSum l) acc).toNat =
      (acc.toNat + (data.map fun l => ((List.range 32).map fun i => (fieldAt l (2 * i) 16).toNat).sum).sum) % 65536 := by
  induction data generalizing acc with
  | nil => exact (Nat.mod_eq_of_lt acc.isLt).symm
  | cons l rest ih =>
    rw [List.foldl_cons, ih, BitVec.toNat_add, wordSum_toNat, List.map_cons, List.sum_cons]
    omega

theorem linkCheckPasses_iff (a : Addr) (data : List Line) (c : Half) : linkCheckPasses a data (some c) = true ↔
    ((data.map fun l => ((List.range 32).map fun i => (fieldAt l (2 * i) 16).toNat).sum).sum +
      (a.toNat % 65536 + a.toNat / 65536 % 65536 + a.toNat / 4294967296) + c.toNat) % 65536 = 0 := by
  rw [linkCheckPasses, beq_iff_eq, ← BitVec.toNat_inj, BitVec.toNat_add, BitVec.toNat_add, addressSum_toNat,
    foldl_wordSum_toNat]
  generalize (data.map fun l => ((List.range 32).map fun i => (fieldAt l (2 * i) 16).toNat).sum).sum = sum
  rw [show (0 : Half).toNat = 0 from rfl, show (2 : Nat) ^ 16 = 65536 from rfl]
  omega

theorem exec_write_failed {s : State} {a : Addr} {data : List Line} {check : Option Half} (clear : LinkClear s)
    (on : s.link.checkMode = true) (fails : linkCheckPasses a data check = false) :
    exec (.write a data check) s = .next (s.failedWrite a data.length) := by
  have taken : s.takeRequest (.write a data check) = s.failedWrite a data.length := if_pos (by simp [on, fails])
  rw [exec_request_taken rfl clear.2 (takable_write clear.1 a data check), taken]
  rw [taken, State.failedWrite_link]
  exact clear.2

theorem touchesSlot_iff {s : State} {k : Fin 4} {x : Nat} : s.touchesSlot k x = true ↔ ∃ j, s.classify x = .ingest k j := by
  unfold State.touchesSlot
  split
  next k' j class_eq => simp [class_eq]
  next other => exact ⟨nofun, fun ⟨j, class_eq⟩ => absurd class_eq (other k j)⟩

/-- The slots after a check-failure notice. -/
theorem slot_checkFailureNotice (s : State) (addrs : List Nat) (k : Fin 4) : (s.checkFailureNotice addrs).slot k =
    if addrs.any (s.touchesSlot k) then (s.slot k).discarded else s.slot k := by
  simp [State.checkFailureNotice, State.slot]

/-- Settles O15: the check's sum, and the notice to the slots the WRITE touches. -/
theorem writeFailsLinkCheck : Obligations.WriteFailsLinkCheck := by
  refine ⟨linkCheckPasses_iff, fun a data => rfl, fun a data check s clear on fails => ?_⟩
  have done := exec_write_failed clear on fails
  by_cases run : s.monitor.run = .running
  · rw [State.failedWrite, if_pos run] at done
    have touched : ∀ k : Fin 4, ((List.range data.length).map (requestLine a)).any
        ((s.report .linkCheck none (some a)).touchesSlot k) = true ↔
        ∃ i < data.length, ∃ j, s.classify (requestLine a i) = .ingest k j := fun k => by
      simp only [List.any_map, List.any_eq_true, List.mem_range, Function.comp, touchesSlot_iff]
      rfl
    refine ⟨_, done, rfl, rfl, fun stopped => absurd run stopped, fun k untouched => ?_,
      fun k i j _ lt class_eq => ⟨fun b w first filling => ?_, fun other => ?_⟩⟩
    · rw [slot_checkFailureNotice, if_neg]
      · rfl
      · rintro any
        obtain ⟨i, lt, j, class_eq⟩ := (touched k).1 any
        exact untouched i lt j class_eq
    · rw [slot_checkFailureNotice, if_pos ((touched k).2 ⟨i, lt, j, class_eq⟩)]
      change (s.slot k).discarded = _
      rw [filling]; rfl
    · rw [slot_checkFailureNotice, if_pos ((touched k).2 ⟨i, lt, j, class_eq⟩)]
      change (s.slot k).discarded = s.slot k
      cases slot : s.slot k with
      | filling b w first => exact absurd slot (other b w first)
      | _ => rfl
  · rw [State.failedWrite, if_neg run] at done
    exact ⟨_, done, rfl, rfl, fun _ => rfl, fun _ _ => rfl, fun _ _ _ running => absurd running run⟩

/-! ### Lines behind an accepted RESET_PART (R164) -/

/-- The state with another RESET_PART request. -/
def State.withReset (s : State) (r : Option Bool) : State := s.setMonitor { s.monitor with resetPart := r }

section
variable (s : State) (r : Option Bool)

theorem withReset_writeBlockLine (b j : Nat) (l : Line) :
    (s.withReset r).writeBlockLine b j l = (s.writeBlockLine b j l).withReset r := by
  have same : writeLine (s.withReset r).dram ((s.withReset r).blockLineAddr b j) l =
      writeLine s.dram (s.blockLineAddr b j) l := by
    rw [show (s.withReset r).dram = s.dram from rfl, show (s.withReset r).blockLineAddr b j = s.blockLineAddr b j from rfl]
  rw [State.writeBlockLine, State.writeBlockLine, same]
  generalize writeLine s.dram (s.blockLineAddr b j) l = m
  rfl

theorem withReset_payloadLine (k : Fin 4) (j : Nat) (l : Line) :
    (s.withReset r).payloadLine k j l = (s.payloadLine k j l).withReset r := by
  have slot : (s.withReset r).slot k = s.slot k := rfl
  have pool : (s.withReset r).pool.allocate = s.pool.allocate := rfl
  unfold State.payloadLine
  rw [slot, pool]
  cases s.slot k with
  | empty =>
    cases s.pool.allocate with
    | none => rfl
    | some given => exact withReset_writeBlockLine ((s.setPool given.2).setSlot k _) r given.1 j l
  | filling b w first => exact withReset_writeBlockLine (s.setSlot k _) r b j l
  | discard b first => rfl
  | overrun => rfl

theorem withReset_logEdits (es : List LogEntry) : (s.withReset r).logEdits es = (s.logEdits es).withReset r := by
  induction es generalizing s with
  | nil => rfl
  | cons e rest ih => exact ih (s.logEdit e)

theorem withReset_depthReport : (s.withReset r).depthReport = s.depthReport.withReset r := by
  unfold State.depthReport
  rw [show (s.withReset r).monitor.run = s.monitor.run from rfl]
  split <;> rfl

theorem withReset_append (e : Entry) : (s.withReset r).append e = (s.append e).withReset r := by
  have guard : (s.withReset r).applyGuard e.seq = (s.applyGuard e.seq).withReset r := by
    unfold State.applyGuard
    rw [show (s.withReset r).queue = s.queue from rfl]
    dsimp only
    split
    next => rfl
    next => exact withReset_logEdits ((((s.setQueue _).setPool _).setHolds _).logEdit _) r _
  rw [State.append, guard]
  exact withReset_depthReport ((s.applyGuard e.seq).joinTail e) r

theorem withReset_commitFrame (k : Fin 4) (b : Nat) (w : List Nat) (l : Line) (gap : Byte) :
    (s.withReset r).commitFrame k b w l gap = (s.commitFrame k b w l gap).withReset r :=
  withReset_append ((s.setPool _).setIngest _) r _

theorem withReset_finishFrame (k : Fin 4) (b : Nat) (w : List Nat) (l : Line) :
    (s.withReset r).finishFrame k b w l = (s.finishFrame k b w l).withReset r := by
  unfold State.finishFrame
  rw [withReset_writeBlockLine, show (s.withReset r).ingest = s.ingest from rfl,
    show (s.withReset r).slotFaultAddr k = s.slotFaultAddr k from rfl]
  generalize s.writeBlockLine b 0 l = u
  dsimp only
  split
  next =>
    split
    next => exact withReset_commitFrame u r k b w l 0
    next => exact withReset_commitFrame ((u.report _ _ _).logEdit _) r k b w l _
    next => rfl
  next => rfl

theorem withReset_ingestLine (k : Fin 4) (j : Nat) (l : Line) :
    (s.withReset r).ingestLine k j l = (s.ingestLine k j l).withReset r := by
  unfold State.ingestLine
  split
  next =>
    unfold State.pictureRecord
    rw [show (s.withReset r).slot k = s.slot k from rfl, show (s.withReset r).pool = s.pool from rfl]
    cases s.slot k with
    | empty =>
      cases s.pool.allocate with
      | none => rfl
      | some given => exact withReset_finishFrame (s.setPool given.2) r k given.1 [] l
    | filling b w first => exact withReset_finishFrame s r k b w l
    | discard b first => rfl
    | overrun => rfl
  next => exact withReset_payloadLine s r k j l

end

theorem classify_congr {s t : State} (dims : t.pool.dims = s.pool.dims) (windows : t.windows = s.windows)
    (straps : t.straps = s.straps) (run : t.monitor.run = s.monitor.run) (x : Nat) : t.classify x = s.classify x := by
  obtain ⟨tiles, blocks⟩ := Prod.mk.inj dims
  unfold State.classify State.hostTop Pool.ingestBytes Pool.egressBytes Pool.blockBytes
  rw [tiles, blocks, windows, straps, run]

theorem append_dims (s : State) (e : Entry) : (s.append e).pool.dims = s.pool.dims := by
  obtain ⟨es, eq⟩ := s.append_eq e
  rw [eq, State.depthReport_pool, State.logEdits_pool, State.joinTail_pool]
  exact s.cutForGuard_dims e.seq

theorem finishFrame_dims (s : State) (k : Fin 4) (b : Nat) (w : List Nat) (l : Line) :
    (s.finishFrame k b w l).pool.dims = s.pool.dims := by
  have stored : (s.writeBlockLine b 0 l).pool = s.pool := by simp
  unfold State.finishFrame
  dsimp only
  rw [← stored]
  generalize s.writeBlockLine b 0 l = u
  split
  next =>
    split
    next => exact append_dims _ _
    next => exact append_dims _ _
    next => rfl
  next => rfl

theorem ingestLine_dims (s : State) (k : Fin 4) (j : Nat) (l : Line) : (s.ingestLine k j l).pool.dims = s.pool.dims := by
  unfold State.ingestLine
  split
  next =>
    unfold State.pictureRecord
    split
    next => exact finishFrame_dims _ _ _ _ _
    next => rfl
    next => rfl
    next =>
      split
      next => rfl
      next given => exact (finishFrame_dims _ _ _ _ _).trans (allocate_dims given)
  next =>
    unfold State.payloadLine
    split
    next =>
      split
      next => rfl
      next given => rw [State.writeBlockLine_pool]; exact allocate_dims given
    next => rw [State.writeBlockLine_pool]; rfl
    next => rfl
    next => rfl

/-- A line that no command is read from: it leaves the classes as they are, whatever RESET_PART asks. -/
theorem writeClassified_withReset {s : State} {x : Nat} {l : Line}
    (silent : ∀ p, s.classify x = .control p → fieldAt l 0 8 ≠ 0x10) (r : Option Bool) :
    (s.withReset r).writeClassified x l (s.classify x) = (s.writeClassified x l (s.classify x)).withReset r ∧
    ∀ y, (s.writeClassified x l (s.classify x)).classify y = s.classify y := by
  have stored : ∀ u : State, u.dram = s.dram → u.writeHostLine x l = u.setDram (writeLine s.dram x l) := fun u same => by
    rw [State.writeHostLine, same]
  have plain : (s.withReset r).writeHostLine x l = (s.writeHostLine x l).withReset r ∧
      ∀ y, (s.writeHostLine x l).classify y = s.classify y := by
    rw [stored (s.withReset r) rfl, stored s rfl]
    generalize writeLine s.dram x l = m
    exact ⟨rfl, fun _ => rfl⟩
  cases class_eq : s.classify x with
  | unclaimed => exact ⟨rfl, fun _ => rfl⟩
  | ingest k j =>
    simp only [State.writeClassified, show (s.withReset r).monitor.run = s.monitor.run from rfl]
    split
    next =>
      exact ⟨withReset_ingestLine s r k j l, classify_congr (ingestLine_dims s k j l) (s.ingestLine_windows k j l)
        (s.ingestLine_straps k j l) (by rw [State.ingestLine_monitor])⟩
    next => exact ⟨rfl, fun _ => rfl⟩
  | egress slot j => exact ⟨rfl, fun _ => rfl⟩
  | control p =>
    have quiet : ∀ u : State, u.monitorLine x l = u := fun u => monitorLine_of_silent (.inl (silent p class_eq)) x
    simp only [State.writeClassified, quiet]
    exact plain
  | readout p => exact plain
  | pass => exact plain

/-- Lines no command is read from are taken whatever RESET_PART asks. -/
theorem writeLines_withReset {s : State} {a : Nat} {data : List Line} (told : Bool)
    (silent : ∀ i, (h : i < data.length) → ∀ p, s.classify (a + 64 * i) = .control p → fieldAt data[i] 0 8 ≠ 0x10)
    (r : Option Bool) : (s.withReset r).writeLines a data told = (s.writeLines a data told).withReset r := by
  induction data generalizing s a told with
  | nil => rfl
  | cons l rest ih =>
    have others : ∀ i, (h : i < rest.length) → ∀ p, s.classify (a + 64 + 64 * i) = .control p →
        fieldAt rest[i] 0 8 ≠ 0x10 := fun i h p class_eq => by
      rw [show a + 64 + 64 * i = a + 64 * (i + 1) by omega] at class_eq
      exact silent (i + 1) (Nat.succ_lt_succ h) p class_eq
    by_cases top : s.hostTop ≤ a
    · rw [writeLines_cons_unclaimed top, writeLines_cons_unclaimed (s := s.withReset r) top]
      cases told with
      | true => exact ih true others
      | false => exact ih (s := s.report _ _ _) true others
    · have claimed := mt classify_eq_unclaimed_iff.1 top
      obtain ⟨commutes, classes⟩ := writeClassified_withReset (x := a) (l := l) (silent 0 (Nat.succ_pos _)) r
      rw [writeLines_cons_claimed claimed, writeLines_cons_claimed (s := s.withReset r) claimed]
      rw [show (s.withReset r).classify a = s.classify a from rfl, commutes]
      exact ih told fun i h p class_eq => others i h p ((classes _).symm.trans class_eq)

/-- Settles O14: lines that are only stored, the first line and the rest, and the rest behind a RESET_PART. -/
theorem writeStoresLines : Obligations.WriteStoresLines := by
  refine ⟨fun a data check s clear wf passes lines => ?_,
    fun a l rest check check₁ check₂ s t clear lt passes passes₁ first passes₂ => ?_⟩
  · have stores : ∀ i, (h : i < data.length) → s.Stores (requestLine a i) data[i] := fun i h =>
      (lines i h).imp_right (Or.imp_right fun ⟨p, control, other⟩ => ⟨p, control, .inl other⟩)
    have done := exec_write_passed clear passes
    rw [writeLines_of_all_stores (stores_of_requestLines stores)] at done
    refine ⟨_, done, rfl, storeLines_wf wf _ _, fun i h => ?_, sameOutside_storeLines _ _ _⟩
    rw [requestLine_add]
    exact lineAt_storeLines wf _ _ h
  · have done := exec_write_passed clear passes
    rw [writeLines_cons, ← requestLine_next lt] at done
    rw [exec_write_passed clear passes₁] at first
    obtain rfl := Host.Outcome.next.inj first
    obtain ⟨ready, waiting⟩ := Prod.mk.inj (writeLines_gate s (requestLine a 0) [l] false)
    refine ⟨fun noReset => ?_, fun asked => ⟨fun silent => ?_, fun wf lines => ?_⟩⟩
    · rw [done, exec_write_passed (linkClear_writeLines clear noReset) passes₂]
    · have clear' : LinkClear ((s.writeLines (requestLine a 0) [l] false).withReset none) :=
        ⟨⟨ready.trans clear.1.1, rfl⟩, waiting.trans clear.2⟩
      refine ⟨_, exec_write_passed clear' passes₂, done.trans (congrArg _ ?_)⟩
      exact (writeLines_withReset (s := (s.writeLines (requestLine a 0) [l] false).withReset none) false
        (fun i h p class_eq => silent i h p (by rw [requestLine_add]; exact class_eq))
        (s.writeLines (requestLine a 0) [l] false).monitor.resetPart)
    · have wf' : Memory.wf (s.writeLines (requestLine a 0) [l] false).dram :=
        (s.writeLines_events _ _ _).keep (fun _ _ e => e.keeps_wf) wf
      have stores : ∀ i, (h : i < rest.length) →
          (s.writeLines (requestLine a 0) [l] false).Stores (requestLine (a + 64) i) rest[i] := fun i h =>
        (lines i h).imp_right (Or.imp_right fun ⟨p, control⟩ => ⟨p, control, .inr asked⟩)
      rw [writeLines_of_all_stores (stores_of_requestLines stores)] at done
      refine ⟨_, done, rfl, fun i h => ?_, sameOutside_storeLines _ _ _⟩
      rw [requestLine_add]
      exact lineAt_storeLines wf' _ _ h

end Sys2Proof.Machine
end

