-- ==== Sys2Proof/Proofs/IngestLines.lean ====
section
/-! Ingest lines in RUNNING (R40 to R52): payload lines, and picture records that commit, refuse or drop a frame. -/

namespace Sys2Proof.Machine

open Sys2Proof Sys2Proof.Safety

/-! ### The completeness test (R41, R47) -/

theorem tileComplete_iff (written : List Nat) (t : Nat) :
    tileComplete written t = true ↔ ∀ i < 1024, 1024 * t + i = 0 ∨ 1024 * t + i ∈ written := by
  simp [tileComplete, Config.tileLines, Nat.mul_comm]

/-- Settles O20: the set is a filter of the tiles in order. -/
theorem completenessTest : Obligations.CompletenessTest := by
  refine fun tiles written => ⟨List.pairwise_lt_range.filter _, fun t => ?_⟩
  have incomplete : tileComplete written t = false ↔ ∃ i < 1024, 1024 * t + i ≠ 0 ∧ 1024 * t + i ∉ written := by
    rw [← Bool.not_eq_true, tileComplete_iff]
    simp
  rw [missingTiles, List.mem_filter, List.mem_range, Bool.not_eq_true', incomplete]

theorem mem_addLine {j x : Nat} {set : List Nat} : x ∈ addLine j set ↔ x = j ∨ x ∈ set := by
  induction set with
  | nil => simp [addLine]
  | cons i rest ih =>
    unfold addLine
    split
    next => simp
    next =>
      split
      next same => simp [same]
      next => simp [ih, or_left_comm]

/-! ### Slots (R38) -/

theorem slots_set_same (v : Vector IngestSlot 4) (k : Fin 4) (sl : IngestSlot) : (v.set k sl)[k] = sl :=
  Vector.getElem_set_self _

theorem slots_set_ne (v : Vector IngestSlot 4) {k k' : Fin 4} (other : k' ≠ k) (sl : IngestSlot) :
    (v.set k sl)[k'] = v[k'] :=
  Vector.getElem_set_ne _ _ fun same => other (Fin.ext same.symm)

/-- An ingest line in RUNNING. -/
theorem exec_write_ingest {s : State} {a : Addr} {l : Line} {check : Option Half} {k : Fin 4} {j : Nat}
    (clear : LinkClear s) (passes : WritePasses s a [l] check) (run : s.monitor.run = .running)
    (class_eq : s.classify (requestLine a 0) = .ingest k j) :
    exec (.write a [l] check) s = .next (s.ingestLine k j l) := by
  have claimed : s.classify (requestLine a 0) ≠ .unclaimed := by rw [class_eq]; nofun
  rw [exec_write_passed clear passes, writeLines_cons_claimed claimed, class_eq]
  exact congrArg _ (if_pos run)

/-! ### The line of a block (R1) -/

theorem blockLineAddr_setPool (s : State) {p : Pool} (dims : p.dims = s.pool.dims) (b j : Nat) :
    (s.setPool p).blockLineAddr b j = s.blockLineAddr b j := by
  obtain ⟨tiles, blocks⟩ := Prod.mk.inj dims
  simp only [State.blockLineAddr, State.hostTop, Pool.blockBytes, State.setPool_pool, State.setPool_straps, tiles, blocks]

theorem slotFaultAddr_setPool (s : State) {p : Pool} (dims : p.dims = s.pool.dims) (k : Fin 4) :
    (s.setPool p).slotFaultAddr k = BitVec.ofNat 40 (s.slotLineAddr k 0) := by
  obtain ⟨tiles, blocks⟩ := Prod.mk.inj dims
  simp only [State.slotFaultAddr, State.slotLineAddr, Pool.blockBytes, State.setPool_pool, State.setPool_windows, tiles]

theorem writeBlockLine_setPool (s : State) {p : Pool} (dims : p.dims = s.pool.dims) (b j : Nat) (l : Line) :
    (s.setPool p).writeBlockLine b j l = (s.setPool p).setDram (writeLine s.dram (s.blockLineAddr b j) l) := by
  rw [State.writeBlockLine, blockLineAddr_setPool s dims, State.setPool_dram]

theorem writeBlockLine_setSlot (s : State) (k : Fin 4) (sl : IngestSlot) (b j : Nat) (l : Line) :
    (s.setSlot k sl).writeBlockLine b j l =
      (s.setSlot k sl).setDram (writeLine s.dram (s.blockLineAddr b j) l) := by
  have addr : (s.setSlot k sl).blockLineAddr b j = s.blockLineAddr b j := rfl
  rw [State.writeBlockLine, addr, State.setSlot_dram]

/-! ### Payload lines (R40 to R42) -/

theorem payloadLine_of_empty {s : State} {k : Fin 4} {i : Nat} {p : Pool} (empty : s.slot k = .empty)
    (given : s.pool.allocate = some (i, p)) (j : Nat) (l : Line) : s.payloadLine k j l =
      ((s.setPool p).setSlot k (.filling i [j] s.air.serve)).writeBlockLine i j l := by
  simp only [State.payloadLine, empty, given]

theorem payloadLine_of_exhausted {s : State} {k : Fin 4} (empty : s.slot k = .empty)
    (none : s.pool.allocate = none) (j : Nat) (l : Line) : s.payloadLine k j l = s.setSlot k .overrun := by
  simp only [State.payloadLine, empty, none]

theorem payloadLine_of_filling {s : State} {k : Fin 4} {b : Nat} {w : List Nat} {first : Seq}
    (filling : s.slot k = .filling b w first) (j : Nat) (l : Line) : s.payloadLine k j l =
      (s.setSlot k (.filling b (addLine j w) first)).writeBlockLine b j l := by
  simp only [State.payloadLine, filling]

theorem payloadLine_of_lost {s : State} {k : Fin 4} (lost : (∃ b first, s.slot k = .discard b first) ∨ s.slot k = .overrun)
    (j : Nat) (l : Line) : s.payloadLine k j l = s := by
  rcases lost with ⟨b, first, discard⟩ | overrun
  · simp only [State.payloadLine, discard]
  · simp only [State.payloadLine, overrun]

theorem allocate_of_head {p : Pool} {b : Nat} {rest : List Nat} (head : p.free = b :: rest) :
    p.allocate = some (b, { p with free := rest, records := p.records.set b { p.record b with state := .ingest } }) := by
  unfold Pool.allocate
  rw [head]
  rfl

theorem record_of_records {p q : Pool} {b : Nat} {r : BlockRecord} (records : q.records = p.records.set b r) :
    (∀ i, i ≠ b → q.record i = p.record i) ∧ (b < p.records.length → q.record b = r) := by
  have same : ∀ i, q.record i = (p.setRecord b r).record i := fun i => by rw [Pool.record, records]; rfl
  exact ⟨fun i other => (same i).trans (record_setRecord_ne p b i r other),
    fun lt => (same b).trans (record_setRecord_self p b r lt)⟩

/-- Settles O17: the slot's state decides. -/
theorem payloadLineBySlotState : Obligations.PayloadLineBySlotState := by
  intro a l check s k j clear passes run wf class_eq payload
  have done := exec_write_ingest clear passes run class_eq
  rw [State.ingestLine, if_neg payload] at done
  refine ⟨fun b rest empty head => ?_, fun empty none => ?_, fun b w first filling => ?_, fun lost => ?_⟩
  · rw [payloadLine_of_empty empty (allocate_of_head head), writeBlockLine_setSlot, State.setPool_dram,
      blockLineAddr_setPool s (by rfl)] at done
    have line := lineAt_writeLine wf (s.blockLineAddr b j) l
    have outside := sameOutside_writeLine s.dram (s.blockLineAddr b j) l
    generalize writeLine s.dram (s.blockLineAddr b j) l = m at done line outside
    have records := record_of_records (p := s.pool) (q := { s.pool with
      free := rest, records := s.pool.records.set b { s.pool.record b with state := .ingest } }) rfl
    exact ⟨_, done, rfl, slots_set_same _ _ _, fun k' other => slots_set_ne _ other _,
      fun lt => congrArg BlockRecord.state (records.2 lt), records.1, line, outside⟩
  · rw [payloadLine_of_exhausted empty ((allocate_eq_none _).2 none)] at done
    exact ⟨_, done, rfl, slots_set_same _ _ _, fun k' other => slots_set_ne _ other _⟩
  · rw [payloadLine_of_filling filling, writeBlockLine_setSlot] at done
    have line := lineAt_writeLine wf (s.blockLineAddr b j) l
    have outside := sameOutside_writeLine s.dram (s.blockLineAddr b j) l
    generalize writeLine s.dram (s.blockLineAddr b j) l = m at done line outside
    exact ⟨_, done, rfl, ⟨addLine j w, slots_set_same _ _ _, fun x => mem_addLine⟩,
      fun k' other => slots_set_ne _ other _, line, outside⟩
  · rw [done, payloadLine_of_lost lost]

/-! ### The block a picture record ends its frame in (R44, R52) -/

/-- The pool once the block of an EMPTY slot's picture record has left the free list. -/
def State.endPool (s : State) (k : Fin 4) (b : Nat) : Pool :=
  if s.slot k = .empty then
    { s.pool with
      free := s.pool.free.tail
      records := s.pool.records.set b { s.pool.record b with state := .ingest } }
  else s.pool

theorem pictureRecord_of_endsFrameIn {s : State} {k : Fin 4} {b : Nat} {w : List Nat} (ends : EndsFrameIn s k b w)
    (l : Line) : s.pictureRecord k l = (s.setPool (s.endPool k b)).finishFrame k b w l := by
  rcases ends with ⟨first, filling⟩ | ⟨empty, rfl, rest, head⟩
  · rw [State.endPool, if_neg (by rw [filling]; nofun)]
    simp only [State.pictureRecord, filling]
    rfl
  · rw [State.endPool, if_pos empty, head]
    simp only [State.pictureRecord, empty, allocate_of_head head]
    rfl

theorem endPool_eq (s : State) (k : Fin 4) (b : Nat) :
    s.endPool k b = { s.pool with free := freeAfter s k, records := (s.endPool k b).records } := by
  unfold State.endPool freeAfter
  split <;> rfl

theorem endPool_record (s : State) (k : Fin 4) (b : Nat) :
    (∀ i, i ≠ b → (s.endPool k b).record i = s.pool.record i) ∧
    (s.endPool k b).records.length = s.pool.records.length := by
  unfold State.endPool
  split
  next => exact ⟨(record_of_records rfl).1, List.length_set⟩
  next => exact ⟨fun _ _ => rfl, rfl⟩

theorem endPool_dims (s : State) (k : Fin 4) (b : Nat) : (s.endPool k b).dims = s.pool.dims := by
  unfold State.endPool
  split <;> rfl

/-! ### Commit (R46, R48, R64) -/

/-- Two states with the same fields are one. -/
theorem State.eq_of_fields {s t : State} (link : s.link = t.link) (windows : s.windows = t.windows)
    (store : s.store = t.store) (straps : s.straps = t.straps) (held : s.resetHeld = t.resetHeld)
    (dram : s.dram = t.dram) (pool : s.pool = t.pool) (ingest : s.ingest = t.ingest) (queue : s.queue = t.queue)
    (gen : s.gen = t.gen) (air : s.air = t.air) (trim : s.trim = t.trim) (holds : s.holds = t.holds)
    (console : s.console = t.console) (monitor : s.monitor = t.monitor) (readout : s.readout = t.readout)
    (pending : s.pending = t.pending) : s = t := by
  cases s
  cases t
  simp_all only

theorem append_of_fits {s : State} {e : Entry} (fits : guardFits e.seq s.queue.entries = true) :
    s.append e = (s.joinTail e).depthReport := by
  rw [State.append, State.applyGuard, guardRemoved_of_fits fits, if_pos rfl]

theorem depthReport_of_running {s : State} (run : s.monitor.run = .running) : s.depthReport = s.evaluateTrim :=
  if_pos run

/-- A commit in RUNNING of a frame that fits (R48, R64). -/
theorem commitFrame_of_fits {s : State} {l : Line} (fits : guardFits (recordSeq l) s.queue.entries = true)
    (run : s.monitor.run = .running) (k : Fin 4) (b : Nat) (w : List Nat) (gap : Byte) :
    s.commitFrame k b w l gap = { s with
      pool := s.pool.commitBlock b (missingTiles s.pool.tiles w)
      ingest := { slots := s.ingest.slots.set k .empty, lastSeq := some (recordSeq l) }
      queue := {
        entries := s.queue.entries ++
          [{ seq := recordSeq l, stamp := s.air.serve, block := b, level := fieldAt l 2 8, segment := l.getLsbD 8,
             isPartial := decide (missingTiles s.pool.tiles w ≠ []), gapBefore := gap,
             spliceIn := s.queue.splicePending, hold := s.openHold.map (·.id) }]
        splicePending := false }
      holds := { s.holds with table := s.holds.table.map fun h => h.tag (recordSeq l) }
      trim := s.trim.evaluate (s.queue.entries.length + 1) s.monitor.inForce.target s.monitor.inForce.band } := by
  have isPartial : (missingTiles s.pool.tiles w != []) = decide (missingTiles s.pool.tiles w ≠ []) := by
    cases missingTiles s.pool.tiles w <;> rfl
  rw [State.commitFrame, append_of_fits (by exact fits), depthReport_of_running (by exact run)]
  refine State.eq_of_fields rfl rfl rfl rfl rfl rfl rfl rfl ?_ rfl rfl ?_ rfl rfl rfl rfl rfl
  · simp only [commitEntry, isPartial]
    rfl
  · exact congrArg (fun d => s.trim.evaluate d _ _) (List.length_append ..)

/-- The tests of a picture record with a good check (R45, R46). -/
theorem finishFrame_of_good {s : State} {l : Line} (good : recordGood l = true) (k : Fin 4) (b : Nat) (w : List Nat) :
    s.finishFrame k b w l = match sequenceTest s.ingest.lastSeq (recordSeq l) with
    | .inOrder => (s.writeBlockLine b 0 l).commitFrame k b w l 0
    | .gap e d =>
      (((s.writeBlockLine b 0 l).report .seqGap (some (recordSeq l)) (some (s.slotFaultAddr k))).logEdit
        (gapEntry e d (recordSeq l))).commitFrame k b w l (byteSat d.toNat)
    | .behind =>
      ((s.writeBlockLine b 0 l).refuseFrame k b).report .seqBack (some (recordSeq l)) (some (s.slotFaultAddr k)) := by
  rw [State.finishFrame, if_pos good] <;> rfl

theorem finishFrame_of_bad {s : State} {l : Line} (bad : recordGood l = false) (k : Fin 4) (b : Nat) (w : List Nat) :
    s.finishFrame k b w l =
      ((s.writeBlockLine b 0 l).refuseFrame k b).report .headerBad none (some (s.slotFaultAddr k)) := by
  rw [State.finishFrame, if_neg (by rw [bad]; nofun)]

theorem sequenceTest_inOrder {last : Option Seq} {q : Seq} (next : last = none ∨ last = some (q - 1)) :
    sequenceTest last q = .inOrder := by
  rcases next with rfl | rfl
  · rfl
  · exact if_pos (by simp)

theorem sequenceTest_gap {q p : Seq} (ne : q - (p + 1) ≠ 0) (near : (q - (p + 1)).toNat < 2147483648) :
    sequenceTest (some p) q = .gap (p + 1) (q - (p + 1)) := by
  rw [sequenceTest, if_neg ne, if_pos near]

theorem sequenceTest_behind {q p : Seq} (far : 2147483648 ≤ (q - (p + 1)).toNat) :
    sequenceTest (some p) q = .behind := by
  have ne : q - (p + 1) ≠ 0 := fun zero => by rw [zero] at far; exact absurd far (by decide)
  rw [sequenceTest, if_neg ne, if_neg (by omega)]

theorem commitBlock_endPool (s : State) (k : Fin 4) (b : Nat) (missing : List Nat) :
    (s.endPool k b).commitBlock b missing =
        { s.pool with free := freeAfter s k, records := ((s.endPool k b).commitBlock b missing).records } ∧
      (b < s.pool.records.length → ((s.endPool k b).commitBlock b missing).record b =
        { state := .queued, inFlight := none, missing := if missing = [] then none else some missing }) ∧
      (∀ i, i ≠ b → ((s.endPool k b).commitBlock b missing).record i = s.pool.record i) := by
  refine ⟨?_, fun lt => record_setRecord_self _ _ _ ((endPool_record s k b).2 ▸ lt), fun i other =>
    (record_setRecord_ne _ _ _ _ other).trans ((endPool_record s k b).1 i other)⟩
  rw [Pool.commitBlock, Pool.setRecord, endPool_eq]

/-- Settles O18: the sequence test passes in order or with a gap, and the frame fits. -/
theorem pictureRecordCommits : Obligations.PictureRecordCommits := by
  intro a l check s k b w gap clear passes run wf class_eq ends good q missing noGap afterGap fits accepted
  have done := exec_write_ingest clear passes run class_eq
  rw [State.ingestLine, if_pos rfl, pictureRecord_of_endsFrameIn ends, finishFrame_of_good good,
    writeBlockLine_setPool s (endPool_dims s k b)] at done
  have line := lineAt_writeLine wf (s.blockLineAddr b 0) l
  have outside := sameOutside_writeLine s.dram (s.blockLineAddr b 0) l
  generalize writeLine s.dram (s.blockLineAddr b 0) l = m at done line outside
  have tiles : (s.endPool k b).tiles = s.pool.tiles := congrArg Prod.fst (endPool_dims s k b)
  obtain ⟨pool, self, others⟩ := commitBlock_endPool s k b missing
  have isGap : ∀ p, afterGap p → ¬ noGap := by
    rintro p ⟨last, ne, -, -⟩ ⟨-, none | some⟩
    · rw [none] at last
      cases last
    · rw [some] at last
      cases last
      exact ne (by simp)
  suffices committed : ∃ r : Readout, exec (.write a [l] check) s =
      .next ((((s.setPool (s.endPool k b)).setDram m).setReadout r).commitFrame k b w l gap) ∧
      (noGap → r = s.readout) ∧ (∀ p, afterGap p → r =
        ((s.report .seqGap (some q) (some (BitVec.ofNat 40 (s.slotLineAddr k 0)))).logEdit
          { kind := .gap, first := some (p + 1), last := some (q - 1), count := some (q - (p + 1)),
            hold := none, cause := .device }).readout) by
    obtain ⟨r, ran, inOrder, after⟩ := committed
    have fits' : guardFits (recordSeq l) (((s.setPool (s.endPool k b)).setDram m).setReadout r).queue.entries = true := fits
    rw [commitFrame_of_fits fits' run] at ran
    refine ⟨_, ran, State.eq_of_fields rfl rfl rfl rfl rfl rfl ?_ rfl ?_ rfl rfl rfl rfl rfl rfl rfl rfl,
      slots_set_same _ _ _, fun k' other => slots_set_ne _ other _, ?_, ?_, line, outside, inOrder, after⟩
    · simpa only [State.setReadout_pool, State.setDram_pool, State.setPool_pool, tiles] using pool
    · simp only [State.setReadout_pool, State.setDram_pool, State.setPool_pool, tiles]
      rfl
    · simpa only [State.setReadout_pool, State.setDram_pool, State.setPool_pool, tiles] using self
    · simpa only [State.setReadout_pool, State.setDram_pool, State.setPool_pool, tiles] using others
  rcases accepted with next | ⟨p, after⟩
  · rw [sequenceTest_inOrder (by exact next.2)] at done
    exact ⟨s.readout, next.1 ▸ done, fun _ => rfl, fun p gapped => absurd next (isGap p gapped)⟩
  · have last : s.ingest.lastSeq = some p := after.1
    rw [State.setPool_ingest, last, sequenceTest_gap (q := recordSeq l) after.2.1 after.2.2.1,
      slotFaultAddr_setPool s (endPool_dims s k b)] at done
    have gap_eq : byteSat (recordSeq l - (p + 1)).toNat = gap := after.2.2.2.symm
    simp only [gap_eq] at done
    refine ⟨_, done, fun next => absurd next (isGap p after), fun p' after' => ?_⟩
    obtain rfl : p = p' := Option.some.inj (last.symm.trans after'.1)
    rfl

/-! ### Refused and lost frames (R44, R49 to R51) -/

theorem freeBlock_endPool (s : State) (k : Fin 4) (b : Nat) :
    (s.endPool k b).freeBlock b =
        { s.pool with free := freeAfter s k ++ [b], records := ((s.endPool k b).freeBlock b).records } ∧
      ((s.endPool k b).freeBlock b).record b = freeRecord ∧
      (∀ i, i ≠ b → ((s.endPool k b).freeBlock b).record i = s.pool.record i) := by
  refine ⟨?_, record_freeBlock_self _ _, fun i other =>
    (record_freeBlock_ne _ _ _ other).trans ((endPool_record s k b).1 i other)⟩
  rw [Pool.freeBlock, endPool_eq]
  rfl

theorem pictureRecord_of_discard {s : State} {k : Fin 4} {b : Nat} {first : Seq} (discard : s.slot k = .discard b first)
    (l : Line) : s.pictureRecord k l =
      ((s.setSlot k .empty).freeBlock b).reportDrop k (loggedSeq l) .discard := by
  simp only [State.pictureRecord, discard]

theorem pictureRecord_of_overrun {s : State} {k : Fin 4} (overrun : s.slot k = .overrun) (l : Line) :
    s.pictureRecord k l = (s.setSlot k .empty).reportDrop k (loggedSeq l) .overrun := by
  simp only [State.pictureRecord, overrun]

theorem pictureRecord_of_exhausted {s : State} {k : Fin 4} (empty : s.slot k = .empty) (none : s.pool.free = [])
    (l : Line) : s.pictureRecord k l = s.reportDrop k (loggedSeq l) .overrun := by
  simp only [State.pictureRecord, empty, (allocate_eq_none _).2 none]

/-- Settles O19: a frame is refused at its tests, or was lost before its end. -/
theorem pictureRecordRefusedOrDropped : Obligations.PictureRecordRefusedOrDropped := by
  intro a l check s k clear passes run wf class_eq q addr behind logged
  have done := exec_write_ingest clear passes run class_eq
  rw [State.ingestLine, if_pos rfl] at done
  refine ⟨fun b w ends refused => ?_, fun b first discard => ?_, fun none => ?_⟩
  · rw [pictureRecord_of_endsFrameIn ends] at done
    have line := lineAt_writeLine wf (s.blockLineAddr b 0) l
    have outside := sameOutside_writeLine s.dram (s.blockLineAddr b 0) l
    have written := writeBlockLine_setPool s (endPool_dims s k b) b 0 l
    generalize writeLine s.dram (s.blockLineAddr b 0) l = m at written line outside
    obtain ⟨pool, self, others⟩ := freeBlock_endPool s k b
    suffices ran : ∃ r : Readout, exec (.write a [l] check) s =
        .next ((((s.setPool (s.endPool k b)).setDram m).refuseFrame k b).setReadout r) ∧
        (recordGood l = false → r = (s.report .headerBad none (some addr)).readout) ∧
        (recordGood l = true → r = (s.report .seqBack (some q) (some addr)).readout) by
      obtain ⟨r, ran, headerBad, seqBack⟩ := ran
      exact ⟨_, ran, State.eq_of_fields rfl rfl rfl rfl rfl rfl pool rfl rfl rfl rfl rfl rfl rfl rfl rfl rfl,
        slots_set_same _ _ _, fun k' other => slots_set_ne _ other _, self, others, line, outside, headerBad, seqBack⟩
    cases good : recordGood l with
    | false =>
      rw [finishFrame_of_bad good, written, slotFaultAddr_setPool s (endPool_dims s k b)] at done
      exact ⟨_, done, fun _ => rfl, nofun⟩
    | true =>
      obtain ⟨p, last, far⟩ := refused.resolve_left (by rw [good]; nofun)
      rw [finishFrame_of_good good, written, State.setPool_ingest, last, sequenceTest_behind (q := recordSeq l) far,
        slotFaultAddr_setPool s (endPool_dims s k b)] at done
      exact ⟨_, done, nofun, fun _ => rfl⟩
  · rw [pictureRecord_of_discard discard] at done
    exact ⟨_, done, rfl, slots_set_same _ _ _, fun k' other => slots_set_ne _ other _, record_freeBlock_self _ _,
      fun i other => record_freeBlock_ne _ _ _ other⟩
  · rcases none with overrun | ⟨empty, none⟩
    · rw [pictureRecord_of_overrun overrun] at done
      exact ⟨_, done, rfl, slots_set_same _ _ _, fun k' other => slots_set_ne _ other _⟩
    · rw [pictureRecord_of_exhausted empty none] at done
      exact ⟨_, done, rfl, empty, fun _ _ => rfl⟩

end Sys2Proof.Machine
end

