-- ==== Sys2Proof/Proofs/ControlRecords.lean ====
section
/-! The control monitor (R140 to R149, R152): how a command row is judged, carried out and entered, command
records, the run-state table, and the settings, faults and reset commands. -/

namespace Sys2Proof.Machine

open Sys2Proof Sys2Proof.Safety

/-! ### A command row (R141 to R143) -/

/-- The run state decides the command. -/
theorem exec_rowOf_judged {s : State} {c : Command} {r : CmdResult} (up : LinkUp s)
    (judged : c.judge s.monitor.run = some r) (num : Byte) :
    exec (rowOf num c) s = .next { s with monitor := entered s.monitor num c.code r } := by
  rw [exec_rowOf, State.readCommand_of_linkUp up]
  simp only [State.runCommand, judged]
  rfl

/-- The command is carried out. -/
theorem exec_rowOf_taken {s t : State} {c : Command} {r : CmdResult} (up : LinkUp s)
    (taken : c.judge s.monitor.run = none) (done : s.carryOut c = (t, some r)) (num : Byte) :
    exec (rowOf num c) s = .next { t with monitor := entered t.monitor num c.code r } := by
  rw [exec_rowOf, State.readCommand_of_linkUp up]
  simp only [State.runCommand, taken, done]
  rfl

/-- Settles O25: a row of the table per run state. -/
theorem runStateTable : Obligations.RunStateTable := by
  refine fun num c s up => ⟨fun run hold => exec_rowOf_judged up ?_ num, fun run stopped => exec_rowOf_judged up ?_ num,
    fun run taken => exec_rowOf_judged up ?_ num, fun run stop => ?_⟩
  · rw [run]
    rcases hold with rfl | rfl | rfl | ⟨h, rfl⟩ | ⟨h, rfl⟩ <;> rfl
  · rw [run]
    rcases stopped with ⟨a, rfl⟩ | ⟨t, m, rfl⟩ <;> rfl
  · rw [run]
    rcases taken with (rfl | rfl | rfl | ⟨h, rfl⟩ | ⟨h, rfl⟩) | (⟨a, rfl⟩ | ⟨t, m, rfl⟩) | ⟨t, rfl⟩ | ⟨a, rfl⟩ | ⟨k, rfl⟩ <;>
      rfl
  · subst stop
    refine exec_rowOf_judged up ?_ num
    cases state : s.monitor.run with
    | stopped => rfl
    | running => exact absurd state run
    | stopping => rfl

/-! ### Command records (R140, R141, R157) -/

/-- A field is the number in the bytes from its first bit on. -/
theorem fieldAt_toNat (l : Line) (i w : Nat) : (fieldAt l i w).toNat = l.toNat / 2 ^ (8 * i) % 2 ^ w := by
  rw [fieldAt, BitVec.extractLsb'_toNat, Nat.shiftRight_eq_div_pow]

theorem byteOf_add (l : Line) (i k : Nat) : byteOf l (i + k) = l.toNat / 2 ^ (8 * i) / 2 ^ (8 * k) % 256 := by
  rw [byteOf, fieldAt_toNat, Nat.div_div_eq_div_mul, ← pow_add, Nat.mul_add]
  rfl

theorem fieldAt_two (l : Line) (i : Nat) : (fieldAt l i 16).toNat = twoBytes l i := by
  have first := byteOf_add l i 0
  rw [twoBytes, fieldAt_toNat, byteOf_add, show byteOf l i = _ from first]
  omega

theorem fieldAt_five (l : Line) (i : Nat) : (fieldAt l i 40).toNat = fiveBytes l i := by
  have first := byteOf_add l i 0
  rw [fiveBytes, twoBytes, twoBytes, fieldAt_toNat, show i + 2 + 1 = i + 3 from rfl, byteOf_add, byteOf_add, byteOf_add, byteOf_add,
    show byteOf l i = _ from first]
  omega

theorem recordGood_iff_words (l : Line) :
    recordGood l = true ↔ ((List.range 32).map fun i => twoBytes l (2 * i)).sum % 65536 = 0 := by
  rw [recordGood_iff]
  simp only [fieldAt_two]

theorem commandOf_eq_none (l : Line) : commandOf l = none ↔ recordCode l = 0 ∨ 13 < (recordCode l).toNat := by
  have zero : recordCode l = 0 ↔ (recordCode l).toNat = 0 := by
    rw [← BitVec.toNat_inj]
    rfl
  rw [zero]
  unfold commandOf
  split
  case h_14 => simp only [imp_false, true_iff] at *; omega
  all_goals next code => simp [code]

/-- The command of a record carries the record's code and arguments. -/
theorem commandOf_reads {l : Line} {c : Command} (command : commandOf l = some c) :
    c.code = recordCode l ∧ ReadsAs l c := by
  unfold commandOf at command
  have same : ∀ {n : Nat}, (recordCode l).toNat = n → BitVec.ofNat 8 n = recordCode l := fun code =>
    by
    rw [← code, BitVec.ofNat_toNat, BitVec.setWidth_eq]
  split at command
  all_goals cases command
  case h_1 code =>
    exact ⟨same code, code, fieldAt_five l 4, fieldAt_five l 9, fieldAt_five l 14, fieldAt_five l 19, rfl,
      fieldAt_two l 26, rfl, rfl⟩
  case h_2 code => exact ⟨same code, code, fieldAt_two l 4, rfl⟩
  case h_4 code => exact ⟨same code, code, fieldAt_two l 4⟩
  case h_5 code =>
    exact ⟨same code, code, fieldAt_two l 4, rfl, rfl, fieldAt_two l 8, fieldAt_two l 10, rfl, rfl, fieldAt_two l 14,
      rfl, rfl, fieldAt_two l 18, rfl, fieldAt_two l 22⟩
  case h_9 code => exact ⟨same code, code, rfl⟩
  case h_10 code => exact ⟨same code, code, rfl⟩
  case h_11 code => exact ⟨same code, code, fieldAt_two l 4⟩
  case h_13 code => exact ⟨same code, code, rfl⟩
  all_goals next code => exact ⟨same code, code⟩

/-- A COMMAND record in the control page is stored and read (R140, R141). -/
theorem exec_write_command {s : State} {a : Addr} {l : Line} {check : Option Half} {p : Nat} (clear : LinkClear s)
    (passes : WritePasses s a [l] check) (class_eq : s.classify (requestLine a 0) = .control p)
    (kind : fieldAt l 0 8 = 0x10) {m : List Host.Cell} (stored : writeLine s.dram (requestLine a 0) l = m) :
    exec (.write a [l] check) s = .next (if recordGood l = true then
      match commandOf l with
      | none => (s.setDram m).enterResult (recordNum l) (recordCode l) .unknown
      | some c => (s.setDram m).runCommand (recordNum l) c
    else ((s.setDram m).report .cmdBad none (some (BitVec.ofNat 40 (requestLine a 0)))).enterResult (recordNum l)
      (recordCode l) .badCheck) := by
  have claimed : s.classify (requestLine a 0) ≠ .unclaimed := by rw [class_eq]; nofun
  have listens : fieldAt l 0 8 = commandKind ∧ (s.setDram m).monitor.resetPart.isNone = true :=
    ⟨kind, by rw [State.setDram_monitor, clear.1.2]; rfl⟩
  rw [exec_write_passed clear passes, writeLines_cons_claimed claimed, class_eq, State.writeClassified, State.writeHostLine,
    stored, State.monitorLine, if_pos listens] <;> rfl

/-- Settles O22: a record is judged by its check, then by its code. -/
theorem commandRecordRunsItsRow : Obligations.CommandRecordRunsItsRow := by
  refine ⟨recordGood_iff_words, commandOf_eq_none, fun l c => commandOf_reads, ?_⟩
  intro a l check s p clear passes class_eq kind
  obtain ⟨m, written⟩ : ∃ m, writeLine s.dram (requestLine a 0) l = m := ⟨_, rfl⟩
  rw [written]
  intro stored
  have done := exec_write_command clear passes class_eq kind written
  refine ⟨fun c good command => ?_, fun good unknown => ?_, fun bad => ?_⟩
  · rw [if_pos good, command] at done
    rw [done, exec_rowOf, State.readCommand_of_linkUp (by exact clear.1)]
    rfl
  · rw [if_pos good, unknown] at done
    exact done
  · rw [if_neg (by rw [bad]; nofun)] at done
    exact done

/-! ### START (R145) -/

theorem startCondition_of_le {mode : Byte} (le : mode.toNat ≤ 1) :
    startCondition mode = some (if mode = 1 then .priming else .filled) := by
  have one : mode = 1 ↔ mode.toNat = 1 := by
    rw [← BitVec.toNat_inj]
    rfl
  simp only [startCondition, one]
  obtain zero | one := Nat.le_one_iff_eq_zero_or_eq_one.1 le
  · rw [zero]
    rfl
  · rw [one]
    rfl

theorem startCondition_of_lt {mode : Byte} (lt : 1 < mode.toNat) : startCondition mode = none := by
  unfold startCondition
  split
  case h_3 => rfl
  all_goals omega

theorem evaluate_start (target band : Nat) : Trim.start.evaluate 0 target band =
    { state := if 0 < target - band then .building else .onDelay, credit := 0 } := by
  unfold Trim.evaluate TrimState.next
  by_cases below : 0 < target - band <;> simp [Trim.start, below]

/-- The run START makes (R145). -/
theorem startRun_eq (s : State) (target : Nat) (cond : AirCond) : s.startRun target cond = { s with
    pool := s.pool.rebuild
    ingest := Ingest.start
    queue := Queue.start
    air := { Air.start with condition := cond }
    trim := Trim.start.evaluate 0 target s.monitor.staged.band
    holds := { s.holds with table := [], dumpTotal := 0 }
    monitor := { s.monitor with
      run := .running
      staged := { s.monitor.staged with target := target }
      inForce := { s.monitor.staged with target := target } } } := by
  rw [State.startRun]
  generalize Trim.start.evaluate 0 target _ = x
  rfl

/-- Settles O27: the two refusals, then the run. -/
theorem startTaken : Obligations.StartTaken := by
  intro num target mode s up run
  have taken : (Command.start target mode).judge s.monitor.run = none := by rw [run]; rfl
  have row : ∀ {t r}, s.cmdStart target mode = (t, r) →
      exec (.start num target mode) s = .next { t with monitor := entered t.monitor num 0x02 r } := fun done =>
    exec_rowOf_taken (c := .start target mode) up taken (by rw [State.carryOut, done]) num
  refine ⟨fun closed => row (if_pos closed), fun ingest egress unknown => row ?_, fun ingest egress known => ?_⟩
  · rw [State.cmdStart, if_neg (by tauto), startCondition_of_lt unknown]
  · intro most t' staged
    have done : s.cmdStart target mode = (s.startRun t' (if mode = 1 then .priming else .filled),
        if target.toNat ≤ most then .accepted else .clamped) := by
      rw [State.cmdStart, if_neg (by tauto), startCondition_of_le known]
      rfl
    have trim : (s.startRun t' (if mode = 1 then .priming else .filled)).trim =
        { state := if 0 < t' - staged.band then .building else .onDelay, credit := 0 } := by
      rw [State.startRun_trim, evaluate_start]
    refine ⟨_, row done, ?_⟩
    rw [startRun_eq, evaluate_start]
    rfl

/-! ### SET_TARGET and SET_CONTROL (R147) -/

theorem judge_of_setting {s : State} {c : Command} (going : s.monitor.run ≠ .stopping) (setting : isSettingCommand c) :
    c.judge s.monitor.run = none := by
  cases run : s.monitor.run with
  | stopping => exact absurd run going
  | stopped => rcases setting with ⟨t, rfl⟩ | ⟨a, rfl⟩ | ⟨k, rfl⟩ <;> rfl
  | running => rcases setting with ⟨t, rfl⟩ | ⟨a, rfl⟩ | ⟨k, rfl⟩ <;> rfl

theorem clampTo_eq {lo hi : Nat} (le : lo ≤ hi) (v : Nat) :
    clampTo lo hi v = if v < lo then lo else if hi < v then hi else v := by
  unfold clampTo
  split
  · omega
  · split <;> omega

theorem inBounds_iff {lo hi v : Nat} : inBounds lo hi v = true ↔ lo ≤ v ∧ v ≤ hi := by
  simp [inBounds]

/-- A half-word below 1 is 0. -/
theorem one_le_toNat (v : Half) : 1 ≤ v.toNat ↔ v ≠ 0 := by
  rw [Nat.one_le_iff_ne_zero, ne_eq, ne_eq, ← BitVec.toNat_inj]
  rfl

theorem controlCodesOk_iff (a : ControlArgs) : controlCodesOk a = true ↔
    ¬ ((a.change.getLsbD 1 = true ∧ 1 < a.eligibility.toNat) ∨ (a.change.getLsbD 5 = true ∧ 1 < a.dumpMode.toNat) ∨
      (a.change.getLsbD 8 = true ∧ 1 < a.dumpInflight.toNat) ∨
      (a.change.getLsbD 10 = true ∧ 1 < a.stallPolicy.toNat)) := by
  simp only [controlCodesOk, namesSetting, Bool.and_eq_true, Bool.or_eq_true, Bool.not_eq_true', decide_eq_true_iff,
    not_or, not_and, not_lt, ← Bool.not_eq_true, imp_iff_not_or, and_assoc]

theorem controlValuesOk_iff (a : ControlArgs) : controlValuesOk a = true ↔
    ¬ ((a.change.getLsbD 0 = true ∧ 15 < a.band.toNat) ∨
      (a.change.getLsbD 2 = true ∧ (a.buildRate = 0 ∨ 500 < a.buildRate.toNat)) ∨
      (a.change.getLsbD 3 = true ∧ (a.catchRate = 0 ∨ 500 < a.catchRate.toNat)) ∨
      (a.change.getLsbD 6 = true ∧ (a.dumpLength = 0 ∨ 1024 < a.dumpLength.toNat)) ∨
      (a.change.getLsbD 7 = true ∧ 64 < a.dumpFloor.toNat) ∨
      (a.change.getLsbD 9 = true ∧ (a.stallLimit = 0 ∨ 3000 < a.stallLimit.toNat)) ∨
      (a.change.getLsbD 11 = true ∧ (a.freezeLimit = 0 ∨ 1000 < a.freezeLimit.toNat))) := by
  simp only [controlValuesOk, namesSetting, Bool.and_eq_true, Bool.or_eq_true, Bool.not_eq_true', inBounds_iff,
    one_le_toNat, Nat.zero_le, true_and, not_or, not_and, not_lt, ← Bool.not_eq_true, imp_iff_not_or, and_assoc, ne_eq]

/-- Settles O29: the clamp of each value is the cut into its range. -/
theorem settingCommands : Obligations.SettingCommands := by
  refine ⟨fun num target s up going => ?_, fun num a s up going => ?_⟩
  · exact exec_rowOf_taken (c := .setTarget target) up (judge_of_setting going (.inl ⟨target, rfl⟩)) rfl num
  · have taken := judge_of_setting going (.inr (.inl ⟨a, rfl⟩))
    intro named badCode outside into
    refine ⟨fun bad => ?_, fun good => ?_⟩
    · have refused : s.cmdSetControl a = (s, .refusedRange) := if_neg (mt (controlCodesOk_iff a).1 (not_not.2 bad))
      exact exec_rowOf_taken (c := .setControl a) up taken (by rw [State.carryOut, refused]) num
    · have accepted : s.cmdSetControl a = (s.setMonitor { s.monitor with staged := s.monitor.staged.change a },
          if controlValuesOk a then .accepted else .clamped) := if_pos ((controlCodesOk_iff a).2 good)
      have done : s.carryOut (.setControl a) = (s.setMonitor { s.monitor with staged := s.monitor.staged.change a },
          some (if controlValuesOk a then .accepted else .clamped)) := by rw [State.carryOut, accepted]
      have values := controlValuesOk_iff a
      have clamped : ∀ (i lo hi v old : Nat), lo ≤ hi → (if namesSetting a i then clampTo lo hi v else old) =
          if a.change.getLsbD i then into lo hi v else old := fun i lo hi v old le => by
        rw [clampTo_eq le]
        rfl
      have flag : (a.dumpInflight == 1) = decide (a.dumpInflight = 1) := rfl
      exact ⟨_, exec_rowOf_taken (c := .setControl a) up taken done num, _, _, rfl,
        fun out => if_neg (mt values.1 (not_not.2 out)), fun inside => if_pos (values.2 inside), rfl,
        clamped 0 0 15 _ _ (by decide), rfl, clamped 2 1 500 _ _ (by decide), clamped 3 1 500 _ _ (by decide), rfl, rfl,
        clamped 6 1 1024 _ _ (by decide), clamped 7 0 64 _ _ (by decide), by rw [← flag]; rfl,
        clamped 9 1 3000 _ _ (by decide), rfl, clamped 11 1 1000 _ _ (by decide)⟩

/-! ### CLEAR_FAULTS and RESET_PART (R149, R152) -/

/-- Settles O36: a flag stays unless its kind is named. -/
theorem clearFaultsTaken : Obligations.ClearFaultsTaken := by
  intro num kinds s up going
  refine ⟨_, exec_rowOf_taken (c := .clearFaults kinds) up (judge_of_setting going (.inr (.inr ⟨kinds, rfl⟩))) rfl num, rfl,
    fun i lt => ?_, fun none => ?_, fun r some => ?_⟩
  · have flags : (s.readout.flags &&& ~~~(kinds.setWidth 10)).getLsbD i = (s.readout.flags.getLsbD i && !kinds.getLsbD i) := by
      simp [lt]
    exact flags
  · exact congrArg (Option.filter _) none
  · refine (congrArg (Option.filter _) some).trans ?_
    cases named : kinds.getLsbD r.kind.index <;> simp [Option.filter, named]

theorem exec_resetPart {s : State} (up : LinkUp s) (num resample : Byte) :
    exec (.resetPart num resample) s = .next (match s.cmdResetPart resample with
      | (t, some r) => t.enterResult num 0x0D r
      | (t, none) => t) := by
  rw [show exec (.resetPart num resample) s = _ from exec_rowOf num (.resetPart resample) s, State.readCommand_of_linkUp up] <;> rfl

/-- Settles O38: accepted, no result is entered, and nothing is read or taken from then on. -/
theorem resetPartTaken : Obligations.ResetPartTaken := by
  refine ⟨fun num resample s up known => ?_, fun num resample s up unknown => ?_, fun num c s silent => ?_,
    fun c s silent request => ?_⟩
  · rw [exec_resetPart up, State.cmdResetPart, if_pos known]
    rfl
  · rw [exec_resetPart up, State.cmdResetPart, if_neg unknown.not_ge]
    rfl
  · have deaf : s.listening = false := by
      simp [State.listening, Option.isNone_eq_false_iff, Option.isSome_iff_ne_none, silent]
    rw [exec_rowOf, State.readCommand_of_not_listening deaf]
  · have closed : s.takesRequests = false := by
      simp [State.takesRequests, Option.isNone_eq_false_iff, Option.isSome_iff_ne_none, silent]
    cases c with
    | read a n tag => exact congrArg _ (State.arrive_of_closed closed _)
    | write a data check => exact congrArg _ (State.arrive_of_closed closed _)
    | _ => exact absurd rfl request

end Sys2Proof.Machine
end

