-- ==== Sys2Proof/Proofs/Configure.lean ====
section
/-! CONFIGURE (R144, R31, R2, R96): exactly its checks, and what it puts in force. -/

namespace Sys2Proof.Machine

open Sys2Proof Sys2Proof.Safety

theorem RateCode.ofCode_eq_some {b : Byte} {r : RateCode} : RateCode.ofCode b = some r ↔ r.code = b := by
  have code : ∀ n : Nat, n < 256 → (BitVec.ofNat 8 n = b ↔ b.toNat = n) := fun n lt => by
    rw [← BitVec.toNat_inj, BitVec.toNat_ofNat, Nat.mod_eq_of_lt lt, eq_comm]
  have known : r.code = b ↔ b.toNat = r.code.toNat := by rw [← BitVec.toNat_inj, eq_comm]
  rw [known]
  unfold RateCode.ofCode
  split <;> cases r <;> simp_all [RateCode.code]

theorem configTilesOk_iff (a : ConfigureArgs) (rate : StoreRate) : configTilesOk a rate = true ↔
    4 ≤ a.tiles.toNat ∧ a.tiles.toNat ≤ 128 ∧ (rate = .half → a.tiles.toNat ≤ 64) := by
  cases rate with
  | full => simp [configTilesOk]
  | half =>
    simp [configTilesOk]
    omega

theorem configPoolOk_iff (a : ConfigureArgs) (mem : Fin 4) : configPoolOk a mem = true ↔
    (16 ≤ a.blocks.toNat ∧ a.blocks.toNat ≤ 2048) ∧
    268435456 + a.blocks.toNat * (a.tiles.toNat * 65536) ≤ tableDram mem := by
  simp only [configPoolOk, dramBytes_eq_tableDram, Bool.and_eq_true, decide_eq_true_iff]
  rfl

theorem linkCheck_iff (b : Byte) : b.toNat ≤ 1 ↔ b = 0 ∨ b = 1 := by
  rw [Nat.le_one_iff_eq_zero_or_eq_one, ← BitVec.toNat_inj, ← BitVec.toNat_inj]
  rfl

theorem hostTopOf_eq (mem : Fin 4) (tiles blocks : Nat) :
    hostTopOf mem tiles blocks = tableDram mem - blocks * (tiles * 65536) := by
  rw [hostTopOf, dramBytes_eq_tableDram]
  rfl

theorem Pool.configured_maxTarget (p : Pool) (tiles blocks : Nat) : (p.configured tiles blocks).maxTarget = blocks - 8 :=
  congrArg (fun d : Nat × Nat => d.2 - 8) (p.configured_dims tiles blocks)

/-- CONFIGURE accepted. -/
theorem cmdConfigure_of_some {s : State} {a : ConfigureArgs} {r : RateCode} (checked : s.configureRate a = some r) :
    s.cmdConfigure a = ({ s with
      windows := { ingest := a.ingest, egress := a.egress, control := a.control, readout := a.readout }
      link := { s.link with checkMode := decide (a.linkCheck = 1) }
      gen := { s.gen with restated := s.gen.restated || s.monitor.rateCode != r }
      pool := s.pool.configured a.tiles.toNat a.blocks.toNat
      monitor := { s.monitor with
        rateCode := r
        staged := { s.monitor.staged with target := min s.monitor.staged.target (a.blocks.toNat - 8) }
        inForce := { s.monitor.inForce with target := min s.monitor.inForce.target (a.blocks.toNat - 8) } } },
      if s.monitor.staged.target ≤ a.blocks.toNat - 8 ∧ s.monitor.inForce.target ≤ a.blocks.toNat - 8 then .accepted
      else .clamped) := by
  simp only [State.cmdConfigure, checked, Pool.configured_maxTarget]
  rfl

theorem cmdConfigure_of_none {s : State} {a : ConfigureArgs} (refused : s.configureRate a = none) :
    s.cmdConfigure a = (s, .refusedRange) := by
  simp only [State.cmdConfigure, refused]

/-- Settles O26: the checks one by one, and the pool by whether its dimensions change. -/
theorem configureTaken : Obligations.ConfigureTaken := by
  refine ⟨fun a s r => ?_, fun num a s up run refused => ?_, fun num a s r up run checked => ?_⟩
  · rw [configureRate_eq_some, configTilesOk_iff, configPoolOk_iff, configWindowsOk_iff, linkCheck_iff, hostTopOf_eq,
      RateCode.ofCode_eq_some]
    constructor
    · rintro ⟨tiles, ⟨blocks, top⟩, ⟨ingest, egress, control, readout, apart, below⟩, check, code⟩
      exact ⟨tiles, blocks, top, ingest, egress, control, readout, apart, below, code, check⟩
    · rintro ⟨tiles, blocks, top, ingest, egress, control, readout, apart, below, code, check⟩
      exact ⟨tiles, ⟨blocks, top⟩, ⟨ingest, egress, control, readout, apart, below⟩, check, code⟩
  · have taken : (Command.configure a).judge s.monitor.run = none := by rw [run]; rfl
    exact exec_rowOf_taken (c := .configure a) up taken (by rw [State.carryOut, cmdConfigure_of_none refused]) num
  · intro most
    have taken : (Command.configure a).judge s.monitor.run = none := by rw [run]; rfl
    refine ⟨_, exec_rowOf_taken (c := .configure a) up taken (by rw [State.carryOut, cmdConfigure_of_some checked]) num,
      rfl, fun same => if_pos same, fun change => if_neg change⟩

end Sys2Proof.Machine
end

