-- ==== Sys2Proof/Proofs/HoldOperations.lean ====
section
/-! The dump and hold unit (R113 to R124): what each operation leaves, and the commands that call them. -/

namespace Sys2Proof.Machine

open Sys2Proof Sys2Proof.Safety

/-! ### The hold table (R118, R121, R122) -/

theorem dropHold_eq (s : State) (h : Byte) : s.dropHold h =
    { s with holds := { s.holds with table := s.holds.table.filter fun r => decide (r.id ≠ h) } } := by
  have differs : (fun r : HoldRecord => r.id != h) = fun r => decide (r.id ≠ h) := by
    funext r
    rw [Bool.eq_iff_iff]
    simp
  rw [State.dropHold, differs]
  rfl

theorem openHold_eq_find (s : State) : s.openHold = s.holds.table.find? fun h => decide (h.state = .opened) := rfl

theorem holdRun_eq (s : State) (h : Byte) : s.holdRun h = s.queue.entries.filter fun e => decide (e.hold = some h) := by
  rw [State.holdRun, Entry.tagged_eq]

theorem closeHold_of_none {r : HoldRecord} (zero : r.unaired = 0) (s : State) (cause : Cause) :
    s.closeHold r cause = { s with
      holds := { s.holds with table := s.holds.table.filter fun h => decide (h.id ≠ r.id) }
      readout := (s.logEdit { kind := .holdEmpty, first := none, last := none, count := none, hold := some r.id,
                              cause := cause }).readout } := by
  rw [State.closeHold, if_pos zero, dropHold_eq]
  rfl

theorem closeHold_of_some {r : HoldRecord} (nonzero : r.unaired ≠ 0) (s : State) (cause : Cause) :
    s.closeHold r cause = { s with
      holds := { s.holds with
        table := s.holds.table.map fun h =>
          if h.id = r.id then
            { h with
              state := .pending
              lastSeq := (s.queue.entries.filter fun e => decide (e.hold = some r.id)).getLast?.map (·.seq) }
          else h } } := by
  rw [State.closeHold, if_neg nonzero, holdRun_eq]
  rfl

/-- A hold decided for air (R123). -/
theorem releaseHold_eq (s : State) (r : HoldRecord) (cause : Cause) : s.releaseHold r cause = { s with
    queue := { s.queue with
      entries := s.queue.entries.map fun e => if e.hold = some r.id then { e with hold := none } else e }
    holds := { s.holds with table := s.holds.table.filter fun h => decide (h.id ≠ r.id) }
    readout := (s.logEdit
      { kind := .holdReleased, first := (s.queue.entries.filter fun e => decide (e.hold = some r.id)).head?.map (·.seq),
        last := (s.queue.entries.filter fun e => decide (e.hold = some r.id)).getLast?.map (·.seq),
        count := some (BitVec.ofNat 32 r.unaired), hold := some r.id, cause := cause }).readout } := by
  have untag : Entry.untag r.id = fun e => if e.hold = some r.id then { e with hold := none } else e := by
    funext e
    simp [Entry.untag, Entry.tagged_eq]
  rw [State.releaseHold, dropHold_eq, holdRun_eq, untag]
  rfl

/-! ### Discards (R58) -/

theorem discardIf_eq {s u : State} (ingest : u.ingest = s.ingest) (monitor : u.monitor = s.monitor) (c : Bool) :
    u.discardIf c = { u with ingest := (s.discardIf c).ingest } := by
  have noticed : u.discardNotice = { u with ingest := s.discardNotice.ingest } := by
    simp only [State.discardNotice, ingest]
    rfl
  have same : (c && u.monitor.inForce.dumpInflight) = (c && s.monitor.inForce.dumpInflight) := by rw [monitor]
  unfold State.discardIf
  rw [same]
  split
  next => exact noticed
  next => rw [← ingest]

theorem discardedIf_discardIf {s t : State} {c : Bool} (ingest : t.ingest = (s.discardIf c).ingest) :
    DiscardedIf (c && s.monitor.inForce.dumpInflight) s t := by
  have slot : ∀ k, t.slot k = (s.discardIf c).ingest.slots[k] := fun k => by rw [State.slot, ingest]
  rw [DiscardedIf, ingest]
  simp only [slot]
  cases on : c && s.monitor.inForce.dumpInflight with
  | false =>
    have same : s.discardIf c = s := if_neg (by rw [on]; nofun)
    rw [same]
    refine ⟨rfl, fun k => ?_⟩
    change s.slot k = _
    cases s.slot k <;> rfl
  | true =>
    have noticed : s.discardIf c = s.discardNotice := if_pos on
    rw [noticed]
    refine ⟨rfl, fun k => ?_⟩
    have each : (s.ingest.slots.map IngestSlot.discarded)[k] = (s.slot k).discarded := Vector.getElem_map _ _
    refine Eq.trans each ?_
    cases s.slot k <;> rfl

/-! ### Removals (R68, R69, R112, R116, R124) -/

theorem freeBlocks_eq (p : Pool) (is : List Nat) :
    p.freeBlocks is = { p with free := p.free ++ is, records := (p.freeBlocks is).records } := by
  obtain ⟨free, retire, tiles, blocks, -⟩ := freeBlocks_lists is p
  generalize p.freeBlocks is = q at *
  cases q
  simp_all only

theorem record_freeBlocks_mem {p : Pool} {is : List Nat} {i : Nat} (mem : i ∈ is) : (p.freeBlocks is).record i = freeRecord :=
  (record_freeBlocks is p i).trans (if_pos mem)

theorem record_freeBlocks_not_mem {p : Pool} {is : List Nat} {i : Nat} (other : i ∉ is) :
    (p.freeBlocks is).record i = p.record i :=
  (record_freeBlocks is p i).trans (if_neg other)

/-- Removal of a hold's entries in RUNNING: splice mark and depth report only where it has some (R69). -/
theorem removeHoldRun_of_some {s : State} {h : Byte} (run : s.monitor.run = .running) (some : s.holdRun h ≠ []) :
    s.removeHoldRun h = { s with
      queue := {
        entries := beforeRun h s.queue.entries ++ markFirst (afterRun h s.queue.entries)
        splicePending := s.queue.splicePending || (afterRun h s.queue.entries).isEmpty }
      pool := s.pool.freeBlocks ((s.holdRun h).map (·.block))
      trim := s.trim.evaluate (beforeRun h s.queue.entries ++ markFirst (afterRun h s.queue.entries)).length
        s.monitor.inForce.target s.monitor.inForce.band } := by
  rw [State.removeHoldRun, if_neg some, depthReport_of_running (by exact run)]
  rfl

theorem removeHoldRun_eq (s : State) (h : Byte) : s.removeHoldRun h = { s with
    queue := (s.removeHoldRun h).queue
    pool := s.pool.freeBlocks ((s.holdRun h).map (·.block))
    trim := (s.removeHoldRun h).trim } := by
  unfold State.removeHoldRun State.depthReport
  split
  next none => rw [none]; rfl
  next =>
    split <;> rfl

/-- A hold decided against air (R124). -/
theorem dumpHold_eq (s : State) (r : HoldRecord) (cause : Cause) : s.dumpHold r cause = { s with
    queue := (s.removeHoldRun r.id).queue
    pool := s.pool.freeBlocks ((s.queue.entries.filter fun e => decide (e.hold = some r.id)).map (·.block))
    trim := (s.removeHoldRun r.id).trim
    ingest := (s.discardIf (r.state == .opened)).ingest
    holds := { s.holds with
      table := s.holds.table.filter fun h => decide (h.id ≠ r.id)
      dumpTotal := addSat32 s.holds.dumpTotal (s.queue.entries.filter fun e => decide (e.hold = some r.id)).length }
    readout := (s.logEdit
      { kind := .holdDumped, first := (s.queue.entries.filter fun e => decide (e.hold = some r.id)).head?.map (·.seq),
        last := (s.queue.entries.filter fun e => decide (e.hold = some r.id)).getLast?.map (·.seq),
        count := some (BitVec.ofNat 32 (s.queue.entries.filter fun e => decide (e.hold = some r.id)).length),
        hold := some r.id, cause := cause }).readout } := by
  have ingest := discardIf_eq (s := s) (u := (s.removeHoldRun r.id).dropHold r.id) (by simp) (by simp) (r.state == .opened)
  rw [State.dumpHold, ingest, dropHold_eq, ← holdRun_eq]
  generalize s.discardIf (r.state == .opened) = u
  rw [removeHoldRun_eq]
  rfl

/-- Removal of the newest entries in RUNNING, where there are some (R68). -/
theorem removeNewest_of_some {s : State} {k : Nat} (run : s.monitor.run = .running) (some : s.newestRun k ≠ []) :
    s.removeNewest k = { s with
      queue := { entries := s.queue.entries.take (s.queue.entries.length - k), splicePending := true }
      pool := s.pool.freeBlocks ((s.queue.entries.drop (s.queue.entries.length - k)).map (·.block))
      trim := s.trim.evaluate (s.queue.entries.length - k) s.monitor.inForce.target s.monitor.inForce.band } := by
  have depth : (s.queue.entries.take (s.queue.entries.length - k)).length = s.queue.entries.length - k := by
    rw [List.length_take]
    omega
  rw [State.removeNewest, if_neg some, depthReport_of_running (by exact run)]
  exact State.eq_of_fields rfl rfl rfl rfl rfl rfl rfl rfl rfl rfl rfl
    (congrArg (fun d => s.trim.evaluate d _ _) depth) rfl rfl rfl rfl rfl

theorem segmentCount_pos {es : List Entry} (some : es ≠ []) : 1 ≤ segmentCount es := by
  rw [segmentCount_eq_findIdx]
  have := List.length_pos_iff.2 some
  omega

theorem dumpCount_pos {s : State} (floor : s.monitor.inForce.dumpFloor < s.queue.entries.length)
    (length : 1 ≤ s.monitor.inForce.dumpLength) : 1 ≤ s.dumpCount := by
  have window : 1 ≤ s.dumpWindow := by
    unfold State.dumpWindow State.removable State.depth
    omega
  cases mode : s.monitor.inForce.dumpMode with
  | chunk =>
    rw [State.dumpCount_chunk mode]
    exact window
  | segment =>
    rw [State.dumpCount_segment mode]
    refine segmentCount_pos (List.ne_nil_of_length_pos ?_)
    rw [List.length_take, List.length_reverse]
    omega

theorem newestRun_ne_nil {s : State} {k : Nat} (pos : 1 ≤ k) (some : 0 < s.queue.entries.length) : s.newestRun k ≠ [] := by
  refine List.ne_nil_of_length_pos ?_
  rw [State.newestRun, List.length_drop, State.depth]
  omega

/-- The account of a removal goes by the holds, the log and the serve number alone (R116, R117). -/
theorem accountRemoval_eq {s u : State} (holds : u.holds = s.holds) (readout : u.readout = s.readout)
    (serve : u.air.serve = s.air.serve) (removed kept : List Entry) (cause : Cause) :
    u.accountRemoval removed kept cause = { u with
      holds := { s.holds with
        table := (s.holds.table.filter fun h => !h.emptiedBy removed).map fun h => h.account removed kept
        dumpTotal := addSat32 s.holds.dumpTotal removed.length }
      readout := ((s.logEdit (dumpEntry removed cause)).logEdits
        ((s.holds.table.filter fun h => h.emptiedBy removed).map fun h => h.dumpedEntry removed cause)).readout } := by
  have table := State.accountRemoval_holds u removed kept cause
  have log := State.accountRemoval_readout u removed kept cause
  have serve' : (u.logEdit (dumpEntry removed cause)).air.serve = (s.logEdit (dumpEntry removed cause)).air.serve := by
    rw [State.logEdit_air, State.logEdit_air, serve]
  rw [holds] at table log
  rw [State.logEdits_readout_congr (State.logEdit_readout_congr readout serve _) serve'] at log
  exact State.eq_of_fields (by simp) (by simp) (by simp) (by simp) (by simp) (by simp) (by simp) (by simp) (by simp)
    (by simp) (by simp) (by simp) table (by simp) (by simp) log (by simp)

/-- A dump of the newest frames in RUNNING, where there are some (R116, R117). -/
theorem dumpNewest_eq {s : State} (run : s.monitor.run = .running) (some : s.newestRun s.dumpCount ≠ []) (cause : Cause) :
    s.dumpNewest cause = { s with
      queue := { entries := s.queue.entries.take (s.queue.entries.length - s.dumpCount), splicePending := true }
      pool := s.pool.freeBlocks ((s.newestRun s.dumpCount).map (·.block))
      trim := s.trim.evaluate (s.queue.entries.length - s.dumpCount) s.monitor.inForce.target s.monitor.inForce.band
      ingest := (s.discardIf true).ingest
      holds := { s.holds with
        table := (s.holds.table.filter fun h => !h.emptiedBy (s.newestRun s.dumpCount)).map fun h =>
          h.account (s.newestRun s.dumpCount) (s.queue.entries.take (s.queue.entries.length - s.dumpCount))
        dumpTotal := addSat32 s.holds.dumpTotal (s.newestRun s.dumpCount).length }
      readout := ((s.logEdit (dumpEntry (s.newestRun s.dumpCount) cause)).logEdits
        ((s.holds.table.filter fun h => h.emptiedBy (s.newestRun s.dumpCount)).map fun h =>
          h.dumpedEntry (s.newestRun s.dumpCount) cause)).readout } := by
  have ingest := discardIf_eq (s := s) (u := s.removeNewest s.dumpCount) (by simp) (by simp) true
  rw [State.dumpNewest, ingest, accountRemoval_eq (s := s) (by simp) (by simp) (by simp), removeNewest_of_some run some]
  rfl

/-! ### HOLD_OPEN, HOLD_CLOSE and RELEASE (R121 to R123) -/

/-- A dump or hold command in RUNNING is carried out. -/
theorem exec_hold {s t : State} {c : Command} {r : CmdResult} (running : Running s) (hold : isHoldCommand c)
    (done : s.carryOut c = (t, some r)) (num : Byte) :
    exec (rowOf num c) s = .next { t with monitor := entered t.monitor num c.code r } := by
  refine exec_rowOf_taken running.1 ?_ done num
  rw [running.2]
  rcases hold with rfl | rfl | rfl | ⟨h, rfl⟩ | ⟨h, rfl⟩ <;> rfl

/-- Settles O32: the OPEN record and the room in the table decide. -/
theorem holdOpenAndClose : Obligations.HoldOpenAndClose := by
  refine ⟨openHold_eq_find, fun num s running => ⟨fun noneOpen room => ?_, fun anOpen => ?_, fun noneOpen full => ?_,
    fun noneOpen => ?_, fun r opened zero => ?_, fun r opened nonzero => ?_⟩⟩
  · exact exec_holdOpen_opens running noneOpen room num
  · have isSome : s.openHold.isSome = true := by
      rw [openHold_eq_find, List.find?_isSome]
      simpa using anOpen
    have refused : s.cmdHoldOpen = (s, .refusedState) := if_pos isSome
    exact exec_hold (c := .holdOpen) running (.inr (.inl rfl)) (by rw [State.carryOut, refused]) num
  · have refused : s.cmdHoldOpen = (s, .refusedBusy) := by
      rw [State.cmdHoldOpen, State.openHold_eq_none noneOpen, Option.isSome_none, if_neg Bool.false_ne_true, if_pos full]
    exact exec_hold (c := .holdOpen) running (.inr (.inl rfl)) (by rw [State.carryOut, refused]) num
  · have refused : s.cmdHoldClose = (s, .refusedState) := by
      rw [State.cmdHoldClose, State.openHold_eq_none noneOpen]
    exact exec_hold (c := .holdClose) running (.inr (.inr (.inl rfl))) (by rw [State.carryOut, refused]) num
  · have closed : s.cmdHoldClose = (s.closeHold r .command, .accepted) := by rw [State.cmdHoldClose, opened]
    rw [closeHold_of_none zero] at closed
    exact exec_hold (c := .holdClose) running (.inr (.inr (.inl rfl))) (by rw [State.carryOut, closed]) num
  · have closed : s.cmdHoldClose = (s.closeHold r .command, .accepted) := by rw [State.cmdHoldClose, opened]
    rw [closeHold_of_some nonzero] at closed
    exact exec_hold (c := .holdClose) running (.inr (.inr (.inl rfl))) (by rw [State.carryOut, closed]) num

/-- The hold a RELEASE or DUMP_HOLD names. -/
theorem findHold_eq (s : State) (h : Byte) : s.findHold h = s.holds.table.find? fun r => decide (r.id = h) := by
  have same : (fun r : HoldRecord => r.id == h) = fun r => decide (r.id = h) := funext fun r => beq_eq_decide _ _
  rw [State.findHold, same]

/-- RELEASE of a hold in RUNNING. -/
theorem exec_release {s : State} {hold : Byte} {r : HoldRecord} (running : Running s)
    (named : (if hold = 0 then s.holds.table.head? else s.findHold hold) = some r) (num : Byte) :
    exec (.release num hold) s = .next { s.releaseHold r .command with
      monitor := entered s.monitor num 0x09 .accepted } := by
  have done : s.cmdRelease hold = (s.releaseHold r .command, .accepted) := by rw [State.cmdRelease, named]
  have ran := exec_hold (c := .release hold) running (.inr (.inr (.inr (.inl ⟨hold, rfl⟩)))) (by rw [State.carryOut, done]) num
  rw [State.releaseHold_monitor] at ran
  exact ran

/-- Settles O34: the record named decides. -/
theorem releaseTaken : Obligations.ReleaseTaken := by
  intro num hold s running named
  have same : (if hold = 0 then s.holds.table.head? else s.findHold hold) = named := by rw [findHold_eq]
  refine ⟨fun none => ?_, fun r some => ?_⟩
  · have refused : s.cmdRelease hold = (s, .refusedState) := by rw [State.cmdRelease, same, none]
    exact exec_hold (c := .release hold) running (.inr (.inr (.inr (.inl ⟨hold, rfl⟩)))) (by rw [State.carryOut, refused]) num
  · intro run
    rw [exec_release running (same.trans some), releaseHold_eq]

end Sys2Proof.Machine
end

