-- ==== Sys2Proof/Proofs/Dumps.lean ====
section
/-! DUMP and DUMP_HOLD in RUNNING (R113 to R117, R124). -/

namespace Sys2Proof.Machine

open Sys2Proof Sys2Proof.Safety

theorem removable_eq_zero (s : State) : s.removable = 0 ↔ s.queue.entries.length ≤ s.monitor.inForce.dumpFloor := by
  unfold State.removable State.depth
  omega

/-- DUMP of some frames in RUNNING. -/
theorem exec_dump {s : State} (running : Running s) (floor : s.monitor.inForce.dumpFloor < s.queue.entries.length)
    (num : Byte) : exec (.dump num) s = .next { s.dumpNewest .command with
      monitor := entered s.monitor num 0x06 .accepted } := by
  have done : s.cmdDump = (s.dumpNewest .command, .accepted) :=
    if_neg (mt (removable_eq_zero s).1 floor.not_ge)
  have ran := exec_hold (c := .dump) running (.inl rfl) (by rw [State.carryOut, done]) num
  rw [State.dumpNewest_monitor] at ran
  exact ran

/-- Settles O30: what a dump of the newest frames leaves, in the statement's terms. -/
theorem dumpTaken : Obligations.DumpTaken := by
  intro num s running
  refine ⟨fun short => ?_, fun floor length => ?_⟩
  · have refused : s.cmdDump = (s, .refusedState) := if_pos ((removable_eq_zero s).2 short)
    exact exec_hold (c := .dump) running (.inl rfl) (by rw [State.carryOut, refused]) num
  · intro keep gone kept lost emptied cut
    have some : s.newestRun s.dumpCount ≠ [] :=
      newestRun_ne_nil (dumpCount_pos floor length) (Nat.zero_lt_of_lt floor)
    have lost_eq : lost = fun h => h.lost gone := funext fun h => (h.lost_eq gone).symm
    have emptied_eq : emptied = fun h => h.emptiedBy gone := funext fun h => by
      rw [HoldRecord.emptiedBy_eq, HoldRecord.lost_eq]
    have cut_eq : cut = fun h => h.account gone kept := funext fun h => by
      rw [HoldRecord.account_eq, HoldRecord.lost_eq]
    have ran := exec_dump running floor num
    rw [dumpNewest_eq running.2 some] at ran
    have pool := freeBlocks_eq s.pool (gone.map (·.block))
    refine ⟨_, ran, ?_, some, fun e mem => record_freeBlocks_mem (List.mem_map_of_mem mem),
      fun i other => record_freeBlocks_not_mem other, discardedIf_discardIf rfl⟩
    rw [lost_eq, emptied_eq, cut_eq]
    exact State.eq_of_fields rfl rfl rfl rfl rfl rfl pool rfl rfl rfl rfl rfl rfl rfl rfl rfl rfl

/-- DUMP_HOLD of a hold in RUNNING. -/
theorem exec_dumpHold {s : State} {hold : Byte} {r : HoldRecord} (running : Running s) (nonzero : hold ≠ 0)
    (named : s.holds.table.find? (fun r => decide (r.id = hold)) = some r) (num : Byte) :
    exec (.dumpHold num hold) s = .next { s.dumpHold r .command with
      monitor := entered s.monitor num 0x0A .accepted } := by
  have done : s.cmdDumpHold hold = (s.dumpHold r .command, .accepted) := by
    rw [State.cmdDumpHold, if_neg nonzero, findHold_eq, named]
  have ran := exec_hold (c := .dumpHold hold) running (.inr (.inr (.inr (.inr ⟨hold, rfl⟩))))
    (by rw [State.carryOut, done]) num
  rw [State.dumpHold_monitor] at ran
  exact ran

/-- What a hold's removal leaves is the queue less its run. -/
theorem length_removeHoldRun (s : State) (h : Byte) :
    (beforeRun h s.queue.entries ++ markFirst (afterRun h s.queue.entries)).length =
      s.queue.entries.length - (s.holdRun h).length := by
  have marked : ∀ es : List Entry, (markFirst es).length = es.length := fun es => by cases es <;> rfl
  have left := congrArg List.length (beforeRun_append_afterRun h s.queue.entries)
  have parts := List.length_eq_length_filter_add (l := s.queue.entries) (Entry.tagged h)
  rw [List.length_append, marked, ← List.length_append, left, State.holdRun]
  omega

theorem markFirst_of_cons (e : Entry) (rest : List Entry) : markFirst (e :: rest) = { e with spliceIn := true } :: rest := rfl

/-- Settles O35: a hold with entries and one without. -/
theorem dumpHoldTaken : Obligations.DumpHoldTaken := by
  intro num hold s running
  refine ⟨fun unknown => ?_, fun r nonzero named => ?_⟩
  · have refused : s.cmdDumpHold hold = (s, .refusedState) := by
      have none : (if hold = 0 then none else s.findHold hold) = none := by
        by_cases zero : hold = 0
        · exact if_pos zero
        · rw [if_neg zero, findHold_eq, List.find?_eq_none]
          simpa using unknown.resolve_left zero
      rw [State.cmdDumpHold, none]
    exact exec_hold (c := .dumpHold hold) running (.inr (.inr (.inr (.inr ⟨hold, rfl⟩))))
      (by rw [State.carryOut, refused]) num
  · intro mine run older newer
    have id : r.id = hold := by simpa using List.find?_some named
    have ran := exec_dumpHold running nonzero named num
    rw [dumpHold_eq, id] at ran
    have pool := freeBlocks_eq s.pool (run.map (·.block))
    have older_eq : beforeRun hold s.queue.entries = older := by
      rw [beforeRun, Entry.tagged_eq]
    have newer_eq : afterRun hold s.queue.entries = newer := by
      rw [afterRun, Entry.tagged_eq]
    have run_eq : s.holdRun hold = run := holdRun_eq s hold
    refine ⟨_, ran, ?_, fun none => ?_, fun some => ?_, fun e mem => record_freeBlocks_mem (List.mem_map_of_mem mem),
      fun i other => record_freeBlocks_not_mem other, discardedIf_discardIf rfl⟩
    · exact State.eq_of_fields rfl rfl rfl rfl rfl rfl pool rfl rfl rfl rfl rfl rfl rfl rfl rfl rfl
    · have same : s.removeHoldRun hold = s := if_pos (run_eq.trans none)
      rw [same]
      exact ⟨rfl, rfl⟩
    · rw [removeHoldRun_of_some running.2 (by rwa [run_eq]), older_eq, newer_eq]
      refine ⟨?_, fun none => ?_, fun e rest cons => ?_⟩
      · have kept : (older ++ markFirst newer).length = s.queue.entries.length - run.length := by
          rw [← older_eq, ← newer_eq, ← run_eq, length_removeHoldRun]
        exact congrArg (fun d => s.trim.evaluate d _ _) kept
      · rw [none, markFirst, List.append_nil, List.isEmpty_nil, Bool.or_true]
      · rw [cons, markFirst_of_cons, List.isEmpty_cons, Bool.or_false]

end Sys2Proof.Machine
end

