-- ==== Sys2Proof/Proofs/EndOfRun.lean ====
section
/-! The end of a run: STOP (R15, R59, R71, R92, R146) and RESET_ENGINE (R150). -/

namespace Sys2Proof.Machine

open Sys2Proof Sys2Proof.Safety

/-! ### The bindings leave (R13, R81) -/

theorem setBinding_of_same {a : Air} {slot : EgressSlot} {b : Option Binding} (same : a.binding slot = b) :
    a.setBinding slot b = a := by
  subst same
  cases slot <;> rfl

theorem leaveSlot_air (s : State) (slot : EgressSlot) : (s.leaveSlot slot).air = s.air.setBinding slot none := by
  unfold State.leaveSlot
  split
  next unbound => exact (setBinding_of_same unbound).symm
  next => rfl

theorem leaveBoth_air (s : State) : s.leaveBoth.air = { s.air with slotA := none, slotB := none } := by
  rw [State.leaveBoth, leaveSlot_air, leaveSlot_air]
  rfl

theorem leaveBoth_eq (s : State) : s.leaveBoth = { s with
    air := { s.air with slotA := none, slotB := none }
    pool := leftBy s.air.slotB (leftBy s.air.slotA s.pool) } := by
  refine State.eq_of_fields ?_ ?_ ?_ ?_ ?_ ?_ s.leaveBoth_pool ?_ ?_ ?_ (leaveBoth_air s) ?_ ?_ ?_ ?_ ?_ ?_
  all_goals simp

/-- Blocks leave their bindings one after the other: those with a read in flight are retired, the others freed. -/
theorem leaveBlock_lists (p : Pool) (i : Nat) :
    (p.leaveBlock i).free = p.free ++ ([i].filter fun b => decide (p.readCount b = 0)) ∧
    (p.leaveBlock i).retire = p.retire ++ ([i].filter fun b => decide (p.readCount b ≠ 0)) ∧
    ∀ j, j ≠ i → (p.leaveBlock i).readCount j = p.readCount j := by
  unfold Pool.leaveBlock
  by_cases idle : p.readCount i = 0
  · rw [if_pos idle]
    refine ⟨by simp [idle], by simp [idle], fun j other => ?_⟩
    rw [Pool.readCount, record_freeBlock_ne p i j other, Pool.readCount]
  · rw [if_neg idle]
    refine ⟨by simp [idle], by simp [idle], fun j other => ?_⟩
    exact congrArg (fun r : BlockRecord => r.inFlight.getD 0) (record_setRecord_ne p i j _ other)

/-- Both bindings leave, slot A's block first. -/
theorem leftBoth_lists (p : Pool) (a b : Option Binding)
    (apart : ((a.map (·.block)).toList ++ (b.map (·.block)).toList).Nodup) :
    (leftBy b (leftBy a p)).free = p.free ++
        (((a.map (·.block)).toList ++ (b.map (·.block)).toList).filter fun i => decide (p.readCount i = 0)) ∧
      (leftBy b (leftBy a p)).retire = p.retire ++
        (((a.map (·.block)).toList ++ (b.map (·.block)).toList).filter fun i => decide (p.readCount i ≠ 0)) := by
  cases a with
  | none =>
    cases b with
    | none => simp [leftBy]
    | some b => exact ⟨(leaveBlock_lists p b.block).1, (leaveBlock_lists p b.block).2.1⟩
  | some a =>
    obtain ⟨free, retire, counts⟩ := leaveBlock_lists p a.block
    cases b with
    | none => exact ⟨free, retire⟩
    | some b =>
      obtain ⟨free', retire', -⟩ := leaveBlock_lists (p.leaveBlock a.block) b.block
      have other : b.block ≠ a.block := by simpa [eq_comm] using apart
      have same : (p.leaveBlock a.block).readCount b.block = p.readCount b.block := counts _ other
      simp only [List.filter_singleton, same] at free' retire'
      have both : ∀ q : Nat → Bool, [a.block, b.block].filter q = [a.block].filter q ++ [b.block].filter q := fun q =>
        List.filter_append (l₁ := [a.block]) [b.block]
      refine ⟨free'.trans ?_, retire'.trans ?_⟩
      · exact (congrArg (· ++ _) free).trans ((List.append_assoc ..).trans (congrArg _ (both _).symm))
      · exact (congrArg (· ++ _) retire).trans ((List.append_assoc ..).trans (congrArg _ (both _).symm))

/-! ### STOP (R15, R146) -/

/-- The pool once STOP has freed the blocks of the queue and the slots, and both bindings have left. -/
def State.stopPool (s : State) : Pool :=
  leftBy s.air.slotB (leftBy s.air.slotA ((s.pool.freeBlocks (queueBlocks s)).freeBlocks (slotBlocks s)))

theorem leftBy_dims (b : Option Binding) (p : Pool) : (leftBy b p).dims = p.dims := by
  cases b with
  | none => rfl
  | some b => exact p.leaveBlock_dims b.block

theorem stopPool_dims (s : State) : s.stopPool.dims = s.pool.dims := by
  rw [State.stopPool, leftBy_dims, leftBy_dims, Pool.freeBlocks_dims, Pool.freeBlocks_dims]

theorem rebuild_of_dims {p q : Pool} (dims : p.dims = q.dims) : p.rebuild = { q with
    records := List.replicate q.blocks freeRecord, free := List.range q.blocks, retire := [] } := by
  obtain ⟨tiles, blocks⟩ := Prod.mk.inj dims
  rw [Pool.rebuild, tiles, blocks]
  rfl

theorem tearDown_eq (s : State) : s.tearDown = { s with
    pool := s.stopPool
    ingest := { slots := #v[.empty, .empty, .empty, .empty], lastSeq := s.ingest.lastSeq }
    queue := { entries := [], splicePending := false }
    air := { s.air with slotA := none, slotB := none, condition := .off, stallCount := 0, stalledHold := none,
                        freezeCount := 0, fillSince := none }
    trim := { state := .onDelay, credit := 0 }
    holds := { s.holds with table := [] }
    monitor := { s.monitor with run := .stopping } } := by
  have freed : s.clearQueue.endSlots.pool = (s.pool.freeBlocks (queueBlocks s)).freeBlocks (slotBlocks s) := by
    rw [State.endSlots, State.setIngest_pool, State.setPool_pool, State.clearQueue_ingest]
    rfl
  have pool : s.tearDown.pool = s.stopPool := by
    have left : s.tearDown.pool = s.clearQueue.endSlots.leaveBoth.pool := by simp [State.tearDown]
    rw [left, State.leaveBoth_pool, freed, State.endSlots_air, State.clearQueue_air, State.stopPool]
  have ingest : s.tearDown.ingest = { slots := #v[.empty, .empty, .empty, .empty], lastSeq := s.ingest.lastSeq } := by
    simp [State.tearDown, State.endSlots]
    rfl
  have air : s.tearDown.air = { s.air with
      slotA := none, slotB := none, condition := .off, stallCount := 0, stalledHold := none, freezeCount := 0,
      fillSince := none } := by
    simp [State.tearDown, leaveBoth_air]
  refine State.eq_of_fields ?_ ?_ ?_ ?_ ?_ ?_ pool ingest ?_ ?_ air rfl ?_ ?_ ?_ ?_ ?_
  all_goals simp [State.tearDown, State.clearQueue]
  all_goals rfl

theorem stopRun_eq (s : State) : s.stopRun = { s.tearDown with
    pool := drainedPool .stopping s.stopPool
    monitor := { s.monitor with run := drainedRun .stopping s.stopPool } } := by
  have drained : s.stopRun = s.tearDown.drainStep := (if_pos s.tearDown_run).symm
  rw [drained, State.drainStep_eq, tearDown_eq]
  rfl

/-- The lists STOP leaves, where every block is in one place (R15). -/
theorem stopPool_lists {s : State} (placed : BlocksPlaced s) :
    s.stopPool.free = s.pool.free ++ queueBlocks s ++ slotBlocks s ++
        ((egressBlocks s).filter fun b => decide (s.pool.readCount b = 0)) ∧
      s.stopPool.retire = s.pool.retire ++ ((egressBlocks s).filter fun b => decide (s.pool.readCount b ≠ 0)) := by
  have once : (places s).Nodup := placed.1.nodup_iff.2 List.nodup_range
  obtain ⟨front, -, -⟩ := List.nodup_append.1 once
  obtain ⟨-, egress, apart⟩ := List.nodup_append.1 front
  have counts : ∀ b ∈ egressBlocks s,
      ((s.pool.freeBlocks (queueBlocks s)).freeBlocks (slotBlocks s)).readCount b = s.pool.readCount b := fun b mem => by
    have queue : b ∉ queueBlocks s := fun held => apart b (by simp [held]) b mem rfl
    have slot : b ∉ slotBlocks s := fun held => apart b (by simp [held]) b mem rfl
    rw [Pool.readCount, record_freeBlocks_not_mem slot, record_freeBlocks_not_mem queue, Pool.readCount]
  obtain ⟨free, retire⟩ := leftBoth_lists ((s.pool.freeBlocks (queueBlocks s)).freeBlocks (slotBlocks s)) s.air.slotA
    s.air.slotB egress
  obtain ⟨free₂, retire₂, -⟩ := freeBlocks_lists (slotBlocks s) (s.pool.freeBlocks (queueBlocks s))
  obtain ⟨free₁, retire₁, -⟩ := freeBlocks_lists (queueBlocks s) s.pool
  have idle := List.filter_congr fun b mem => congrArg (fun n => decide (n = 0)) (counts b mem)
  have read := List.filter_congr fun b mem => congrArg (fun n => decide (n ≠ 0)) (counts b mem)
  rw [free₂, free₁] at free
  rw [retire₂, retire₁] at retire
  exact ⟨free.trans (congrArg _ idle), retire.trans (congrArg _ read)⟩

/-- Settles O28: the tear-down, then the end of the drain. -/
theorem stopTaken : Obligations.StopTaken := by
  intro num s running
  have taken : Command.stop.judge s.monitor.run = none := by rw [running.2]; rfl
  have ran := exec_rowOf_taken (c := .stop) (t := s.stopRun) running.1 taken rfl num
  rw [stopRun_eq, tearDown_eq] at ran
  refine ⟨_, ran, rfl, fun placed => ?_⟩
  intro idle read
  obtain ⟨free, retire⟩ := stopPool_lists placed
  refine ⟨fun none => ?_, fun some => ?_⟩
  · obtain ⟨pool, run⟩ := drained_of_empty (retire.trans none)
    exact ⟨run, pool.trans (rebuild_of_dims (stopPool_dims s))⟩
  · obtain ⟨pool, run⟩ := drained_of_going (run := .stopping) (p := s.stopPool) (.inr (by rw [retire]; exact some))
    exact ⟨run, (congrArg Pool.free pool).trans free, (congrArg Pool.retire pool).trans retire⟩

/-! ### RESET_ENGINE (R150) -/

theorem default_eq_table (pins : Straps) (p : Pool) :
    Settings.default pins p = tableSettings (min (strapFrames pins.rate pins.delay) (p.blocks - 8)) := by
  rw [← strapTarget_eq_strapFrames]
  rfl

theorem engineReset_eq (s : State) : s.engineReset = { s with
    ingest := { slots := #v[.empty, .empty, .empty, .empty], lastSeq := none }
    queue := { entries := [], splicePending := false }
    air := { s.air with slotA := none, slotB := none, condition := .off, stallCount := 0, stalledHold := none,
                        freezeCount := 0, repeatTotal := 0, skipTotal := 0, fillSince := none }
    trim := { state := .onDelay, credit := 0 }
    holds := { table := [], nextId := 1, dumpTotal := 0 }
    readout := { flags := 0, first := none, log := [], nextNumber := 0 }
    monitor := { s.monitor with
      staged := tableSettings (min (strapFrames s.straps.rate s.straps.delay) (s.pool.blocks - 8))
      inForce := tableSettings (min (strapFrames s.straps.rate s.straps.delay) (s.pool.blocks - 8)) } } := by
  rw [State.engineReset, default_eq_table]
  rfl

theorem drainedPool_dims (run : RunState) (p : Pool) : (drainedPool run p).dims = p.dims := by
  unfold drainedPool
  split <;> rfl

/-- Settles O37: a run is ended first, as STOP ends it. -/
theorem resetEngineTaken : Obligations.ResetEngineTaken := by
  intro num s up settings
  have ran := exec_resetEngine_of_linkUp up num
  by_cases run : s.monitor.run = .running
  · have ended : s.runEnded = s.stopRun := if_pos run
    have taken : Command.stop.judge s.monitor.run = none := by rw [run]; rfl
    have stop := exec_rowOf_taken (c := .stop) (t := s.stopRun) up taken rfl num
    have blocks : (drainedPool .stopping s.stopPool).blocks = s.pool.blocks :=
      congrArg Prod.snd ((drainedPool_dims _ _).trans (stopPool_dims s))
    rw [stopRun_eq, tearDown_eq] at stop
    rw [ended, stopRun_eq, tearDown_eq, engineReset_eq] at ran
    dsimp only at ran
    rw [blocks] at ran
    exact ⟨_, ran, rfl, fun stopped => absurd run stopped, fun _ => ⟨_, stop, rfl, rfl⟩,
      fun live => State.alert_eq_false rfl live⟩
  · have ended : s.runEnded = s := if_neg run
    rw [ended, engineReset_eq] at ran
    exact ⟨_, ran, rfl, fun _ => ⟨rfl, rfl⟩, fun running => absurd running run,
      fun live => State.alert_eq_false rfl live⟩

end Sys2Proof.Machine
end

