-- ==== Sys2Proof/Proofs/Ticks.lean ====
section
/-! A command that makes one tick (R74 to R78, R83, R93, R148): what its latch and its generator leave, and how the
selection and the slot timeout follow. -/

namespace Sys2Proof.Machine

open Sys2Proof Sys2Proof.Safety

/-! ### The generator's part (R74 to R77) -/

/-- An edge not after the moment the generator's own event falls due finds no such event before it. -/
theorem catchUp_of_due {s : State} {t : Nat} (due : t ≤ s.dueMoment) (fuel : Nat) : s.catchUp t fuel = s := by
  cases fuel with
  | zero => rfl
  | succ n => exact if_neg due.not_gt

theorem refEdgeAt_of_due {s : State} {n : Nat} (late : s.gen.osc ≤ n) (due : n ≤ s.dueMoment) (joined : Nat) :
    s.refEdgeAt n joined = s.takeEdge n joined := by
  rw [State.refEdgeAt, max_eq_right late, catchUp_of_due due, max_eq_right late]

theorem takeEdge_of_await {s : State} (mode : s.gen.mode = .await) (t joined : Nat) :
    s.takeEdge t joined = (s.setReference .locked t s.gen.generated).tick joined := by
  rw [State.takeEdge, mode]

theorem takeEdge_of_locked {s : State} (mode : s.gen.mode = .locked) (t joined : Nat) :
    s.takeEdge t joined = s.edgeLocked t joined := by
  rw [State.takeEdge, mode]

theorem takeEdge_of_lost {s : State} (mode : s.gen.mode = .lost) (t joined : Nat) :
    s.takeEdge t joined = s.edgeReturns t joined := by
  rw [State.takeEdge, mode]

theorem dueMoment_of_not_lost {s : State} (mode : s.gen.mode ≠ .lost) :
    s.dueMoment = max s.gen.osc (s.gen.reference + 3 * s.period / 2) := by
  rw [State.dueMoment, State.dueSpan]
  cases m : s.gen.mode with
  | lost => exact absurd m mode
  | await => rfl
  | locked => rfl

theorem dueMoment_of_lost {s : State} (mode : s.gen.mode = .lost) :
    s.dueMoment = max s.gen.osc (s.gen.reference + s.period) := by
  rw [State.dueMoment, State.dueSpan, mode]

theorem exec_refEdge {s : State} (ready : s.link.ready = true) (m : Moment) :
    exec (.refEdge m) s = .next (s.refEdgeAt m.count m.joined) := if_pos ready

/-- A command that makes one tick is that tick, on what the generator reports before it. -/
theorem exec_ticksOnce {s : State} {c : Instr} (once : TicksOnce s c) :
    ∃ g, exec c s = .next (((atTickStart s c).setGen g).tick (joinedOf c)) := by
  obtain ⟨ready, ⟨m, rfl, mode⟩ | ⟨m, rfl, mode⟩ | ⟨m, rfl, late, edge⟩⟩ := once
  · exact ⟨_, if_pos ⟨ready, mode⟩⟩
  · exact ⟨_, if_pos ⟨ready, mode⟩⟩
  · rw [exec_refEdge ready]
    rcases edge with ⟨mode, due⟩ | ⟨mode, half, due⟩ | ⟨mode, half, due⟩
    · have start : atTickStart s (.refEdge m) = s := by simp only [atTickStart, mode]
      rw [refEdgeAt_of_due late (by rw [dueMoment_of_not_lost (by rw [mode]; nofun)]; omega), takeEdge_of_await mode, start]
      exact ⟨_, rfl⟩
    · have start : atTickStart s (.refEdge m) = s := by simp only [atTickStart, mode]
      have far : ¬ m.count - s.gen.reference < s.halfPeriod := by unfold State.halfPeriod; omega
      rw [refEdgeAt_of_due late (by rw [dueMoment_of_not_lost (by rw [mode]; nofun)]; omega), takeEdge_of_locked mode, start,
        State.edgeLocked, if_neg far]
      exact ⟨_, rfl⟩
    · have far : ¬ m.count - s.gen.reference < s.halfPeriod := by unfold State.halfPeriod; omega
      rw [refEdgeAt_of_due late (by rw [dueMoment_of_lost mode]; omega), takeEdge_of_lost mode, State.edgeReturns,
        if_neg far]
      simp only [atTickStart, mode]
      exact ⟨_, rfl⟩

/-! ### The latch, the blink count and the serve number (R78, R136, R148) -/

/-- The console after a tick's blink count (R136). -/
def Console.ticked (c : Console) : Console :=
  { c with
    blinkLit := if c.blinkCount < 15 then c.blinkLit else !c.blinkLit
    blinkCount := if c.blinkCount < 15 then c.blinkCount + 1 else 0 }

theorem blinkTick_eq (s : State) : s.blinkTick = s.setConsole s.console.ticked := by
  unfold State.blinkTick Console.ticked
  by_cases wrap : 15 ≤ s.console.blinkCount
  · rw [if_pos wrap, if_neg wrap.not_gt, if_neg wrap.not_gt]
    rfl
  · rw [if_neg wrap, if_pos (not_le.1 wrap), if_pos (not_le.1 wrap)]

/-- The state a tick's selection finds in RUNNING: latched, with the serve number risen. -/
def State.ticking (s : State) (g : TickGen) : State :=
  { latched s with gen := g, console := s.console.ticked, air := { s.air with serve := s.air.serve + 1 } }

/-- The state a tick's selection leaves in RUNNING, with R93's air delay. -/
def State.selected (s : State) (g : TickGen) (c : Instr) : State :=
  if s.onlyThisInstant (joinedOf c) = true ∧ (s.ticking g).select.air.onAir ≠ s.air.onAir then
    (s.ticking g).select.setAir (s.ticking g).select.air.zeroDelay
  else (s.ticking g).select

theorem latch_setGen {s : State} (run : s.monitor.run = .running) (g : TickGen) :
    (s.setGen g).latch.blinkTick.raiseServe = s.ticking g := by
  rw [State.latch_running _ (by exact run), blinkTick_eq]
  rfl

theorem tick_of_running {s : State} (run : s.monitor.run = .running) (g : TickGen) (c : Instr) :
    (s.setGen g).tick (joinedOf c) = (s.selected g c).slotTimeouts := by
  have queue : (s.setGen g).latch.blinkTick.queue = s.queue := by simp
  have air : (s.setGen g).latch.blinkTick.air = s.air := by simp
  have only : (s.setGen g).latch.blinkTick.onlyThisInstant (joinedOf c) = s.onlyThisInstant (joinedOf c) := by
    rw [State.onlyThisInstant, State.depth, queue, air]
    rfl
  rw [State.tick, if_pos (by exact run), State.selectTick, only, latch_setGen run, air]
  rfl

/-- What a tick's event keeps of the settings, the console, the generator and the link. -/
theorem selected_frame (s : State) (g : TickGen) (c : Instr) :
    (s.selected g c).gen = g ∧ (s.selected g c).link = s.link ∧ (s.selected g c).windows = s.windows ∧
    (s.selected g c).monitor = { s.monitor with inForce := s.monitor.staged } ∧
    (s.selected g c).console = s.console.ticked := by
  unfold State.selected
  split <;> simp [State.ticking, latched]

theorem atTickStart_frame (s : State) (c : Instr) :
    (atTickStart s c).link = s.link ∧ (atTickStart s c).windows = s.windows ∧ (atTickStart s c).air = s.air ∧
    (atTickStart s c).queue = s.queue ∧ (atTickStart s c).monitor = s.monitor ∧ (atTickStart s c).ingest = s.ingest := by
  obtain ⟨r, start⟩ := atTickStart_eq s c
  rw [start]
  exact ⟨rfl, rfl, rfl, rfl, rfl, rfl⟩

theorem exec_slotTimeout {s : State} (ready : s.link.ready = true) (run : s.monitor.run = .running) :
    exec .slotTimeout s = .next s.slotTimeouts :=
  if_pos (by simp [State.inRun, ready, run])

/-- A tick in RUNNING is its selection and the slot timeout (R54). -/
theorem tickGives_of_selected {s : State} {c : Instr} (once : TicksOnce s c) (run : s.monitor.run = .running) :
    ∃ g, exec c s = .next ((atTickStart s c).selected g c).slotTimeouts ∧
      ∀ P : State → Prop, P ((atTickStart s c).selected g c) → TickGives c s P := by
  obtain ⟨g, ran⟩ := exec_ticksOnce once
  obtain ⟨link, -, -, -, monitor, -⟩ := atTickStart_frame s c
  rw [tick_of_running (by rw [monitor]; exact run)] at ran
  obtain ⟨-, link', -, monitor', -⟩ := selected_frame (atTickStart s c) g c
  refine ⟨g, ran, fun P holds => ⟨_, _, holds, exec_slotTimeout ?_ ?_, ran⟩⟩
  · rw [link', link]
    exact once.1
  · rw [monitor', monitor]
    exact run

end Sys2Proof.Machine
end

