-- ==== Sys2Proof/Proofs/Selection.lean ====
section
/-! The selection at a tick (R79 to R88): ticks that prime, stall, find the queue empty, or ask the delay trim. -/

namespace Sys2Proof.Machine

open Sys2Proof Sys2Proof.Safety

/-! ### The tests of the selection (R83 to R87) -/

theorem select_of_priming {s : State} (priming : s.air.condition = .priming)
    (short : s.queue.entries.length < s.monitor.inForce.target) :
    s.select = s.setAir { s.air with lastAction := .primeFill } := if_pos ⟨priming, short⟩

theorem select_of_held {s : State} {e : Entry} {rest : List Entry} {h : Byte}
    (past : ¬ (s.air.condition = .priming ∧ s.queue.entries.length < s.monitor.inForce.target))
    (entries : s.queue.entries = e :: rest) (held : e.hold = some h) : s.select = s.stalledTick h := by
  rw [State.select, if_neg (by exact past), entries]
  simp only [held]

theorem select_of_empty {s : State}
    (past : ¬ (s.air.condition = .priming ∧ s.queue.entries.length < s.monitor.inForce.target))
    (entries : s.queue.entries = []) : s.select = s.clearStall.emptyTick := by
  rw [State.select, if_neg (by exact past), entries]

theorem select_of_free {s : State} {e : Entry} {rest : List Entry}
    (past : ¬ (s.air.condition = .priming ∧ s.queue.entries.length < s.monitor.inForce.target))
    (entries : s.queue.entries = e :: rest) (free : e.hold = none) : s.select = s.clearStall.trimTick := by
  rw [State.select, if_neg (by exact past), entries]
  simp only [free]

/-- A tick that leaves the on-air number has no air delay to set. -/
theorem selected_of_same {s : State} {g : TickGen} {c : Instr} (same : (s.ticking g).select.air.onAir = s.air.onAir) :
    s.selected g c = (s.ticking g).select := if_neg fun changed => changed.2 same

theorem ticked_selected {s : State} {g : TickGen} {c : Instr}
    (serve : (s.selected g c).air.serve = s.air.serve + 1) (run : s.monitor.run = .running) :
    Ticked s (s.selected g c) := by
  obtain ⟨-, -, -, monitor, console⟩ := selected_frame s g c
  exact ⟨monitor, console, fun _ => serve, fun stopped => absurd run stopped⟩

/-! ### Frames that stay on air (R79, R85) -/

theorem stayed_serve (a : Air) (n : Seq) : stayed { a with serve := n } = { stayed a with serve := n } := by
  have current : ({ a with serve := n } : Air).current = a.current := rfl
  unfold stayed
  rw [current]
  cases a.current with
  | none => rfl
  | some b =>
    change Air.setBinding _ (EgressSlot.ofOnAir a.onAir) _ = _
    cases EgressSlot.ofOnAir a.onAir <;> rfl

theorem stayed_cleared (a : Air) : stayed { a with stallCount := 0, stalledHold := none } =
    { stayed a with stallCount := 0, stalledHold := none } := by
  have current : ({ a with stallCount := 0, stalledHold := none } : Air).current = a.current := rfl
  unfold stayed
  rw [current]
  cases a.current with
  | none => rfl
  | some b =>
    change Air.setBinding _ (EgressSlot.ofOnAir a.onAir) _ = _
    cases EgressSlot.ofOnAir a.onAir <;> rfl

/-- A frame that stays on air raises its repeat count and changes nothing else of the scheduler. -/
theorem stayed_frame (a : Air) : stayed a = { a with slotA := (stayed a).slotA, slotB := (stayed a).slotB } := by
  unfold stayed
  cases a.current with
  | none => rfl
  | some b => cases EgressSlot.ofOnAir a.onAir <;> rfl

/-! ### Priming and stalled ticks (R84, R85) -/

/-- A stalled tick before the stall policy (R85). -/
def State.stalling (s : State) (g : TickGen) (h : Byte) : State :=
  { s.ticking g with
    air := { stayed s.air with
      serve := s.air.serve + 1, condition := .stalled, lastAction := .stall
      stallCount := if s.air.stalledHold = some h then s.air.stallCount + 1 else 1
      stalledHold := some h } }

theorem stalledTick_ticking (s : State) (g : TickGen) (h : Byte) :
    (s.ticking g).stalledTick h = (s.stalling g h).stallPolicyStep := by
  have air : (s.ticking g).air.repeatCurrent = { stayed s.air with serve := s.air.serve + 1 } := stayed_serve s.air _
  rw [State.stalledTick, air]
  rfl

theorem stalling_onAir (s : State) (g : TickGen) (h : Byte) : (s.stalling g h).air.onAir = s.air.onAir := by
  change (stayed s.air).onAir = s.air.onAir
  rw [stayed_frame]

theorem exec_stallExpired {s : State} (ready : s.link.ready = true) (run : s.monitor.run = .running) :
    exec .stallExpired s = .next s.stallPolicyStep :=
  if_pos (by simp [State.inRun, ready, run])

theorem expiredHold_of_short {s : State} (short : s.air.stallCount < s.monitor.inForce.stallLimit) : s.expiredHold = none := by
  unfold State.expiredHold
  split
  next => exact if_neg fun reached => short.not_ge reached.2
  next => rfl

theorem stallPolicyStep_of_none {s : State} (none : s.expiredHold = none) : s.stallPolicyStep = s := by
  rw [State.stallPolicyStep, none]

/-- Settles O41: each selection is one update of what the latch leaves. -/
theorem primingAndStalledTicks : Obligations.PrimingAndStalledTicks := by
  intro c s₀ once run₀ s
  obtain ⟨link, -, -, -, monitor, -⟩ := atTickStart_frame s₀ c
  have run : s.monitor.run = .running := by rw [monitor]; exact run₀
  have ready : s.link.ready = true := by rw [link]; exact once.1
  obtain ⟨g, -, gives⟩ := tickGives_of_selected once run₀
  refine ⟨fun priming short => ?_, fun e rest h past entries held => ?_⟩
  · have selection := select_of_priming (s := s.ticking g) priming short
    have selected : s.selected g c = (s.ticking g).setAir { (s.ticking g).air with lastAction := .primeFill } :=
      (selected_of_same (by rw [selection]; rfl)).trans selection
    exact gives _ ⟨by rw [selected]; rfl, ticked_selected (by rw [selected]; rfl) run⟩
  · have selection : (s.ticking g).select = (s.stalling g h).stallPolicyStep :=
      (select_of_held (s := s.ticking g) past entries held).trans (stalledTick_ticking s g h)
    have selected : s.selected g c = (s.stalling g h).stallPolicyStep :=
      (selected_of_same (by rw [selection, State.stallPolicyStep_air, stalling_onAir])).trans selection
    have expires := exec_stallExpired (s := s.stalling g h) ready run
    refine ⟨s.stalling g h, ⟨rfl, rfl, rfl, fun _ => rfl, fun stopped => absurd run stopped⟩, gives _ ?_, fun short => ?_⟩
    · rw [selected]
      exact expires
    · rw [expires, stallPolicyStep_of_none (expiredHold_of_short (by exact short))]

/-! ### Ticks on an empty queue (R86) -/

theorem cleared_stayed (s : State) (g : TickGen) : (s.ticking g).clearStall.air.repeatCurrent =
    { stayed s.air with serve := s.air.serve + 1, stallCount := 0, stalledHold := none } := by
  have cleared : (s.ticking g).clearStall.air.repeatCurrent = { stayed (s.ticking g).air with
      stallCount := 0, stalledHold := none } := stayed_cleared (s.ticking g).air
  have raised : stayed (s.ticking g).air = { stayed s.air with serve := s.air.serve + 1 } := stayed_serve s.air _
  rw [cleared, raised]

theorem emptyTick_of_frozen {s : State} {b : Binding} (current : s.air.current = some b)
    (below : s.air.freezeCount < s.monitor.inForce.freezeLimit) : s.emptyTick = s.frozenTick b := by
  simp only [State.emptyTick, current, if_pos below]

theorem emptyTick_of_limit {s : State} {b : Binding} (current : s.air.current = some b)
    (limit : s.monitor.inForce.freezeLimit ≤ s.air.freezeCount) : s.emptyTick = s.freezeEnd b := by
  simp only [State.emptyTick, current, if_neg limit.not_gt]

theorem emptyTick_of_none {s : State} (none : s.air.current = none) :
    s.emptyTick = s.setAir { s.air with condition := .filled, lastAction := .fill } := by
  simp only [State.emptyTick, none]

/-- The tick on which the frame frozen to the limit leaves air (R86). -/
theorem freezeEnd_eq (s : State) (b : Binding) : s.freezeEnd b = { s with
    air := { s.air with
      slotA := none, slotB := none, condition := .filled, lastAction := .fill, fillSince := some s.air.serve }
    pool := leftBy s.air.slotB (leftBy s.air.slotA s.pool)
    readout := ((s.report .fillOnAir (some b.seq) none).logEdit
      { kind := .fillStart, first := some b.seq, last := none,
        count := some (BitVec.ofNat 32 s.air.freezeCount), hold := none, cause := .device }).readout } := by
  rw [State.freezeEnd, leaveBoth_eq]
  rfl

theorem frozenToLimit_of_limit {s : State} {b : Binding} (entries : s.queue.entries = [])
    (current : s.air.current = some b) (limit : s.monitor.inForce.freezeLimit ≤ s.air.freezeCount) :
    s.frozenToLimit = some b := by
  simp only [State.frozenToLimit, entries, current, if_pos limit]

theorem frozenToLimit_of_other {s : State} (other : s.queue.entries ≠ [] ∨ s.air.current = none ∨
    s.air.freezeCount < s.monitor.inForce.freezeLimit) : s.frozenToLimit = none := by
  unfold State.frozenToLimit
  split
  next b entries current =>
    have below := (other.resolve_left (not_not.2 entries)).resolve_left (by rw [current]; nofun)
    exact if_neg below.not_ge
  next => rfl

/-- The scheduler on a frozen tick (R86). -/
def frozenAir (a : Air) : Air :=
  { stayed a with
    serve := a.serve + 1, condition := .frozen, lastAction := .freeze
    freezeCount := a.freezeCount + 1, stallCount := 0, stalledHold := none }

theorem frozenTick_ticking (s : State) (g : TickGen) (b : Binding) : (s.ticking g).clearStall.frozenTick b =
    { s.ticking g with
      air := frozenAir s.air
      readout := if s.air.condition = .frozen then s.readout else ({ s with air := frozenAir s.air }.logEdit
        { kind := .freezeStart, first := some b.seq, last := none, count := none, hold := none,
          cause := .device }).readout } := by
  rw [State.frozenTick, cleared_stayed]
  by_cases frozen : s.air.condition = .frozen
  · rw [if_pos frozen, if_pos (by exact frozen)]
    rfl
  · rw [if_neg frozen, if_neg (by exact frozen)]
    rfl

theorem frozenAir_onAir (a : Air) : (frozenAir a).onAir = a.onAir := by
  change (stayed a).onAir = a.onAir
  rw [stayed_frame]

/-- Settles O42: the current frame and its freeze count decide. -/
theorem emptyQueueTicks : Obligations.EmptyQueueTicks := by
  refine ⟨fun c s₀ once run₀ => ?_, fun s b ready run entries current limit => ?_, fun s other => ?_⟩
  · intro s past entries
    obtain ⟨-, -, -, -, monitor, -⟩ := atTickStart_frame s₀ c
    have run : s.monitor.run = .running := by rw [monitor]; exact run₀
    obtain ⟨g, -, gives⟩ := tickGives_of_selected once run₀
    change ∀ P : State → Prop, P (s.selected g c) → TickGives c s₀ P at gives
    clear_value s
    have empty := select_of_empty (s := s.ticking g) past entries
    have ticks : (s.selected g c).air.serve = s.air.serve + 1 → Ticked s (s.selected g c) := fun serve =>
      ticked_selected serve run
    refine ⟨fun b current below => ?_, fun b current limit => ?_, fun none => ?_⟩
    · have selection := (empty.trans (emptyTick_of_frozen (s := (s.ticking g).clearStall) (b := b) current below)).trans
        (frozenTick_ticking s g b)
      have selected := (selected_of_same (c := c) (by rw [selection]; exact frozenAir_onAir s.air)).trans selection
      refine gives _ ?_
      rw [selected] at ticks ⊢
      exact ⟨rfl, ticks rfl, fun frozen => if_pos frozen, fun other => if_neg other⟩
    · have selection := empty.trans (emptyTick_of_limit (s := (s.ticking g).clearStall) (b := b) current limit)
      rw [freezeEnd_eq] at selection
      have selected := (selected_of_same (c := c) (by rw [selection]; rfl)).trans selection
      refine gives _ ?_
      rw [selected] at ticks ⊢
      exact ⟨rfl, ticks rfl⟩
    · have selection := empty.trans (emptyTick_of_none (s := (s.ticking g).clearStall) none)
      have selected := (selected_of_same (c := c) (by rw [selection]; rfl)).trans selection
      refine gives _ ?_
      rw [selected] at ticks ⊢
      exact ⟨rfl, ticks rfl⟩
  · have done : exec .freezeLimit s = .next (s.clearStall.freezeEnd b) := by
      change execFreezeLimit s = _
      rw [execFreezeLimit, frozenToLimit_of_limit entries current limit]
      exact if_pos (by simp [State.inRun, ready, run])
    rw [done, freezeEnd_eq]
    rfl
  · change execFreezeLimit s = _
    rw [execFreezeLimit, frozenToLimit_of_other other]

/-! ### Releases (R66, R67, R78 to R81, R88) -/

/-- The scheduler once binding `b` is aired: its slot is rebound, and the counts and the condition take the values
of a release (R78 to R80, R88). -/
def Air.airing (a : Air) (b : Binding) : Air :=
  { a.setBinding (EgressSlot.ofOnAir b.onAir) (some b) with
    onAir := b.onAir, condition := .flowing, stallCount := 0, stalledHold := none, freezeCount := 0
    lastAirDelay := some b.airDelay, fillSince := none }

theorem binding_setBinding (a : Air) (slot : EgressSlot) (b : Option Binding) : (a.setBinding slot b).binding slot = b := by
  cases slot <;> rfl

theorem airing_current (a : Air) (b : Binding) : (a.airing b).current = some b := by
  have same : (a.airing b).current = (a.setBinding (EgressSlot.ofOnAir b.onAir) (some b)).binding (EgressSlot.ofOnAir b.onAir) := by
    change (a.airing b).binding (EgressSlot.ofOnAir b.onAir) = _
    unfold Air.airing
    cases EgressSlot.ofOnAir b.onAir <;> rfl
  rw [same, binding_setBinding]

/-- R93's air delay of 0 ticks is that of the binding aired. -/
theorem zeroDelay_airing (a : Air) (b : Binding) : (a.airing b).zeroDelay = a.airing { b with airDelay := 0 } := by
  unfold Air.zeroDelay
  rw [airing_current]
  unfold Air.airing
  dsimp only
  cases EgressSlot.ofOnAir b.onAir <;> rfl

/-- The readout once a release has ended a fill period (R88). -/
def State.fillEnded (s : State) (q : Seq) : Readout :=
  match s.air.fillSince with
  | none => s.readout
  | some since => (s.logEdit
      { kind := .fillEnd, first := some q, last := none, count := some (s.air.serve - since), hold := none,
        cause := .device }).readout

theorem leaveSlot_eq (s : State) (slot : EgressSlot) : s.leaveSlot slot = { s with
    air := s.air.setBinding slot none
    pool := leftBy (s.air.binding slot) s.pool } := by
  unfold State.leaveSlot leftBy
  cases bound : s.air.binding slot with
  | none =>
    dsimp only
    rw [setBinding_of_same bound]
  | some b => rfl

theorem bindEntry_eq (s : State) (e : Entry) (skipBefore : Byte) : s.bindEntry e skipBefore = { s with
    air := s.air.airing (e.binding (s.air.onAir + 1) s.air.serve skipBefore)
    pool := (leftBy (s.air.binding (EgressSlot.ofOnAir (s.air.onAir + 1))) s.pool).airBlock e.block
    readout := s.fillEnded e.seq } := by
  rw [State.bindEntry, leaveSlot_eq]
  unfold State.endFill State.fillEnded Air.airing
  dsimp only [Entry.binding]
  cases EgressSlot.ofOnAir (s.air.onAir + 1) <;> cases fill : s.air.fillSince <;> simp [Air.setBinding, fill]
  all_goals rfl

/-- Release of the oldest entry in RUNNING (R66). -/
theorem release_eq {s : State} {e : Entry} {rest : List Entry} (entries : s.queue.entries = e :: rest)
    (run : s.monitor.run = .running) (skipBefore : Byte) : s.release skipBefore = { s with
      queue := { s.queue with entries := rest }
      trim := s.trim.evaluate rest.length s.monitor.inForce.target s.monitor.inForce.band
      air := s.air.airing (e.binding (s.air.onAir + 1) s.air.serve skipBefore)
      pool := (leftBy (s.air.binding (EgressSlot.ofOnAir (s.air.onAir + 1))) s.pool).airBlock e.block
      readout := s.fillEnded e.seq } := by
  unfold State.release
  rw [entries]
  dsimp only
  rw [bindEntry_eq, depthReport_of_running (by exact run)]
  rfl

/-- Skip of the oldest entry in RUNNING (R67, R87). -/
theorem skip_eq {s : State} {e o : Entry} {rest : List Entry} (entries : s.queue.entries = e :: o :: rest)
    (run : s.monitor.run = .running) : s.skip = { s with
      queue := { s.queue with entries := rest }
      trim := s.trim.evaluate rest.length s.monitor.inForce.target s.monitor.inForce.band
      air := s.air.airing (o.binding (s.air.onAir + 1) s.air.serve (BitVec.ofNat 8 (min 255 (1 + e.gapBefore.toNat))))
      pool := (leftBy (s.air.binding (EgressSlot.ofOnAir (s.air.onAir + 1))) (s.pool.freeBlock e.block)).airBlock o.block
      readout := s.fillEnded o.seq } := by
  unfold State.skip
  rw [entries]
  dsimp only
  rw [release_eq (e := o) (rest := rest) (by rfl) (by exact run)]
  rfl

/-! ### Ticks the delay trim decides (R87, R93) -/

/-- A tick that airs binding `b` airs it with R93's air delay. -/
theorem selected_of_airing {s : State} {g : TickGen} {c : Instr} {a : Air} {b : Binding}
    (air : (s.ticking g).select.air = a.airing b) (next : b.onAir = s.air.onAir + 1) :
    s.selected g c = (s.ticking g).select.setAir
      (a.airing { b with airDelay := if OnlyThisInstant s c then 0 else b.airDelay }) := by
  have changed : (s.ticking g).select.air.onAir ≠ s.air.onAir := by
    rw [air]
    change b.onAir ≠ s.air.onAir
    rw [next]
    simp
  unfold State.selected
  by_cases only : OnlyThisInstant s c
  · rw [if_pos ⟨(s.onlyThisInstant_iff c).2 only, changed⟩, if_pos only, air, zeroDelay_airing]
  · rw [if_neg fun both => only ((s.onlyThisInstant_iff c).1 both.1), if_neg only, ← air]
    rfl

theorem trimAnswer_ticking (s : State) (g : TickGen) : (s.ticking g).clearStall.trimAnswer = (latched s).trimAnswer := rfl

theorem trimTick_of_none {s : State} (answer : s.trimAnswer = .none) :
    s.trimTick = (s.afterAsk.release 0).setAir { (s.afterAsk.release 0).air with lastAction := .release } := by
  simp only [State.trimTick, answer]

theorem trimTick_of_repeated {s : State} (answer : s.trimAnswer = .repeated) :
    s.trimTick = s.afterAsk.setAir { s.afterAsk.air.repeatCurrent with
      condition := .flowing, lastAction := .repeated, repeatTotal := addSat32 s.air.repeatTotal 1 } := by
  simp only [State.trimTick, answer]

theorem trimTick_of_skip {s : State} (answer : s.trimAnswer = .skip) :
    s.trimTick = s.afterAsk.skip.setAir { s.afterAsk.skip.air with
      lastAction := .skip, skipTotal := addSat32 s.air.skipTotal 1 } := by
  simp only [State.trimTick, answer]

/-- The action of a tick stands apart from what is aired. -/
theorem airing_with_release (a : Air) (b : Binding) : { a.airing b with lastAction := .release } =
    ({ a with lastAction := .release } : Air).airing b := by
  unfold Air.airing
  cases EgressSlot.ofOnAir b.onAir <;> rfl

theorem airing_with_skip (a : Air) (b : Binding) (skips : Nat) :
    { a.airing b with lastAction := .skip, skipTotal := skips } =
      ({ a with lastAction := .skip, skipTotal := skips } : Air).airing b := by
  unfold Air.airing
  cases EgressSlot.ofOnAir b.onAir <;> rfl

/-- The scheduler a tick that asks the trim finds, with the action and the skips it will show. -/
def askedAir (a : Air) (action : LastAction) (skips : Nat) : Air :=
  { a with serve := a.serve + 1, stallCount := 0, stalledHold := none, lastAction := action, skipTotal := skips }

/-- NONE: the oldest entry is released (R87). -/
theorem trimTick_releases {s : State} {e : Entry} {rest : List Entry} (g : TickGen) (run : s.monitor.run = .running)
    (entries : s.queue.entries = e :: rest)
    (answer : (latched s).trimAnswer = .none) : (s.ticking g).clearStall.trimTick = { s.ticking g with
      queue := { s.queue with entries := rest }
      trim := ({ trimAtTick s with credit := (latched s).advancedCredit } : Trim).evaluate rest.length
        s.monitor.staged.target s.monitor.staged.band
      air := (askedAir s.air .release s.air.skipTotal).airing (e.binding (s.air.onAir + 1) (s.air.serve + 1) 0)
      pool := (leftBy (s.air.binding (EgressSlot.ofOnAir (s.air.onAir + 1))) s.pool).airBlock e.block
      readout := ({ s with air := { s.air with serve := s.air.serve + 1 } } : State).fillEnded e.seq } := by
  rw [trimTick_of_none (s := (s.ticking g).clearStall) answer, State.afterAsk_of_none (s := (s.ticking g).clearStall) answer,
    release_eq (e := e) (rest := rest) (by exact entries) (by exact run)]
  refine State.eq_of_fields rfl rfl rfl rfl rfl rfl rfl rfl rfl rfl ?_ rfl rfl rfl rfl rfl rfl
  exact airing_with_release _ _

/-- REPEAT: the current air frame stays on air (R87). -/
theorem trimTick_repeats {s : State} (g : TickGen) (answer : (latched s).trimAnswer = .repeated) :
    (s.ticking g).clearStall.trimTick = { s.ticking g with
      trim := { trimAtTick s with credit := (latched s).advancedCredit - 1000 }
      air := { stayed s.air with
        serve := s.air.serve + 1, condition := .flowing, lastAction := .repeated
        repeatTotal := min 4294967295 (s.air.repeatTotal + 1), stallCount := 0, stalledHold := none } } := by
  have acts : (s.ticking g).clearStall.trimAnswer ≠ .none := fun none => by
    rw [trimAnswer_ticking, answer] at none
    cases none
  have air := cleared_stayed s g
  rw [trimTick_of_repeated (s := (s.ticking g).clearStall) answer, State.afterAsk_of_action acts]
  dsimp only
  rw [air]
  rfl

/-- SKIP: the oldest entry leaves without airing, and the second is released (R67, R87). -/
theorem trimTick_skips {s : State} {e o : Entry} {rest : List Entry} (g : TickGen) (run : s.monitor.run = .running)
    (entries : s.queue.entries = e :: o :: rest)
    (answer : (latched s).trimAnswer = .skip) : (s.ticking g).clearStall.trimTick = { s.ticking g with
      queue := { s.queue with entries := rest }
      trim := ({ trimAtTick s with credit := (latched s).advancedCredit - 1000 } : Trim).evaluate rest.length
        s.monitor.staged.target s.monitor.staged.band
      air := (askedAir s.air .skip (min 4294967295 (s.air.skipTotal + 1))).airing
        (o.binding (s.air.onAir + 1) (s.air.serve + 1) (BitVec.ofNat 8 (min 255 (1 + e.gapBefore.toNat))))
      pool := (leftBy (s.air.binding (EgressSlot.ofOnAir (s.air.onAir + 1))) (s.pool.freeBlock e.block)).airBlock o.block
      readout := ({ s with air := { s.air with serve := s.air.serve + 1 } } : State).fillEnded o.seq } := by
  have acts : (s.ticking g).clearStall.trimAnswer ≠ .none := fun none => by
    rw [trimAnswer_ticking, answer] at none
    cases none
  rw [trimTick_of_skip (s := (s.ticking g).clearStall) answer, State.afterAsk_of_action acts,
    skip_eq (e := e) (o := o) (rest := rest) (by exact entries) (by exact run)]
  refine State.eq_of_fields rfl rfl rfl rfl rfl rfl rfl rfl rfl rfl ?_ rfl rfl rfl rfl rfl rfl
  exact airing_with_skip _ _ _

theorem airing_release (a : Air) (b : Binding) : (askedAir a .release a.skipTotal).airing b =
    { a.setBinding (EgressSlot.ofOnAir b.onAir) (some b) with
      serve := a.serve + 1, onAir := b.onAir, condition := .flowing, stallCount := 0, stalledHold := none
      freezeCount := 0, lastAirDelay := some b.airDelay, fillSince := none, lastAction := .release } := by
  unfold Air.airing askedAir
  cases EgressSlot.ofOnAir b.onAir <;> rfl

theorem airing_skip (a : Air) (b : Binding) (skips : Nat) : (askedAir a .skip skips).airing b =
    { a.setBinding (EgressSlot.ofOnAir b.onAir) (some b) with
      serve := a.serve + 1, onAir := b.onAir, condition := .flowing, stallCount := 0, stalledHold := none
      freezeCount := 0, lastAirDelay := some b.airDelay, fillSince := none, lastAction := .skip
      skipTotal := skips } := by
  unfold Air.airing askedAir
  cases EgressSlot.ofOnAir b.onAir <;> rfl

theorem airing_serve (a : Air) (b : Binding) : (a.airing b).serve = a.serve := by
  unfold Air.airing
  cases EgressSlot.ofOnAir b.onAir <;> rfl

/-- A fill period ends the same whatever else the release has changed. -/
theorem fillEnded_eq {s : State} {a : Air} (serve : a.serve = s.air.serve + 1) (q : Seq) :
    ({ s with air := { s.air with serve := s.air.serve + 1 } } : State).fillEnded q = match s.air.fillSince with
      | none => s.readout
      | some since => ({ s with air := a }.logEdit
          { kind := .fillEnd, first := some q, last := none, count := some (s.air.serve + 1 - since),
            hold := none, cause := .device }).readout := by
  unfold State.fillEnded
  cases fill : s.air.fillSince with
  | none => simp only
  | some since =>
    simp only
    refine State.logEdit_readout_congr ?_ ?_ _
    · rfl
    · exact serve.symm

/-- Settles O43: NONE and SKIP air a binding, REPEAT keeps the current one. -/
theorem trimDecidedTicks : Obligations.TrimDecidedTicks := by
  refine ⟨fun a b => ⟨rfl, rfl⟩, fun p i => ⟨rfl, rfl, rfl, rfl, fun zero => if_pos zero, fun some => if_neg some⟩, ?_⟩
  intro c s₀ e rest once run₀ s past entries free asked lowered evaluated on slot aired left filled
  obtain ⟨-, -, -, -, monitor, -⟩ := atTickStart_frame s₀ c
  have run : s.monitor.run = .running := by rw [monitor]; exact run₀
  obtain ⟨g, -, gives⟩ := tickGives_of_selected once run₀
  change ∀ P : State → Prop, P (s.selected g c) → TickGives c s₀ P at gives
  clear_value s
  have asks := select_of_free (s := s.ticking g) past entries free
  have ticks : (s.selected g c).air.serve = s.air.serve + 1 → Ticked s (s.selected g c) := fun serve =>
    ticked_selected serve run
  refine ⟨fun answer => ?_, fun answer => ?_, fun o rest' second answer => ?_⟩
  · have selection := asks.trans (trimTick_releases g run entries answer)
    have selected := selected_of_airing (c := c) (congrArg State.air selection) rfl
    rw [selection, airing_release, airing_release] at selected
    refine gives _ ?_
    rw [selected] at ticks ⊢
    refine ⟨State.eq_of_fields rfl rfl rfl rfl rfl rfl rfl rfl rfl rfl rfl rfl rfl rfl rfl ?_ rfl, ticks rfl⟩
    exact (fillEnded_eq (by rfl) _).trans rfl
  · have selection := asks.trans (trimTick_repeats g answer)
    have onAir : (s.ticking g).select.air.onAir = s.air.onAir := by
      rw [selection]
      change (stayed s.air).onAir = s.air.onAir
      rw [stayed_frame]
    have selected := (selected_of_same (c := c) onAir).trans selection
    refine gives _ ?_
    rw [selected] at ticks ⊢
    exact ⟨rfl, ticks rfl⟩
  · subst second
    have selection := asks.trans (trimTick_skips g run entries answer)
    have selected := selected_of_airing (c := c) (congrArg State.air selection) rfl
    rw [selection, airing_skip, airing_skip] at selected
    refine gives _ ?_
    rw [selected] at ticks ⊢
    refine ⟨State.eq_of_fields rfl rfl rfl rfl rfl rfl rfl rfl rfl rfl rfl rfl rfl rfl rfl ?_ rfl, ticks rfl⟩
    exact (fillEnded_eq (by rfl) _).trans rfl

end Sys2Proof.Machine
end

