-- ==== Sys2Proof/Proofs/ReleasedFrames.lean ====
section
/-! Which frame a tick can release (R85, R87, R93): the oldest entry or the second, and none of an undecided hold. -/

namespace Sys2Proof.Machine

open Sys2Proof Sys2Proof.Safety

/-- A tick's selection that leaves the on-air number. -/
def Stays (s : State) (a : Air) : Prop := a.onAir = s.air.onAir ∧ a.serve = s.air.serve + 1

/-- A tick's selection that airs entry `i` of the queue, neither it nor the oldest one being of a hold. -/
def Airs (s : State) (c : Instr) (i : Nat) (e : Entry) (a : Air) : Prop :=
  i ≤ 1 ∧ s.queue.entries[i]? = some e ∧ e.hold = none ∧ (∃ o, s.queue.entries[0]? = some o ∧ o.hold = none) ∧
  ∃ (base : Air) (skipped : Byte), base.serve = s.air.serve + 1 ∧ a = base.airing
    { e.binding (s.air.onAir + 1) (s.air.serve + 1) skipped with
      airDelay := if OnlyThisInstant s c then 0 else s.air.serve + 1 - e.stamp }

theorem emptyTick_stays (s : State) (g : TickGen) : Stays s (s.ticking g).clearStall.emptyTick.air := by
  cases current : s.air.current with
  | none =>
    rw [emptyTick_of_none (s := (s.ticking g).clearStall) current]
    exact ⟨rfl, rfl⟩
  | some b =>
    by_cases below : s.air.freezeCount < s.monitor.staged.freezeLimit
    · rw [emptyTick_of_frozen (s := (s.ticking g).clearStall) (b := b) current below, frozenTick_ticking]
      exact ⟨frozenAir_onAir s.air, rfl⟩
    · rw [emptyTick_of_limit (s := (s.ticking g).clearStall) (b := b) current (not_lt.1 below), freezeEnd_eq]
      exact ⟨rfl, rfl⟩

theorem selected_stays {s : State} {g : TickGen} {c : Instr} (stays : Stays s (s.ticking g).select.air) :
    Stays s (s.selected g c).air := by
  rw [selected_of_same stays.1]
  exact stays

/-- What a tick that asks the trim airs. -/
theorem trimTick_air {s : State} {e : Entry} {rest : List Entry} {g : TickGen} {c : Instr} (run : s.monitor.run = .running)
    (selection : (s.ticking g).select = (s.ticking g).clearStall.trimTick) (entries : s.queue.entries = e :: rest)
    (free : e.hold = none) : Stays s (s.selected g c).air ∨ ∃ i f, Airs s c i f (s.selected g c).air := by
  have oldest : s.queue.entries[0]? = some e := by rw [entries]; rfl
  cases answer : (latched s).trimAnswer with
  | none =>
    have selected := selected_of_airing (c := c) (congrArg State.air (selection.trans (trimTick_releases g run entries answer))) rfl
    refine .inr ⟨0, e, Nat.zero_le _, oldest, free, ⟨e, oldest, free⟩, _, 0, rfl, congrArg State.air selected⟩
  | repeated =>
    refine .inl (selected_stays ?_)
    rw [selection, trimTick_repeats g answer]
    refine ⟨?_, rfl⟩
    change (stayed s.air).onAir = s.air.onAir
    rw [stayed_frame]
  | skip =>
    obtain ⟨-, allowed⟩ := (State.trimAnswer_eq_skip_iff _).1 answer
    obtain ⟨-, o, n, rest', two, -, -, second⟩ := (State.skipAllowed_iff _).1 allowed
    have entries' : s.queue.entries = o :: n :: rest' := two
    have selected := selected_of_airing (c := c) (congrArg State.air (selection.trans (trimTick_skips g run entries' answer))) rfl
    refine .inr ⟨1, n, le_rfl, by rw [entries']; rfl, second, ⟨e, oldest, free⟩, _, _, rfl, congrArg State.air selected⟩

/-- The cases of the selection (R83). -/
theorem selected_air {s : State} (g : TickGen) (c : Instr) (run : s.monitor.run = .running) :
    Stays s (s.selected g c).air ∨ ∃ i e, Airs s c i e (s.selected g c).air := by
  by_cases priming : s.air.condition = .priming ∧ s.queue.entries.length < s.monitor.staged.target
  · refine .inl (selected_stays ?_)
    rw [select_of_priming (s := s.ticking g) priming.1 priming.2]
    exact ⟨rfl, rfl⟩
  · cases entries : s.queue.entries with
    | nil =>
      refine .inl (selected_stays ?_)
      rw [select_of_empty (s := s.ticking g) priming entries]
      exact emptyTick_stays s g
    | cons e rest =>
      cases held : e.hold with
      | some h =>
        refine .inl (selected_stays ?_)
        rw [select_of_held (s := s.ticking g) priming entries held, stalledTick_ticking, State.stallPolicyStep_air]
        exact ⟨stalling_onAir s g h, rfl⟩
      | none => exact trimTick_air run (select_of_free (s := s.ticking g) priming entries held) entries held

/-- Settles O44: a tick that raises the on-air number airs a frame of no hold. -/
theorem releasedFramesCarryNoHold : Obligations.ReleasedFramesCarryNoHold := by
  intro c s t once run ran
  obtain ⟨g, done, -⟩ := tickGives_of_selected once run
  obtain ⟨r, start⟩ := atTickStart_eq s c
  have air : t.air = ((s.setReadout r).selected g c).air := by
    rw [← start]
    obtain rfl : _ = t := Host.Outcome.next.inj (done.symm.trans ran)
    exact State.slotTimeouts_air _
  have cases : Stays s t.air ∨ ∃ i e, Airs s c i e t.air := by
    rw [air]
    exact selected_air (s := s.setReadout r) g c run
  rcases cases with ⟨onAir, serve⟩ | ⟨i, e, near, entry, free, ⟨o, oldest, unheld⟩, base, skipped, serve, airs⟩
  · exact ⟨serve, fun changed => absurd onAir changed, fun _ => onAir⟩
  · have risen : t.air.serve = s.air.serve + 1 := by rw [airs, airing_serve, serve]
    have onAir : t.air.onAir = s.air.onAir + 1 := by rw [airs]; rfl
    refine ⟨risen, fun _ => ⟨onAir, i, e, _, near, entry, free, airs ▸ airing_current _ _, rfl, rfl, onAir.symm, risen.symm,
      ?_, ?_⟩, fun held => absurd unheld (held o oldest)⟩
    · rw [risen]
    · rw [airs]
      rfl

end Sys2Proof.Machine
end

