-- ==== Sys2Proof/Proofs/SlotTimeouts.lean ====
section
/-! The slot timeout (R54), alone and after a tick's selection. -/

namespace Sys2Proof.Machine

open Sys2Proof Sys2Proof.Safety

/-- The block of slot `k` when it has timed out (R54). -/
def State.old (s : State) (k : Fin 4) : Option Nat := (s.slot k).timedOut s.air.serve

/-- The report of a frame abandoned in slot `k`, whose line 0 stands at `addr k` (R49, R54). -/
def reportTimeout (addr : Fin 4 → Addr) (u : State) (k : Fin 4) : State :=
  (u.report .ingestDrop none (some (addr k))).logEdit
    { kind := .ingestDrop, first := none, last := none, count := some 1, hold := none, cause := .timeout }

theorem slotTimeouts_eq_foldl (s : State) : s.slotTimeouts = ([0, 1, 2, 3] : List (Fin 4)).foldl State.timeoutSlot s := rfl

theorem timeoutSlot_of_none {s : State} {k : Fin 4} (young : s.old k = none) : s.timeoutSlot k = s := by
  have young' : (s.slot k).timedOut s.air.serve = none := young
  rw [State.timeoutSlot, young']

theorem timeoutSlot_of_some {s : State} {k : Fin 4} {b : Nat} (aged : s.old k = some b) :
    s.timeoutSlot k = { s with
      ingest := { s.ingest with slots := s.ingest.slots.set k .empty }
      pool := s.pool.freeBlock b
      readout := (reportTimeout s.slotFaultAddr s k).readout } := by
  have aged' : (s.slot k).timedOut s.air.serve = some b := aged
  rw [State.timeoutSlot, aged']
  rfl

/-- Reports go by the readout and the serve number alone. -/
theorem foldl_reportTimeout_congr (addr : Fin 4 → Addr) (ks : List (Fin 4)) {u v : State} (readout : u.readout = v.readout)
    (serve : u.air.serve = v.air.serve) :
    (ks.foldl (reportTimeout addr) u).readout = (ks.foldl (reportTimeout addr) v).readout := by
  induction ks generalizing u v with
  | nil => exact readout
  | cons k rest ih =>
    refine ih (State.logEdit_readout_congr ?_ ?_ _) ?_
    · simp only [State.report, State.setReadout_readout, readout, serve]
    · simp [serve]
    · simp [reportTimeout, serve]

/-- The slots of a list without repetition, examined in its order. -/
theorem foldl_timeoutSlot {s : State} {ks : List (Fin 4)} (nodup : ks.Nodup) :
    ks.foldl State.timeoutSlot s = { s with
      ingest := { s.ingest with slots := (ks.foldl State.timeoutSlot s).ingest.slots }
      pool := s.pool.freeBlocks (ks.filterMap s.old)
      readout := ((ks.filter fun k => (s.old k).isSome).foldl (reportTimeout s.slotFaultAddr) s).readout } ∧
    ∀ k, (ks.foldl State.timeoutSlot s).slot k = if k ∈ ks ∧ s.old k ≠ none then .empty else s.slot k := by
  induction ks generalizing s with
  | nil => exact ⟨rfl, fun k => (if_neg (by simp)).symm⟩
  | cons k rest ih =>
    obtain ⟨new, nodup'⟩ := List.nodup_cons.1 nodup
    rw [List.foldl_cons]
    cases aged : s.old k with
    | none =>
      obtain ⟨state, slots⟩ := ih (s := s) nodup'
      rw [timeoutSlot_of_none aged]
      simp only [List.filterMap_cons, List.filter_cons, aged, Option.isSome_none, Bool.false_eq_true, if_false]
      refine ⟨state, fun k' => (slots k').trans ?_⟩
      by_cases same : k' = k
      · subst same
        simp [aged, new]
      · simp [same]
    | some b =>
      obtain ⟨state, slots⟩ := ih (s := s.timeoutSlot k) nodup'
      have step := timeoutSlot_of_some aged
      generalize s.timeoutSlot k = u at state slots step ⊢
      have slot : ∀ k', k' ≠ k → u.slot k' = s.slot k' := fun k' other => by
        rw [step]
        exact slots_set_ne _ other _
      have old : ∀ k' ∈ rest, u.old k' = s.old k' := fun k' mem => by
        have serve : u.air.serve = s.air.serve := by rw [step]
        rw [State.old, State.old, slot k' fun same => new (same ▸ mem), serve]
      have addr : u.slotFaultAddr = s.slotFaultAddr := by
        rw [step]
        rfl
      rw [List.filterMap_congr old, List.filter_congr fun k' mem => congrArg Option.isSome (old k' mem), addr] at state
      simp only [List.filterMap_cons, List.filter_cons, aged, Option.isSome_some, if_true, List.foldl_cons]
      refine ⟨state.trans ?_, fun k' => (slots k').trans ?_⟩
      · rw [foldl_reportTimeout_congr s.slotFaultAddr (rest.filter fun k => (s.old k).isSome) (v := reportTimeout s.slotFaultAddr s k)
          (by rw [step]) (by rw [step]; simp [reportTimeout]), step]
        rfl
      · by_cases same : k' = k
        · subst same
          have empty : u.slot k' = .empty := by
            rw [step]
            exact slots_set_same _ _ _
          rw [if_neg fun both => new both.1, if_pos ⟨List.mem_cons_self, by rw [aged]; nofun⟩, empty]
        · rw [slot k' same]
          by_cases mem : k' ∈ rest
          · simp [old k' mem, mem]
          · simp [mem, same]

/-- SLOT_TIMEOUT in RUNNING (R54). -/
theorem slotTimeouts_eq (s : State) : s.slotTimeouts = { s with
      ingest := { s.ingest with slots := s.slotTimeouts.ingest.slots }
      pool := s.pool.freeBlocks (([0, 1, 2, 3] : List (Fin 4)).filterMap s.old)
      readout := ((([0, 1, 2, 3] : List (Fin 4)).filter fun k => (s.old k).isSome).foldl (reportTimeout s.slotFaultAddr)
        s).readout } ∧
    ∀ k, s.slotTimeouts.slot k = if s.old k = none then s.slot k else .empty := by
  rw [slotTimeouts_eq_foldl]
  obtain ⟨state, slots⟩ := foldl_timeoutSlot (s := s) (ks := [0, 1, 2, 3]) (by decide)
  refine ⟨state, fun k => (slots k).trans ?_⟩
  have mem : k ∈ ([0, 1, 2, 3] : List (Fin 4)) := by
    revert k
    decide
  by_cases young : s.old k = none
  · rw [if_pos young, if_neg fun both => both.2 young]
  · rw [if_neg young, if_pos ⟨mem, young⟩]

/-! ### After a tick's selection -/

theorem dumpHold_ingest (s : State) (r : HoldRecord) (cause : Cause) :
    (s.dumpHold r cause).ingest = (s.discardIf (r.state == .opened)).ingest := by
  rw [dumpHold_eq]

theorem discardedIf_of_same {s t : State} (ingest : t.ingest = s.ingest) : DiscardedIf false s t := by
  have slot : ∀ k, t.slot k = s.slot k := fun k => by rw [State.slot, ingest, State.slot]
  refine ⟨by rw [ingest], fun k => (slot k).trans ?_⟩
  cases s.slot k <;> rfl

/-- The stall policy touches the slots by a discard notice at most (R58, R126). -/
theorem stallPolicyStep_ingest (s : State) : ∃ d, DiscardedIf d s s.stallPolicyStep := by
  cases expired : s.expiredHold with
  | none => exact ⟨false, discardedIf_of_same (by rw [stallPolicyStep_of_none expired])⟩
  | some r =>
    have step : s.stallPolicyStep = s.expireStall r := by rw [State.stallPolicyStep, expired]
    rw [step, State.expireStall]
    cases s.monitor.inForce.stallPolicy with
    | release => exact ⟨false, discardedIf_of_same (by simp)⟩
    | dump =>
      refine ⟨_, discardedIf_discardIf (c := r.state == .opened) ?_⟩
      dsimp only
      rw [dumpHold_ingest, discardIf_eq (s := s) (by simp) (by simp)]

/-- A tick's selection touches the slots by the stall policy's discard notice at most. -/
theorem selected_ingest (s : State) (g : TickGen) (c : Instr) : ∃ d, DiscardedIf d s (s.selected g c) := by
  suffices select : ∃ d, DiscardedIf d s (s.ticking g).select by
    unfold State.selected
    split
    next => exact select
    next => exact select
  by_cases priming : s.air.condition = .priming ∧ s.queue.entries.length < s.monitor.staged.target
  · rw [select_of_priming (s := s.ticking g) priming.1 priming.2]
    exact ⟨false, discardedIf_of_same rfl⟩
  · cases entries : s.queue.entries with
    | nil =>
      rw [select_of_empty (s := s.ticking g) priming entries]
      exact ⟨false, discardedIf_of_same (State.emptyTick_ingest _)⟩
    | cons e rest =>
      cases held : e.hold with
      | some h =>
        rw [select_of_held (s := s.ticking g) priming entries held, stalledTick_ticking]
        exact stallPolicyStep_ingest (s.stalling g h)
      | none =>
        rw [select_of_free (s := s.ticking g) priming entries held]
        exact ⟨false, discardedIf_of_same (State.trimTick_ingest _)⟩

theorem discarded_timedOut {d : Bool} {s t : State} (discarded : DiscardedIf d s t) (k : Fin 4) (serve : Seq) :
    (t.slot k).timedOut serve = (s.slot k).timedOut serve := by
  rw [discarded.2 k]
  cases s.slot k with
  | filling b w first => cases d <;> rfl
  | _ => rfl

theorem discarded_slot {d : Bool} {s t : State} (discarded : DiscardedIf d s t) {k : Fin 4}
    (other : s.slot k = .empty ∨ s.slot k = .overrun) : t.slot k = s.slot k := by
  rw [discarded.2 k]
  rcases other with slot | slot <;> rw [slot]

theorem timedOut_eq_none {sl : IngestSlot} (other : sl = .empty ∨ sl = .overrun) (serve : Seq) : sl.timedOut serve = none := by
  rcases other with rfl | rfl <;> rfl

theorem selected_serve {s : State} (g : TickGen) (c : Instr) (run : s.monitor.run = .running) :
    (s.selected g c).air.serve = s.air.serve + 1 := by
  rcases selected_air g c run with stays | ⟨i, e, -, -, -, -, base, skipped, serve, airs⟩
  · exact stays.2
  · rw [airs, airing_serve, serve]

/-- What a tick's selection leaves for the slot timeout, seen from the state before the command. -/
theorem selected_atTickStart {s : State} (g : TickGen) (c : Instr) (run : s.monitor.run = .running) :
    ((atTickStart s c).selected g c).air.serve = s.air.serve + 1 ∧
    ∃ d, DiscardedIf d s ((atTickStart s c).selected g c) := by
  obtain ⟨r, start⟩ := atTickStart_eq s c
  rw [start]
  exact ⟨selected_serve (s := s.setReadout r) g c run, selected_ingest (s.setReadout r) g c⟩

/-- SLOT_TIMEOUT frees exactly the blocks of the slots that have timed out. -/
theorem slotTimeouts_record (s : State) :
    (∀ k b, s.old k = some b → s.slotTimeouts.pool.record b = freeRecord) ∧
    ∀ i, (∀ k, s.old k ≠ some i) → s.slotTimeouts.pool.record i = s.pool.record i := by
  have mem : ∀ i, i ∈ ([0, 1, 2, 3] : List (Fin 4)).filterMap s.old ↔ ∃ k, s.old k = some i := fun i => by
    rw [List.mem_filterMap]
    refine exists_congr fun k => and_iff_right ?_
    revert k
    decide
  have pool := congrArg State.pool (slotTimeouts_eq s).1
  rw [pool]
  exact ⟨fun k b held => record_freeBlocks_mem ((mem b).2 ⟨k, held⟩),
    fun i other => record_freeBlocks_not_mem fun held => (mem i).1 held |>.elim other⟩

/-- Settles O45: the four slots are examined in order, whatever the selection discards. -/
theorem slotTimeoutAbandons : Obligations.SlotTimeoutAbandons := by
  unfold Obligations.SlotTimeoutAbandons
  intro aged
  have aged_eq : ∀ sl serve, aged sl serve = sl.timedOut serve := fun sl serve => by
    cases sl <;> rfl
  refine ⟨fun s ready run => ?_, fun c s once run => ?_, fun c s once run => ?_, fun s other => ?_⟩
  · intro old
    have old_eq : old = s.old := funext fun k => aged_eq _ _
    have old_at : ∀ k, old k = s.old k := fun k => aged_eq _ _
    obtain ⟨state, slots⟩ := slotTimeouts_eq s
    obtain ⟨freed, kept⟩ := slotTimeouts_record s
    refine ⟨_, exec_slotTimeout ready run, ?_, fun k => (slots k).trans (if_congr (by rw [old_at]) rfl rfl),
      fun k b aged => freed k b ((old_at k).symm.trans aged),
      fun i other => kept i fun k aged => other k ((old_at k).trans aged), fun young => ?_⟩
    · have pool := congrArg State.pool state
      rw [old_eq]
      refine state.trans ?_
      rw [pool, ← freeBlocks_eq s.pool (([0, 1, 2, 3] : List (Fin 4)).filterMap s.old)]
      rfl
    · rw [slotTimeouts_eq_foldl]
      simp [timeoutSlot_of_none ((old_at _).symm.trans (young _))]
  · obtain ⟨g, -, gives⟩ := tickGives_of_selected once run
    obtain ⟨serve, discarded⟩ := selected_atTickStart g c run
    obtain ⟨link, windows, -, -, monitor, -⟩ := atTickStart_frame s c
    obtain ⟨-, link', windows', monitor', -⟩ := selected_frame (atTickStart s c) g c
    refine gives _ ⟨serve, ?_, ?_, windows'.trans windows, discarded⟩
    · rw [link', link]
      exact once.1
    · rw [monitor', monitor]
      exact run
  · obtain ⟨g, ran, -⟩ := tickGives_of_selected once run
    obtain ⟨serve, d, discarded⟩ := selected_atTickStart g c run
    obtain ⟨-, slots⟩ := slotTimeouts_eq ((atTickStart s c).selected g c)
    have old : ∀ k, ((atTickStart s c).selected g c).old k = (s.slot k).timedOut (s.air.serve + 1) := fun k => by
      rw [State.old, serve, discarded_timedOut discarded]
    refine ⟨_, ran, fun k => ⟨fun timedOut => ?_, fun kept => ?_⟩⟩
    · rw [slots, old, if_neg]
      rw [aged_eq] at timedOut
      exact Option.isSome_iff_ne_none.1 timedOut
    · rw [slots, old, if_pos (timedOut_eq_none kept _), discarded_slot discarded kept]
  · exact if_neg (by simp [State.inRun, other])

end Sys2Proof.Machine
end

