-- ==== Sys2Proof/Proofs/Faults.lean ====
section
/-! Fault flags, ALERT, the lamps and the edit log (R137, R138, R151, R153, R154). -/

namespace Sys2Proof.Machine

open Sys2Proof Sys2Proof.Safety

theorem FaultKind.index_lt (k : FaultKind) : k.index < 10 := by
  cases k <;> decide

/-- A report sets its kind's flag and no other (R153). -/
theorem report_flag (s : State) (k : FaultKind) (q : Option Seq) (a : Option Addr) (i : Nat) :
    (s.report k q a).readout.flags.getLsbD i = (s.readout.flags.getLsbD i || decide (i = k.index)) := by
  have index := k.index_lt
  change (s.readout.flags ||| BitVec.twoPow 10 k.index).getLsbD i = _
  rw [BitVec.getLsbD_or, BitVec.getLsbD_twoPow]
  congr 1
  rw [Bool.eq_iff_iff]
  simp only [Bool.and_eq_true, decide_eq_true_eq]
  omega

theorem report_first_of_none {s : State} (empty : s.readout.first = none) (k : FaultKind) (q : Option Seq) (a : Option Addr) :
    (s.report k q a).readout.first = some { kind := k, serve := s.air.serve, seq := q, addr := a } := by
  simp [State.report, empty]

/-- An event of a tick or a press clears no flag, and keeps a first-fault record that stands (R153). -/
theorem RunEvent.faults {s t : State} (e : RunEvent s t) :
    (∀ i, s.readout.flags.getLsbD i = true → t.readout.flags.getLsbD i = true) ∧
    ∀ f, s.readout.first = some f → t.readout.first = some f := by
  cases e with
  | report k q a =>
    refine ⟨fun i flag => ?_, fun f first => report_first_of_some s k q a first⟩
    rw [report_flag, flag, Bool.true_or]
  | _ => exact ⟨fun i flag => flag, fun f first => first⟩

theorem RunEvents.flag {s t : State} (es : RunEvents s t) {i : Nat} (flag : s.readout.flags.getLsbD i = true) :
    t.readout.flags.getLsbD i = true :=
  es.keep (P := fun u => u.readout.flags.getLsbD i = true) (fun _ _ e => e.faults.1 i) flag

theorem RunEvents.first {s t : State} (es : RunEvents s t) {f : FaultRecord} (first : s.readout.first = some f) :
    t.readout.first = some f :=
  es.keep (P := fun u => u.readout.first = some f) (fun _ _ e => e.faults.2 f) first

theorem flags_ne_zero_iff (flags : BitVec 10) : flags ≠ 0 ↔ ∃ i < 10, flags.getLsbD i = true := by
  refine ⟨fun some => ?_, fun ⟨i, _, flag⟩ zero => by simp [zero] at flag⟩
  by_contra none
  refine some (BitVec.eq_of_getLsbD_eq fun i below => ?_)
  have clear : flags.getLsbD i ≠ true := fun flag => none ⟨i, below, flag⟩
  simpa using clear

/-- ALERT (R151). -/
theorem alert_iff (s : State) :
    s.alert = true ↔ (∃ i < 10, s.readout.flags.getLsbD i = true) ∨ s.store.cal = .failed := by
  rw [← flags_ne_zero_iff]
  simp [State.alert]

theorem logEdit_of_room {s : State} (room : s.readout.log.length < 32) (e : LogEntry) :
    s.logEdit e = { s with readout := { s.readout with
      log := s.readout.log ++ [s.logRecord e], nextNumber := s.readout.nextNumber + 1 } } := by
  rw [State.logEdit, Nat.sub_eq_zero_of_le (by omega), List.drop_zero]
  rfl

theorem logEdit_of_full {s : State} (full : s.readout.log.length = 32) (e : LogEntry) :
    s.logEdit e = { s with readout := { s.readout with
      log := s.readout.log.tail ++ [s.logRecord e], nextNumber := s.readout.nextNumber + 1 } } := by
  rw [State.logEdit, full, List.drop_append_of_le_length (by omega), ← List.tail_drop]
  rfl

/-- The lamps (R137, R138, R139). -/
theorem delayLamp_of_running {s : State} (ready : s.link.ready = true) (run : s.monitor.run = .running) :
    s.delayLamp = if s.trim.state = .onDelay then .lit else .blinking := by
  simp [State.delayLamp, ready, run]

theorem readyLamp_of_running {s : State} (ready : s.link.ready = true) (run : s.monitor.run = .running) :
    s.readyLamp = if s.monitor.inForce.dumpLength + s.monitor.inForce.dumpFloor ≤ s.queue.entries.length then .lit
      else .dark := by
  simp [State.readyLamp, ready, run]

theorem holdLamp_of_held {s : State} (ready : s.link.ready = true) (held : s.holds.table ≠ []) :
    s.holdLamp = if s.air.condition = .stalled then .blinking else .lit := by
  simp [State.holdLamp, ready, held]

/-- Settles O52: only CLEAR_FAULTS and the resets clear a flag, and no event of a run is one of them. -/
theorem alertAndFaultFlags : Obligations.AlertAndFaultFlags := by
  refine ⟨fun s e => ⟨fun room => logEdit_of_room room e, fun full => logEdit_of_full full e, rfl, fun es => rfl⟩,
    fun s => ⟨fun down => ?_, fun idle => ?_, fun ready run => ⟨fun on => ?_, fun off => ?_, fun full => ?_, fun less => ?_⟩,
      fun empty => ?_, fun ready held flows => ?_, fun ready held stalled => ?_, rfl, rfl, rfl⟩,
    alert_iff, fun s k q a => ⟨rfl, ?_, fun i other => ?_, fun r => report_first_of_some s k q a,
      fun empty => report_first_of_none empty k q a, rfl⟩, fun c s t which ran i => ?_⟩
  · simp [State.delayLamp, State.readyLamp, State.holdLamp, down]
  · simp [State.delayLamp, State.readyLamp, idle]
  · rw [delayLamp_of_running ready run, if_pos on]
  · rw [delayLamp_of_running ready run, if_neg]
    rcases off with off | off <;> simp [off]
  · rw [readyLamp_of_running ready run, if_pos]
    omega
  · rw [readyLamp_of_running ready run, if_neg]
    omega
  · simp [State.holdLamp, empty]
  · rw [holdLamp_of_held ready held, if_neg flows]
  · rw [holdLamp_of_held ready held, if_pos stalled]
  · rw [report_flag, decide_eq_true rfl, Bool.or_true]
  · rw [report_flag, decide_eq_false other, Bool.or_false]
  · refine (exec_runEvents ?_ ran).flag
    rcases which with rfl | rfl | rfl | rfl | rfl | rfl | rfl | ⟨l, h, rfl⟩ | ⟨m, rfl⟩ | ⟨m, rfl⟩ | ⟨m, rfl⟩ <;> rfl

end Sys2Proof.Machine
end

