-- ==== Sys2Proof/Proofs/Generator.lean ====
section
/-! The tick generator (R74 to R77): edges by mode, the loss, the generated ticks, and the events that fall due before
an edge. -/

namespace Sys2Proof.Machine

open Sys2Proof Sys2Proof.Safety

/-! ### A tick, whatever the run state -/

/-- What a tick leaves beside the selection, the generator being `g` (R78, R136, R148). -/
def TickLeaves (s : State) (g : TickGen) (t : State) : Prop :=
  t.gen = g ∧ Ticked s t ∧
  (s.monitor.run ≠ .running → t = { s with gen := t.gen, monitor := t.monitor, console := t.console })

theorem latch_of_idle {s : State} (idle : s.monitor.run ≠ .running) :
    s.latch = s.setMonitor { s.monitor with inForce := s.monitor.staged } :=
  if_neg fun both => idle both.1

theorem tick_of_idle {s : State} (idle : s.monitor.run ≠ .running) (joined : Nat) : s.tick joined =
    { s with monitor := { s.monitor with inForce := s.monitor.staged }, console := s.console.ticked } := by
  rw [State.tick, if_neg idle, latch_of_idle idle, blinkTick_eq]
  rfl

theorem tick_leaves (s : State) (g : TickGen) (joined : Nat) : TickLeaves s g ((s.setGen g).tick joined) := by
  by_cases run : s.monitor.run = .running
  · rw [show joined = joinedOf (.refEdge ⟨0, joined⟩) from rfl, tick_of_running run]
    obtain ⟨gen, -, -, monitor, console⟩ := selected_frame s g (.refEdge ⟨0, joined⟩)
    have serve := selected_serve g (.refEdge ⟨0, joined⟩) run
    generalize s.selected g (.refEdge ⟨0, joined⟩) = u at gen monitor console serve ⊢
    exact ⟨by simp [gen], ⟨by simp [monitor], by simp [console, Console.ticked], fun _ => by simp [serve],
      fun idle => absurd run idle⟩, fun idle => absurd run idle⟩
  · rw [tick_of_idle (s := s.setGen g) run]
    exact ⟨rfl, ⟨rfl, rfl, fun running => absurd running run, fun _ => rfl⟩, fun _ => rfl⟩

/-! ### The generator's own events (R74, R76) -/

theorem ownMoment_zero (s : State) : s.ownMoment 0 = s.dueMoment := by
  rw [State.ownMoment, max_eq_left (Nat.zero_le _), ite_self]

theorem ownMoment_of_current {s : State} (current : s.gen.restated = false) (n : Nat) : s.ownMoment n = s.dueMoment :=
  if_neg (by simp [current])

theorem ownEvent_of_not_lost {s : State} (mode : s.gen.mode ≠ .lost) (t : Nat) : s.ownEvent t = s.loseRef t 0 := by
  rw [State.ownEvent]
  cases m : s.gen.mode with
  | lost => exact absurd m mode
  | await => rfl
  | locked => rfl

theorem ownEvent_of_lost {s : State} (mode : s.gen.mode = .lost) (t : Nat) : s.ownEvent t = s.generateTick t 0 := by
  rw [State.ownEvent, mode]

theorem exec_refLost {s : State} (ready : s.link.ready = true) (mode : s.gen.mode ≠ .lost) (m : Moment) :
    exec (.refLost m) s = .next (s.loseRef (s.ownMoment m.count) m.joined) := if_pos ⟨ready, mode⟩

theorem exec_generatedTick {s : State} (ready : s.link.ready = true) (mode : s.gen.mode = .lost) (m : Moment) :
    exec (.generatedTick m) s = .next (s.generateTick (s.ownMoment m.count) m.joined) := if_pos ⟨ready, mode⟩

/-- What the loss of REF reports before its tick (R76). -/
def State.lossReported (s : State) : State :=
  (s.report .refLost none none).logEdit
    { kind := .refLost, first := none, last := none, count := none, hold := none, cause := .device }

theorem loseRef_leaves (s : State) (t joined : Nat) : TickLeaves s.lossReported
    { mode := .lost, reference := t, generated := 1, osc := t, restated := false } (s.loseRef t joined) :=
  tick_leaves s.lossReported _ joined

theorem generateTick_leaves (s : State) (t joined : Nat) : TickLeaves s
    { mode := .lost, reference := t, generated := addSat32 s.gen.generated 1, osc := t, restated := false }
    (s.generateTick t joined) :=
  tick_leaves s _ joined

/-- An own event at count `t` leaves the mode LOST with its reference there, and the period and the link alone. -/
theorem ownEvent_gen (s : State) (t : Nat) : (s.ownEvent t).gen.mode = .lost ∧ (s.ownEvent t).gen.reference = t ∧
    (s.ownEvent t).gen.osc = t ∧ (s.ownEvent t).period = s.period ∧ (s.ownEvent t).link = s.link := by
  by_cases mode : s.gen.mode = .lost
  · obtain ⟨gen, ⟨monitor, -⟩, -⟩ := generateTick_leaves s t 0
    rw [ownEvent_of_lost mode, gen, State.period, monitor]
    exact ⟨rfl, rfl, rfl, rfl, State.tick_link _ _⟩
  · obtain ⟨gen, ⟨monitor, -⟩, -⟩ := loseRef_leaves s t 0
    rw [ownEvent_of_not_lost mode, gen, State.period, monitor]
    exact ⟨rfl, rfl, rfl, rfl, State.tick_link _ _⟩

theorem one_lt_period (s : State) : 1 < s.period := by
  rw [State.period]
  cases s.monitor.rateCode <;> decide

theorem State.period_pos (s : State) : 0 < s.period := zero_lt_one.trans (one_lt_period s)

/-! ### What falls due before an edge (R76) -/

/-- Fuel beyond the own events that fall due before the count changes nothing. -/
theorem catchUp_of_enough {t fuel : Nat} {s : State} (mode : s.gen.mode = .lost) (current : s.gen.osc = s.gen.reference)
    (enough : t ≤ s.gen.reference + (fuel + 1) * s.period) (more : Nat) :
    s.catchUp t (fuel + more) = s.catchUp t fuel := by
  have due : s.dueMoment = s.gen.reference + s.period := by
    rw [dueMoment_of_lost mode, current, max_eq_right (Nat.le_add_right _ _)]
  induction fuel generalizing s with
  | zero => rw [catchUp_of_due (by omega), catchUp_of_due (by omega)]
  | succ fuel ih =>
    by_cases passed : s.dueMoment < t
    · obtain ⟨mode', reference, osc, period, -⟩ := ownEvent_gen s s.dueMoment
      rw [Nat.succ_add, State.catchUp, State.catchUp, if_pos passed, if_pos passed]
      refine ih mode' (osc.trans reference.symm) ?_ ?_
      · rw [reference, period, due]
        linarith
      · rw [dueMoment_of_lost mode', osc, reference, max_eq_right (Nat.le_add_right _ _)]
    · rw [catchUp_of_due (by omega), catchUp_of_due (by omega)]

/-- An edge after the moment the generator's own event falls due comes after that event. -/
theorem refEdgeAt_of_overdue {s : State} {n : Nat} (late : s.gen.osc ≤ n) (overdue : s.dueMoment < n)
    (span : s.gen.reference + s.period ≤ s.dueMoment) (joined : Nat) :
    s.refEdgeAt n joined = (s.ownEvent s.dueMoment).refEdgeAt n joined := by
  obtain ⟨mode, reference, osc, period, -⟩ := ownEvent_gen s s.dueMoment
  have fuel : ∃ more, (n - s.gen.reference) / s.period = (s.ownEvent s.dueMoment).catchUpFuel n + more := by
    refine Nat.exists_eq_add_of_le ?_
    rw [State.catchUpFuel, reference, period, ← Nat.add_div_right _ s.period_pos]
    exact Nat.div_le_div_right (by omega)
  obtain ⟨more, fuel⟩ := fuel
  have enough : n ≤ s.dueMoment + ((s.ownEvent s.dueMoment).catchUpFuel n + 1) * s.period := by
    have round := Nat.lt_div_mul_add (a := n - s.dueMoment) s.period_pos
    rw [State.catchUpFuel, reference, period, Nat.add_mul, Nat.add_mul, one_mul]
    omega
  rw [State.refEdgeAt, State.refEdgeAt, max_eq_right late, osc, max_eq_right overdue.le,
    show s.catchUpFuel n = (n - s.gen.reference) / s.period + 1 from rfl, State.catchUp, if_pos overdue, fuel,
    catchUp_of_enough mode (osc.trans reference.symm) (by rw [reference, period]; exact enough) more]

theorem exec_refEdge_overdue {s : State} {n : Nat} (ready : s.link.ready = true) (late : s.gen.osc ≤ n)
    (overdue : s.dueMoment < n) (span : s.gen.reference + s.period ≤ s.dueMoment) (joined : Nat) :
    exec (.refEdge ⟨n, joined⟩) s = exec (.refEdge ⟨n, joined⟩) (s.ownEvent s.dueMoment) := by
  obtain ⟨-, -, -, -, link⟩ := ownEvent_gen s s.dueMoment
  rw [exec_refEdge ready, exec_refEdge (by rw [link]; exact ready), refEdgeAt_of_overdue late overdue span]

/-! ### The obligations -/

/-- Settles O39: the edge by the mode, at its boundaries, and after what fell due. -/
theorem refEdgeByMode : Obligations.RefEdgeByMode := by
  refine ⟨fun s => ?_, fun n k s ready late => ?_⟩
  · rw [State.period]
    cases s.monitor.rateCode <;> rfl
  intro half locked returned
  have edge : ∀ due : n ≤ s.dueMoment, exec (.refEdge ⟨n, k⟩) s = .next (s.takeEdge n k) := fun due => by
    rw [exec_refEdge ready, refEdgeAt_of_due late due]
  have glitch : n < s.gen.reference + half → n - s.gen.reference < s.halfPeriod := fun near => by
    have period := one_lt_period s
    unfold State.halfPeriod
    omega
  have onTime : s.gen.reference + half ≤ n → ¬ n - s.gen.reference < s.halfPeriod := fun far => by
    unfold State.halfPeriod
    omega
  have untilLoss : s.gen.mode ≠ .lost → n ≤ s.gen.reference + 3 * s.period / 2 → n ≤ s.dueMoment := fun mode due => by
    rw [dueMoment_of_not_lost mode]
    omega
  have untilTick : s.gen.mode = .lost → n ≤ s.gen.reference + s.period → n ≤ s.dueMoment := fun mode due => by
    rw [dueMoment_of_lost mode]
    omega
  refine ⟨fun mode due => ?_, fun mode near => ?_, fun mode far due => ?_, fun mode near => ?_, fun mode far due => ?_,
    fun mode overdue => ?_, fun mode overdue => ?_⟩
  · refine ⟨_, (edge (untilLoss (by simp [mode]) due)).trans (by rw [takeEdge_of_await mode]), ?_⟩
    exact tick_leaves s _ k
  · rw [edge (untilLoss (by simp [mode]) (by omega)), takeEdge_of_locked mode, State.edgeLocked, if_pos (glitch near)]
    rfl
  · refine ⟨_, (edge (untilLoss (by simp [mode]) due)).trans (by
      rw [takeEdge_of_locked mode, State.edgeLocked, if_neg (onTime far)]), ?_⟩
    exact tick_leaves s _ k
  · rw [edge (untilTick mode (by omega)), takeEdge_of_lost mode, State.edgeReturns, if_pos (glitch near)]
    rfl
  · refine ⟨_, (edge (untilTick mode due)).trans (by
      rw [takeEdge_of_lost mode, State.edgeReturns, if_neg (onTime far)]), ?_⟩
    exact tick_leaves returned _ k
  · rw [← dueMoment_of_not_lost mode] at overdue
    refine ⟨_, exec_refLost ready mode _, ?_⟩
    rw [ownMoment_zero, ← ownEvent_of_not_lost mode]
    refine exec_refEdge_overdue ready late overdue ?_ k
    rw [dueMoment_of_not_lost mode]
    omega
  · rw [← dueMoment_of_lost mode] at overdue
    refine ⟨_, exec_generatedTick ready mode _, ?_⟩
    rw [ownMoment_zero, ← ownEvent_of_lost mode]
    refine exec_refEdge_overdue ready late overdue ?_ k
    rw [dueMoment_of_lost mode]
    omega

/-- Settles O40: both own events at their due moment, and the wrap of the blink count. -/
theorem lossGeneratedTicksAndBlink : Obligations.LossGeneratedTicksAndBlink := by
  refine ⟨fun m s ready mode current => ?_, fun m s ready mode current => ?_, fun m s mode => ?_, fun m s mode => ?_,
    fun s ready wrap => ?_, fun s below => ?_⟩
  · refine ⟨_, exec_refLost ready mode m, ?_⟩
    obtain ⟨gen, ticked, idle⟩ := loseRef_leaves s (s.ownMoment m.count) m.joined
    have ticks : RunEvents s.lossReported (s.loseRef (s.ownMoment m.count) m.joined) :=
      (RunEvent.gen _ _).events.trans (State.tick_events _ m.joined)
    rw [ownMoment_of_current current, dueMoment_of_not_lost mode] at gen ticked idle ticks ⊢
    refine ⟨gen, ticked, ticks.flag (i := 8) ?_, fun empty => ticks.first ?_, idle⟩
    · exact (report_flag s .refLost none none 8).trans (Bool.or_true _)
    · exact report_first_of_none empty .refLost none none
  · refine ⟨_, exec_generatedTick ready mode m, ?_⟩
    rw [ownMoment_of_current current, dueMoment_of_lost mode]
    exact generateTick_leaves s _ m.joined
  · exact if_neg fun both => both.2 mode
  · exact if_neg fun both => mode both.2
  · exact if_pos (by simp [ready, wrap])
  · exact if_neg (by simp [below])

end Sys2Proof.Machine
end

