-- ==== Sys2Proof/Proofs/HandOperations.lean ====
section
/-! The dump and hold operations with another cause than COMMAND: the stall policy (R126) and the console presses (R131
to R135). Each does to the state what the command of that name does; only its records differ. -/

namespace Sys2Proof.Machine

open Sys2Proof Sys2Proof.Safety

/-! ### The operations on a state whose console and readout differ -/

/-- A state with another console and another readout. -/
def State.aside (s : State) (c : Console) (r : Readout) : State := { s with console := c, readout := r }

theorem removeHoldRun_aside (s : State) (c : Console) (r : Readout) (h : Byte) :
    (s.aside c r).removeHoldRun h = (s.removeHoldRun h).aside c r := by
  unfold State.removeHoldRun State.depthReport
  rw [show (s.aside c r).holdRun h = s.holdRun h from rfl]
  split
  next => rfl
  next =>
    rw [apply_ite (State.aside · c r)]
    rfl

theorem removeNewest_aside (s : State) (c : Console) (r : Readout) (k : Nat) :
    (s.aside c r).removeNewest k = (s.removeNewest k).aside c r := by
  unfold State.removeNewest State.depthReport
  rw [show (s.aside c r).newestRun k = s.newestRun k from rfl]
  split
  next => rfl
  next =>
    rw [apply_ite (State.aside · c r)]
    rfl

theorem discardIf_aside (s : State) (c : Console) (r : Readout) (d : Bool) :
    (s.aside c r).discardIf d = (s.discardIf d).aside c r := by
  rw [discardIf_eq (s := s) (u := s.aside c r) rfl rfl, discardIf_eq (s := s) (u := s) rfl rfl]
  rfl

/-- What a release of hold `r` writes into the edit log (R123). -/
def releasedEntry (s : State) (r : HoldRecord) (cause : Cause) : LogEntry :=
  { kind := .holdReleased, first := (s.holdRun r.id).head?.map (·.seq), last := (s.holdRun r.id).getLast?.map (·.seq),
    count := some (BitVec.ofNat 32 r.unaired), hold := some r.id, cause := cause }

/-- What a dump of hold `r` writes into the edit log (R124). -/
def dumpedEntry (s : State) (r : HoldRecord) (cause : Cause) : LogEntry :=
  { kind := .holdDumped, first := (s.holdRun r.id).head?.map (·.seq), last := (s.holdRun r.id).getLast?.map (·.seq),
    count := some (BitVec.ofNat 32 (s.holdRun r.id).length), hold := some r.id, cause := cause }

/-- A release differs by its cause in its record alone. -/
theorem releaseHold_aside (s : State) (c : Console) (rd : Readout) (r : HoldRecord) (cause : Cause) :
    (s.aside c rd).releaseHold r cause =
      (s.releaseHold r .command).aside c ((s.aside c rd).logEdit (releasedEntry s r cause)).readout := by
  rw [releaseHold_eq, releaseHold_eq, releasedEntry, holdRun_eq]
  rfl

/-- A dump of a hold differs by its cause in its record alone. -/
theorem dumpHold_aside (s : State) (c : Console) (rd : Readout) (r : HoldRecord) (cause : Cause) :
    (s.aside c rd).dumpHold r cause =
      (s.dumpHold r .command).aside c ((s.aside c rd).logEdit (dumpedEntry s r cause)).readout := by
  rw [dumpHold_eq, dumpHold_eq, removeHoldRun_aside, discardIf_aside, dumpedEntry, holdRun_eq]
  rfl

/-- A dump of the newest frames with no hold in the table differs by its cause in its record alone. -/
theorem dumpNewest_aside {s : State} (unheld : s.holds.table = []) (c : Console) (rd : Readout) (cause : Cause) :
    (s.aside c rd).dumpNewest cause = (s.dumpNewest .command).aside c
      ((s.aside c rd).logEdit (dumpEntry (s.newestRun s.dumpCount) cause)).readout := by
  have count : (s.aside c rd).dumpCount = s.dumpCount := rfl
  rw [State.dumpNewest, State.dumpNewest, count, removeNewest_aside, discardIf_aside,
    accountRemoval_eq (s := s.aside c rd) (u := ((s.removeNewest s.dumpCount).discardIf true).aside c rd)
      (by simp [State.aside]) rfl (by simp [State.aside]),
    accountRemoval_eq (s := s) (by simp) (by simp) (by simp)]
  rw [show (s.aside c rd).holds = s.holds from rfl, unheld]
  rfl

/-- The closing of a hold differs by its cause in its record alone. -/
theorem closeHold_aside (s : State) (c : Console) (rd : Readout) (r : HoldRecord) (cause : Cause) :
    (s.aside c rd).closeHold r cause = (s.closeHold r .command).aside c
      (if r.unaired = 0 then ((s.aside c rd).logEdit
        { kind := .holdEmpty, first := none, last := none, count := none, hold := some r.id, cause := cause }).readout
       else rd) := by
  by_cases zero : r.unaired = 0
  · rw [closeHold_of_none zero, closeHold_of_none zero, if_pos zero]
    rfl
  · rw [closeHold_of_some zero, closeHold_of_some zero, if_neg zero]
    rfl

/-! ### The stall policy (R126) -/

theorem expiredHold_of_some {s : State} {e : Entry} {rest : List Entry} {r : HoldRecord}
    (entries : s.queue.entries = e :: rest) (held : e.hold = some r.id) (stalled : s.air.stalledHold = some r.id)
    (limit : s.monitor.inForce.stallLimit ≤ s.air.stallCount)
    (named : s.holds.table.find? (fun h => decide (h.id = r.id)) = some r) : s.expiredHold = some r := by
  rw [State.expiredHold, entries, stalled]
  exact (if_pos ⟨held, limit⟩).trans ((findHold_eq s r.id).trans named)

theorem expiredHold_of_empty {s : State} (empty : s.queue.entries = []) : s.expiredHold = none := by
  rw [State.expiredHold, empty]

/-- The report and the record of STALL_EXPIRED (R126). -/
def State.stallReported (s : State) (r : HoldRecord) : State :=
  (s.report .stallExpired ((s.holdRun r.id).head?.map (·.seq)) none).logEdit (stallEntry r s.air.stallCount)

theorem stallReported_eq (s : State) (r : HoldRecord) :
    s.stallReported r = s.aside s.console (s.stallReported r).readout := rfl

/-- Settles O46: the policy's operation is the command's, on the state that has reported the expiry. -/
theorem stallExpiredDecides : Obligations.StallExpiredDecides := by
  refine ⟨fun s e rest r running entries held stalled nonzero limit named => ?_, fun s other => ?_⟩
  · intro run expired
    have ran : exec .stallExpired s = .next (s.expireStall r) := by
      rw [exec_stallExpired running.1.1 running.2, State.stallPolicyStep,
        expiredHold_of_some entries held stalled limit named]
    have run_eq : s.holdRun r.id = run := holdRun_eq s r.id
    have head : (s.holdRun r.id).head?.map (·.seq) = some e.seq := by
      simp [holdRun_eq, entries, held]
    have reported : s.stallReported r = expired := by
      rw [State.stallReported, head]
      rfl
    refine ⟨fun policy => ⟨_, ran, _, exec_release running ((if_neg nonzero).trans ((findHold_eq s r.id).trans named)) 0, ?_⟩,
      fun policy => ⟨_, ran, _, exec_dumpHold running nonzero named 0, ?_⟩⟩
    · have expire : s.expireStall r = (s.stallReported r).releaseHold r .policy := by
        rw [State.expireStall, policy]
        rfl
      rw [expire, stallReported_eq, releaseHold_aside, ← stallReported_eq, reported, releasedEntry, run_eq]
      exact State.eq_of_fields rfl rfl rfl rfl rfl rfl rfl rfl rfl rfl rfl rfl rfl (by simp [State.aside])
        (by simp [State.aside]) rfl rfl
    · have expire : s.expireStall r = (s.stallReported r).dumpHold r .policy := by
        rw [State.expireStall, policy]
        rfl
      rw [expire, stallReported_eq, dumpHold_aside, ← stallReported_eq, reported, dumpedEntry, run_eq]
      exact State.eq_of_fields rfl rfl rfl rfl rfl rfl rfl rfl rfl rfl rfl rfl rfl (by simp [State.aside])
        (by simp [State.aside]) rfl rfl
  · have idle : exec .stallExpired s = if s.inRun then .next s.stallPolicyStep else .next s := rfl
    rcases other with stopped | short | empty
    · exact if_neg (by simp [State.inRun, stopped])
    · rw [idle, stallPolicyStep_of_none (expiredHold_of_short short), ite_self]
    · rw [idle, stallPolicyStep_of_none (expiredHold_of_empty empty), ite_self]

end Sys2Proof.Machine
end

