-- ==== Sys2Proof/Proofs/ConsoleLines.lean ====
section
/-! The operator console lines (R130 to R135): presses and samples. -/

namespace Sys2Proof.Machine

open Sys2Proof Sys2Proof.Safety

/-! ### Presses (R131 to R135) -/

theorem exec_pressRow (line : ConsoleLine) (s : State) : exec (pressRow line) s = .next (s.press line) := by
  cases line <;> rfl

/-- A press on an armed line, the line then being disarmed (R131, R132). -/
theorem exec_pressRow_of_armed {line : ConsoleLine} {s : State} (ready : s.link.ready = true)
    (armed : (s.console.sampler line).armed = true) : exec (pressRow line) s =
      .next ((s.aside (s.console.setSampler line (s.console.sampler line).disarmed) s.readout).handPress line) := by
  rw [exec_pressRow, State.press, if_pos (by rw [ready, armed]; rfl)]
  rfl

theorem handPress_of_running {s : State} (run : s.monitor.run = .running) :
    s.handPress .dump = s.pressDump ∧ s.handPress .hold = s.pressHold ∧ s.handPress .release = s.pressRelease :=
  ⟨if_pos run, if_pos run, if_pos run⟩

theorem pressDump_of_hold {s : State} {r : HoldRecord} {rest : List HoldRecord} (table : s.holds.table = r :: rest) :
    s.pressDump = s.dumpHold r .console := by
  rw [State.pressDump, table]

theorem pressDump_of_short {s : State} (table : s.holds.table = [])
    (short : s.queue.entries.length ≤ s.monitor.inForce.dumpFloor) : s.pressDump = s := by
  rw [State.pressDump, table]
  exact if_pos ((removable_eq_zero s).2 short)

theorem pressDump_of_removable {s : State} (table : s.holds.table = [])
    (floor : s.monitor.inForce.dumpFloor < s.queue.entries.length) : s.pressDump = s.dumpNewest .console := by
  rw [State.pressDump, table]
  exact if_neg (mt (removable_eq_zero s).1 floor.not_ge)

theorem pressHold_of_open {s : State} {r : HoldRecord} (opened : s.openHold = some r) :
    s.pressHold = s.closeHold r .console := by
  rw [State.pressHold, opened]

theorem pressHold_of_none {s : State} (noneOpen : s.openHold = none) :
    s.pressHold = if 4 ≤ s.holds.table.length then s else s.openNewHold := by
  rw [State.pressHold, noneOpen]

theorem pressRelease_of_hold {s : State} {r : HoldRecord} {rest : List HoldRecord} (table : s.holds.table = r :: rest) :
    s.pressRelease = s.releaseHold r .console := by
  rw [State.pressRelease, table]

theorem pressRelease_of_none {s : State} (table : s.holds.table = []) : s.pressRelease = s := by
  rw [State.pressRelease, table]

/-- HOLD_OPEN and HOLD_CLOSE in RUNNING, as a press takes them. -/
theorem exec_holdOpen {s : State} (running : Running s) (noneOpen : ∀ h ∈ s.holds.table, h.state ≠ .opened) (num : Byte) :
    ∃ result, exec (.holdOpen num) s = .next { s.pressHold with monitor := entered s.monitor num 0x07 result } := by
  have noOpen := State.openHold_eq_none noneOpen
  rw [pressHold_of_none noOpen]
  by_cases full : 4 ≤ s.holds.table.length
  · have refused : s.cmdHoldOpen = (s, .refusedBusy) := by
      rw [State.cmdHoldOpen, noOpen, Option.isSome_none, if_neg Bool.false_ne_true, if_pos full]
    rw [if_pos full]
    exact ⟨_, exec_hold (c := .holdOpen) running (.inr (.inl rfl)) (by rw [State.carryOut, refused]) num⟩
  · rw [if_neg full]
    exact ⟨_, exec_holdOpen_opens running noneOpen (not_le.1 full) num⟩

theorem exec_holdClose {s : State} {r : HoldRecord} (running : Running s) (opened : s.openHold = some r) (num : Byte) :
    exec (.holdClose num) s = .next { s.closeHold r .command with
      monitor := entered s.monitor num 0x08 .accepted } := by
  have closed : s.cmdHoldClose = (s.closeHold r .command, .accepted) := by rw [State.cmdHoldClose, opened]
  have ran := exec_hold (c := .holdClose) running (.inr (.inr (.inl rfl))) (by rw [State.carryOut, closed]) num
  rw [State.closeHold_monitor] at ran
  exact ran

/-- A press of HOLD on a state aside. -/
theorem pressHold_aside {s : State} (noneOpen : s.openHold = none) (c : Console) (r : Readout) :
    (s.aside c r).pressHold = s.pressHold.aside c r := by
  rw [pressHold_of_none noneOpen, pressHold_of_none (s := s.aside c r) noneOpen, apply_ite (State.aside · c r)]
  rfl

/-- Settles O47: each press is the command's operation on the state with the line disarmed. -/
theorem consolePresses : Obligations.ConsolePresses := by
  refine ⟨fun line s other => ?_, fun line s ready armed => ?_⟩
  · rw [exec_pressRow, State.press, if_neg]
    rcases other with down | disarmed
    · simp [down]
    · simp [disarmed]
  intro down quiet
  have pressed := exec_pressRow_of_armed ready armed
  refine ⟨fun idle => pressed.trans (congrArg Host.Outcome.next (if_neg idle)), fun run live => ?_⟩
  have running : Running s := ⟨⟨ready, live⟩, run⟩
  obtain ⟨dump, hold, release⟩ :=
    handPress_of_running (s := s.aside (s.console.setSampler line (s.console.sampler line).disarmed) s.readout) run
  refine ⟨?_, ?_, ?_, ?_, ?_, ?_, ?_⟩
  · rintro rfl table short
    rw [pressed, dump, pressDump_of_short (by exact table) (by exact short)]
    rfl
  · rintro rfl table floor gone
    rw [dump, pressDump_of_removable (by exact table) (by exact floor), dumpNewest_aside table] at pressed
    refine ⟨_, pressed, _, exec_dump running floor 0, ?_⟩
    exact State.eq_of_fields rfl rfl rfl rfl rfl rfl rfl rfl rfl rfl rfl rfl rfl rfl (by simp [State.aside]) rfl rfl
  · rintro r rest rfl table nonzero mine
    have named : s.holds.table.find? (fun h => decide (h.id = r.id)) = some r := by
      rw [table]
      exact List.find?_cons_of_pos (decide_eq_true rfl)
    rw [dump, pressDump_of_hold (by exact table), dumpHold_aside, dumpedEntry, holdRun_eq] at pressed
    refine ⟨_, pressed, _, exec_dumpHold running nonzero named 0, ?_⟩
    exact State.eq_of_fields rfl rfl rfl rfl rfl rfl rfl rfl rfl rfl rfl rfl rfl rfl (by simp [State.aside]) rfl rfl
  · rintro rfl noneOpen
    obtain ⟨result, ran⟩ := exec_holdOpen running noneOpen 0
    have noOpen := State.openHold_eq_none noneOpen
    have kept : s.pressHold.monitor = s.monitor ∧ s.pressHold.readout = s.readout := by
      rw [pressHold_of_none noOpen]
      split <;> exact ⟨rfl, rfl⟩
    obtain ⟨monitor, readout⟩ := kept
    rw [hold, pressHold_aside noOpen] at pressed
    refine ⟨_, pressed, _, ran, ?_⟩
    exact State.eq_of_fields rfl rfl rfl rfl rfl rfl rfl rfl rfl rfl rfl rfl rfl rfl monitor readout.symm rfl
  · rintro r rfl opened
    rw [hold, pressHold_of_open (r := r) (by exact opened), closeHold_aside] at pressed
    refine ⟨_, pressed, _, exec_holdClose running opened 0, ?_⟩
    exact State.eq_of_fields rfl rfl rfl rfl rfl rfl rfl rfl rfl rfl rfl rfl rfl rfl (by simp [State.aside]) rfl rfl
  · rintro r rest rfl table mine
    have named : (if (0 : Byte) = 0 then s.holds.table.head? else s.findHold 0) = some r := by
      rw [if_pos rfl, table]
      rfl
    rw [release, pressRelease_of_hold (by exact table), releaseHold_aside, releasedEntry, holdRun_eq] at pressed
    refine ⟨_, pressed, _, exec_release running named 0, ?_⟩
    exact State.eq_of_fields rfl rfl rfl rfl rfl rfl rfl rfl rfl rfl rfl rfl rfl rfl (by simp [State.aside]) rfl rfl
  · rintro rfl table
    rw [pressed, release, pressRelease_of_none (by exact table)]
    rfl

/-! ### Samples (R130, R131) -/

theorem sampleActive_eq (s : State) (high : Bool) : s.sampleActive high = if s.straps.pol = 0 then !high else high := by
  have level : s.straps.pol = 0 ∨ s.straps.pol = 1 := by
    generalize s.straps.pol = pol
    revert pol
    decide
  rcases level with low | high' <;> simp [State.sampleActive, *]

theorem exec_consoleSample {s : State} (ready : s.link.ready = true) (line : ConsoleLine) (high : Bool) :
    exec (.consoleSample line high) s = .next (s.sample line (s.sampleActive high)) := if_pos ready

/-- A sample that recognises no press (R130, R131). -/
theorem sample_of_unpressed {s : State} {line : ConsoleLine} {active : Bool}
    (unpressed : (s.console.sampler line).pressed active = false) : s.sample line active =
      { s with console := s.console.setSampler line ((s.console.sampler line).sampled active) } := by
  rw [State.sample, if_neg (by rw [unpressed]; nofun)]
  rfl

theorem setSampler_setSampler (c : Console) (line : ConsoleLine) (p q : LineSampler) :
    (c.setSampler line p).setSampler line q = c.setSampler line q := by
  cases line <;> rfl

theorem sampler_setSampler (c : Console) (line : ConsoleLine) (p : LineSampler) : (c.setSampler line p).sampler line = p := by
  cases line <;> rfl

/-- Settles O48: the sample's shift, its arming, and its press as the press row takes it. -/
theorem consoleSampleTaken : Obligations.ConsoleSampleTaken := by
  refine ⟨fun c p => ⟨rfl, rfl, rfl, rfl, rfl, rfl⟩, fun line high s down => if_neg (by simp [down]),
    fun line high s ready => ?_⟩
  intro p active run next shifted two
  have shift : ∀ armed, next armed = { p.shift active with armed := armed } := fun armed => rfl
  have pressed : p.pressed active = (p.armed && two) := rfl
  have sampled : exec (.consoleSample line high) s = .next (s.sample line active) := by
    rw [exec_consoleSample ready, sampleActive_eq]
  refine ⟨fun disarmed => ?_, fun armed quiet => ?_, fun armed press on => ?_⟩
  · have next_eq : p.sampled active = next (decide (run = 20)) := by
      rw [LineSampler.sampled, disarmed, shift]
      rfl
    rw [sampled, sample_of_unpressed (by rw [pressed, disarmed]; rfl), next_eq]
  · have next_eq : p.sampled active = next true := by
      have two_eq : (p.shift active).twoActive = false := quiet
      rw [LineSampler.sampled, armed, shift, two_eq]
      rfl
    rw [sampled, sample_of_unpressed (by rw [pressed, armed, quiet]; rfl), next_eq]
  · have next_eq : p.sampled active = (next true).disarmed := by
      have two_eq : (p.shift active).twoActive = true := press
      have run_eq : run = 0 := if_pos on
      rw [LineSampler.sampled, armed, two_eq, LineSampler.disarmed, shift]
      exact congrArg (fun n => ({ p.shift active with armed := false, inactiveRun := n } : LineSampler)) run_eq
    have armed' : ((shifted true).console.sampler line).armed = true := by
      rw [sampler_setSampler]
    rw [sampled, exec_pressRow_of_armed (by exact ready) armed', State.sample, if_pos (by rw [pressed, armed, press]; rfl),
      sampler_setSampler, next_eq]
    change _ = Host.Outcome.next (({ s with console :=
      (s.console.setSampler line (next true)).setSampler line (next true).disarmed } : State).handPress line)
    rw [setSampler_setSampler]
    rfl

end Sys2Proof.Machine
end
